-- ==== Sys2Proof/Word.lean ====
section
/-! DEFINITION. The word and byte types. -/

namespace Sys2Proof

/-- A 32-bit word: every register access, header and operand word is one (20_memory R82, R83). -/
abbrev Word := BitVec 32

/-- A byte of a word laid out in bytes (20_memory R82). -/
abbrev Byte := BitVec 8

end Sys2Proof
end

