-- ==== Sys2Proof/Syntax.lean ====
section
/-! DEFINITION. The command as it is presented (30_encoding R110), the enumerations of 30_encoding R115 and R116,
and the 32 operations (00_scope R4, 30_encoding R120), one constructor each. -/

namespace Sys2Proof

/-- A command: four 32-bit words presented together, the header and `x[0]`, `x[1]`, `x[2]` (30_encoding R110). -/
structure Command where
  h  : Word
  x0 : Word
  x1 : Word
  x2 : Word
  deriving DecidableEq, Repr, Inhabited

/-- The nine modes of a pin (10_state R22), in the order of 30_encoding R115. -/
inductive Mode where
  | output | input | inputPulldown | inputPullup | uart | pwm | i2c | spi | off
  deriving DecidableEq, Repr, Inhabited

/-- The status of a response (30_encoding R116, 60_exceptions R310). -/
inductive Status where
  | ok | badParameter | unexpectedValue | notInitialised | timeout | duplicateValue
  deriving DecidableEq, Repr, Inhabited

/-- The 32 operations. `pin`, `slice`, `ch` and `mode`, `level`, `chan`, `enable` are the raw header fields `T` and `A`;
their range is checked when the command is carried out (30_encoding R113), not when it is decoded (R112). `strict` is
the header's `S` bit (R114). A field an operation does not use is not kept (R110). -/
inductive Instr where
  /-- 30_encoding R121 -/
  | nop
  /-- 45_register_primitives R400 -/
  | regGet (addr : Word)
  /-- 45_register_primitives R401 -/
  | regSet (addr mask : Word)
  /-- 45_register_primitives R402 -/
  | regClr (addr mask : Word)
  /-- 45_register_primitives R403 -/
  | regReplace (addr mask value : Word)
  /-- 41_gpio_arbiter R142 -/
  | init (pin : Byte)
  /-- 41_gpio_arbiter R150 -/
  | setMode (pin mode : Byte)
  /-- 41_gpio_arbiter R154 -/
  | deinit (strict : Bool) (pin : Byte)
  /-- 41_gpio_arbiter R156 -/
  | mode (strict : Bool) (pin : Byte)
  /-- 41_gpio_arbiter R158 -/
  | get (strict : Bool) (pin : Byte)
  /-- 41_gpio_arbiter R160 -/
  | set (strict : Bool) (pin level : Byte)
  /-- 41_gpio_arbiter R164 -/
  | pwm (pin : Byte)
  /-- 41_gpio_arbiter R168 -/
  | adc (pin : Byte)
  /-- 42_pwm_engine R196 -/
  | pwmGet (slice chan : Byte)
  /-- 42_pwm_engine R198 -/
  | pwmSet (slice chan : Byte) (level : Word)
  /-- 42_pwm_engine R200 -/
  | counter (slice : Byte)
  /-- 42_pwm_engine R202 -/
  | setCounter (slice : Byte) (value : Word)
  /-- 42_pwm_engine R206 -/
  | inc (slice : Byte)
  /-- 42_pwm_engine R208 -/
  | dec (slice : Byte)
  /-- 42_pwm_engine R210 -/
  | setWrap (slice : Byte) (wrap : Word)
  /-- 42_pwm_engine R212 -/
  | wrap (slice : Byte)
  /-- 42_pwm_engine R214 -/
  | setEnabled (slice enable : Byte)
  /-- 42_pwm_engine R228 -/
  | pwmSetInterrupt (slice : Byte) (handler : Word)
  /-- 42_pwm_engine R220 -/
  | setPeriod (slice : Byte) (period : Word)
  /-- 43_adc_sequencer R242 -/
  | adcInit
  /-- 43_adc_sequencer R256 -/
  | adcTemp
  /-- 43_adc_sequencer R252 -/
  | adcGet (ch : Byte)
  /-- 43_adc_sequencer R258 -/
  | getVoltage (ch : Byte) (vref : Word)
  /-- 43_adc_sequencer R262 -/
  | getTemperature (ch : Byte)
  /-- 44_irq_router R280, R284 -/
  | setInterrupt (pin : Byte) (handler : Word)
  /-- 44_irq_router R294 -/
  | cbReturn
  /-- 44_irq_router R296 -/
  | cbFault
  deriving DecidableEq, Repr, Inhabited

end Sys2Proof
end

