-- ==== Sys2Proof/Config.lean ====
section
/-! DEFINITION. What a run fixes or draws from outside: register names, the environment's inputs and turns, the open
parameters of 00_scope R15, and the free values (opaque constants, so that nothing can be proved of them). -/

namespace Sys2Proof

/-- One of the two cores (00_scope R10). -/
abbrev CoreId := Fin 2
/-- One of the 30 pins (00_scope R9). -/
abbrev Pin := Fin 30
/-- One of the 8 PWM slices (00_scope R10). -/
abbrev SliceId := Fin 8
/-- One of the four registers of an interrupt bank (00_scope R14). -/
abbrev BankReg := Fin 4
/-- One of the five ADC channels, channel 4 the temperature sensor (00_scope R10, 10_state R51). -/
abbrev AdcCh := Fin 5

/-- The registers of the register space a primitive can reach (20_memory R100, 45_register_primitives R405). `NVIC_EN`,
`IO_STATUS` and the write aliases are not among them. -/
inductive Reg where
  | ioCtrl (p : Pin) | ioIntr (b : BankReg)
  | ioInte (c : CoreId) (b : BankReg) | ioIntf (c : CoreId) (b : BankReg) | ioInts (c : CoreId) (b : BankReg)
  | pad (p : Pin) | sioIn | sioOut | sioOe
  | pwmCsr (s : SliceId) | pwmDiv (s : SliceId) | pwmCtr (s : SliceId) | pwmCc (s : SliceId) | pwmTop (s : SliceId)
  | pwmEn | pwmIntr | pwmInte | pwmIntf | pwmInts
  | adcCs | adcResult | adcFcs | adcFifo | adcDiv | adcIntr | adcInte | adcIntf | adcInts
  | rst | rstDone
  deriving DecidableEq, Repr, Inhabited

/-- What the outside world drives on a pin, `ext_level[p]` (10_state R68). -/
inductive Ext where
  | low | high | z
  deriving DecidableEq, Repr, Inhabited

/-- The environment inputs (10_state R68), held between two `Pins` steps. -/
structure Inputs where
  ext    : Vector Ext 30
  float  : BitVec 30
  periph : BitVec 30
  bIn    : BitVec 8
  deriving DecidableEq, Repr, Inhabited

/-- One atomic step of the total order of 20_memory R87: which agent takes it, and the environment's data in it. -/
inductive Turn where
  /-- The agent of core `c` that may step: `Irq(c)` while `in_irq[c]` is not `None`, else `Main(c)` (10_state R63). -/
  | core (c : CoreId)
  /-- Interrupt entry on core `c` (60_exceptions R326); nothing happens where it is not enabled. -/
  | enter (c : CoreId)
  /-- A step of `PwmClk` (42_pwm_engine R180). -/
  | pwmClk
  /-- A step of `AdcSeq` (43_adc_sequencer R247). -/
  | adcSeq
  /-- A step of `Pins`: the inputs take these values (20_memory R95). -/
  | pins (e : Inputs)
  /-- `AssertEvent(p, 3)` where `rise`, else `AssertEvent(p, 2)` (44_irq_router R274). -/
  | hostEvent (p : Pin) (rise : Bool)
  /-- `AssertWrap(s)` (44_irq_router R274). -/
  | hostWrap (s : SliceId)
  deriving DecidableEq, Repr, Inhabited

/-- `SWITCH_POLICY` (41_gpio_arbiter R150). -/
inductive SwitchPolicy where
  | reject | implicitDeinit
  deriving DecidableEq, Repr, Inhabited

/-- `TEMP_WRONG_CHANNEL` (43_adc_sequencer R262). -/
inductive TempPolicy where
  | zero | error
  deriving DecidableEq, Repr, Inhabited

/-- The open parameters of 00_scope R15, fixed for a run. `PAD_RESET` acts at reset only. -/
structure Params where
  /-- `POLL_BUDGET`; `none` is `unbounded` (60_exceptions R316). -/
  pollBudget       : Option Nat
  /-- `ADC_CONV_TICKS` (43_adc_sequencer R250). -/
  convTicks        : Nat
  /-- `RESET_TICKS` (43_adc_sequencer R245). -/
  resetTicks       : Nat
  /-- `READY_TICKS` (43_adc_sequencer R246). -/
  readyTicks       : Nat
  /-- `SWITCH_POLICY`. -/
  switchPolicy     : SwitchPolicy
  /-- `NIL_DISABLES_LINE` (44_irq_router R284, 42_pwm_engine R228). -/
  nilDisablesLine  : Bool
  /-- `TEMP_WRONG_CHANNEL`. -/
  tempWrongChannel : TempPolicy
  /-- `PAD_FAULT(p)`, bit `p`: the readback mismatches (00_scope R15, 41_gpio_arbiter R152; log 26). -/
  padFault         : BitVec 30
  /-- `PAD_RESET`; not both pulls, and `OD` is 0 (10_state R29, R30; `paramsOk`, log 28). -/
  padReset         : Byte
  /-- `ADDR_MAP` as a table (20_memory R97). -/
  addrMap          : List (Word × Reg)
  /-- `handler_body(h)` for the handlers whose commands are recorded (44_irq_router R292; log 10). -/
  handlers         : List (Word × List Command)
  deriving DecidableEq, Repr, Inhabited

/-- FREE VALUE: the `n`-th turn that no recorded schedule gives (20_memory R88: every interleaving is admitted; log 1). DESIGN
CHOICE (log 27): it may be a step of `Host`, which R88 lists and 44_irq_router R274 has exist only where a test says so. -/
opaque Config.schedule (n : Nat) : Turn

/-- FREE VALUE: the `n`-th ADC draw, made for channel `ch`, `adc_sample(ch)` (10_state R53; log 8). -/
opaque Config.adcSample (ch : BitVec 3) (n : Nat) : BitVec 12

/-- FREE VALUE: the commands handler `h` issues in the `n`-th invocation (44_irq_router R292; log 10). -/
opaque Config.handlerBody (h : Word) (n : Nat) : List Command

/-- FREE VALUE: sign and payload of the NaN an operation answers for these operands (95_test_vectors A7; log 9). -/
opaque Config.nanPayload (a b : Word) : Word

end Sys2Proof
end

