-- ==== Sys2Proof/Machine/Bits.lean ====
section
/-! DEFINITION. Bit-field and byte-order helpers (00_scope R16, 20_memory R82). -/

namespace Sys2Proof.Machine

/-- The `n`-bit number whose bit `i` is `f i` (00_scope R16: bit 0 is the least significant). -/
def packBits (f : Nat → Bool) : (n : Nat) → BitVec n
  | 0 => 0#0
  | n + 1 => BitVec.cons (f n) (packBits f n)

/-- The word with the one bit `i` set. -/
def bitAt (i : Nat) : Word := 1#32 <<< i

/-- Event bit `k` of eight pins, spread over the nibbles of a bank register: bit `4i + k` is `x[i]` (10_state R54, R55). -/
def spread (x : Nat → Bool) (k : Nat) : Word := packBits (fun j => j % 4 == k && x (j / 4)) 32

/-- The four bytes of a word, little-endian (20_memory R82). -/
def wordBytes (w : Word) : List Byte :=
  [w.extractLsb' 0 8, w.extractLsb' 8 8, w.extractLsb' 16 8, w.extractLsb' 24 8]

/-- The word that four bytes spell, little-endian (20_memory R82). -/
def bytesWord (b0 b1 b2 b3 : Byte) : Word := b3 ++ b2 ++ b1 ++ b0

end Sys2Proof.Machine
end

