-- ==== Sys2Proof/WellFormed.lean ====
section
/-! DEFINITION. The operand checks of a command that need nothing but the command itself: 30_encoding R113 and the operand
word ranges of the operation rules. An ill-formed command decodes, and is answered with `BadParameter`. -/

namespace Sys2Proof

/-- A pin is below `NUM_GPIO` = 30 (30_encoding R113). -/
def pinOk (t : Byte) : Bool := t.toNat < 30
/-- A slice is below 8 (30_encoding R113). -/
def sliceOk (t : Byte) : Bool := t.toNat < 8
/-- An ADC channel is below 5 (30_encoding R113). -/
def chOk (t : Byte) : Bool := t.toNat < 5
/-- A mode is at most 8 (30_encoding R113, R115). -/
def modeOk (a : Byte) : Bool := a.toNat ≤ 8
/-- A Boolean or a PWM channel has `A[7:1]` = 0 (30_encoding R113, 41_gpio_arbiter R160; log 18). -/
def boolOk (a : Byte) : Bool := a.toNat ≤ 1
/-- A level, counter or wrap value is at most 65535 (42_pwm_engine R198, R202, R210). -/
def halfOk (w : Word) : Bool := w.toNat ≤ 65535
/-- A period is within `MIN_PERIOD` and `MAX_PERIOD` (42_pwm_engine R221). -/
def periodOk (w : Word) : Bool := 8 ≤ w.toNat && w.toNat ≤ 268369920
/-- A register address is a multiple of 4 (20_memory R83). -/
def addrOk (w : Word) : Bool := w.toNat % 4 == 0

/-- The operands are in range (30_encoding R113). -/
def Instr.wellFormed : Instr → Bool
  | .nop                   => true
  | .regGet a              => addrOk a
  | .regSet a _            => addrOk a
  | .regClr a _            => addrOk a
  | .regReplace a _ _      => addrOk a
  | .init p                => pinOk p
  | .setMode p m           => pinOk p && modeOk m
  | .deinit _ p            => pinOk p
  | .mode _ p              => pinOk p
  | .get _ p               => pinOk p
  | .set _ p v             => pinOk p && boolOk v
  | .pwm p                 => pinOk p
  | .adc p                 => pinOk p
  | .pwmGet s c            => sliceOk s && boolOk c
  | .pwmSet s c l          => sliceOk s && boolOk c && halfOk l
  | .counter s             => sliceOk s
  | .setCounter s v        => sliceOk s && halfOk v
  | .inc s                 => sliceOk s
  | .dec s                 => sliceOk s
  | .setWrap s w           => sliceOk s && halfOk w
  | .wrap s                => sliceOk s
  | .setEnabled s e        => sliceOk s && boolOk e
  | .pwmSetInterrupt s _   => sliceOk s
  | .setPeriod s p         => sliceOk s && periodOk p
  | .adcInit               => true
  | .adcTemp               => true
  | .adcGet c              => chOk c
  | .getVoltage c _        => chOk c
  | .getTemperature c      => chOk c
  | .setInterrupt p _      => pinOk p
  | .cbReturn              => true
  | .cbFault               => true

end Sys2Proof
end

