-- ==== Sys2Proof/Decode.lean ====
section
/-! DEFINITION. Decoding of a command (30_encoding R110, R112, R120), total, and the encoder. -/

namespace Sys2Proof

open Sys2Proof.Machine

/-- Why a header is `illegal` (30_encoding R112), or bytes are no command (R110). -/
inductive Illegal where
  /-- `Z` is not 0. -/
  | reservedBits
  /-- `OP` is not in the map of R120. -/
  | unknownOp
  /-- `S` = 1 on an operation without a strict variant. -/
  | noStrict
  /-- Fewer than sixteen bytes. -/
  | tooShort
  deriving DecidableEq, Repr, Inhabited

/-- `OP`, header bits 7:0 (30_encoding R110). -/
def Command.op (c : Command) : Byte := c.h.extractLsb' 0 8
/-- `S`, header bit 8. -/
def Command.strict (c : Command) : Bool := c.h.getLsbD 8
/-- `Z`, header bits 15:9. -/
def Command.z (c : Command) : BitVec 7 := c.h.extractLsb' 9 7
/-- `T`, header bits 23:16. -/
def Command.t (c : Command) : Byte := c.h.extractLsb' 16 8
/-- `A`, header bits 31:24. -/
def Command.a (c : Command) : Byte := c.h.extractLsb' 24 8

/-- The operation an `OP` value names, with the fields it uses (30_encoding R120). -/
def Command.row (c : Command) : Option Instr :=
  match c.op with
  | 0x00#8 => some .nop
  | 0x01#8 => some (.regGet c.x0)
  | 0x02#8 => some (.regSet c.x0 c.x1)
  | 0x03#8 => some (.regClr c.x0 c.x1)
  | 0x04#8 => some (.regReplace c.x0 c.x1 c.x2)
  | 0x10#8 => some (.init c.t)
  | 0x11#8 => some (.setMode c.t c.a)
  | 0x12#8 => some (.deinit c.strict c.t)
  | 0x13#8 => some (.mode c.strict c.t)
  | 0x14#8 => some (.get c.strict c.t)
  | 0x15#8 => some (.set c.strict c.t c.a)
  | 0x16#8 => some (.pwm c.t)
  | 0x17#8 => some (.adc c.t)
  | 0x20#8 => some (.pwmGet c.t c.a)
  | 0x21#8 => some (.pwmSet c.t c.a c.x0)
  | 0x22#8 => some (.counter c.t)
  | 0x23#8 => some (.setCounter c.t c.x0)
  | 0x24#8 => some (.inc c.t)
  | 0x25#8 => some (.dec c.t)
  | 0x26#8 => some (.setWrap c.t c.x0)
  | 0x27#8 => some (.wrap c.t)
  | 0x28#8 => some (.setEnabled c.t c.a)
  | 0x29#8 => some (.pwmSetInterrupt c.t c.x0)
  | 0x2A#8 => some (.setPeriod c.t c.x0)
  | 0x30#8 => some .adcInit
  | 0x31#8 => some .adcTemp
  | 0x32#8 => some (.adcGet c.t)
  | 0x33#8 => some (.getVoltage c.t c.x0)
  | 0x34#8 => some (.getTemperature c.t)
  | 0x40#8 => some (.setInterrupt c.t c.x0)
  | 0x4E#8 => some .cbReturn
  | 0x4F#8 => some .cbFault
  | _ => none

/-- The operations with a strict variant (30_encoding R114). -/
def Instr.hasStrict : Instr → Bool
  | .deinit .. | .mode .. | .get .. | .set .. => true
  | _ => false

/-- Decoding of a command: total, every header is one operation or `illegal` by name (30_encoding R112). -/
def decode (c : Command) : Except Illegal Instr :=
  if c.z ≠ 0 then .error .reservedBits
  else match c.row with
    | none => .error .unknownOp
    | some i => if c.strict && !i.hasStrict then .error .noStrict else .ok i

/-- A command laid out in bytes, each word little-endian, the header first (30_encoding R110, 20_memory R82). -/
def Command.bytes (c : Command) : List Byte :=
  wordBytes c.h ++ wordBytes c.x0 ++ wordBytes c.x1 ++ wordBytes c.x2

/-- Decoding of any bytes: the first sixteen are the command. -/
def decodeBytes : List Byte → Except Illegal Instr
  | a0 :: a1 :: a2 :: a3 :: b0 :: b1 :: b2 :: b3 :: c0 :: c1 :: c2 :: c3 :: d0 :: d1 :: d2 :: d3 :: _ =>
      decode { h := bytesWord a0 a1 a2 a3, x0 := bytesWord b0 b1 b2 b3,
               x1 := bytesWord c0 c1 c2 c3, x2 := bytesWord d0 d1 d2 d3 }
  | _ => .error .tooShort

/-- The bytes of a command whose bits are `w`, bit 0 the least significant of the first word; bits from `nbits` on are 0. -/
def tableBytes (nbits w : Nat) : List Byte :=
  (List.range 16).map (fun i => BitVec.ofNat 8 ((w % 2 ^ nbits) / 2 ^ (8 * i)))

/-- The instruction the decoder reads from the bits of an opcode-table word. -/
def decodeTableWord (nbits w : Nat) : Option Instr := (decodeBytes (tableBytes nbits w)).toOption

/-- A header (30_encoding R110). -/
def header (op : Byte) (strict : Bool) (t a : Byte) : Word := a ++ t ++ 0#7 ++ BitVec.ofBool strict ++ op

/-- The encoder: the command of an instruction; fields and operand words it does not use are 0 (30_encoding R120). -/
def encode : Instr → Command
  | .nop                 => ⟨header 0x00 false 0 0, 0, 0, 0⟩
  | .regGet a            => ⟨header 0x01 false 0 0, a, 0, 0⟩
  | .regSet a m          => ⟨header 0x02 false 0 0, a, m, 0⟩
  | .regClr a m          => ⟨header 0x03 false 0 0, a, m, 0⟩
  | .regReplace a m v    => ⟨header 0x04 false 0 0, a, m, v⟩
  | .init p              => ⟨header 0x10 false p 0, 0, 0, 0⟩
  | .setMode p m         => ⟨header 0x11 false p m, 0, 0, 0⟩
  | .deinit s p          => ⟨header 0x12 s p 0, 0, 0, 0⟩
  | .mode s p            => ⟨header 0x13 s p 0, 0, 0, 0⟩
  | .get s p             => ⟨header 0x14 s p 0, 0, 0, 0⟩
  | .set s p v           => ⟨header 0x15 s p v, 0, 0, 0⟩
  | .pwm p               => ⟨header 0x16 false p 0, 0, 0, 0⟩
  | .adc p               => ⟨header 0x17 false p 0, 0, 0, 0⟩
  | .pwmGet s c          => ⟨header 0x20 false s c, 0, 0, 0⟩
  | .pwmSet s c l        => ⟨header 0x21 false s c, l, 0, 0⟩
  | .counter s           => ⟨header 0x22 false s 0, 0, 0, 0⟩
  | .setCounter s v      => ⟨header 0x23 false s 0, v, 0, 0⟩
  | .inc s               => ⟨header 0x24 false s 0, 0, 0, 0⟩
  | .dec s               => ⟨header 0x25 false s 0, 0, 0, 0⟩
  | .setWrap s w         => ⟨header 0x26 false s 0, w, 0, 0⟩
  | .wrap s              => ⟨header 0x27 false s 0, 0, 0, 0⟩
  | .setEnabled s e      => ⟨header 0x28 false s e, 0, 0, 0⟩
  | .pwmSetInterrupt s h => ⟨header 0x29 false s 0, h, 0, 0⟩
  | .setPeriod s p       => ⟨header 0x2A false s 0, p, 0, 0⟩
  | .adcInit             => ⟨header 0x30 false 0 0, 0, 0, 0⟩
  | .adcTemp             => ⟨header 0x31 false 0 0, 0, 0, 0⟩
  | .adcGet c            => ⟨header 0x32 false c 0, 0, 0, 0⟩
  | .getVoltage c v      => ⟨header 0x33 false c 0, v, 0, 0⟩
  | .getTemperature c    => ⟨header 0x34 false c 0, 0, 0, 0⟩
  | .setInterrupt p h    => ⟨header 0x40 false p 0, h, 0, 0⟩
  | .cbReturn            => ⟨header 0x4E false 0 0, 0, 0, 0⟩
  | .cbFault             => ⟨header 0x4F false 0 0, 0, 0, 0⟩

end Sys2Proof
end

