-- ==== Sys2Proof/Machine/Defaults.lean ====
section
/-! DEFINITION. The default address map (20_memory R100) and the parameters of the spec's "from reset" convention
(95_test_vectors section 0; 92_eei_decisions section 8). -/

namespace Sys2Proof.Machine

/-- The address 20_memory R100 gives a register. -/
def defaultAddr : Reg → Word
  | .ioCtrl p    => 0x40014004#32 + BitVec.ofNat 32 (8 * p.val)
  | .ioIntr b    => 0x400140f0#32 + BitVec.ofNat 32 (4 * b.val)
  | .ioInte c b  => 0x40014100#32 + BitVec.ofNat 32 (0x30 * c.val + 4 * b.val)
  | .ioIntf c b  => 0x40014110#32 + BitVec.ofNat 32 (0x30 * c.val + 4 * b.val)
  | .ioInts c b  => 0x40014120#32 + BitVec.ofNat 32 (0x30 * c.val + 4 * b.val)
  | .pad p       => 0x4001c004#32 + BitVec.ofNat 32 (4 * p.val)
  | .sioIn       => 0xd0000004#32
  | .sioOut      => 0xd0000010#32
  | .sioOe       => 0xd0000020#32
  | .pwmCsr s    => 0x40050000#32 + BitVec.ofNat 32 (0x14 * s.val)
  | .pwmDiv s    => 0x40050004#32 + BitVec.ofNat 32 (0x14 * s.val)
  | .pwmCtr s    => 0x40050008#32 + BitVec.ofNat 32 (0x14 * s.val)
  | .pwmCc s     => 0x4005000c#32 + BitVec.ofNat 32 (0x14 * s.val)
  | .pwmTop s    => 0x40050010#32 + BitVec.ofNat 32 (0x14 * s.val)
  | .pwmEn       => 0x400500a0#32
  | .pwmIntr     => 0x400500a4#32
  | .pwmInte     => 0x400500a8#32
  | .pwmIntf     => 0x400500ac#32
  | .pwmInts     => 0x400500b0#32
  | .adcCs       => 0x4004c000#32
  | .adcResult   => 0x4004c004#32
  | .adcFcs      => 0x4004c008#32
  | .adcFifo     => 0x4004c00c#32
  | .adcDiv      => 0x4004c010#32
  | .adcIntr     => 0x4004c014#32
  | .adcInte     => 0x4004c018#32
  | .adcIntf     => 0x4004c01c#32
  | .adcInts     => 0x4004c020#32
  | .rst         => 0x4000c000#32
  | .rstDone     => 0x4000c008#32

/-- Every register of the register space, in the order of the table of 20_memory R100. -/
def allRegs : List Reg :=
  List.flatten
    [(List.finRange 30).map Reg.ioCtrl, (List.finRange 4).map Reg.ioIntr,
     (List.finRange 4).map (Reg.ioInte 0), (List.finRange 4).map (Reg.ioIntf 0), (List.finRange 4).map (Reg.ioInts 0),
     (List.finRange 4).map (Reg.ioInte 1), (List.finRange 4).map (Reg.ioIntf 1), (List.finRange 4).map (Reg.ioInts 1),
     (List.finRange 30).map Reg.pad, [Reg.sioIn, Reg.sioOut, Reg.sioOe],
     (List.finRange 8).map Reg.pwmCsr, (List.finRange 8).map Reg.pwmDiv, (List.finRange 8).map Reg.pwmCtr,
     (List.finRange 8).map Reg.pwmCc, (List.finRange 8).map Reg.pwmTop,
     [Reg.pwmEn, Reg.pwmIntr, Reg.pwmInte, Reg.pwmIntf, Reg.pwmInts],
     [Reg.adcCs, Reg.adcResult, Reg.adcFcs, Reg.adcFifo, Reg.adcDiv, Reg.adcIntr, Reg.adcInte, Reg.adcIntf, Reg.adcInts],
     [Reg.rst, Reg.rstDone]]

/-- The default `ADDR_MAP` (20_memory R100). -/
def defaultAddrMap : List (Word × Reg) := allRegs.map (fun r => (defaultAddr r, r))

/-- The parameters of the spec's "from reset" (95_test_vectors section 0): the defaults of 92_eei_decisions section 8;
DESIGN CHOICE (log 5, 10) for `POLL_BUDGET`, the three tick counts and the handler table, which have no default. -/
def defaultParams : Params where
  pollBudget       := none
  convTicks        := 3
  resetTicks       := 2
  readyTicks       := 1
  switchPolicy     := .reject
  nilDisablesLine  := false
  tempWrongChannel := .zero
  padFault         := 0#30
  padReset         := 0x56#8
  addrMap          := defaultAddrMap
  handlers         := []

/-- The parameters are in their domains (92_eei_decisions section 8): the tick counts are at least 1 (00_scope R15), `PAD_RESET`
has not both pulls, bits 3 and 2, and not `OD`, bit 7 (10_state R29, R30), and `ADDR_MAP` gives every register one address,
word-aligned, and no two the same (20_memory R97). `State.resetWith` takes any parameters; see log 28. -/
def paramsOk (P : Params) : Bool :=
  1 ≤ P.convTicks && 1 ≤ P.resetTicks && 1 ≤ P.readyTicks &&
  !(P.padReset.getLsbD 3 && P.padReset.getLsbD 2) && !P.padReset.getLsbD 7 &&
  P.addrMap.all (fun e => e.1.toNat % 4 == 0) && decide (P.addrMap.map Prod.fst).Nodup && decide (P.addrMap.map Prod.snd).Nodup &&
  allRegs.all (fun r => (P.addrMap.map Prod.snd).contains r)

/-- The environment inputs of the spec's "from reset": no pin driven from outside, floating pins at 0, gating inputs 0
(95_test_vectors section 0). DESIGN CHOICE (log 7): the spec leaves them free. -/
def defaultInputs : Inputs where
  ext    := Vector.replicate 30 .z
  float  := 0#30
  periph := 0#30
  bIn    := 0#8

end Sys2Proof.Machine
end

