-- ==== Sys2Proof/Machine/State.lean ====
section
/-! DEFINITION. The state of the block (10_state), as plain data, its reset value (10_state R70), and the reasons a step
can stop. -/

namespace Sys2Proof.Machine

/-- `pin_pull[p]` (10_state R22). -/
inductive Pull where
  | none | down | up
  deriving DecidableEq, Repr, Inhabited

/-- The configuration record `pwm_cfg[s]` (10_state R32). -/
structure PwmCfg where
  divInt    : BitVec 8
  divFrac   : BitVec 4
  wrap      : BitVec 16
  phCorrect : Bool
  invA      : Bool
  invB      : Bool
  divmode   : BitVec 2
  deriving DecidableEq, Repr, Inhabited

/-- One PWM slice: its record, its registers, its hidden state and its handler (10_state R32 to R37, R40, R44). -/
structure Slice where
  cfg     : PwmCfg
  /-- `PWM_CSR[s]`: `EN` 0, `PH_CORRECT` 1, `A_INV` 2, `B_INV` 3, `DIVMODE` 5:4, `PH_RET` 6, `PH_ADV` 7 (R33). -/
  csr     : BitVec 8
  /-- `PWM_DIV[s]`: `FRAC` 3:0, `INT` 11:4 (R34). -/
  div     : BitVec 12
  /-- `PWM_CTR[s]` (R35). -/
  ctr     : BitVec 16
  /-- `PWM_CC[s]`: `A` 15:0, `B` 31:16 (R36). -/
  cc      : Word
  /-- `PWM_TOP[s]` (R37). -/
  top     : BitVec 16
  dirDown : Bool
  fracAcc : Nat
  prevB   : Bool
  /-- `pwm_cb[s]` (R44). -/
  cb      : Word
  deriving DecidableEq, Repr, Inhabited

/-- The ADC registers, its reset controller bits and its hidden timers (10_state R47 to R50, R52). -/
structure AdcBlock where
  rst       : Bool
  rstDone   : Bool
  /-- `ADC_CS`: `EN` 0, `TS_EN` 1, `READY` 8, `ERR` 9, `ERR_STICKY` 10, `AINSEL` 14:12; the other bits stay 0 (R48). -/
  cs        : Word
  result    : BitVec 12
  fcs       : Word
  /-- The register the spec calls `DIV` (R52). -/
  pace      : Word
  inte      : Word
  intf      : Word
  resetLeft : Option Nat
  readyLeft : Option Nat
  convLeft  : Option Nat
  deriving DecidableEq, Repr, Inhabited

/-- The condition of a `poll` (60_exceptions R317). -/
inductive PollCond where
  | phAdvClear (s : SliceId) | phRetClear (s : SliceId) | resetDone | ready
  deriving DecidableEq, Repr, Inhabited

/-- One micro-step of an operation: at most one access (00_scope R17, 20_memory R88). The values read by earlier
micro-steps are arguments. The rule cited names the labelled lines of the pseudocode. -/
inductive Micro where
  /-- A write of a whole register. -/
  | write (r : Reg) (w : Word)
  /-- An atomic set of the bits of `m` (20_memory R93). -/
  | setBits (r : Reg) (m : Word)
  /-- An atomic clear of the bits of `m` (20_memory R93). -/
  | clrBits (r : Reg) (m : Word)
  /-- R400 (a) -/
  | primGet (r : Reg)
  /-- R401 (a) -/
  | primSet (r : Reg) (m : Word)
  /-- R402 (a) -/
  | primClr (r : Reg) (m : Word)
  /-- R403 (a) -/
  | primRead (r : Reg) (m v : Word)
  /-- R403 (b) -/
  | primWrite (r : Reg) (w : Word)
  /-- The agent is `stuck` (00_scope R18, 20_memory R96). -/
  | stuck
  /-- R142 (a), R150 (a) -/
  | testInit (p : Pin)
  /-- R143 (d) -/
  | setInit (p : Pin)
  /-- R150 (e) -/
  | readFn (p : Pin) (m : Mode)
  /-- R151 (g), R154 (b) -/
  | readPad (p : Pin) (m : Mode)
  /-- R152 (j) -/
  | readBack (p : Pin)
  /-- R150 (k), R154 (e) -/
  | writeFn (p : Pin) (m : Mode)
  /-- The strict check of R114. -/
  | strictTest (p : Pin)
  /-- R156 (a) -/
  | readMode (p : Pin)
  /-- R158 (a) -/
  | readIn (p : Pin)
  /-- R164 (a) -/
  | pwmTest (p : Pin)
  /-- R168 (f), R256 (a) -/
  | testCreated (ch : AdcCh)
  /-- R168 (g), R256 (b) -/
  | setCreated (ch : AdcCh)
  /-- R196 (a) -/
  | readLevel (s : SliceId) (chanB : Bool)
  /-- R198 (a) -/
  | readLevelToSet (s : SliceId) (chanB : Bool) (level : BitVec 16)
  /-- R200 (a) -/
  | readCounter (s : SliceId)
  /-- R210 (a) -/
  | setWrapRec (s : SliceId) (w : BitVec 16)
  /-- R212 (a) -/
  | readWrapRec (s : SliceId)
  /-- R214 (a) -/
  | readCfg (s : SliceId)
  /-- R214 (d) -/
  | readCsr (s : SliceId) (c : PwmCfg)
  /-- R220 (a) -/
  | readCfgForPeriod (s : SliceId) (period : Nat)
  /-- R220 (b) -/
  | writeCfg (s : SliceId) (c : PwmCfg)
  /-- R228 (a), (b) -/
  | writeCb (s : SliceId) (h : Word)
  /-- R228 (c), with a handler. -/
  | testGatePwm
  /-- R228 (d), and (c) without a handler. -/
  | writeGatePwm (v : Bool)
  /-- R280 (d) -/
  | testGateGpio
  /-- R280 (e), R284 (a) -/
  | writeGateGpio (v : Bool)
  /-- R280 (c), R284 (c) -/
  | bindPin (p : Pin) (h : Word) (e : BitVec 2)
  /-- R242 (a) -/
  | testInited
  /-- R242 (g) -/
  | setInited
  /-- 60_exceptions R316, after `n` failed reads. -/
  | poll (c : PollCond) (n : Nat)
  /-- R252 (a), R262 (a) -/
  | needCreated (ch : AdcCh)
  /-- R252 (b) -/
  | readCs (ch : AdcCh)
  /-- R252 (f) -/
  | readResult
  /-- R262 (b) -/
  | testSensor
  /-- R294 -/
  | closeHandler
  /-- R296 -/
  | handlerFault
  deriving DecidableEq, Repr, Inhabited

/-- What an operation does with its result word once its last micro-step is made. -/
inductive Post where
  /-- The result as it is. -/
  | plain
  /-- R258: the raw result to volts. -/
  | voltage (vref : Word)
  /-- R262: the raw result to degrees. -/
  | temperature
  /-- R168: the operation ends with `BadParameter` (a pin below 26, after `ADC_init`). -/
  | badParameter
  deriving DecidableEq, Repr, Inhabited

/-- An operation in flight, `ustep[a]` (10_state R21): the micro-steps still to be made, the result so far, and what is
done with it at the end. -/
structure Flight where
  code : List Micro
  res  : Word
  post : Post
  deriving DecidableEq, Repr, Inhabited

/-- The kind of a callback (30_encoding R122). -/
inductive CbKind where
  | gpio | wrap
  deriving DecidableEq, Repr, Inhabited

/-- One micro-step of a dispatch (42_pwm_engine R230, 44_irq_router R288). -/
inductive DStep where
  /-- R230 (a) -/
  | pwmMask
  /-- R230 (b) -/
  | pwmAck (m : BitVec 8)
  /-- R230 (c) -/
  | pwmLookup (s : SliceId)
  /-- R288 (a) -/
  | gpioRead (b : BankReg)
  /-- R288 (b), (d) -/
  | gpioAck (b : BankReg) (w : Word)
  /-- R288 (c) -/
  | gpioLookup (p : Pin) (ev : BitVec 4)
  /-- R292 (1) -/
  | invoke (kind : CbKind) (h : Word) (a0 a1 : Nat)
  /-- Interrupt return, R330. -/
  | leave
  deriving DecidableEq, Repr, Inhabited

/-- `in_irq[c]` when it is not `None` (10_state R63). -/
inductive IrqKind where
  | pwmWrap | gpioBank
  deriving DecidableEq, Repr, Inhabited

/-- A response (30_encoding R110). -/
structure Resp where
  st  : Status
  res : Word
  deriving DecidableEq, Repr, Inhabited

/-- A message of the callback port (30_encoding R122). -/
structure CbMsg where
  core : CoreId
  kind : CbKind
  h    : Word
  a0   : Nat
  a1   : Nat
  deriving DecidableEq, Repr, Inhabited

/-- What the block holds for one core, and the core's side of the command interface. -/
structure CoreSt where
  /-- `NVIC_EN[c].PWM` (10_state R43). -/
  nvicPwm   : Bool
  /-- `NVIC_EN[c].GPIO` (R62). -/
  nvicGpio  : Bool
  /-- `IO_INTE[c]` (R58). -/
  inte      : Vector Word 4
  /-- `IO_INTF[c]` (R59). -/
  intf      : Vector Word 4
  /-- `gpio_cb[c]` (R66). -/
  gpioCb    : Vector Word 30
  /-- `gpio_edges[c]`: bit 0 fall, bit 1 rise (R66). -/
  gpioEdges : Vector (BitVec 2) 30
  /-- `in_irq[c]` (R63). -/
  inIrq     : Option IrqKind
  /-- `cb_depth[c]` (R64). -/
  cbDepth   : Nat
  /-- The operation of `Main(c)` in flight; `none` is `idle` (R21). -/
  main      : Option Flight
  /-- The operation of `Irq(c)` in flight, a handler's command (R21). -/
  irq       : Option Flight
  /-- The micro-steps still to be made of the dispatch in progress. -/
  disp      : List DStep
  /-- MODEL'S OWN: the commands the main line will present, next first (log 3). -/
  mainQ     : List Command
  /-- MODEL'S OWN: the commands the open handler will present, next first (log 3, 10). -/
  irqQ      : List Command
  /-- MODEL'S OWN: the last response to the main line; `none` while a command is in flight (log 11). -/
  mainResp  : Option Resp
  /-- MODEL'S OWN: the last response to the handler (log 11). -/
  irqResp   : Option Resp
  deriving DecidableEq, Repr, Inhabited

/-- The state of the block. -/
structure State where
  params     : Params
  env        : Inputs
  /-- `IO_CTRL[p].FUNCSEL` (10_state R24). -/
  funcsel    : Vector (BitVec 5) 30
  /-- `SIO_OUT` (R26). -/
  sioOut     : BitVec 30
  /-- `SIO_OE` (R26). -/
  sioOe      : BitVec 30
  /-- `PAD[p]`: `SLEWFAST` 0, `SCHMITT` 1, `PDE` 2, `PUE` 3, `DRIVE` 5:4, `IE` 6, `OD` 7 (R29). -/
  pad        : Vector Byte 30
  /-- `pin_fn` (R22). -/
  pinFn      : Vector Mode 30
  /-- `pin_init` (R22). -/
  pinInit    : Vector Bool 30
  /-- `pin_pull` (R22). -/
  pinPull    : Vector Pull 30
  slices     : Vector Slice 8
  /-- `PWM_INTR` (R39). -/
  pwmIntr    : BitVec 8
  /-- `PWM_INTE` (R39). -/
  pwmInte    : BitVec 8
  /-- `PWM_INTF` (R39). -/
  pwmIntf    : BitVec 8
  /-- `adc_inited` (R45). -/
  adcInited  : Bool
  /-- `adc_created` (R46). -/
  adcCreated : Vector Bool 5
  adc        : AdcBlock
  /-- The latched edge bits of `IO_INTR` (R54 to R56). -/
  ioIntr     : Vector Word 4
  cores      : Vector CoreSt 2
  /-- `prev_in` (R65). -/
  prevIn     : BitVec 30
  /-- `fatal` (R67). -/
  fatal      : Bool
  /-- MODEL'S OWN: the core number beside the command on the interface (30_encoding R111; log 3). -/
  sel        : CoreId
  /-- MODEL'S OWN: the recorded next turns; after them the turns are free values (log 1). -/
  turns      : List Turn
  /-- MODEL'S OWN: how many free turns have been drawn (log 1). -/
  turnNo     : Nat
  /-- MODEL'S OWN: the recorded next ADC draws; after them the draws are free values (log 8). -/
  samples    : List (BitVec 12)
  /-- MODEL'S OWN: how many free ADC draws have been made (log 8). -/
  drawNo     : Nat
  /-- MODEL'S OWN: the callback messages emitted, newest first (log 11). -/
  cbLog      : List CbMsg
  deriving DecidableEq, Repr, Inhabited

/-- Why the machine has stopped. -/
inductive Fault where
  /-- A callback fault has happened: no agent takes a step and no command is accepted (60_exceptions R336). Raised by
  `step` and by every `exec` on a state with `fatal = true`. SAFE: it is the spec's own final state. -/
  | systemFatal
  deriving DecidableEq, Repr, Inhabited

/-- Why an instruction has no outcome. -/
inductive Refusal where
  /-- An instruction without a meaning yet; raised by no arm of `exec` in this package. SAFE. -/
  | notModelled (mnemonic : String)
  /-- `exec` was asked to issue a command for an agent that has an operation in flight. The agents never do so (10_state
  R21: one operation in flight an agent; 60_exceptions R340: a mis-driven interface is none of the block's behaviours), and
  `step` never asks it. SAFE. -/
  | portBusy
  deriving DecidableEq, Repr, Inhabited

/-- `pwm_cfg[s]` at reset (10_state R32). -/
def PwmCfg.reset : PwmCfg :=
  { divInt := 1, divFrac := 0, wrap := 65535, phCorrect := false, invA := false, invB := false, divmode := 0 }

/-- A slice at reset (10_state R70). -/
def Slice.reset : Slice :=
  { cfg := PwmCfg.reset, csr := 0, div := 0x010, ctr := 0, cc := 0, top := 65535,
    dirDown := false, fracAcc := 0, prevB := false, cb := 0 }

/-- The ADC at reset (10_state R70), for the reset draw `rst` of `RST.ADC` (R47). -/
def AdcBlock.reset (rst : Bool) : AdcBlock :=
  { rst := rst, rstDone := !rst, cs := 0, result := 0, fcs := 0, pace := 0, inte := 0, intf := 0,
    resetLeft := none, readyLeft := none, convLeft := none }

/-- A core at reset (10_state R70). -/
def CoreSt.reset : CoreSt :=
  { nvicPwm := false, nvicGpio := false,
    inte := Vector.replicate 4 0, intf := Vector.replicate 4 0,
    gpioCb := Vector.replicate 30 0, gpioEdges := Vector.replicate 30 0,
    inIrq := none, cbDepth := 0, main := none, irq := none, disp := [],
    mainQ := [], irqQ := [], mainResp := none, irqResp := none }

/-- The reset state for given parameters, inputs, draw of `RST.ADC` and edge memory (10_state R70, 70_reset R352). -/
def State.resetWith (params : Params) (env : Inputs) (rst : Bool) (prevIn : BitVec 30) : State :=
  { params := params, env := env,
    funcsel := Vector.replicate 30 31, sioOut := 0, sioOe := 0, pad := Vector.replicate 30 params.padReset,
    pinFn := Vector.replicate 30 .off, pinInit := Vector.replicate 30 false, pinPull := Vector.replicate 30 .none,
    slices := Vector.replicate 8 Slice.reset, pwmIntr := 0, pwmInte := 0, pwmIntf := 0,
    adcInited := false, adcCreated := Vector.replicate 5 false, adc := AdcBlock.reset rst,
    ioIntr := Vector.replicate 4 0, cores := Vector.replicate 2 CoreSt.reset, prevIn := prevIn, fatal := false,
    sel := 0, turns := [], turnNo := 0, samples := [], drawNo := 0, cbLog := [] }

/-- The machine right after reset (10_state R70), under the spec's own "from reset" convention (95_test_vectors section 0):
the default parameters (log 5), the draw `RST.ADC = 0` (log 6), no pin driven from outside (log 7), so that `prev_in` is 0
(10_state R65: every pad has its pull-down on). -/
def State.reset : State := State.resetWith defaultParams defaultInputs false 0

end Sys2Proof.Machine
end

