-- ==== Sys2Proof/Machine/Flags.lean ====
section
/-! DEFINITION. Everything the hardware derives from the state: the pad levels (10_state R27, R28, R42), the masked status
and the interrupt lines (R39, R60, R61, 44_irq_router R276), and the edge detector (44_irq_router R272). -/

namespace Sys2Proof.Machine

/-- `slice(p)` (10_state R41). -/
def sliceOfPin (p : Nat) : SliceId := Fin.ofNat 8 (p / 2)
/-- `chan(p)`, true for channel B (10_state R41). -/
def chanBOfPin (p : Nat) : Bool := p % 2 == 1

/-- `F_NULL`, `F_SPI`, `F_UART`, `F_I2C`, `F_PWM`, `F_SIO` (10_state R24). -/
def fNull : BitVec 5 := 31
def fSpi  : BitVec 5 := 1
def fUart : BitVec 5 := 2
def fI2c  : BitVec 5 := 3
def fPwm  : BitVec 5 := 4
def fSio  : BitVec 5 := 5

/-- The fields of `PWM_CSR[s]` (10_state R33). -/
def Slice.en (sl : Slice) : Bool := sl.csr.getLsbD 0
def Slice.phCorrect (sl : Slice) : Bool := sl.csr.getLsbD 1
def Slice.aInv (sl : Slice) : Bool := sl.csr.getLsbD 2
def Slice.bInv (sl : Slice) : Bool := sl.csr.getLsbD 3
def Slice.divmode (sl : Slice) : BitVec 2 := sl.csr.extractLsb' 4 2
def Slice.phRet (sl : Slice) : Bool := sl.csr.getLsbD 6
def Slice.phAdv (sl : Slice) : Bool := sl.csr.getLsbD 7
/-- The fields of `PWM_DIV[s]` and `div16` (10_state R34). -/
def Slice.divInt (sl : Slice) : BitVec 8 := sl.div.extractLsb' 4 8
def Slice.divFrac (sl : Slice) : BitVec 4 := sl.div.extractLsb' 0 4
def Slice.div16 (sl : Slice) : Nat := 16 * sl.divInt.toNat + sl.divFrac.toNat
/-- The compare level of channel A, or of channel B (10_state R36). -/
def Slice.level (sl : Slice) (chanB : Bool) : BitVec 16 := if chanB then sl.cc.extractLsb' 16 16 else sl.cc.extractLsb' 0 16

/-- `pwm_out(s, ch)` (10_state R42). -/
def Slice.out (sl : Slice) (chanB : Bool) : Bool :=
  (sl.ctr < sl.level chanB) ^^ (if chanB then sl.bInv else sl.aInv)

/-- The fields of `PAD[p]` (10_state R29). -/
def padPde (v : Byte) : Bool := v.getLsbD 2
def padPue (v : Byte) : Bool := v.getLsbD 3
def padIe  (v : Byte) : Bool := v.getLsbD 6

/-- The level of a pad the block does not drive (10_state R28 (d)). -/
def State.undriven (s : State) (p : Pin) : Bool :=
  match s.env.ext[p] with
  | .high => true
  | .low  => false
  | .z    =>
    if padPue s.pad[p] && !padPde s.pad[p] then true
    else if padPde s.pad[p] && !padPue s.pad[p] then false
    else s.env.float.getLsbD p

/-- `pad_level(p)` (10_state R28). -/
def State.padLevel (s : State) (p : Pin) : Bool :=
  if s.funcsel[p] = fSio then (if s.sioOe.getLsbD p then s.sioOut.getLsbD p else s.undriven p)
  else if s.funcsel[p] = fPwm then s.slices[sliceOfPin p].out (chanBOfPin p)
  else if s.funcsel[p] = fUart ∨ s.funcsel[p] = fI2c ∨ s.funcsel[p] = fSpi then s.env.periph.getLsbD p
  else s.undriven p

/-- `pin_in(p)` (10_state R27). -/
def State.pinIn (s : State) (p : Pin) : Bool := padIe s.pad[p] && s.padLevel p

/-- `SIO_IN`: bit `p` is `pin_in(p)` (10_state R27). -/
def State.pinInAll (s : State) : BitVec 30 := packBits (fun p => if h : p < 30 then s.pinIn ⟨p, h⟩ else false) 30

/-- Whether pin `8b + i` exists (10_state R54). -/
def pinExists (b : BankReg) (i : Nat) : Bool := 8 * b.val + i < 30

/-- The bit of pin `8b + i` in a 30-bit register, 0 where there is no such pin. -/
def pinBit (x : BitVec 30) (b : BankReg) (i : Nat) : Bool := x.getLsbD (8 * b.val + i)

/-- The bits of `IO_INTR[b]` that exist (10_state R54: bits 31:24 of register 3 read 0 and ignore writes). -/
def bankMask (b : BankReg) : Word := if b.val = 3 then 0x00FFFFFF else 0xFFFFFFFF
/-- The latched bits of `IO_INTR[b]` that exist: `EDGE_FALL`, `EDGE_RISE` (10_state R56). -/
def edgeMask (b : BankReg) : Word := bankMask b &&& 0xCCCCCCCC

/-- The level bits of `IO_INTR[b]` (10_state R57). -/
def State.levels (s : State) (b : BankReg) : Word :=
  spread (pinBit s.pinInAll b) 1 ||| spread (fun i => pinExists b i && !pinBit s.pinInAll b i) 0

/-- `IO_INTR[b]` as it reads (10_state R54 to R57). -/
def State.intr (s : State) (b : BankReg) : Word := s.ioIntr[b] ||| s.levels b

/-- `IO_INTS[c][b]` (10_state R60). -/
def State.ints (s : State) (c : CoreId) (b : BankReg) : Word := (s.intr b &&& s.cores[c].inte[b]) ||| s.cores[c].intf[b]

/-- `PWM_INTS` (10_state R39). -/
def State.pwmInts (s : State) : BitVec 8 := (s.pwmIntr &&& s.pwmInte) ||| s.pwmIntf

/-- `gpio_line[c]` (10_state R61). -/
def State.gpioLine (s : State) (c : CoreId) : Bool := s.ints c 0 ≠ 0 || s.ints c 1 ≠ 0 || s.ints c 2 ≠ 0 || s.ints c 3 ≠ 0
/-- `pwm_line` (10_state R61). -/
def State.pwmLine (s : State) : Bool := s.pwmInts ≠ 0

/-- The PWM interrupt of core `c` is pending (44_irq_router R276). -/
def State.pwmPending (s : State) (c : CoreId) : Bool := s.pwmLine && s.cores[c].nvicPwm
/-- The GPIO interrupt of core `c` is pending (44_irq_router R276). -/
def State.gpioPending (s : State) (c : CoreId) : Bool := s.gpioLine c && s.cores[c].nvicGpio

/-- The edge detector, the last part of every atomic step (44_irq_router R272): every pin whose `pin_in` differs from
`prev_in` latches its rise or its fall. -/
def State.edgeDetect (s : State) : State :=
  let now := s.pinInAll
  let latch (b : BankReg) : Word :=
    s.ioIntr[b] ||| spread (pinBit (~~~s.prevIn &&& now) b) 3 ||| spread (pinBit (s.prevIn &&& ~~~now) b) 2
  { s with ioIntr := #v[latch 0, latch 1, latch 2, latch 3], prevIn := now }

end Sys2Proof.Machine
end

