-- ==== Sys2Proof/Machine/Operands.lean ====
section
/-! DEFINITION. The operands of a command, checked: each answers the value, or nothing where the operand is out of range
and the operation ends with `BadParameter` before any access (30_encoding R113, 60_exceptions R312). -/

namespace Sys2Proof.Machine

/-- A pin operand (30_encoding R113). -/
def pinOf (t : Byte) : Option Pin := if h : t.toNat < 30 then some ⟨t.toNat, h⟩ else none
/-- A slice operand. -/
def sliceOf (t : Byte) : Option SliceId := if h : t.toNat < 8 then some ⟨t.toNat, h⟩ else none
/-- An ADC channel operand. -/
def chOf (t : Byte) : Option AdcCh := if h : t.toNat < 5 then some ⟨t.toNat, h⟩ else none
/-- A Boolean or PWM channel operand: `A[7:1]` = 0 (30_encoding R113, 41_gpio_arbiter R160; log 18). -/
def boolOf (a : Byte) : Option Bool := if a.toNat ≤ 1 then some (a.getLsbD 0) else none
/-- A level, counter or wrap value: at most 65535 (42_pwm_engine R198, R202, R210). -/
def halfOf (w : Word) : Option (BitVec 16) := if w.toNat ≤ 65535 then some (w.extractLsb' 0 16) else none
/-- A period in nanoseconds (42_pwm_engine R221). -/
def periodOf (w : Word) : Option Nat := if 8 ≤ w.toNat ∧ w.toNat ≤ 268369920 then some w.toNat else none

/-- A mode operand (30_encoding R115). -/
def modeOf (a : Byte) : Option Mode :=
  match a.toNat with
  | 0 => some .output
  | 1 => some .input
  | 2 => some .inputPulldown
  | 3 => some .inputPullup
  | 4 => some .uart
  | 5 => some .pwm
  | 6 => some .i2c
  | 7 => some .spi
  | 8 => some .off
  | _ => none

/-- The number of a mode (30_encoding R115). -/
def modeNumber : Mode → Word
  | .output => 0
  | .input => 1
  | .inputPulldown => 2
  | .inputPullup => 3
  | .uart => 4
  | .pwm => 5
  | .i2c => 6
  | .spi => 7
  | .off => 8

/-- The number of a status (30_encoding R116). -/
def statusNumber : Status → Byte
  | .ok => 0
  | .badParameter => 1
  | .unexpectedValue => 2
  | .notInitialised => 3
  | .timeout => 4
  | .duplicateValue => 5

/-- Address decoding of the register primitives: a multiple of 4 that `ADDR_MAP` gives to a reachable register
(45_register_primitives R405). -/
def State.regOf (s : State) (a : Word) : Option Reg :=
  if a.toNat % 4 = 0 then s.params.addrMap.lookup a else none

/-- `adc_chan(p)` (10_state R51): channel `p − 26` for the pins 26 to 29. -/
def adcChan (p : Pin) : Option AdcCh := if h : 26 ≤ p.val then some ⟨p.val - 26, by omega⟩ else none

end Sys2Proof.Machine
end

