-- ==== Sys2Proof/Machine/Ops.lean ====
section
/-! DEFINITION. The named operations over the state: updates, the register space with all its side effects (20_memory R85,
R86, R93), the refused writes (45_register_primitives R406), the ADC draw, responses, and interrupt entry and return
(60_exceptions R326, R330). -/

namespace Sys2Proof.Machine

/-! ### Updates -/

/-- Slice `i` becomes `sl`. -/
def State.setSlice (s : State) (i : SliceId) (sl : Slice) : State := { s with slices := s.slices.set i sl }
/-- Core `c` becomes `k`. -/
def State.setCore (s : State) (c : CoreId) (k : CoreSt) : State := { s with cores := s.cores.set c k }
/-- The ADC block becomes `a`. -/
def State.setAdc (s : State) (a : AdcBlock) : State := { s with adc := a }

/-! ### The hardware condition of a mode -/

/-- `HW(mode).FUNCSEL` (10_state R31). -/
def hwFuncsel : Mode → BitVec 5
  | .output => fSio
  | .input => fSio
  | .inputPulldown => fSio
  | .inputPullup => fSio
  | .uart => fUart
  | .pwm => fPwm
  | .i2c => fI2c
  | .spi => fSpi
  | .off => fNull
/-- `HW(mode).SIO_OE` (10_state R31). -/
def hwOe (m : Mode) : Bool := m == .output
/-- `HW(mode).IE` (10_state R31). -/
def hwIe (m : Mode) : Bool := m != .off
/-- `HW(mode).PUE` (10_state R31). -/
def hwPue (m : Mode) : Bool := m == .inputPullup
/-- `HW(mode).PDE` (10_state R31). -/
def hwPde (m : Mode) : Bool := m == .inputPulldown
/-- `pull(mode)` (41_gpio_arbiter R150). -/
def pullOf (m : Mode) : Pull :=
  if m = .inputPulldown then .down else if m = .inputPullup then .up else .none

/-- A pad word with `IE`, `PUE`, `PDE` replaced by `HW(m)`'s and the other bits kept (41_gpio_arbiter R151 (h)). -/
def padFor (m : Mode) (v : Word) : Word :=
  (v &&& ~~~0x4C#32) ||| (if hwPde m then 0x04 else 0) ||| (if hwPue m then 0x08 else 0) ||| (if hwIe m then 0x40 else 0)

/-! ### The ADC block -/

/-- `ADC_CS.EN`, `READY`, `AINSEL` (10_state R48). -/
def AdcBlock.en (a : AdcBlock) : Bool := a.cs.getLsbD 0
def AdcBlock.ready (a : AdcBlock) : Bool := a.cs.getLsbD 8
def AdcBlock.ainsel (a : AdcBlock) : BitVec 3 := a.cs.extractLsb' 12 3
/-- The bits of `ADC_CS` a write stores: `EN`, `TS_EN`, `ERR`, `ERR_STICKY`, `AINSEL` (20_memory R86; log 14). -/
def csStored : Word := 0x00007603
/-- The `READY` bit. -/
def csReady : Word := 0x00000100

/-- Writing 1 to `RST.ADC` (43_adc_sequencer R244). -/
def AdcBlock.assertReset (_ : AdcBlock) : AdcBlock :=
  { rst := true, rstDone := false, cs := 0, result := 0, fcs := 0, pace := 0, inte := 0, intf := 0,
    resetLeft := none, readyLeft := none, convLeft := none }

/-- Writing 0 to `RST.ADC` (43_adc_sequencer R245). -/
def AdcBlock.releaseReset (a : AdcBlock) (ticks : Nat) : AdcBlock :=
  if a.rst then { a with rst := false, resetLeft := some ticks } else a

/-- A write of `new` to `ADC_CS` whose bits in `touched` are delivered (43_adc_sequencer R246, R250; 20_memory R86). -/
def AdcBlock.writeCs (a : AdcBlock) (p : Params) (touched new : Word) : AdcBlock :=
  let kept := new &&& csStored
  let a' : AdcBlock :=
    if !new.getLsbD 0 then
      if touched.getLsbD 0 then { a with cs := kept, readyLeft := none, convLeft := none }
      else { a with cs := kept ||| (a.cs &&& csReady) }
    else if !a.en then { a with cs := kept ||| (a.cs &&& csReady), readyLeft := some p.readyTicks }
    else { a with cs := kept ||| (a.cs &&& csReady) }
  if new.getLsbD 2 && a'.en && a'.ready then { a' with cs := a'.cs &&& ~~~csReady, convLeft := some p.convTicks } else a'

/-- A register of the ADC block (20_memory R96). -/
def regIsAdc : Reg → Bool
  | .adcCs | .adcResult | .adcFcs | .adcFifo | .adcDiv | .adcIntr | .adcInte | .adcIntf | .adcInts => true
  | _ => false

/-! ### Reading a register -/

/-- `PWM_EN`: bit `s` is `PWM_CSR[s].EN` (10_state R38). -/
def State.pwmEn (s : State) : BitVec 8 := packBits (fun i => if h : i < 8 then s.slices[i].en else false) 8

/-- The 32 bits of a register at the moment of the read (20_memory R85, R100; 45_register_primitives R400). -/
def State.readReg (s : State) : Reg → Word
  | .ioCtrl p   => s.funcsel[p].setWidth 32
  | .ioIntr b   => s.intr b
  | .ioInte c b => s.cores[c].inte[b]
  | .ioIntf c b => s.cores[c].intf[b]
  | .ioInts c b => s.ints c b
  | .pad p      => s.pad[p].setWidth 32
  | .sioIn      => s.pinInAll.setWidth 32
  | .sioOut     => s.sioOut.setWidth 32
  | .sioOe      => s.sioOe.setWidth 32
  | .pwmCsr i   => s.slices[i].csr.setWidth 32
  | .pwmDiv i   => s.slices[i].div.setWidth 32
  | .pwmCtr i   => s.slices[i].ctr.setWidth 32
  | .pwmCc i    => s.slices[i].cc
  | .pwmTop i   => s.slices[i].top.setWidth 32
  | .pwmEn      => s.pwmEn.setWidth 32
  | .pwmIntr    => s.pwmIntr.setWidth 32
  | .pwmInte    => s.pwmInte.setWidth 32
  | .pwmIntf    => s.pwmIntf.setWidth 32
  | .pwmInts    => s.pwmInts.setWidth 32
  | .adcCs      => s.adc.cs
  | .adcResult  => s.adc.result.setWidth 32
  | .adcFcs     => s.adc.fcs
  | .adcFifo    => 0
  | .adcDiv     => s.adc.pace
  | .adcIntr    => 0
  | .adcInte    => s.adc.inte
  | .adcIntf    => s.adc.intf
  | .adcInts    => 0
  | .rst        => (BitVec.ofBool s.adc.rst).setWidth 32
  | .rstDone    => (BitVec.ofBool s.adc.rstDone).setWidth 32

/-! ### Writing a register -/

/-- `PWM_CSR[s]` written: writing 1 to a phase bit posts the request, writing 0 leaves a posted one (20_memory R86 (c)). -/
def Slice.writeCsr (sl : Slice) (new : Word) : Slice :=
  { sl with csr := (new.extractLsb' 0 8 &&& 0x3F) ||| ((sl.csr ||| new.extractLsb' 0 8) &&& 0xC0) }
/-- `PWM_DIV[s]` written: also clears `frac_acc[s]` (20_memory R86 (h)). -/
def Slice.writeDiv (sl : Slice) (touched new : Word) : Slice :=
  if touched &&& 0xFFF = 0 then sl else { sl with div := new.extractLsb' 0 12, fracAcc := 0 }
/-- `PWM_CTR[s]` written: also clears `dir_down[s]` (42_pwm_engine R186). -/
def Slice.writeCtr (sl : Slice) (touched new : Word) : Slice :=
  if touched &&& 0xFFFF = 0 then sl else { sl with ctr := new.extractLsb' 0 16, dirDown := false }
/-- `PWM_CSR[s].EN` written through `PWM_EN` (20_memory R86 (d)). -/
def Slice.writeEn (sl : Slice) (v : Bool) : Slice := { sl with csr := (sl.csr &&& 0xFE) ||| (BitVec.ofBool v).setWidth 8 }

/-- The word `new` stored in a register; `touched` are the bit positions the write delivers, where a side effect happens
(20_memory R86; 45_register_primitives R401). Read-only registers and unused bits ignore it. While `RST.ADC` is 1 the ADC
registers stay at their reset values (43_adc_sequencer R244). -/
def State.storeReg (s : State) (r : Reg) (touched new : Word) : State :=
  match r with
  | .ioCtrl p   => { s with funcsel := s.funcsel.set p (new.extractLsb' 0 5) }
  | .ioIntr b   => { s with ioIntr := s.ioIntr.set b (s.ioIntr[b] &&& ~~~new) }
  | .ioInte c b => s.setCore c { s.cores[c] with inte := s.cores[c].inte.set b (new &&& bankMask b) }
  | .ioIntf c b => s.setCore c { s.cores[c] with intf := s.cores[c].intf.set b (new &&& bankMask b) }
  | .ioInts _ _ => s
  | .pad p      => { s with pad := s.pad.set p (new.extractLsb' 0 8) }
  | .sioIn      => s
  | .sioOut     => { s with sioOut := new.extractLsb' 0 30 }
  | .sioOe      => { s with sioOe := new.extractLsb' 0 30 }
  | .pwmCsr i   => s.setSlice i (s.slices[i].writeCsr new)
  | .pwmDiv i   => s.setSlice i (s.slices[i].writeDiv touched new)
  | .pwmCtr i   => s.setSlice i (s.slices[i].writeCtr touched new)
  | .pwmCc i    => s.setSlice i { s.slices[i] with cc := new }
  | .pwmTop i   => s.setSlice i { s.slices[i] with top := new.extractLsb' 0 16 }
  | .pwmEn      => { s with slices := Vector.ofFn (fun i : SliceId => s.slices[i].writeEn (new.getLsbD i)) }
  | .pwmIntr    => { s with pwmIntr := s.pwmIntr &&& ~~~(new.extractLsb' 0 8) }
  | .pwmInte    => { s with pwmInte := new.extractLsb' 0 8 }
  | .pwmIntf    => { s with pwmIntf := new.extractLsb' 0 8 }
  | .pwmInts    => s
  | .adcCs      => if s.adc.rst then s else s.setAdc (s.adc.writeCs s.params touched new)
  | .adcResult  => s
  | .adcFcs     => if s.adc.rst then s else s.setAdc { s.adc with fcs := new }
  | .adcFifo    => s
  | .adcDiv     => if s.adc.rst then s else s.setAdc { s.adc with pace := new }
  | .adcIntr    => s
  | .adcInte    => if s.adc.rst then s else s.setAdc { s.adc with inte := new }
  | .adcIntf    => if s.adc.rst then s else s.setAdc { s.adc with intf := new }
  | .adcInts    => s
  | .rst        =>
    if !touched.getLsbD 0 then s
    else if new.getLsbD 0 then s.setAdc s.adc.assertReset
    else s.setAdc (s.adc.releaseReset s.params.resetTicks)
  | .rstDone    => s

/-- The write-1-to-clear registers (45_register_primitives R404). -/
def regIsW1c : Reg → Bool
  | .ioIntr _ | .pwmIntr => true
  | _ => false

/-- A write of the whole register. -/
def State.writeReg (s : State) (r : Reg) (w : Word) : State := s.storeReg r 0xFFFFFFFF w

/-- The word an atomic set of the bits of `m` delivers: `old | m`, and `m` to a write-1-to-clear register
(45_register_primitives R401, R404). -/
def State.setWord (s : State) (r : Reg) (m : Word) : Word := if regIsW1c r then m else s.readReg r ||| m
/-- The word an atomic clear delivers: `old & ~m`, and 0 to a write-1-to-clear register (R402, R404). -/
def State.clrWord (s : State) (r : Reg) (m : Word) : Word := if regIsW1c r then 0 else s.readReg r &&& ~~~m

/-- One atomic set (20_memory R93). -/
def State.setBits (s : State) (r : Reg) (m : Word) : State := s.storeReg r m (s.setWord r m)
/-- One atomic clear (20_memory R93). -/
def State.clrBits (s : State) (r : Reg) (m : Word) : State := s.storeReg r m (s.clrWord r m)

/-- The refused results of a primitive's write (45_register_primitives R406, complete list). -/
def refusedWrite (r : Reg) (new : Word) : Bool :=
  match r with
  | .ioCtrl _ => new &&& 0x30033300 ≠ 0
  | .pad _    => new.getLsbD 7
  | .pwmDiv _ => new &&& 0xFF0 = 0
  | .adcFcs   => new.getLsbD 0
  | .adcCs    => new &&& 0x1F0008 ≠ 0
  | _ => false

/-- A primitive may not access the register: it is an ADC register and the block is not out of reset (20_memory R96). -/
def State.inaccessible (s : State) (r : Reg) : Bool := regIsAdc r && !s.adc.rstDone

/-! ### Draws -/

/-- `adc_sample(ch)`: the next recorded draw, else a free one (10_state R53; log 8). -/
def State.sample (s : State) (ch : BitVec 3) : BitVec 12 :=
  match s.samples with
  | x :: _ => x
  | [] => Config.adcSample ch s.drawNo
/-- The state after a draw. -/
def State.drawn (s : State) : State :=
  match s.samples with
  | _ :: xs => { s with samples := xs }
  | [] => { s with drawNo := s.drawNo + 1 }

/-! ### Agents, responses and errors -/

/-- The agent of core `c` that may step is `Irq(c)` (10_state R63). -/
def State.inIrqCtx (s : State) (c : CoreId) : Bool := s.cores[c].inIrq.isSome

/-- The operation in flight of an agent of core `c`: of `Irq(c)` where `irq`, else of `Main(c)`. -/
def State.flight (s : State) (c : CoreId) (irq : Bool) : Option Flight :=
  if irq then s.cores[c].irq else s.cores[c].main
/-- That operation becomes `f`. -/
def State.setFlight (s : State) (c : CoreId) (irq : Bool) (f : Option Flight) : State :=
  s.setCore c (if irq then { s.cores[c] with irq := f } else { s.cores[c] with main := f })
/-- The last response to that agent becomes `r`. -/
def State.setResp (s : State) (c : CoreId) (irq : Bool) (r : Option Resp) : State :=
  s.setCore c (if irq then { s.cores[c] with irqResp := r } else { s.cores[c] with mainResp := r })

/-- An operation ends with a status and a result word, and its agent is idle (00_scope R18, 30_encoding R110). -/
def State.respond (s : State) (c : CoreId) (irq : Bool) (st : Status) (res : Word) : State :=
  (s.setFlight c irq none).setResp c irq (some { st := st, res := res })

/-- An error ends the operation at once; `res` is 0 on every error and what was done stays done (60_exceptions R310,
R311). -/
def State.raise (s : State) (c : CoreId) (irq : Bool) (e : Status) : State := s.respond c irq e 0

/-! ### Interrupt entry and return -/

/-- The dispatch routine of an interrupt, from its first micro-step (60_exceptions R320). -/
def dispatchCode : IrqKind → List DStep
  | .pwmWrap  => [.pwmMask, .leave]
  | .gpioBank => [.gpioRead 0, .gpioRead 1, .gpioRead 2, .gpioRead 3, .leave]

/-- Interrupt entry on core `c` is enabled (60_exceptions R326). -/
def State.entryEnabled (s : State) (c : CoreId) : Bool :=
  !s.fatal && s.cores[c].inIrq.isNone && (s.pwmPending c || s.gpioPending c)

/-- Interrupt entry: `in_irq[c]` names the interrupt, the PWM wrap first, and the dispatch begins; nothing is saved
(60_exceptions R322, R326, R327). Where it is not enabled nothing happens. -/
def State.enterIrq (s : State) (c : CoreId) : State :=
  if s.entryEnabled c then
    let k : IrqKind := if s.pwmPending c then .pwmWrap else .gpioBank
    s.setCore c { s.cores[c] with inIrq := some k, disp := dispatchCode k }
  else s

/-- Interrupt return: `in_irq[c] <- None`, the dispatch is over, nothing is restored (60_exceptions R330). -/
def State.leaveIrq (s : State) (c : CoreId) : State := s.setCore c { s.cores[c] with inIrq := none, disp := [] }

/-- `invoke h(kind, a0, a1)`: the handler is open, the message is emitted, and the handler's commands are those
`handler_body` gives (44_irq_router R292, 30_encoding R122; log 10). -/
def State.openHandler (s : State) (c : CoreId) (kind : CbKind) (h : Word) (a0 a1 : Nat) : State :=
  let body := (s.params.handlers.lookup h).getD (Config.handlerBody h s.cbLog.length)
  { s.setCore c { s.cores[c] with cbDepth := 1, irqQ := body } with
    cbLog := { core := c, kind := kind, h := h, a0 := a0, a1 := a1 } :: s.cbLog }

end Sys2Proof.Machine
end

