-- ==== Sys2Proof/Machine/Prim.lean ====
section
/-! DEFINITION. The operations as micro-step programs: what every operation is made of, `Nop` (30_encoding R121) and the
register primitives (45_register_primitives). -/

namespace Sys2Proof.Machine

/-- An accepted command: its micro-steps, its result where no micro-step gives one, and what is done with the result; or the
status with which the operand checks end it (30_encoding R113). -/
abbrev Op := Except Status Flight

/-- The operation with these micro-steps and this result. -/
def opOf (code : List Micro) (res : Word := 0) (post : Post := .plain) : Op := .ok { code := code, res := res, post := post }

/-- The operation for a checked operand; `BadParameter` where it is out of range (30_encoding R113). -/
def withOperand {α : Type} (v : Option α) (k : α → Op) : Op :=
  match v with
  | none => .error .badParameter
  | some x => k x

/-- The strict check, first where `S` is 1 (30_encoding R114). -/
def strictCheck (strict : Bool) (p : Pin) : List Micro := if strict then [.strictTest p] else []

/-- `Nop` (30_encoding R121). -/
def opNop : Op := opOf []

/-- `RegGet` (45_register_primitives R400). -/
def opRegGet (a : Word) (s : State) : Op := withOperand (s.regOf a) (fun r => opOf [.primGet r])

/-- `RegSet` (45_register_primitives R401). -/
def opRegSet (a m : Word) (s : State) : Op := withOperand (s.regOf a) (fun r => opOf [.primSet r m])

/-- `RegClr` (45_register_primitives R402). -/
def opRegClr (a m : Word) (s : State) : Op := withOperand (s.regOf a) (fun r => opOf [.primClr r m])

/-- `RegReplace` (45_register_primitives R403). -/
def opRegReplace (a m v : Word) (s : State) : Op := withOperand (s.regOf a) (fun r => opOf [.primRead r m v])

end Sys2Proof.Machine
end

