-- ==== Sys2Proof/Machine/Adc.lean ====
section
/-! DEFINITION. The ADC operations as micro-step programs, and the sequencer (43_adc_sequencer). -/

namespace Sys2Proof.Machine

/-! ### The sequencer -/

/-- A countdown takes one step: what remains, and whether it fires (R247). -/
def countdown : Option Nat → Option Nat × Bool
  | none => (none, false)
  | some n => if n ≤ 1 then (none, true) else (some (n - 1), false)

/-- One step of `AdcSeq` (R247); a conversion that ends draws its sample (R251). -/
def State.adcSeq (s : State) : State :=
  let a := s.adc
  let (resetLeft, resetFires) := countdown a.resetLeft
  let (readyLeft, readyFires) := countdown a.readyLeft
  let (convLeft, convFires) := countdown a.convLeft
  let a' : AdcBlock :=
    { a with resetLeft := resetLeft, readyLeft := readyLeft, convLeft := convLeft,
             rstDone := a.rstDone || resetFires,
             cs := if readyFires || convFires then a.cs ||| csReady else a.cs,
             result := if convFires then s.sample a.ainsel else a.result }
  if convFires then s.drawn.setAdc a' else s.setAdc a'

/-! ### Operations -/

/-- `ADC_init` (b) to (g), once (a) has read `false` (R242). -/
def adcInitCode : List Micro :=
  [.setBits .rst 1, .clrBits .rst 1, .poll .resetDone 0, .write .adcCs 1, .poll .ready 0, .setInited]

/-- `AdcGet`, (a) and (b); the read (b) is followed by the write (c); then (d) (e) (f) (R252). -/
def adcGetCode (ch : AdcCh) : List Micro :=
  [.needCreated ch, .readCs ch, .setBits .adcCs 0x04, .poll .ready 0, .readResult]

/-- `ADC_init` (R242). -/
def opAdcInit : Op := opOf [.testInited]

/-- `AdcTemp` (R256). -/
def opAdcTemp : Op := opOf [.testInited, .testCreated 4] 4

/-- `AdcGet` (R252). -/
def opAdcGet (ch : Byte) : Op := withOperand (chOf ch) (fun k => opOf (adcGetCode k))

/-- `GetVoltage` (R258). -/
def opGetVoltage (ch : Byte) (vref : Word) : Op := withOperand (chOf ch) (fun k => opOf (adcGetCode k) 0 (.voltage vref))

/-- `GetTemperature` (R262): on another channel it makes no access of any kind. -/
def opGetTemperature (ch : Byte) (s : State) : Op :=
  withOperand (chOf ch) (fun k =>
    if k ≠ 4 then
      match s.params.tempWrongChannel with
      | .zero => opOf []
      | .error => .error .badParameter
    else opOf ([.needCreated 4, .testSensor] ++ adcGetCode 4) 0 .temperature)

end Sys2Proof.Machine
end

