-- ==== Sys2Proof/Machine/Float32.lean ====
section
/-! DEFINITION. IEEE 754 binary32 arithmetic, round to nearest even, on the 32 bits of a number (30_encoding R119,
43_adc_sequencer R260). A NaN result has a free sign and payload (95_test_vectors A7; log 9). -/

namespace Sys2Proof.Machine

/-- A binary32 number: not a number, an infinity, or `(−1)^neg × m × 2^e`. -/
inductive F32 where
  | nan
  | inf (neg : Bool)
  | fin (neg : Bool) (m : Nat) (e : Int)
  deriving DecidableEq, Repr, Inhabited

/-- The number a word stands for. -/
def f32Of (w : Word) : F32 :=
  let neg := w.getLsbD 31
  let ex := (w.extractLsb' 23 8).toNat
  let fr := (w.extractLsb' 0 23).toNat
  if ex = 255 then (if fr = 0 then .inf neg else .nan)
  else if ex = 0 then .fin neg fr (-149)
  else .fin neg (fr + 2 ^ 23) (ex - 150)

/-- The sign bit of a word. -/
def f32Sign (neg : Bool) : Word := if neg then 0x80000000 else 0
/-- An infinity. -/
def f32Inf (neg : Bool) : Word := f32Sign neg ||| 0x7F800000
/-- A quiet NaN with a free sign and payload. -/
def f32Nan (a b : Word) : Word := 0x7FC00000 ||| (Config.nanPayload a b &&& 0x803FFFFF)

/-- `m / 2^k`, rounded to the nearest whole number, to the even one on a tie. -/
def roundShift (m k : Nat) : Nat :=
  let q := m / 2 ^ k
  let r := m % 2 ^ k
  if 2 * r > 2 ^ k ∨ (2 * r = 2 ^ k ∧ q % 2 = 1) then q + 1 else q

/-- The word nearest to `(−1)^neg × m × 2^e`. The quantum is `2^q` with `q` at least −149, so that 24 bits remain; a carry out
of the 24 bits runs into the exponent field, which is its right value. -/
def roundF32 (neg : Bool) (m : Nat) (e : Int) : Word :=
  if m = 0 then f32Sign neg
  else
    let q : Int := max (Nat.log2 m + e - 23) (-149)
    let n := if q ≤ e then m * 2 ^ (e - q).toNat else roundShift m (q - e).toNat
    let bits := (q + 149).toNat * 2 ^ 23 + n
    if 0x7F800000 ≤ bits then f32Inf neg else f32Sign neg ||| BitVec.ofNat 32 bits

/-- A whole number as a binary32 number. -/
def f32OfNat (n : Nat) : Word := roundF32 false n 0

/-- `a × b`. -/
def f32Mul (a b : Word) : Word :=
  match f32Of a, f32Of b with
  | .nan, _ => f32Nan a b
  | _, .nan => f32Nan a b
  | .inf s, .inf t => f32Inf (s ^^ t)
  | .inf s, .fin t m _ => if m = 0 then f32Nan a b else f32Inf (s ^^ t)
  | .fin s m _, .inf t => if m = 0 then f32Nan a b else f32Inf (s ^^ t)
  | .fin s m e, .fin t n f => roundF32 (s ^^ t) (m * n) (e + f)

/-- `a / b`. The quotient is taken with 64 bits below the point and a last bit that says whether anything remains, which
does not change the rounding. -/
def f32Div (a b : Word) : Word :=
  match f32Of a, f32Of b with
  | .nan, _ => f32Nan a b
  | _, .nan => f32Nan a b
  | .inf _, .inf _ => f32Nan a b
  | .inf s, .fin t _ _ => f32Inf (s ^^ t)
  | .fin s _ _, .inf t => f32Sign (s ^^ t)
  | .fin s m e, .fin t n f =>
    if n = 0 then (if m = 0 then f32Nan a b else f32Inf (s ^^ t))
    else
      let x := m * 2 ^ 64
      roundF32 (s ^^ t) (2 * (x / n) + if x % n = 0 then 0 else 1) (e - f - 65)

/-- `(−1)^neg × m × 2^k` as a whole number. -/
def f32Whole (neg : Bool) (m k : Nat) : Int := if neg then -(m * 2 ^ k : Nat) else (m * 2 ^ k : Nat)

/-- `a − b`. A zero result is negative only for `−0 − (+0)`. -/
def f32Sub (a b : Word) : Word :=
  match f32Of a, f32Of b with
  | .nan, _ => f32Nan a b
  | _, .nan => f32Nan a b
  | .inf s, .inf t => if s = t then f32Nan a b else f32Inf s
  | .inf s, .fin _ _ _ => f32Inf s
  | .fin _ _ _, .inf t => f32Inf (!t)
  | .fin s m e, .fin t n f =>
    let g := min e f
    let d := f32Whole s m (e - g).toNat - f32Whole t n (f - g).toNat
    if d = 0 then f32Sign (s && !t && m == 0 && n == 0) else roundF32 (d < 0) d.natAbs g

/-- `raw × vref / 4096` (43_adc_sequencer R258, R260). -/
def voltageOf (raw vref : Word) : Word := f32Div (f32Mul (f32OfNat raw.toNat) vref) 0x45800000

/-- `27 − (V − 0.706) / 0.001721` with `V` the voltage for `vref = 3.3` (43_adc_sequencer R260, R262). -/
def temperatureOf (raw : Word) : Word :=
  f32Sub 0x41D80000 (f32Div (f32Sub (voltageOf raw 0x40533333) 0x3F34BC6A) 0x3AE1932D)

end Sys2Proof.Machine
end

