-- ==== Sys2Proof/Machine/Gpio.lean ====
section
/-! DEFINITION. The GPIO arbiter's operations as micro-step programs (41_gpio_arbiter). `testInited`, the first micro-step of
`ADC_init`, begins `Adc`. -/

namespace Sys2Proof.Machine

/-- `low_level_init(p)`, (b) (c) (d) (R143). -/
def lowLevelInit (p : Pin) : List Micro := [.clrBits .sioOe (bitAt p), .clrBits .sioOut (bitAt p), .setInit p]

/-- `deinit_body(p)`, (a) (b) (d) (e); the pad read (b) is followed by the pad write (c) (R154). -/
def deinitBody (p : Pin) : List Micro :=
  [.write (.ioCtrl p) (fNull.setWidth 32), .readPad p .off, .clrBits .sioOe (bitAt p), .writeFn p .off]

/-- `program(p, m)`, (f) (g) (i); the pad read (g) is followed by the pad write (h) (R151). -/
def programPin (p : Pin) (m : Mode) : List Micro :=
  [.write (.ioCtrl p) ((hwFuncsel m).setWidth 32), .readPad p m,
   if hwOe m then .setBits .sioOe (bitAt p) else .clrBits .sioOe (bitAt p)]

/-- `SetMode` from `program` on: (f) to (k), with the readback (j) for `Output` only (R150, R152). -/
def programAndRecord (p : Pin) (m : Mode) : List Micro :=
  programPin p m ++ (if m = .output then [.readBack p] else []) ++ [.writeFn p m]

/-- `SetMode`, (a) and (e); what follows depends on what they read (R150). -/
def setModeCode (p : Pin) (m : Mode) : List Micro := [.testInit p, .readFn p m]

/-- `Init` (R142). -/
def opInit (pin : Byte) : Op := withOperand (pinOf pin) (fun p => opOf [.testInit p])

/-- `SetMode` (R150). -/
def opSetMode (pin mode : Byte) : Op :=
  withOperand (pinOf pin) (fun p => withOperand (modeOf mode) (fun m => opOf (setModeCode p m)))

/-- `Deinit` (R154). -/
def opDeinit (strict : Bool) (pin : Byte) : Op :=
  withOperand (pinOf pin) (fun p => opOf (strictCheck strict p ++ deinitBody p))

/-- `Mode` (R156). -/
def opMode (strict : Bool) (pin : Byte) : Op :=
  withOperand (pinOf pin) (fun p => opOf (strictCheck strict p ++ [.readMode p]))

/-- `Get` (R158). -/
def opGet (strict : Bool) (pin : Byte) : Op :=
  withOperand (pinOf pin) (fun p => opOf (strictCheck strict p ++ [.readIn p]))

/-- `Set` (R160). -/
def opSet (strict : Bool) (pin level : Byte) : Op :=
  withOperand (pinOf pin) (fun p => withOperand (boolOf level) (fun v =>
    opOf (strictCheck strict p ++ [if v then .setBits .sioOut (bitAt p) else .clrBits .sioOut (bitAt p)])))

/-- `Pwm` (R164): the result is `(slice(p) << 1) | chan(p)`. -/
def opPwm (pin : Byte) : Op :=
  withOperand (pinOf pin) (fun p =>
    opOf [.pwmTest p] (BitVec.ofNat 32 (2 * (sliceOfPin p).val) ||| (if chanBOfPin p then 1 else 0)))

/-- `Adc` (R168): a pin below 26 ends with `BadParameter` once `ADC_init` has run. -/
def opAdc (pin : Byte) : Op :=
  withOperand (pinOf pin) (fun p =>
    match adcChan p with
    | none => opOf [.testInited] 0 .badParameter
    | some ch => opOf ([.testInited] ++ deinitBody p ++ [.testCreated ch]) (BitVec.ofNat 32 ch))

end Sys2Proof.Machine
end

