-- ==== Sys2Proof/Machine/Irq.lean ====
section
/-! DEFINITION. The interrupt router's operations as micro-step programs, and the synthetic events (44_irq_router). -/

namespace Sys2Proof.Machine

/-- `reg(p)` (R271). -/
def bankOf (p : Pin) : BankReg := ⟨p.val / 8, by omega⟩
/-- `mask4(p)` (R271). -/
def mask4 (p : Pin) : Word := 0xF#32 <<< (4 * (p.val % 8))
/-- `edges(p)` (R271). -/
def edgesOf (p : Pin) : Word := 0xC#32 <<< (4 * (p.val % 8))
/-- `rise(p)` (R271). -/
def riseOf (p : Pin) : Word := 0x8#32 <<< (4 * (p.val % 8))
/-- `fall(p)` (R271). -/
def fallOf (p : Pin) : Word := 0x4#32 <<< (4 * (p.val % 8))

/-- The four event bits of pin `8b + i` in a status word (R288). -/
def eventBits (w : Word) (i : Nat) : BitVec 4 := w.extractLsb' (4 * i) 4

/-- `AssertEvent(p, 3)` where `rise`, else `AssertEvent(p, 2)` (R274). -/
def State.assertEvent (s : State) (p : Pin) (rise : Bool) : State :=
  { s with ioIntr := s.ioIntr.set (bankOf p) (s.ioIntr[bankOf p] ||| (if rise then riseOf p else fallOf p)) }

/-- `AssertWrap(s)` (R274). -/
def State.assertWrap (s : State) (i : SliceId) : State := { s with pwmIntr := s.pwmIntr ||| (1#8 <<< i.val) }

/-- `SetInterrupt` (R280, R284), issued on core `c`. -/
def opSetInterrupt (pin : Byte) (h : Word) (s : State) (c : CoreId) : Op :=
  withOperand (pinOf pin) (fun p =>
    opOf (if h ≠ 0 then
            [.write (.ioIntr (bankOf p)) (mask4 p), .setBits (.ioInte c (bankOf p)) (edgesOf p), .bindPin p h 3, .testGateGpio]
          else (if s.params.nilDisablesLine then [.writeGateGpio false] else [])
            ++ [.clrBits (.ioInte c (bankOf p)) (edgesOf p), .bindPin p 0 0]))

/-- A handler is open on core `c` and its context issues: what `CbReturn` and `CbFault` need (R294, R296). -/
def State.handlerOpen (s : State) (c : CoreId) : Bool := s.inIrqCtx c && s.cores[c].cbDepth == 1

/-- `CbReturn` (R294). -/
def opCbReturn (s : State) (c : CoreId) : Op := if s.handlerOpen c then opOf [.closeHandler] else .error .badParameter

/-- `CbFault` (R296). -/
def opCbFault (s : State) (c : CoreId) : Op := if s.handlerOpen c then opOf [.handlerFault] else .error .badParameter

end Sys2Proof.Machine
end

