-- ==== Sys2Proof/Machine/Pwm.lean ====
section
/-! DEFINITION. The PWM operations as micro-step programs, the period solver, the wrap dispatch's programs, and the time base
(42_pwm_engine). -/

namespace Sys2Proof.Machine

/-! ### The time base -/

/-- `gate(s)` for the gating input `b` (R182). -/
def Slice.gate (sl : Slice) (b : Bool) : Bool :=
  match sl.divmode with
  | 0#2 => true
  | 1#2 => b
  | 2#2 => b && !sl.prevB
  | _   => !b && sl.prevB

/-- `divider_step(s)`: the new accumulator, and whether a tick is emitted (R183). -/
def Slice.dividerStep (sl : Slice) : Nat × Bool :=
  if sl.div16 ≤ sl.fracAcc + 16 then (sl.fracAcc + 16 - sl.div16, true) else (sl.fracAcc + 16, false)

/-- `count_tick(s)`: the slice, and whether it raises `wrap_event(s)` (R184, R185). -/
def Slice.countTick (sl : Slice) : Slice × Bool :=
  if !sl.phCorrect then
    if sl.ctr = sl.top then ({ sl with dirDown := false, ctr := 0 }, true)
    else ({ sl with dirDown := false, ctr := sl.ctr + 1 }, false)
  else if !sl.dirDown then
    if sl.ctr = sl.top then ({ sl with dirDown := true }, false) else ({ sl with ctr := sl.ctr + 1 }, false)
  else
    if sl.ctr = 0 then ({ sl with dirDown := false }, true) else ({ sl with ctr := sl.ctr - 1 }, false)

/-- One cycle of a slice for the gating input `b`: the slice, and whether it raises `wrap_event(s)`. A tick the divider emits
is swallowed by a posted retard; a cycle then without a tick is given one by a posted advance (R180, R188, R189). -/
def Slice.cycle (sl : Slice) (b : Bool) : Slice × Bool :=
  let g := sl.gate b
  let sl := { sl with prevB := b }
  if !sl.en || !g then (sl, false)
  else
    let (acc, n) := sl.dividerStep
    let sl := { sl with fracAcc := acc }
    let (sl, n) := if sl.phRet && n then ({ sl with csr := sl.csr &&& 0xBF }, false) else (sl, n)
    let (sl, n) := if sl.phAdv && !n then ({ sl with csr := sl.csr &&& 0x7F }, true) else (sl, n)
    if n then sl.countTick else (sl, false)

/-- One step of `PwmClk`: every slice takes one cycle; wrap events set their bits of `PWM_INTR` (R180, R187). -/
def State.pwmClk (s : State) : State :=
  { s with
    slices := Vector.ofFn (fun i : SliceId => (s.slices[i].cycle (s.env.bIn.getLsbD i)).1)
    pwmIntr := s.pwmIntr ||| packBits (fun i => if h : i < 8 then (s.slices[i].cycle (s.env.bIn.getLsbD i)).2 else false) 8 }

/-! ### The period solver -/

/-- `SetPeriod`'s arithmetic: the record for a period of `P` nanoseconds (R220, R222, R223, R225). -/
def periodCfg (c : PwmCfg) (P : Nat) : PwmCfg :=
  let pc := if 134184960 < P then true else c.phCorrect
  let k := if pc then 2 else 1
  let d := P * 16 / (65536 * 8 * k)
  let di0 := d / 16
  let df := if di0 = 0 then 0 else d % 16
  let di := if di0 = 0 then 1 else min di0 255
  let n := P * 16 / (8 * (16 * di + df) * k)
  { c with divInt := BitVec.ofNat 8 di, divFrac := BitVec.ofNat 4 df,
           wrap := BitVec.ofNat 16 (min (n - 1) 65535), phCorrect := pc }

/-! ### The registers `SetEnabled(true)` writes -/

/-- `PWM_DIV[s]` for a record (R214 (b)). -/
def divWord (c : PwmCfg) : Word := (c.divInt ++ c.divFrac).setWidth 32
/-- `PWM_CSR[s]` for a record: `EN`, `PH_ADV`, `PH_RET` as read (R214 (e)). -/
def csrWord (c : PwmCfg) (v : Word) : Word :=
  (v &&& 0xC1) ||| (if c.phCorrect then 0x02 else 0) ||| (if c.invA then 0x04 else 0) ||| (if c.invB then 0x08 else 0)
    ||| (c.divmode.setWidth 32 <<< 4)

/-! ### Operations -/

/-- `PwmGet` (R196). -/
def opPwmGet (slice chan : Byte) : Op :=
  withOperand (sliceOf slice) (fun i => withOperand (boolOf chan) (fun b => opOf [.readLevel i b]))

/-- `PwmSet` (R198). -/
def opPwmSet (slice chan : Byte) (level : Word) : Op :=
  withOperand (sliceOf slice) (fun i => withOperand (boolOf chan) (fun b => withOperand (halfOf level) (fun l =>
    opOf [.readLevelToSet i b l])))

/-- `Counter` (R200). -/
def opCounter (slice : Byte) : Op := withOperand (sliceOf slice) (fun i => opOf [.readCounter i])

/-- `SetCounter` (R202). -/
def opSetCounter (slice : Byte) (value : Word) : Op :=
  withOperand (sliceOf slice) (fun i => withOperand (halfOf value) (fun v => opOf [.write (.pwmCtr i) (v.setWidth 32)]))

/-- `Inc` (R206). -/
def opInc (slice : Byte) : Op :=
  withOperand (sliceOf slice) (fun i => opOf [.setBits (.pwmCsr i) 0x80, .poll (.phAdvClear i) 0])

/-- `Dec` (R208). -/
def opDec (slice : Byte) : Op :=
  withOperand (sliceOf slice) (fun i => opOf [.setBits (.pwmCsr i) 0x40, .poll (.phRetClear i) 0])

/-- `SetWrap` (R210). -/
def opSetWrap (slice : Byte) (wrap : Word) : Op :=
  withOperand (sliceOf slice) (fun i => withOperand (halfOf wrap) (fun w => opOf [.setWrapRec i w]))

/-- `Wrap` (R212). -/
def opWrap (slice : Byte) : Op := withOperand (sliceOf slice) (fun i => opOf [.readWrapRec i])

/-- `SetEnabled` (R214): with `true`, (a), then (b) to (g) with the record read; with `false`, one atomic clear. -/
def opSetEnabled (slice enable : Byte) : Op :=
  withOperand (sliceOf slice) (fun i => withOperand (boolOf enable) (fun e =>
    opOf (if e then [.readCfg i] else [.clrBits (.pwmCsr i) 0x01])))

/-- `SetEnabled(true)` (b) to (g) with the record `c`; the read (d) is followed by the write (e) (R214, R216). -/
def enableCode (i : SliceId) (c : PwmCfg) : List Micro :=
  [.write (.pwmDiv i) (divWord c), .write (.pwmTop i) (c.wrap.setWidth 32), .readCsr i c,
   .write (.pwmCtr i) 0, .setBits (.pwmCsr i) 0x01]

/-- `PwmSetInterrupt` (R228). -/
def opPwmSetInterrupt (slice : Byte) (h : Word) (s : State) : Op :=
  withOperand (sliceOf slice) (fun i =>
    opOf (if h ≠ 0 then [.writeCb i h, .setBits .pwmInte (bitAt i), .testGatePwm]
          else [.clrBits .pwmInte (bitAt i), .writeCb i 0]
            ++ (if s.params.nilDisablesLine then [.writeGatePwm false] else [])))

/-- `SetPeriod` (R220). -/
def opSetPeriod (slice : Byte) (period : Word) : Op :=
  withOperand (sliceOf slice) (fun i => withOperand (periodOf period) (fun P => opOf [.readCfgForPeriod i P]))

end Sys2Proof.Machine
end

