-- ==== Sys2Proof/Machine/Micro.lean ====
section
/-! DEFINITION. What one micro-step of an operation does, and one micro-step of a dispatch (00_scope R17, 20_memory R88,
42_pwm_engine R230, 44_irq_router R288). -/

namespace Sys2Proof.Machine

/-- How an operation goes on after a micro-step. -/
inductive After where
  /-- With these micro-steps, then the rest. -/
  | go (push : List Micro)
  /-- With this result word, then the rest. -/
  | yield (v : Word)
  /-- It ends with an error (00_scope R17). -/
  | raise (e : Status)
  /-- It ends without a response (44_irq_router R296). -/
  | halt
  deriving DecidableEq, Repr, Inhabited

/-- What the read of a poll finds (60_exceptions R317). -/
def State.pollHolds (s : State) : PollCond → Bool
  | .phAdvClear i => !s.slices[i].phAdv
  | .phRetClear i => !s.slices[i].phRet
  | .resetDone    => s.adc.rstDone
  | .ready        => s.adc.ready

/-- One poll, after `n` failed ones: go on, poll again, or `Timeout` where the budget is spent (60_exceptions R316). -/
def State.pollOnce (s : State) (c : PollCond) (n : Nat) : After :=
  if s.pollHolds c then .go []
  else match s.params.pollBudget with
    | none => .go [.poll c (n + 1)]
    | some b => if b ≤ n + 1 then .raise .timeout else .go [.poll c (n + 1)]

/-- The result of a primitive's write: refused, or made (45_register_primitives R406). -/
def State.primStore (s : State) (r : Reg) (touched new refusedOn : Word) : State × After :=
  if refusedWrite r refusedOn then (s, .raise .badParameter) else (s.storeReg r touched new, .go [])

/-- What one micro-step of an operation issued on core `c` does: at most one access, and how the operation goes on. The
constructors of `Micro` cite the pseudocode. -/
def State.microStep (s : State) (c : CoreId) : Micro → State × After
  | .write r w   => (s.writeReg r w, .go [])
  | .setBits r m => (s.setBits r m, .go [])
  | .clrBits r m => (s.clrBits r m, .go [])
  -- 45_register_primitives R400 to R404
  | .primGet r   => if s.inaccessible r then (s, .go [.stuck]) else (s, .yield (s.readReg r))
  | .primSet r m =>
    if s.inaccessible r then (s, .go [.stuck]) else s.primStore r m (s.setWord r m) (s.readReg r ||| m)
  | .primClr r m =>
    if s.inaccessible r then (s, .go [.stuck]) else s.primStore r m (s.clrWord r m) (s.readReg r &&& ~~~m)
  | .primRead r m v =>
    if s.inaccessible r then (s, .go [.stuck]) else (s, .go [.primWrite r ((s.readReg r &&& ~~~m) ||| (v &&& m))])
  -- R403 (b): the refused-write test comes before the access, and a refused result makes none (60_exceptions R311)
  | .primWrite r w =>
    if !refusedWrite r w && s.inaccessible r then (s, .go [.stuck]) else s.primStore r 0xFFFFFFFF w w
  | .stuck       => (s, .go [.stuck])
  -- 41_gpio_arbiter R142 to R168
  | .testInit p  => (s, .go (if s.pinInit[p] then [] else lowLevelInit p))
  | .setInit p   => ({ s with pinInit := s.pinInit.set p true }, .go [])
  | .readFn p m  =>
    (s, if m = .off then .go (deinitBody p)
        else if s.pinFn[p] ≠ .off ∧ s.pinFn[p] ≠ m then
          match s.params.switchPolicy with
          | .reject => .raise .duplicateValue
          | .implicitDeinit => .go (deinitBody p ++ programAndRecord p m)
        else .go (programAndRecord p m))
  | .readPad p m => (s, .go [.write (.pad p) (padFor m (s.readReg (.pad p)))])
  | .readBack p  => (s, if s.sioOe.getLsbD p && !s.params.padFault.getLsbD p then .go [] else .raise .unexpectedValue)
  | .writeFn p m => ({ s with pinFn := s.pinFn.set p m, pinPull := s.pinPull.set p (pullOf m) }, .go [])
  | .strictTest p => (s, if s.pinInit[p] then .go [] else .raise .notInitialised)
  | .readMode p  => (s, .yield (modeNumber s.pinFn[p]))
  | .readIn p    => (s, .yield ((BitVec.ofBool (s.pinIn p)).setWidth 32))
  | .pwmTest p   => (s, .go (if s.pinFn[p] ≠ .pwm then setModeCode p .pwm else []))
  | .testCreated ch => (s, .go (if s.adcCreated[ch] then [] else [.setCreated ch]))
  | .setCreated ch  => ({ s with adcCreated := s.adcCreated.set ch true }, .go [])
  -- 42_pwm_engine R196 to R228
  | .readLevel i b => (s, .yield ((s.slices[i].level b).setWidth 32))
  | .readLevelToSet i b l =>
    (s, .go [.write (.pwmCc i) (if b then l ++ s.slices[i].cc.extractLsb' 0 16 else s.slices[i].cc.extractLsb' 16 16 ++ l)])
  | .readCounter i  => (s, .yield (s.slices[i].ctr.setWidth 32))
  | .setWrapRec i w => (s.setSlice i { s.slices[i] with cfg := { s.slices[i].cfg with wrap := w } }, .go [])
  | .readWrapRec i  => (s, .yield (s.slices[i].cfg.wrap.setWidth 32))
  | .readCfg i      => (s, .go (enableCode i s.slices[i].cfg))
  | .readCsr i k    => (s, .go [.write (.pwmCsr i) (csrWord k (s.readReg (.pwmCsr i)))])
  | .readCfgForPeriod i P => (s, .go [.writeCfg i (periodCfg s.slices[i].cfg P)])
  | .writeCfg i k   => (s.setSlice i { s.slices[i] with cfg := k }, .go [])
  | .writeCb i h    => (s.setSlice i { s.slices[i] with cb := h }, .go [])
  | .testGatePwm    => (s, .go (if s.cores[c].nvicPwm then [] else [.writeGatePwm true]))
  | .writeGatePwm v => (s.setCore c { s.cores[c] with nvicPwm := v }, .go [])
  -- 44_irq_router R280 to R296
  | .testGateGpio   => (s, .go (if s.cores[c].nvicGpio then [] else [.writeGateGpio true]))
  | .writeGateGpio v => (s.setCore c { s.cores[c] with nvicGpio := v }, .go [])
  | .bindPin p h e  =>
    (s.setCore c { s.cores[c] with gpioCb := s.cores[c].gpioCb.set p h, gpioEdges := s.cores[c].gpioEdges.set p e }, .go [])
  -- 43_adc_sequencer R242 to R262
  | .testInited     => (s, .go (if s.adcInited then [] else adcInitCode))
  | .setInited      => ({ s with adcInited := true }, .go [])
  | .poll k n       => (s, s.pollOnce k n)
  | .needCreated ch => (s, if s.adcCreated[ch] then .go [] else .raise .notInitialised)
  | .readCs ch      => (s, .go [.write .adcCs ((s.readReg .adcCs &&& ~~~0x7004#32) ||| (BitVec.ofNat 32 ch <<< 12))])
  | .readResult     => (s, .yield (s.adc.result.setWidth 32))
  | .testSensor     => (s, .go (if s.adc.cs.getLsbD 1 then [] else [.setBits .adcCs 0x02]))
  | .closeHandler   => (s.setCore c { s.cores[c] with cbDepth := 0 }, .go [])
  | .handlerFault   => ({ s with fatal := true }, .halt)

/-- The dispatch of core `c` goes on with `code`. -/
def State.setDisp (s : State) (c : CoreId) (code : List DStep) : State := s.setCore c { s.cores[c] with disp := code }

/-- The slices whose bit of `m` is set, in ascending order (42_pwm_engine R230, R232). -/
def wrapLookups (m : BitVec 8) : List DStep :=
  ((List.finRange 8).filter (fun i : SliceId => m.getLsbD i)).map .pwmLookup

/-- For each pin of register `b` with an event in the status word `w`, in ascending order: the acknowledgement of exactly
the bits seen, then the lookup of its handler (44_irq_router R288, R289). -/
def gpioEvents (b : BankReg) (w : Word) : List DStep :=
  (List.finRange 8).flatMap (fun i : Fin 8 =>
    if h : 8 * b.val + i.val < 30 then
      if eventBits w i ≠ 0 then
        [.gpioAck b ((eventBits w i).setWidth 32 <<< (4 * i.val)), .gpioLookup ⟨8 * b.val + i.val, h⟩ (eventBits w i)]
      else []
    else [])

/-- What one micro-step of core `c`'s dispatch does, with `rest` the micro-steps after it. -/
def State.dispatchStep (s : State) (c : CoreId) (rest : List DStep) : DStep → State
  | .pwmMask     => s.setDisp c ([.pwmAck s.pwmInts] ++ wrapLookups s.pwmInts ++ rest)
  | .pwmAck m    => (s.writeReg .pwmIntr (m.setWidth 32)).setDisp c rest
  | .pwmLookup i =>
    s.setDisp c (if s.slices[i].cb ≠ 0 then .invoke .wrap s.slices[i].cb i.val 0 :: rest else rest)
  | .gpioRead b  => s.setDisp c (gpioEvents b (s.ints c b) ++ rest)
  | .gpioAck b w => (s.writeReg (.ioIntr b) w).setDisp c rest
  | .gpioLookup p ev =>
    let h := s.cores[c].gpioCb[p]
    let e := ev.extractLsb' 2 2 &&& s.cores[c].gpioEdges[p]
    s.setDisp c (if h ≠ 0 ∧ e ≠ 0 then .invoke .gpio h p.val e.toNat :: rest else .gpioAck (bankOf p) (mask4 p) :: rest)
  | .invoke kind h a0 a1 => (s.openHandler c kind h a0 a1).setDisp c rest
  | .leave       => s.leaveIrq c

end Sys2Proof.Machine
end

