-- ==== Sys2Proof/Machine/Agents.lean ====
section
/-! DEFINITION. The agents: how an operation in flight advances, how a command is presented and accepted, what one turn of any
agent does, and how a command is carried through the recorded turns (00_scope R5, 20_memory R87, R88, R95). -/

namespace Sys2Proof.Machine

/-- The operation of a decoded command as the agent of core `c` issues it in state `s` (30_encoding R120). -/
def opFor (i : Instr) (s : State) (c : CoreId) : Op :=
  match i with
  | .nop                 => opNop
  | .regGet a            => opRegGet a s
  | .regSet a m          => opRegSet a m s
  | .regClr a m          => opRegClr a m s
  | .regReplace a m v    => opRegReplace a m v s
  | .init p              => opInit p
  | .setMode p m         => opSetMode p m
  | .deinit t p          => opDeinit t p
  | .mode t p            => opMode t p
  | .get t p             => opGet t p
  | .set t p v           => opSet t p v
  | .pwm p               => opPwm p
  | .adc p               => opAdc p
  | .pwmGet i b          => opPwmGet i b
  | .pwmSet i b l        => opPwmSet i b l
  | .counter i           => opCounter i
  | .setCounter i v      => opSetCounter i v
  | .inc i               => opInc i
  | .dec i               => opDec i
  | .setWrap i w         => opSetWrap i w
  | .wrap i              => opWrap i
  | .setEnabled i e      => opSetEnabled i e
  | .pwmSetInterrupt i h => opPwmSetInterrupt i h s
  | .setPeriod i P       => opSetPeriod i P
  | .adcInit             => opAdcInit
  | .adcTemp             => opAdcTemp
  | .adcGet k            => opAdcGet k
  | .getVoltage k v      => opGetVoltage k v
  | .getTemperature k    => opGetTemperature k s
  | .setInterrupt p h    => opSetInterrupt p h s c
  | .cbReturn            => opCbReturn s c
  | .cbFault             => opCbFault s c

/-- An operation's last micro-step is made: it ends with `OK` and its result (00_scope R18). -/
def State.finish (s : State) (c : CoreId) (irq : Bool) (res : Word) (post : Post) : State :=
  match post with
  | .plain        => s.respond c irq .ok res
  | .voltage v    => s.respond c irq .ok (voltageOf res v)
  | .temperature  => s.respond c irq .ok (temperatureOf res)
  | .badParameter => s.raise c irq .badParameter

/-- The operation stays in flight, or ends where no micro-step is left. -/
def State.settle (s : State) (c : CoreId) (irq : Bool) (f : Flight) : State :=
  match f.code with
  | []     => s.finish c irq f.res f.post
  | _ :: _ => s.setFlight c irq (some f)

/-- The operation `f` in flight makes its next micro-step (10_state R21). -/
def State.advance (s : State) (c : CoreId) (irq : Bool) (f : Flight) : State :=
  match f.code with
  | [] => s.finish c irq f.res f.post
  | m :: rest =>
    match s.microStep c m with
    | (s', .go push) => s'.settle c irq { f with code := push ++ rest }
    | (s', .yield v) => s'.settle c irq { f with code := rest, res := v }
    | (s', .raise e) => s'.raise c irq e
    | (s', .halt)    => s'.setFlight c irq none

/-- A command is accepted: where its checks end it, it ends there; otherwise its first micro-step is made in the same atomic
step (log 20). A command in interrupt context without an open handler is `BadParameter` (30_encoding R111; log 4). -/
def State.start (s : State) (c : CoreId) (irq : Bool) (op : Op) : State :=
  if irq && s.cores[c].cbDepth ≠ 1 then s.raise c irq .badParameter
  else match op with
    | .error e => s.raise c irq e
    | .ok f => (s.setResp c irq none).advance c irq f

/-- The command the agent of core `c` presents next, and the state without it: nothing while an operation is in flight or a
dispatch runs without an open handler (10_state R63, 44_irq_router R292), or where it has none. -/
def State.presented (s : State) (c : CoreId) : Option (Command × State) :=
  if (s.flight c (s.inIrqCtx c)).isSome then none
  else if s.inIrqCtx c then
    if s.cores[c].cbDepth = 0 then none
    else match s.cores[c].irqQ with
      | [] => none
      | cmd :: q => some (cmd, s.setCore c { s.cores[c] with irqQ := q })
  else match s.cores[c].mainQ with
    | [] => none
    | cmd :: q => some (cmd, s.setCore c { s.cores[c] with mainQ := q })

/-- One turn of core `c`: the operation in flight makes a micro-step, or the dispatch does, or the next command is accepted;
an illegal header is `BadParameter` (30_encoding R112). An agent with nothing to do makes no step. -/
def State.coreTurn (s : State) (c : CoreId) : State :=
  match s.flight c (s.inIrqCtx c) with
  | some f => s.advance c (s.inIrqCtx c) f
  | none =>
    if s.inIrqCtx c && s.cores[c].cbDepth = 0 then
      match s.cores[c].disp with
      | [] => s
      | d :: rest => s.dispatchStep c rest d
    else match s.presented c with
      | none => s
      | some (cmd, s') =>
        match decode cmd with
        | .error _ => s'.raise c (s'.inIrqCtx c) .badParameter
        | .ok i => s'.start c (s'.inIrqCtx c) (opFor i s' c)

/-- One turn without the edge detector. -/
def State.turnBody (s : State) : Turn → State
  | .core c        => s.coreTurn c
  | .enter c       => s.enterIrq c
  | .pwmClk        => s.pwmClk
  | .adcSeq        => s.adcSeq
  | .pins e        => { s with env := e }
  | .hostEvent p r => s.assertEvent p r
  | .hostWrap i    => s.assertWrap i

/-- One atomic step of the block: a turn, then the edge detector (20_memory R95, 44_irq_router R272). After a callback fault
no agent takes a step (60_exceptions R336). -/
def State.atomic (s : State) (t : Turn) : State := if s.fatal then s else (s.turnBody t).edgeDetect

/-- The recorded turns are taken one by one until the operation of that agent has ended, or no turn is left (log 2). -/
def State.drive (s : State) (c : CoreId) (irq : Bool) : List Turn → State
  | [] => s
  | t :: ts =>
    if s.fatal || (s.flight c irq).isNone then s else ({ s with turns := ts }.atomic t).drive c irq ts

/-- A command is issued on core `s.sel`, in the context that core is in, and carried through the recorded turns (log 2). -/
def State.issue (s : State) (op : Op) : Host.Outcome State Fault Refusal :=
  if s.fatal then .fault .systemFatal
  else if (s.flight s.sel (s.inIrqCtx s.sel)).isSome then .refused .portBusy
  else
    let s' := (s.start s.sel (s.inIrqCtx s.sel) op).edgeDetect
    .next (s'.drive s.sel (s.inIrqCtx s.sel) s'.turns)

/-- The next turn, recorded or free, and the state without it (log 1). -/
def State.nextTurn (s : State) : Turn × State :=
  match s.turns with
  | t :: ts => (t, { s with turns := ts })
  | [] => (Config.schedule s.turnNo, { s with turnNo := s.turnNo + 1 })

/-- Whether the turn `t` accepts a command that decodes: the instruction, and the state that issues it. -/
def State.accepts (s : State) (t : Turn) : Option (Instr × State) :=
  match t with
  | .core c =>
    match s.presented c with
    | none => none
    | some (cmd, s') =>
      match decode cmd with
      | .ok i => some (i, { s' with sel := c })
      | .error _ => none
  | _ => none

/-- The command whose bits are `w`: bit 0 the least significant of the header, the operand words above, bits from `nbits` on
0. -/
def commandOfNat (nbits w : Nat) : Command :=
  let v := w % 2 ^ nbits
  { h := BitVec.ofNat 32 v, x0 := BitVec.ofNat 32 (v / 2 ^ 32),
    x1 := BitVec.ofNat 32 (v / 2 ^ 64), x2 := BitVec.ofNat 32 (v / 2 ^ 96) }

/-- The command is the next that `Main(0)` presents, `Main(0)` is idle and not preempted, and the recorded turns let core 0 run
it with one `AdcSeq` step after each of its own, as in 95_test_vectors A3 (log 3). -/
def State.placeCommand (s : State) (cmd : Command) : State :=
  { s.setCore 0 { s.cores[(0 : CoreId)] with
      inIrq := none, main := none, mainQ := cmd :: s.cores[(0 : CoreId)].mainQ } with
    fatal := false
    turns := (List.replicate 16 [Turn.core 0, Turn.adcSeq]).flatten }

end Sys2Proof.Machine
end

