-- ==== Sys2Proof/Machine/Exec.lean ====
section
/-! DEFINITION. The meaning of every instruction: its operation (Prim, Gpio, Pwm, Adc, Irq), issued on the command interface. -/

namespace Sys2Proof.Machine

/-- 30_encoding R121 -/
def execNop (s : State) : Host.Outcome State Fault Refusal := s.issue opNop
/-- 45_register_primitives R400 -/
def execRegGet (a : Word) (s : State) : Host.Outcome State Fault Refusal := s.issue (opRegGet a s)
/-- 45_register_primitives R401 -/
def execRegSet (a m : Word) (s : State) : Host.Outcome State Fault Refusal := s.issue (opRegSet a m s)
/-- 45_register_primitives R402 -/
def execRegClr (a m : Word) (s : State) : Host.Outcome State Fault Refusal := s.issue (opRegClr a m s)
/-- 45_register_primitives R403 -/
def execRegReplace (a m v : Word) (s : State) : Host.Outcome State Fault Refusal := s.issue (opRegReplace a m v s)
/-- 41_gpio_arbiter R142 -/
def execInit (p : Byte) (s : State) : Host.Outcome State Fault Refusal := s.issue (opInit p)
/-- 41_gpio_arbiter R150 -/
def execSetMode (p m : Byte) (s : State) : Host.Outcome State Fault Refusal := s.issue (opSetMode p m)
/-- 41_gpio_arbiter R154 -/
def execDeinit (t : Bool) (p : Byte) (s : State) : Host.Outcome State Fault Refusal := s.issue (opDeinit t p)
/-- 41_gpio_arbiter R156 -/
def execMode (t : Bool) (p : Byte) (s : State) : Host.Outcome State Fault Refusal := s.issue (opMode t p)
/-- 41_gpio_arbiter R158 -/
def execGet (t : Bool) (p : Byte) (s : State) : Host.Outcome State Fault Refusal := s.issue (opGet t p)
/-- 41_gpio_arbiter R160 -/
def execSet (t : Bool) (p v : Byte) (s : State) : Host.Outcome State Fault Refusal := s.issue (opSet t p v)
/-- 41_gpio_arbiter R164 -/
def execPwm (p : Byte) (s : State) : Host.Outcome State Fault Refusal := s.issue (opPwm p)
/-- 41_gpio_arbiter R168 -/
def execAdc (p : Byte) (s : State) : Host.Outcome State Fault Refusal := s.issue (opAdc p)
/-- 42_pwm_engine R196 -/
def execPwmGet (i b : Byte) (s : State) : Host.Outcome State Fault Refusal := s.issue (opPwmGet i b)
/-- 42_pwm_engine R198 -/
def execPwmSet (i b : Byte) (l : Word) (s : State) : Host.Outcome State Fault Refusal := s.issue (opPwmSet i b l)
/-- 42_pwm_engine R200 -/
def execCounter (i : Byte) (s : State) : Host.Outcome State Fault Refusal := s.issue (opCounter i)
/-- 42_pwm_engine R202 -/
def execSetCounter (i : Byte) (v : Word) (s : State) : Host.Outcome State Fault Refusal := s.issue (opSetCounter i v)
/-- 42_pwm_engine R206 -/
def execInc (i : Byte) (s : State) : Host.Outcome State Fault Refusal := s.issue (opInc i)
/-- 42_pwm_engine R208 -/
def execDec (i : Byte) (s : State) : Host.Outcome State Fault Refusal := s.issue (opDec i)
/-- 42_pwm_engine R210 -/
def execSetWrap (i : Byte) (w : Word) (s : State) : Host.Outcome State Fault Refusal := s.issue (opSetWrap i w)
/-- 42_pwm_engine R212 -/
def execWrap (i : Byte) (s : State) : Host.Outcome State Fault Refusal := s.issue (opWrap i)
/-- 42_pwm_engine R214 -/
def execSetEnabled (i e : Byte) (s : State) : Host.Outcome State Fault Refusal := s.issue (opSetEnabled i e)
/-- 42_pwm_engine R228 -/
def execPwmSetInterrupt (i : Byte) (h : Word) (s : State) : Host.Outcome State Fault Refusal :=
  s.issue (opPwmSetInterrupt i h s)
/-- 42_pwm_engine R220 -/
def execSetPeriod (i : Byte) (P : Word) (s : State) : Host.Outcome State Fault Refusal := s.issue (opSetPeriod i P)
/-- 43_adc_sequencer R242 -/
def execAdcInit (s : State) : Host.Outcome State Fault Refusal := s.issue opAdcInit
/-- 43_adc_sequencer R256 -/
def execAdcTemp (s : State) : Host.Outcome State Fault Refusal := s.issue opAdcTemp
/-- 43_adc_sequencer R252 -/
def execAdcGet (k : Byte) (s : State) : Host.Outcome State Fault Refusal := s.issue (opAdcGet k)
/-- 43_adc_sequencer R258 -/
def execGetVoltage (k : Byte) (v : Word) (s : State) : Host.Outcome State Fault Refusal := s.issue (opGetVoltage k v)
/-- 43_adc_sequencer R262 -/
def execGetTemperature (k : Byte) (s : State) : Host.Outcome State Fault Refusal := s.issue (opGetTemperature k s)
/-- 44_irq_router R280, R284 -/
def execSetInterrupt (p : Byte) (h : Word) (s : State) : Host.Outcome State Fault Refusal :=
  s.issue (opSetInterrupt p h s s.sel)
/-- 44_irq_router R294 -/
def execCbReturn (s : State) : Host.Outcome State Fault Refusal := s.issue (opCbReturn s s.sel)
/-- 44_irq_router R296 -/
def execCbFault (s : State) : Host.Outcome State Fault Refusal := s.issue (opCbFault s s.sel)

end Sys2Proof.Machine
end

