-- ==== Sys2Proof/Machine/Dispatch.lean ====
section
/-! DEFINITION. One arm per instruction. -/

namespace Sys2Proof.Machine

def exec (i : Instr) (s : State) : Host.Outcome State Fault Refusal :=
  match i with
  | .nop => Sys2Proof.Machine.execNop s
  | .regGet a => Sys2Proof.Machine.execRegGet a s
  | .regSet a m => Sys2Proof.Machine.execRegSet a m s
  | .regClr a m => Sys2Proof.Machine.execRegClr a m s
  | .regReplace a m v => Sys2Proof.Machine.execRegReplace a m v s
  | .init p => Sys2Proof.Machine.execInit p s
  | .setMode p m => Sys2Proof.Machine.execSetMode p m s
  | .deinit t p => Sys2Proof.Machine.execDeinit t p s
  | .mode t p => Sys2Proof.Machine.execMode t p s
  | .get t p => Sys2Proof.Machine.execGet t p s
  | .set t p v => Sys2Proof.Machine.execSet t p v s
  | .pwm p => Sys2Proof.Machine.execPwm p s
  | .adc p => Sys2Proof.Machine.execAdc p s
  | .pwmGet n b => Sys2Proof.Machine.execPwmGet n b s
  | .pwmSet n b l => Sys2Proof.Machine.execPwmSet n b l s
  | .counter n => Sys2Proof.Machine.execCounter n s
  | .setCounter n v => Sys2Proof.Machine.execSetCounter n v s
  | .inc n => Sys2Proof.Machine.execInc n s
  | .dec n => Sys2Proof.Machine.execDec n s
  | .setWrap n w => Sys2Proof.Machine.execSetWrap n w s
  | .wrap n => Sys2Proof.Machine.execWrap n s
  | .setEnabled n e => Sys2Proof.Machine.execSetEnabled n e s
  | .pwmSetInterrupt n h => Sys2Proof.Machine.execPwmSetInterrupt n h s
  | .setPeriod n P => Sys2Proof.Machine.execSetPeriod n P s
  | .adcInit => Sys2Proof.Machine.execAdcInit s
  | .adcTemp => Sys2Proof.Machine.execAdcTemp s
  | .adcGet k => Sys2Proof.Machine.execAdcGet k s
  | .getVoltage k v => Sys2Proof.Machine.execGetVoltage k v s
  | .getTemperature k => Sys2Proof.Machine.execGetTemperature k s
  | .setInterrupt p h => Sys2Proof.Machine.execSetInterrupt p h s
  | .cbReturn => Sys2Proof.Machine.execCbReturn s
  | .cbFault => Sys2Proof.Machine.execCbFault s

end Sys2Proof.Machine
end

