-- ==== Sys2Proof/Machine/Step.lean ====
section
/-! DEFINITION. One step of the machine, and where a command is placed so that the next step runs it. -/

namespace Sys2Proof.Machine

/-- One step: the next turn, recorded or free. Where the turn accepts a command that decodes, the step is `exec` of its
instruction; every other turn is one atomic step of its agent. After a callback fault there is no step (60_exceptions
R336). -/
def step (s : State) : Host.Outcome State Fault Refusal :=
  if s.fatal then .fault .systemFatal
  else
    match s.nextTurn.2.accepts s.nextTurn.1 with
    | some (i, s') => exec i s'
    | none => .next (s.nextTurn.2.atomic s.nextTurn.1)

/-- The command of an opcode-table word, placed as the next command of `Main(0)` (log 3). -/
def State.withFetchWord (s : State) (nbits w : Nat) : State := s.placeCommand (commandOfNat nbits w)

end Sys2Proof.Machine
end

