-- ==== Sys2Proof/Safety.lean ====
section
/-! DEFINITION. The terms the statements use: when a command can be accepted, which turns come next, what a response leaves,
which latched events an operation may add, the hardware condition of a mode, and the invariants of the block. -/

namespace Sys2Proof.Machine

/-! ### Issuing a command -/

/-- The context of the agent that issues on core `s.sel` (30_encoding R111): `true` for `irq`. -/
abbrev State.ctx (s : State) : Bool := s.inIrqCtx s.sel

/-- The issuing agent may present a command (60_exceptions R340): the block is not in the fatal state, the agent is idle, and
in interrupt context a handler is open. -/
abbrev State.Ready (s : State) : Prop :=
  s.fatal = false ∧ s.flight s.sel s.ctx = none ∧ (s.ctx = true → s.cores[s.sel].cbDepth = 1)

/-- The edge detector's memory agrees with the pins (10_state R65). Every step leaves it so (`Obligations.StepSettles`). -/
abbrev State.Settled (s : State) : Prop := s.prevIn = s.pinInAll

/-- The recorded turns begin with `ts`. -/
abbrev State.NextTurns (s : State) (ts : List Turn) : Prop := s.turns.take ts.length = ts

/-- The next `n` recorded turns are the issuing core's own: nothing comes between the next `n` micro-steps. -/
abbrev State.Alone (s : State) (n : Nat) : Prop := s.NextTurns (List.replicate n (.core s.sel))

/-- The state with `ts` the recorded turns. -/
def State.withTurns (s : State) (ts : List Turn) : State := { s with turns := ts }

/-- The state with the first `n` recorded turns taken. -/
def State.taken (s : State) (n : Nat) : State := { s with turns := s.turns.drop n }

/-- The issuing agent has the response `st`, `res`, and is idle (30_encoding R110). -/
def State.answer (s : State) (st : Status) (res : Word) : State := s.respond s.sel s.ctx st res

/-- The last response to the issuing agent. -/
def State.lastResp (s : State) : Option Resp := if s.ctx then s.cores[s.sel].irqResp else s.cores[s.sel].mainResp

/-! ### Edges -/

/-- The state without the latched edges and the edge detector's memory. -/
def State.quiet (s : State) : State := { s with ioIntr := Vector.replicate 4 0, prevIn := 0 }

/-- The two edge bits, in register `b`, of the pins that `pins` names (10_state R54, R55). -/
def edgesIn (pins : Pin → Bool) (b : BankReg) : Word :=
  let has (i : Nat) : Bool := if h : 8 * b.val + i < 30 then pins ⟨8 * b.val + i, h⟩ else false
  spread has 2 ||| spread has 3

/-- From `s` to `t` no latched edge is lost, and only edges of the pins that `pins` names are added. -/
abbrev EdgesAddedOnly (pins : Pin → Bool) (s t : State) : Prop :=
  ∀ b : BankReg, s.ioIntr[b] &&& t.ioIntr[b] = s.ioIntr[b] ∧ t.ioIntr[b] ||| edgesIn pins b = s.ioIntr[b] ||| edgesIn pins b

/-- From `s` the machine reached `t`, which is `want` in every part but the latched edges; of those only edges of the pins
that `pins` names were added, and the edge detector's memory agrees with the pins. -/
abbrev Reaches (pins : Pin → Bool) (s want t : State) : Prop :=
  t.quiet = want.quiet ∧ t.Settled ∧ EdgesAddedOnly pins s t

/-! ### A pin's hardware -/

/-- Bit `p` of a 30-bit register. -/
def pinMask (p : Pin) : BitVec 30 := 1#30 <<< p.val

/-- A 30-bit register with bit `p` replaced by `v`. -/
def withPinBit (x : BitVec 30) (p : Pin) (v : Bool) : BitVec 30 := if v then x ||| pinMask p else x &&& ~~~pinMask p

/-- A pad register with `IE`, `PUE`, `PDE` as `HW(m)` has them and the other bits kept (10_state R29, R31). -/
def padAs (m : Mode) (v : Byte) : Byte :=
  (v &&& 0xB3) ||| (if hwPde m then 0x04 else 0) ||| (if hwPue m then 0x08 else 0) ||| (if hwIe m then 0x40 else 0)

/-- Pin `p`'s hardware fields are `HW(m)` (10_state R31), nothing else changed. -/
def State.programmed (s : State) (p : Pin) (m : Mode) : State :=
  { s with
    funcsel := s.funcsel.set p (hwFuncsel m)
    pad := s.pad.set p (padAs m s.pad[p])
    sioOe := withPinBit s.sioOe p (hwOe m) }

/-- Pin `p`'s table entry says that its function is `m` (10_state R22, R23). -/
def State.recorded (s : State) (p : Pin) (m : Mode) : State :=
  { s with pinFn := s.pinFn.set p m, pinPull := s.pinPull.set p (pullOf m) }

/-- Pin `p` has had its one-time low-level initialisation (41_gpio_arbiter R142, R143). -/
def State.initialised (s : State) (p : Pin) : State :=
  if s.pinInit[p] then s
  else { s with sioOe := withPinBit s.sioOe p false, sioOut := withPinBit s.sioOut p false, pinInit := s.pinInit.set p true }

/-- How many more micro-steps than the test the one-time initialisation of `p` makes. -/
def State.initSteps (s : State) (p : Pin) : Nat := if s.pinInit[p] then 0 else 3

/-- `SetMode(p, m)` is refused: the pin holds another function and `SWITCH_POLICY` is `reject` (41_gpio_arbiter R150). -/
abbrev State.SwitchRefused (s : State) (p : Pin) (m : Mode) : Prop :=
  m ≠ .off ∧ s.pinFn[p] ≠ .off ∧ s.pinFn[p] ≠ m ∧ s.params.switchPolicy = .reject

/-- How many micro-steps `SetMode(p, m)` makes after the read of `pin_fn[p]` when it is not refused: the programming of a
pin, its record, the readback of an output, and a deinitialisation first where the function is switched. -/
def State.switchSteps (s : State) (p : Pin) (m : Mode) : Nat :=
  if m ≠ .off ∧ s.pinFn[p] ≠ .off ∧ s.pinFn[p] ≠ m then (if m = .output then 11 else 10) else (if m = .output then 6 else 5)

/-! ### The PWM -/

/-- The pins slice `i`'s two outputs reach (10_state R41). -/
def pinsOfSlice (i : SliceId) (p : Pin) : Bool := sliceOfPin p.val == i

/-- A slice after `n` cycles, the gating input of the `j`-th being `b j`, and how many wrap events it raised (42_pwm_engine
R180, R187). -/
def Slice.cycles (b : Nat → Bool) : Nat → Slice → Slice × Nat
  | 0, sl => (sl, 0)
  | n + 1, sl =>
    let x := Slice.cycles b n sl
    let y := x.1.cycle (b n)
    (y.1, x.2 + if y.2 then 1 else 0)

/-- A slice as `SetEnabled(true)` leaves it: the record in the registers, the counter at 0, enabled, phase requests as they were
(42_pwm_engine R214). -/
def Slice.started (sl : Slice) : Slice :=
  { sl with
    div := sl.cfg.divInt ++ sl.cfg.divFrac
    fracAcc := 0
    top := sl.cfg.wrap
    csr := (sl.csr &&& 0xC0) ||| 0x01 ||| (if sl.cfg.phCorrect then 0x02 else 0) ||| (if sl.cfg.invA then 0x04 else 0)
      ||| (if sl.cfg.invB then 0x08 else 0) ||| (sl.cfg.divmode.setWidth 8 <<< 4)
    ctr := 0
    dirDown := false }

/-- `n` cycles of the clock and no other step: `n` steps of `PwmClk`, each with its edge detection. -/
def State.clocked : Nat → State → State
  | 0, s => s
  | n + 1, s => (s.clocked n).pwmClk.edgeDetect

/-- The period, in cycles of the clock times 16, that a record asks for: divider times count times 1 or 2 (42_pwm_engine
R190, R220). -/
def PwmCfg.period16 (c : PwmCfg) : Nat :=
  (16 * c.divInt.toNat + c.divFrac.toNat) * (c.wrap.toNat + 1) * (if c.phCorrect then 2 else 1)

/-! ### The ADC -/

/-- The turns in which `ADC_init` runs undisturbed after its test: its reset and release, `RESET_TICKS` steps of `AdcSeq`, its
poll and its enable, `READY_TICKS` steps of `AdcSeq`, its poll and the write of its flag (43_adc_sequencer R242). -/
def State.initTurns (s : State) : List Turn :=
  if s.adcInited then []
  else [.core s.sel, .core s.sel] ++ List.replicate s.params.resetTicks .adcSeq ++ [.core s.sel, .core s.sel]
    ++ List.replicate s.params.readyTicks .adcSeq ++ [.core s.sel, .core s.sel]

/-- The ADC as `ADC_init` leaves it: out of reset, enabled, ready, every other register at its reset value (43_adc_sequencer
R242, R244). -/
def AdcBlock.fresh : AdcBlock :=
  { rst := false, rstDone := true, cs := 0x101, result := 0, fcs := 0, pace := 0, inte := 0, intf := 0,
    resetLeft := none, readyLeft := none, convLeft := none }

/-- The state with the ADC initialised, once (43_adc_sequencer R242). -/
def State.adcReady (s : State) : State := if s.adcInited then s else { s with adc := AdcBlock.fresh, adcInited := true }

/-- The converter is idle and usable: out of reset, enabled, ready, no timer running. -/
abbrev AdcBlock.Idle (a : AdcBlock) : Prop :=
  a.rst = false ∧ a.en = true ∧ a.ready = true ∧ a.resetLeft = none ∧ a.readyLeft = none ∧ a.convLeft = none

/-- The turns in which a conversion runs undisturbed after the test of `adc_created`: the read of `ADC_CS`, the selection, the
start, `ADC_CONV_TICKS` steps of `AdcSeq`, the poll and the read of the result (43_adc_sequencer R252). -/
def State.convTurns (s : State) : List Turn :=
  [.core s.sel, .core s.sel, .core s.sel] ++ List.replicate s.params.convTicks .adcSeq ++ [.core s.sel, .core s.sel]

/-- The state after a conversion of channel `ch`: the channel is selected, the draw is made and is the result, the block is
ready again (43_adc_sequencer R248, R251, R252). -/
def State.converted (s : State) (ch : AdcCh) : State :=
  s.drawn.setAdc { s.adc with
    cs := (s.adc.cs &&& 0x0603) ||| csReady ||| (BitVec.ofNat 32 ch.val <<< 12)
    result := s.sample (BitVec.ofNat 3 ch.val) }

/-! ### Binary32 numbers -/

/-- The number a word stands for, where it is finite. -/
def f32Value (w : Word) : Option ℚ :=
  match f32Of w with
  | .fin neg m e => some ((if neg then -1 else 1) * m * 2 ^ e)
  | _ => none

/-- `w` is `x` rounded to the nearest finite binary32 number, to the even one of two that are equally near (43_adc_sequencer
R260). -/
def RoundsTo (x : ℚ) (w : Word) : Prop :=
  ∃ v, f32Value w = some v ∧ ∀ u y, f32Value u = some y →
    |x - v| < |x - y| ∨ y = v ∨ (|x - v| = |x - y| ∧ w.getLsbD 0 = false)

/-- From this magnitude on a number rounds to an infinity: the largest finite number and half a unit of its last place. -/
def f32Limit : ℚ := 2 ^ 128 - 2 ^ 103

/-! ### The register space -/

/-- The registers that store what is written and do nothing else, with the bits they store (20_memory R86, R100). -/
def plainMaskOf : Reg → Option Word
  | .ioCtrl _ => some 0x1F
  | .ioInte _ b => some (bankMask b)
  | .ioIntf _ b => some (bankMask b)
  | .pad _ => some 0xFF
  | .sioOut => some 0x3FFFFFFF
  | .sioOe => some 0x3FFFFFFF
  | .pwmCc _ => some 0xFFFFFFFF
  | .pwmTop _ => some 0xFFFF
  | .pwmInte => some 0xFF
  | .pwmIntf => some 0xFF
  | _ => none

/-- The arbiter tables (20_memory R80 (2)): what no register primitive reaches. -/
def State.tables (s : State) :=
  (s.pinFn, s.pinInit, s.pinPull, s.slices.map Slice.cfg, s.slices.map Slice.cb, s.adcInited, s.adcCreated,
    s.cores.map CoreSt.gpioCb, s.cores.map CoreSt.gpioEdges)

/-! ### Invariants -/

/-- 10_state R23 (c): the pull a pin's entry records is the pull of its function. -/
abbrev State.PullInv (s : State) : Prop := ∀ p : Pin, s.pinPull[p] = pullOf s.pinFn[p]

/-- 10_state R54, R57: the raw bank stores edge bits of existing pins only, and the enable and force banks store bits of
existing pins only. -/
abbrev State.BankInv (s : State) : Prop :=
  ∀ b : BankReg, s.ioIntr[b] &&& ~~~edgeMask b = 0 ∧
    ∀ c : CoreId, s.cores[c].inte[b] &&& ~~~bankMask b = 0 ∧ s.cores[c].intf[b] &&& ~~~bankMask b = 0

/-- 43_adc_sequencer R244 to R250, 10_state R47, R48: the block in reset holds its reset values; the release timer runs only
outside reset and before reset-done; a disabled block is not ready and has no timer running; a running conversion has an
enabled block that is not ready, and the ready timer does not run beside it; `ADC_CS` stores only its fields. -/
abbrev AdcBlock.Inv (a : AdcBlock) : Prop :=
  (a.rst = true → a = AdcBlock.reset true) ∧
  (a.resetLeft.isSome = true → a.rstDone = false) ∧
  (a.en = false → a.ready = false ∧ a.readyLeft = none ∧ a.convLeft = none) ∧
  (a.readyLeft.isSome = true ∨ a.convLeft.isSome = true → a.ready = false) ∧
  (a.convLeft.isSome = true → a.readyLeft = none) ∧
  a.cs &&& ~~~0x7703#32 = 0

/-- 10_state R63, R64, 60_exceptions R330, R331: at most one handler is open on a core; on a core that serves no interrupt none
is, and no dispatch is in progress. -/
abbrev State.IrqInv (s : State) : Prop :=
  ∀ c : CoreId, s.cores[c].cbDepth ≤ 1 ∧ (s.cores[c].inIrq = none → s.cores[c].cbDepth = 0 ∧ s.cores[c].disp = [])

/-- A slice's divider is at least 1, in the register and in the record, and its accumulator below it (10_state R34, R40,
42_pwm_engine R183). -/
abbrev Slice.DivOk (sl : Slice) : Prop := sl.divInt ≠ 0 ∧ sl.cfg.divInt ≠ 0 ∧ sl.fracAcc < sl.div16

/-- A micro-step in flight brings no divider of 0 to a `PWM_DIV` register or a record. -/
def Micro.divOk : Micro → Bool
  | .write (.pwmDiv _) w => w &&& 0xFF0 ≠ 0
  | .clrBits (.pwmDiv _) _ => false
  | .writeCfg _ k => k.divInt ≠ 0
  | .primWrite (.pwmDiv _) _ => true
  | _ => true

/-- 10_state R34, R40: no divider is 0 and every accumulator is below its divider; and no operation in flight is about to
change that. -/
abbrev State.DivInv (s : State) : Prop :=
  (∀ i : SliceId, s.slices[i].DivOk) ∧
  ∀ c : CoreId, ∀ irq : Bool, ∀ f ∈ s.flight c irq, f.code.all Micro.divOk = true

end Sys2Proof.Machine
end

