-- ==== Sys2Proof/Certificates/Slice0/Obligations.lean ====
section
/-! DEFINITION. The statements for the provers. -/

open Sys2Proof Sys2Proof.Machine

/-! ### Encoding and decoding -/

/-- 30_encoding R110, R112, R120: decoding the encoded command of any instruction, whatever its operands, gives it back. -/
def Obligations.DecodeEncode : Prop := ∀ i : Instr, decode (encode i) = .ok i

/-- 30_encoding R112: a header decodes exactly where `Z` is 0, `OP` is one of the 32 codes of R120, and `S` is 0 or `OP` has a
strict variant (R114). Every other header is illegal. -/
def Obligations.LegalHeaders : Prop :=
  ∀ c : Command,
    (∃ i, decode c = .ok i) ↔
      c.h.extractLsb' 9 7 = 0 ∧
      (c.h.extractLsb' 0 8).toNat ∈ [0x00, 0x01, 0x02, 0x03, 0x04, 0x10, 0x11, 0x12, 0x13, 0x14, 0x15, 0x16, 0x17, 0x20, 0x21, 0x22,
        0x23, 0x24, 0x25, 0x26, 0x27, 0x28, 0x29, 0x2A, 0x30, 0x31, 0x32, 0x33, 0x34, 0x40, 0x4E, 0x4F] ∧
      (c.h.getLsbD 8 = true → (c.h.extractLsb' 0 8).toNat ∈ [0x12, 0x13, 0x14, 0x15])

/-- 30_encoding R120, the worked examples of the operation rules: the commands of `SetMode(25, PWM)`, `Set(2, true)`,
`SetPeriod(4, 1000000)`, `GetVoltage(0, 3.3)`, `SetInterrupt(7, @h)` and `CbReturn` decode to them. -/
def Obligations.ExampleWordsDecode : Prop :=
  decode ⟨0x05190011, 0, 0, 0⟩ = .ok (.setMode 25 5) ∧
  decode ⟨0x01020015, 0, 0, 0⟩ = .ok (.set false 2 1) ∧
  decode ⟨0x0004002A, 0x000F4240, 0, 0⟩ = .ok (.setPeriod 4 1000000) ∧
  decode ⟨0x00000033, 0x40533333, 0, 0⟩ = .ok (.getVoltage 0 0x40533333) ∧
  decode ⟨0x00070040, 0x200, 0, 0⟩ = .ok (.setInterrupt 7 0x200) ∧
  decode ⟨0x0000004E, 0, 0, 0⟩ = .ok .cbReturn

/-! ### The step -/

/-- A step runs the decoded instruction (10_state R21, 20_memory R88). Where the next recorded turn is core `c`'s and that core
presents a command which decodes to `i`, the step is `exec i`, with the turn taken, the command out of its queue and `c` on the
interface. Where no command that decodes is presented, the step is one atomic step of the agent whose turn it is. The order of
turns is recorded in the state: the model's choice (logs 1, 2 and 3). -/
def Obligations.StepRunsDecoded : Prop :=
  ∀ (s : State) (t : Turn) (ts : List Turn), s.fatal = false → s.turns = t :: ts →
    (∀ (c : CoreId) (cmd : Command) (s' : State) (i : Instr), t = .core c →
      (s.withTurns ts).presented c = some (cmd, s') → decode cmd = .ok i →
      step s = exec i { s' with sel := c }) ∧
    ((s.withTurns ts).accepts t = none → step s = .next ((s.withTurns ts).atomic t))

/-- 30_encoding R112: an illegal command ends at once with `BadParameter` and result 0, and nothing else changes but the queue
it was in and the turn. When a core's turn takes a command is the model's (logs 1 and 3). -/
def Obligations.IllegalCommandRefused : Prop :=
  ∀ (s : State) (c : CoreId) (ts : List Turn) (cmd : Command) (s' : State) (e : Illegal),
    s.fatal = false → s.Settled → s.turns = .core c :: ts →
    (s.withTurns ts).presented c = some (cmd, s') → decode cmd = .error e →
    step s = .next (s'.respond c (s'.inIrqCtx c) .badParameter 0)

/-- 60_exceptions R336: after a callback fault no agent takes a step and no command is accepted. The outcome that shows it is
the fault systemFatal; no step leads out of it, so the state at the moment of the fault is the final state. -/
def Obligations.FatalStops : Prop :=
  ∀ s : State, s.fatal = true →
    step s = .fault .systemFatal ∧ (∀ i, exec i s = .fault .systemFatal) ∧ (∀ t, s.atomic t = s)

/-- 30_encoding R113: a command whose operands are out of range ends with `BadParameter`, and nothing else changes. The
hypothesis wellFormed is the model's check of the operands; log 18 says where the spec's own lists of checks differ. -/
def Obligations.OutOfRangeRefused : Prop :=
  ∀ (s : State) (i : Instr), s.Ready → s.Settled → i.wellFormed = false → exec i s = .next (s.answer .badParameter 0)

/-! ### `Nop` and the register primitives -/

/-- 30_encoding R121: the all-zero header is `Nop`, which changes nothing and answers `OK` and 0. -/
def Obligations.NopCompletes : Prop :=
  (∀ x0 x1 x2 : Word, decode ⟨0, x0, x1, x2⟩ = .ok .nop) ∧
  ∀ s : State, s.Ready → s.Settled → exec .nop s = .next (s.answer .ok 0)

/-- 45_register_primitives R400, 20_memory R85: `RegGet` of a register that may be accessed answers its 32 bits and changes
nothing. The 32 bits of every register are its fields at their places and 0 elsewhere (20_memory R100; the unused registers of
the ADC are in `RegisterWrites`). `IO_INTR` reads the two levels of each pin that exists, low and high, and its latched edges,
fall and rise (10_state R54 to R57). The premises on `IO_INTR` and `ADC_CS` are invariants: `StepKeepsBanks`, `StepKeepsAdc`. -/
def Obligations.RegGetCompletes : Prop :=
  ∀ s : State,
    (∀ (a : Word) (r : Reg), s.Ready → s.Settled → s.regOf a = some r → s.inaccessible r = false →
      exec (.regGet a) s = .next (s.answer .ok (s.readReg r))) ∧
    (s.BankInv → ∀ (b : BankReg) (i : Fin 8),
      s.readReg (.ioIntr b) = s.intr b ∧
      (s.readReg (.ioIntr b)).extractLsb' (4 * i.val) 4 =
        if h : 8 * b.val + i.val < 30 then
          let p : Pin := ⟨8 * b.val + i.val, h⟩
          BitVec.ofBool (s.ioIntr[b].getLsbD (4 * i.val + 3)) ++ BitVec.ofBool (s.ioIntr[b].getLsbD (4 * i.val + 2)) ++
            BitVec.ofBool (s.pinIn p) ++ BitVec.ofBool (!s.pinIn p)
        else 0) ∧
    (∀ (c : CoreId) (b : BankReg),
      s.readReg (.ioInte c b) = s.cores[c].inte[b] ∧ s.readReg (.ioIntf c b) = s.cores[c].intf[b] ∧
      s.readReg (.ioInts c b) = (s.intr b &&& s.cores[c].inte[b]) ||| s.cores[c].intf[b]) ∧
    (∀ p : Pin,
      s.readReg (.ioCtrl p) = 0#27 ++ s.funcsel[p] ∧ s.readReg (.pad p) = 0#24 ++ s.pad[p] ∧
      (s.readReg .sioIn).getLsbD p.val = s.pinIn p) ∧
    (s.readReg .sioIn).extractLsb' 30 2 = 0 ∧ s.readReg .sioOut = 0#2 ++ s.sioOut ∧ s.readReg .sioOe = 0#2 ++ s.sioOe ∧
    (∀ i : SliceId,
      let sl := s.slices[i]
      s.readReg (.pwmCsr i)
        = 0#24 ++ BitVec.ofBool sl.phAdv ++ BitVec.ofBool sl.phRet ++ sl.divmode ++ BitVec.ofBool sl.bInv ++
            BitVec.ofBool sl.aInv ++ BitVec.ofBool sl.phCorrect ++ BitVec.ofBool sl.en ∧
      s.readReg (.pwmDiv i) = 0#20 ++ sl.divInt ++ sl.divFrac ∧ s.readReg (.pwmCtr i) = 0#16 ++ sl.ctr ∧
      s.readReg (.pwmCc i) = sl.level true ++ sl.level false ∧ s.readReg (.pwmTop i) = 0#16 ++ sl.top ∧
      (s.readReg .pwmEn).getLsbD i.val = sl.en) ∧
    (s.readReg .pwmEn).extractLsb' 8 24 = 0 ∧ s.readReg .pwmIntr = 0#24 ++ s.pwmIntr ∧ s.readReg .pwmInte = 0#24 ++ s.pwmInte ∧
    s.readReg .pwmIntf = 0#24 ++ s.pwmIntf ∧ s.readReg .pwmInts = 0#24 ++ ((s.pwmIntr &&& s.pwmInte) ||| s.pwmIntf) ∧
    (s.adc.Inv →
      s.readReg .adcCs
        = 0#17 ++ s.adc.ainsel ++ 0#1 ++ s.adc.cs.extractLsb' 9 2 ++ BitVec.ofBool s.adc.ready ++ 0#6 ++
            s.adc.cs.extractLsb' 1 1 ++ BitVec.ofBool s.adc.en) ∧
    s.readReg .adcResult = 0#20 ++ s.adc.result ∧
    s.readReg .rst = 0#31 ++ BitVec.ofBool s.adc.rst ∧ s.readReg .rstDone = 0#31 ++ BitVec.ofBool s.adc.rstDone

/-- 45_register_primitives R401, R402, 20_memory R93: `RegSet` and `RegClr`, where the result is not refused, are one atomic set
or clear of the register, and nothing else changes but what the edge detector then latches. Which of the side effects of R86 a
masked write has is the model's reading (log 14). -/
def Obligations.RegSetRegClrComplete : Prop :=
  ∀ (s : State) (a m : Word) (r : Reg), s.Ready → s.regOf a = some r → s.inaccessible r = false →
    (refusedWrite r (s.readReg r ||| m) = false → exec (.regSet a m) s = .next ((s.setBits r m).answer .ok 0).edgeDetect) ∧
    (refusedWrite r (s.readReg r &&& ~~~m) = false → exec (.regClr a m) s = .next ((s.clrBits r m).answer .ok 0).edgeDetect)

/-- 45_register_primitives R403: `RegReplace`, undisturbed and not refused, writes `(old & ~mask) | (value & mask)`, and nothing
else changes but what the edge detector then latches. Undisturbed: the turns it takes are its agent's own; that `exec` carries
it through the recorded turns is the model's choice (logs 1, 2). -/
def Obligations.RegReplaceCompletes : Prop :=
  ∀ (s : State) (a m v : Word) (r : Reg), s.Ready → s.Settled → s.Alone 1 → s.regOf a = some r → s.inaccessible r = false →
    refusedWrite r ((s.readReg r &&& ~~~m) ||| (v &&& m)) = false →
    exec (.regReplace a m v) s
      = .next (((s.taken 1).writeReg r ((s.readReg r &&& ~~~m) ||| (v &&& m))).answer .ok 0).edgeDetect

/-- 45_register_primitives R403, R405, R406: a primitive on an address of no register, and a write whose result is refused, end
with `BadParameter` and change nothing. Undisturbed: the turns it takes are its agent's own; that `exec` carries it through the
recorded turns is the model's choice (logs 1, 2). A `RegReplace` whose read is made ends so in its next turn, whatever the other
agents have done since, a reset of the ADC included: the refused-write test comes before the access. -/
def Obligations.PrimitivesRefused : Prop :=
  ∀ (s : State) (a m v : Word), s.Ready → s.Settled →
    (s.regOf a = none →
      exec (.regGet a) s = .next (s.answer .badParameter 0) ∧ exec (.regSet a m) s = .next (s.answer .badParameter 0) ∧
      exec (.regClr a m) s = .next (s.answer .badParameter 0) ∧ exec (.regReplace a m v) s = .next (s.answer .badParameter 0)) ∧
    (∀ r, s.regOf a = some r → s.inaccessible r = false →
      (refusedWrite r (s.readReg r ||| m) = true → exec (.regSet a m) s = .next (s.answer .badParameter 0)) ∧
      (refusedWrite r (s.readReg r &&& ~~~m) = true → exec (.regClr a m) s = .next (s.answer .badParameter 0)) ∧
      (refusedWrite r ((s.readReg r &&& ~~~m) ||| (v &&& m)) = true → s.Alone 1 →
        exec (.regReplace a m v) s = .next ((s.taken 1).answer .badParameter 0))) ∧
    (∀ (r : Reg) (w : Word) (f : Flight), refusedWrite r w = true → f.code = [.primWrite r w] →
      let t := s.setFlight s.sel s.ctx (some f)
      t.atomic (.core s.sel) = s.answer .badParameter 0)

/-- 20_memory R96, 00_scope R18: a primitive on an ADC register while `RST_DONE.ADC` is 0 is stuck: after any number of its own
turns it is still in flight, without a response, and nothing else has changed. The form a stuck operation takes in the state is
the model's (log 23). -/
def Obligations.PrimitivesStick : Prop :=
  ∀ (s : State) (a m v : Word) (r : Reg) (n : Nat), s.Ready → s.Settled → s.turns = List.replicate n (.core s.sel) →
    s.regOf a = some r → s.inaccessible r = true →
    ∀ i ∈ [Instr.regGet a, .regSet a m, .regClr a m, .regReplace a m v],
      exec i s = .next (((s.taken n).setFlight s.sel s.ctx (some { code := [.stuck], res := 0, post := .plain })).setResp
        s.sel s.ctx none)

/-- 20_memory R81, R86, R100, 45_register_primitives R407, R408: what a write of each register does, but for the ones that
`EventBitsAcknowledged`, `ResetRelease` and `AdcControl` speak of. A plain register reads back what is written to it, cut to its
width; a write of any register changes no other plain register and no arbiter table; `PWM_CSR` keeps a posted phase request;
`PWM_EN` and the `EN` bits are one; a write of `PWM_CTR` clears `dir_down`, of `PWM_DIV` `frac_acc`; the unused ADC registers out
of reset read back what is written (all 32 bits: the model's choice, log 17); the read-only registers ignore it. -/
def Obligations.RegisterWrites : Prop :=
  ∀ (s : State) (t w : Word),
    (∀ r, (s.storeReg r t w).tables = s.tables) ∧
    (∀ r m, plainMaskOf r = some m → (s.storeReg r t w).readReg r = w &&& m) ∧
    (∀ r q, plainMaskOf q ≠ none → q ≠ r → (s.storeReg r t w).readReg q = s.readReg q) ∧
    (∀ i : SliceId,
      s.writeReg (.pwmCsr i) w
        = s.setSlice i { s.slices[i] with csr := w.extractLsb' 0 8 ||| (s.slices[i].csr &&& 0xC0) } ∧
      s.writeReg (.pwmCtr i) w = s.setSlice i { s.slices[i] with ctr := w.extractLsb' 0 16, dirDown := false } ∧
      s.writeReg (.pwmDiv i) w = s.setSlice i { s.slices[i] with div := w.extractLsb' 0 12, fracAcc := 0 } ∧
      (∀ j : SliceId, ((s.writeReg (.pwmCsr i) w).readReg .pwmEn).getLsbD j.val
        = if j = i then w.getLsbD 0 else (s.readReg .pwmEn).getLsbD j.val) ∧
      (s.writeReg .pwmEn w).slices[i]
        = { s.slices[i] with csr := (s.slices[i].csr &&& 0xFE) ||| if w.getLsbD i.val then 1 else 0 }) ∧
    (s.writeReg .pwmEn w).readReg .pwmEn = w &&& 0xFF ∧ { s.writeReg .pwmEn w with slices := s.slices } = s ∧
    (s.adc.rst = false →
      s.writeReg .adcFcs w = s.setAdc { s.adc with fcs := w } ∧ (s.writeReg .adcFcs w).readReg .adcFcs = w ∧
      s.writeReg .adcDiv w = s.setAdc { s.adc with pace := w } ∧ (s.writeReg .adcDiv w).readReg .adcDiv = w ∧
      s.writeReg .adcInte w = s.setAdc { s.adc with inte := w } ∧ (s.writeReg .adcInte w).readReg .adcInte = w ∧
      s.writeReg .adcIntf w = s.setAdc { s.adc with intf := w } ∧ (s.writeReg .adcIntf w).readReg .adcIntf = w) ∧
    (∀ r, r ∈ [Reg.sioIn, .pwmInts, .adcResult, .adcFifo, .adcIntr, .adcInts, .rstDone] ∨ (∃ c b, r = .ioInts c b) →
      s.storeReg r t w = s) ∧
    (∀ r ∈ [Reg.adcFifo, .adcIntr, .adcInts], s.readReg r = 0)

/-- 45_register_primitives R404, 20_memory R86 (a): on `IO_INTR[b]` and `PWM_INTR`, `RegSet` clears the latched bits of the mask
and no others, `RegClr` changes nothing, and a write of a whole word clears the bits of the word. -/
def Obligations.EventBitsAcknowledged : Prop :=
  ∀ (s : State) (m : Word) (b : BankReg),
    s.setBits (.ioIntr b) m = { s with ioIntr := s.ioIntr.set b (s.ioIntr[b] &&& ~~~m) } ∧
    s.clrBits (.ioIntr b) m = s ∧
    s.setBits .pwmIntr m = { s with pwmIntr := s.pwmIntr &&& ~~~(m.extractLsb' 0 8) } ∧
    s.clrBits .pwmIntr m = s ∧
    s.writeReg (.ioIntr b) m = s.setBits (.ioIntr b) m ∧ s.writeReg .pwmIntr m = s.setBits .pwmIntr m

/-! ### The GPIO arbiter -/

/-- 41_gpio_arbiter R142, R143: `Init(p)`, undisturbed, initialises the pin once. Undisturbed: the turns it takes are its
agent's own; that `exec` carries it through the recorded turns is the model's choice (logs 1, 2). Reaches says that the two
states agree in everything, but that the latched edges of that pin may be more. -/
def Obligations.InitCompletes : Prop :=
  ∀ (s : State) (pin : Byte) (p : Pin), s.Ready → s.Settled → pinOf pin = some p → s.Alone (s.initSteps p) →
    ∃ t, exec (.init pin) s = .next t ∧ Reaches (· == p) s (((s.taken (s.initSteps p)).initialised p).answer .ok 0) t

/-- 41_gpio_arbiter R150, R151, R154, 10_state R23, R31: `SetMode(p, m)`, undisturbed, of a pin that is free, holds `m`, is to
be `Off`, or may be switched: the pin is initialised, its hardware is `HW(m)`, its entry says `m` and `pull(m)`. Undisturbed:
the turns it takes are its agent's own; that `exec` carries it through the recorded turns is the model's choice (logs 1, 2).
Reaches says that the two states agree in everything, but that the latched edges of that pin may be more. -/
def Obligations.SetModeCompletes : Prop :=
  ∀ (s : State) (pin mode : Byte) (p : Pin) (m : Mode), s.Ready → s.Settled → pinOf pin = some p → modeOf mode = some m →
    ¬ s.SwitchRefused p m → (m = .output → s.params.padFault.getLsbD p.val = false) →
    s.Alone (s.initSteps p + 1 + s.switchSteps p m) →
    ∃ t, exec (.setMode pin mode) s = .next t ∧
      Reaches (· == p) s
        (((((s.taken (s.initSteps p + 1 + s.switchSteps p m)).initialised p).programmed p m).recorded p m).answer .ok 0) t

/-- 41_gpio_arbiter R150, R152, 60_exceptions R311: `SetMode(p, m)`, undisturbed, of a pin that holds another function is
refused with `DuplicateValue`, and of the pin only the one-time initialisation has run. `SetMode(p, Output)` of a pin with a
wiring fault ends with `UnexpectedValue`, the hardware programmed and the entry as it was (`Off` where the function was
switched). Undisturbed: the turns it takes are its agent's own; that `exec` carries it through the recorded turns is the model's
choice (logs 1, 2). A wiring fault is what R152 calls one (log 26). -/
def Obligations.SetModeFails : Prop :=
  ∀ (s : State) (pin mode : Byte) (p : Pin) (m : Mode), s.Ready → s.Settled → pinOf pin = some p → modeOf mode = some m →
    (s.SwitchRefused p m → s.Alone (s.initSteps p + 1) →
      ∃ t, exec (.setMode pin mode) s = .next t ∧
        Reaches (· == p) s (((s.taken (s.initSteps p + 1)).initialised p).answer .duplicateValue 0) t) ∧
    (¬ s.SwitchRefused p m → m = .output → s.params.padFault.getLsbD p.val = true →
      s.Alone (s.initSteps p + s.switchSteps p m) →
      ∃ t, exec (.setMode pin mode) s = .next t ∧
        let u := ((s.taken (s.initSteps p + s.switchSteps p m)).initialised p).programmed p m
        Reaches (· == p) s ((if s.pinFn[p] = .off ∨ s.pinFn[p] = m then u else u.recorded p .off).answer .unexpectedValue 0) t)

/-- 41_gpio_arbiter R154: `Deinit(p)`, undisturbed, its strict variant on an initialised pin: the hardware is `HW(Off)`, the
entry says `Off` and no pull. Undisturbed: the turns it takes are its agent's own; that `exec` carries it through the recorded
turns is the model's choice (logs 1, 2). -/
def Obligations.DeinitCompletes : Prop :=
  ∀ (s : State) (strict : Bool) (pin : Byte) (p : Pin), s.Ready → s.Settled → pinOf pin = some p →
    (strict = true → s.pinInit[p] = true) → s.Alone (if strict then 5 else 4) →
    ∃ t, exec (.deinit strict pin) s = .next t ∧
      Reaches (· == p) s ((((s.taken (if strict then 5 else 4)).programmed p .off).recorded p .off).answer .ok 0) t

/-- 41_gpio_arbiter R156, R158, 10_state R27, R28, R42: `Mode(p)` answers the number of the pin's function, `Get(p)` the level of
the pin, and nothing else changes. With the input buffer off the level is 0; otherwise it is that of what `FUNCSEL` connects: the
output latch under `SIO_OE`, the comparator of the pin's slice, the peripheral, and else the outside, which is the driver's level,
or that of the only pull, or the floating level. So of a pin whose hardware is that of a mode (R31), `Get` answers as R158 lists
by mode. Undisturbed: the turns it takes are its agent's own; that `exec` carries it through the recorded turns is the model's
choice (logs 1, 2). -/
def Obligations.ModeGetComplete : Prop :=
  ∀ (s : State) (strict : Bool) (pin : Byte) (p : Pin), s.Ready → s.Settled → pinOf pin = some p →
    (strict = true → s.pinInit[p] = true) → s.Alone (if strict then 1 else 0) →
    let sl := s.slices[sliceOfPin p.val]
    let comparator : Bool :=
      if p.val % 2 = 0 then decide (sl.ctr.toNat < (sl.cc.extractLsb' 0 16).toNat) ^^ sl.csr.getLsbD 2
      else decide (sl.ctr.toNat < (sl.cc.extractLsb' 16 16).toNat) ^^ sl.csr.getLsbD 3
    let outside (undriven : Bool) : Bool := match s.env.ext[p] with | .low => false | .high => true | .z => undriven
    let pulled : Bool :=
      match s.pad[p].getLsbD 3, s.pad[p].getLsbD 2 with
      | true, false => true
      | false, true => false
      | _, _ => s.env.float.getLsbD p.val
    let get (level : Bool) : Prop :=
      exec (.get strict pin) s = .next ((s.taken (if strict then 1 else 0)).answer .ok (if level then 1 else 0))
    exec (.mode strict pin) s = .next ((s.taken (if strict then 1 else 0)).answer .ok (modeNumber s.pinFn[p])) ∧
    get (s.pinIn p) ∧
    get (s.pad[p].getLsbD 6 &&
      if s.funcsel[p] = 5 ∧ s.sioOe.getLsbD p.val = true then s.sioOut.getLsbD p.val
      else if s.funcsel[p] = 4 then comparator
      else if s.funcsel[p] = 1 ∨ s.funcsel[p] = 2 ∨ s.funcsel[p] = 3 then s.env.periph.getLsbD p.val
      else outside pulled) ∧
    (∀ m, s.programmed p m = s →
      get (match m with
        | .output => s.sioOut.getLsbD p.val
        | .input => outside (s.env.float.getLsbD p.val)
        | .inputPulldown => outside false
        | .inputPullup => outside true
        | .pwm => comparator
        | .uart | .i2c | .spi => s.env.periph.getLsbD p.val
        | .off => false))

/-- 41_gpio_arbiter R160: `Set(p, v)` writes bit `p` of the output latch, in every mode, and nothing else but the edge that
follows. Undisturbed: the turns it takes are its agent's own; that `exec` carries it through the recorded turns is the model's
choice (logs 1, 2). -/
def Obligations.SetCompletes : Prop :=
  ∀ (s : State) (strict : Bool) (pin level : Byte) (p : Pin) (v : Bool), s.Ready → s.Settled → pinOf pin = some p →
    boolOf level = some v → (strict = true → s.pinInit[p] = true) → s.Alone (if strict then 1 else 0) →
    exec (.set strict pin level) s
      = .next (({ s.taken (if strict then 1 else 0) with sioOut := withPinBit s.sioOut p v } : State).answer .ok 0).edgeDetect

/-- 30_encoding R114, 43_adc_sequencer R252, R262: the strict variants on a pin that is not initialised, and a conversion of a
channel that is not bound, end with `NotInitialised` and change nothing. -/
def Obligations.NotInitialisedRefused : Prop :=
  ∀ s : State, s.Ready → s.Settled →
    (∀ (pin level : Byte) (p : Pin) (v : Bool), pinOf pin = some p → boolOf level = some v → s.pinInit[p] = false →
      ∀ i ∈ [Instr.deinit true pin, .mode true pin, .get true pin, .set true pin level],
        exec i s = .next (s.answer .notInitialised 0)) ∧
    (∀ (chan : Byte) (vref : Word) (ch : AdcCh), chOf chan = some ch → s.adcCreated[ch] = false →
      exec (.adcGet chan) s = .next (s.answer .notInitialised 0) ∧
      exec (.getVoltage chan vref) s = .next (s.answer .notInitialised 0) ∧
      (ch = 4 → exec (.getTemperature chan) s = .next (s.answer .notInitialised 0)))

/-- 41_gpio_arbiter R164, 10_state R41: `Pwm(p)`, undisturbed: a pin already in PWM mode is left as it is, a free one is set to
PWM mode as `SetMode` does, and the answer is the slice and the channel, `p & 15`; another function is refused. Undisturbed: the
turns it takes are its agent's own; that `exec` carries it through the recorded turns is the model's choice (logs 1, 2). -/
def Obligations.PwmCompletes : Prop :=
  ∀ (s : State) (pin : Byte) (p : Pin), s.Ready → s.Settled → pinOf pin = some p →
    (s.pinFn[p] = .pwm → exec (.pwm pin) s = .next (s.answer .ok (BitVec.ofNat 32 (p.val % 16)))) ∧
    (s.pinFn[p] ≠ .pwm → ¬ s.SwitchRefused p .pwm → s.Alone (1 + s.initSteps p + 1 + s.switchSteps p .pwm) →
      ∃ t, exec (.pwm pin) s = .next t ∧
        Reaches (· == p) s
          (((((s.taken (1 + s.initSteps p + 1 + s.switchSteps p .pwm)).initialised p).programmed p .pwm).recorded p .pwm).answer
            .ok (BitVec.ofNat 32 (p.val % 16))) t) ∧
    (s.SwitchRefused p .pwm → s.Alone (1 + s.initSteps p + 1) →
      ∃ t, exec (.pwm pin) s = .next t ∧
        Reaches (· == p) s (((s.taken (1 + s.initSteps p + 1)).initialised p).answer .duplicateValue 0) t)

/-- 41_gpio_arbiter R168, 10_state R51: `Adc(p)`, undisturbed: the ADC is initialised once; of a pin from 26 on the hardware is
then `HW(Off)`, the entry says `Off`, the channel `p − 26` is bound and answered; a pin below 26 ends with `BadParameter`.
Undisturbed: the turns it takes are its agent's own; that `exec` carries it through the recorded turns is the model's choice
(logs 1, 2). The order of the turns (the sequencer's among them) is a hypothesis. -/
def Obligations.AdcCompletes : Prop :=
  ∀ (s : State) (pin : Byte) (p : Pin), s.Ready → s.Settled → 1 ≤ s.params.resetTicks → 1 ≤ s.params.readyTicks →
    pinOf pin = some p →
    (∀ ch, adcChan p = some ch →
      let n := if s.adcCreated[ch] then 6 else 7
      s.NextTurns (s.initTurns ++ List.replicate n (.core s.sel)) →
      ∃ t, exec (.adc pin) s = .next t ∧
        let u := (((s.taken (s.initTurns.length + n)).adcReady).programmed p .off).recorded p .off
        Reaches (· == p) s (({ u with adcCreated := u.adcCreated.set ch true } : State).answer .ok (BitVec.ofNat 32 (p.val - 26))) t) ∧
    (p.val < 26 → s.NextTurns s.initTurns →
      exec (.adc pin) s = .next ((s.taken s.initTurns.length).adcReady.answer .badParameter 0))

/-! ### The PWM engine -/

/-- 42_pwm_engine R196, R200, R212: `PwmGet` answers the compare level of the channel, `Counter` the counter, `Wrap` the record's
wrap value, and nothing else changes. -/
def Obligations.PwmReadsComplete : Prop :=
  ∀ (s : State) (slice chan : Byte) (i : SliceId) (b : Bool), s.Ready → s.Settled → sliceOf slice = some i → boolOf chan = some b →
    exec (.pwmGet slice chan) s
      = .next (s.answer .ok ((if b then s.slices[i].cc.extractLsb' 16 16 else s.slices[i].cc.extractLsb' 0 16).setWidth 32)) ∧
    exec (.counter slice) s = .next (s.answer .ok (s.slices[i].ctr.setWidth 32)) ∧
    exec (.wrap slice) s = .next (s.answer .ok (s.slices[i].cfg.wrap.setWidth 32))

/-- 42_pwm_engine R186, R198, R202, R210, R220: `PwmSet`, undisturbed, writes the channel's half of `PWM_CC`; `SetCounter`
writes the counter and clears the direction; `SetWrap` writes the record's wrap value and `SetPeriod`, undisturbed, the solved
record, and neither writes a register. Undisturbed: the turns it takes are its agent's own; that `exec` carries it through the
recorded turns is the model's choice (logs 1, 2). -/
def Obligations.PwmWritesComplete : Prop :=
  ∀ (s : State) (slice : Byte) (w : Word) (i : SliceId), s.Ready → s.Settled → sliceOf slice = some i →
    (∀ (chan : Byte) (b : Bool) (v : BitVec 16), boolOf chan = some b → halfOf w = some v → s.Alone 1 →
      exec (.pwmSet slice chan w) s
        = .next (((s.taken 1).setSlice i { s.slices[i] with
            cc := if b then v ++ s.slices[i].cc.extractLsb' 0 16 else s.slices[i].cc.extractLsb' 16 16 ++ v }).answer .ok 0).edgeDetect) ∧
    (∀ v : BitVec 16, halfOf w = some v →
      exec (.setCounter slice w) s
        = .next ((s.setSlice i { s.slices[i] with ctr := v, dirDown := false }).answer .ok 0).edgeDetect ∧
      exec (.setWrap slice w) s
        = .next ((s.setSlice i { s.slices[i] with cfg := { s.slices[i].cfg with wrap := v } }).answer .ok 0)) ∧
    (∀ P : Nat, periodOf w = some P → s.Alone 1 →
      exec (.setPeriod slice w) s
        = .next (((s.taken 1).setSlice i { s.slices[i] with cfg := periodCfg s.slices[i].cfg P }).answer .ok 0))

/-- 42_pwm_engine R206, R208, R188, R189: `Inc` on an enabled, free-running slice in a cycle without a tick, and `Dec` in one
with a tick, complete after that cycle: the counter makes one count more, or one fewer, and the request bit is clear again. The
other slices take the same cycle. The order of the turns is a hypothesis (logs 1 and 2). -/
def Obligations.IncDecComplete : Prop :=
  ∀ (s : State) (slice : Byte) (i : SliceId), s.Ready → s.Settled → sliceOf slice = some i →
    s.slices[i].en = true → s.slices[i].divmode = 0 → s.NextTurns [.pwmClk, .core s.sel] →
    (s.slices[i].fracAcc + 16 < s.slices[i].div16 →
      let u := (s.taken 2).setSlice i { s.slices[i] with csr := s.slices[i].csr ||| 0x80 }
      exec (.inc slice) s = .next (u.pwmClk.answer .ok 0).edgeDetect ∧
      u.pwmClk.slices[i] = ({ s.slices[i] with prevB := s.env.bIn.getLsbD i.val, fracAcc := s.slices[i].fracAcc + 16,
                                               csr := s.slices[i].csr &&& 0x7F } : Slice).countTick.1) ∧
    (s.slices[i].div16 ≤ s.slices[i].fracAcc + 16 → s.slices[i].phAdv = false →
      let u := (s.taken 2).setSlice i { s.slices[i] with csr := s.slices[i].csr ||| 0x40 }
      exec (.dec slice) s = .next (u.pwmClk.answer .ok 0).edgeDetect ∧
      u.pwmClk.slices[i] = { s.slices[i] with prevB := s.env.bIn.getLsbD i.val,
                                              fracAcc := s.slices[i].fracAcc + 16 - s.slices[i].div16,
                                              csr := s.slices[i].csr &&& 0xBF })

/-- 42_pwm_engine R207, 60_exceptions R316: `Inc` and `Dec` on a disabled slice, while any number of cycles pass between the polls:
no cycle clears the request. With a budget of `B` polls they end with `Timeout` at the `B`-th and leave the request posted; with
an unbounded budget they are still in flight after any number of turns. The turns are any mix of the issuing core's and of
`PwmClk`'s; that `exec` carries the operation through the recorded turns is the model's choice (logs 1, 2). -/
def Obligations.IncDecOnDisabledSlice : Prop :=
  ∀ (s : State) (slice : Byte) (i : SliceId) (ts rest : List Turn), s.Ready → s.Settled → sliceOf slice = some i →
    s.slices[i].en = false → (∀ t ∈ ts, t = .core s.sel ∨ t = .pwmClk) → s.turns = ts ++ rest →
    let posted (bit : BitVec 8) : State :=
      ((s.setSlice i { s.slices[i] with csr := s.slices[i].csr ||| bit }).clocked (ts.count .pwmClk)).taken ts.length
    (∀ bit ∈ [0x80#8, 0x40#8], ∃ pb, (posted bit).slices[i] = { s.slices[i] with csr := s.slices[i].csr ||| bit, prevB := pb }) ∧
    (∀ B, s.params.pollBudget = some B → 1 ≤ B → ts.count (.core s.sel) = B → ts.getLast? = some (.core s.sel) →
      exec (.inc slice) s = .next ((posted 0x80).answer .timeout 0) ∧
      exec (.dec slice) s = .next ((posted 0x40).answer .timeout 0)) ∧
    (s.params.pollBudget = none → rest = [] →
      exec (.inc slice) s
        = .next (((posted 0x80).setFlight s.sel s.ctx
            (some { code := [.poll (.phAdvClear i) (ts.count (.core s.sel))], res := 0, post := .plain })).setResp s.sel s.ctx none) ∧
      exec (.dec slice) s
        = .next (((posted 0x40).setFlight s.sel s.ctx
            (some { code := [.poll (.phRetClear i) (ts.count (.core s.sel))], res := 0, post := .plain })).setResp s.sel s.ctx none))

/-- 42_pwm_engine R214: `SetEnabled(s, true)`, undisturbed, takes the record into the registers, zeroes the counter and enables
the slice; `SetEnabled(s, false)` clears the enable bit and nothing else. Undisturbed: the turns it takes are its agent's own;
that `exec` carries it through the recorded turns is the model's choice (logs 1, 2). -/
def Obligations.SetEnabledCompletes : Prop :=
  ∀ (s : State) (slice enable : Byte) (i : SliceId) (e : Bool), s.Ready → s.Settled → sliceOf slice = some i →
    boolOf enable = some e →
    (e = true → s.Alone 6 →
      ∃ t, exec (.setEnabled slice enable) s = .next t ∧
        Reaches (pinsOfSlice i) s (((s.taken 6).setSlice i s.slices[i].started).answer .ok 0) t) ∧
    (e = false →
      exec (.setEnabled slice enable) s
        = .next ((s.setSlice i { s.slices[i] with csr := s.slices[i].csr &&& 0xFE }).answer .ok 0))

/-- 42_pwm_engine R228: `PwmSetInterrupt`, undisturbed: with a handler it stores it, enables the slice's event and opens the
issuing core's gate; with none it disables the event, removes the handler, and closes the gate only under `NIL_DISABLES_LINE`.
Undisturbed: the turns it takes are its agent's own; that `exec` carries it through the recorded turns is the model's choice
(logs 1, 2). -/
def Obligations.PwmSetInterruptCompletes : Prop :=
  ∀ (s : State) (slice : Byte) (h : Word) (i : SliceId), s.Ready → s.Settled → sliceOf slice = some i →
    (h ≠ 0 →
      let n := if s.cores[s.sel].nvicPwm then 2 else 3
      s.Alone n →
      let u := ({ s.taken n with pwmInte := s.pwmInte ||| (1#8 <<< i.val) } : State).setSlice i { s.slices[i] with cb := h }
      exec (.pwmSetInterrupt slice h) s = .next ((u.setCore s.sel { s.cores[s.sel] with nvicPwm := true }).answer .ok 0)) ∧
    (h = 0 →
      let n := if s.params.nilDisablesLine then 2 else 1
      s.Alone n →
      let u := ({ s.taken n with pwmInte := s.pwmInte &&& ~~~(1#8 <<< i.val) } : State).setSlice i { s.slices[i] with cb := 0 }
      exec (.pwmSetInterrupt slice h) s
        = .next ((if s.params.nilDisablesLine then u.setCore s.sel { s.cores[s.sel] with nvicPwm := false } else u).answer .ok 0))

/-- 42_pwm_engine R221 to R225: for every period in range the solved divider is within 1 to 255 15/16, phase-correct is forced
exactly above half the range, no other field of the record changes; and where the record is not phase-correct already or the
period is at least 16 ns, the period the record gives is never above the request, and short of it by less than one divider step
where the wrap value is at its limit and by less than one tick elsewhere. Periods are in sixteenths of a nanosecond. The
bounds are inferred from the rules of the computation. -/
def Obligations.SetPeriodSolves : Prop :=
  ∀ (c : PwmCfg) (P : Nat), 8 ≤ P → P ≤ 268369920 →
    let k := periodCfg c P
    let tick := 8 * (16 * k.divInt.toNat + k.divFrac.toNat) * (if k.phCorrect then 2 else 1)
    let divStep := 8 * (k.wrap.toNat + 1) * (if k.phCorrect then 2 else 1)
    1 ≤ k.divInt.toNat ∧ k.phCorrect = (c.phCorrect || decide (134184960 < P)) ∧
    k.invA = c.invA ∧ k.invB = c.invB ∧ k.divmode = c.divmode ∧
    (c.phCorrect = false ∨ 16 ≤ P →
      8 * k.period16 ≤ 16 * P ∧ (16 * P < 8 * k.period16 + tick ∨ k.wrap.toNat = 65535 ∧ 16 * P < 8 * k.period16 + divStep)) ∧
    (c.phCorrect = true → P < 16 → k.wrap = 0)

/-- 42_pwm_engine R180 to R190: over `div16 × (TOP + 1) × (2 if phase-correct)` cycles an enabled, free-running slice whose
registers are not written, with its counter in range and no phase request, raises exactly 16 wrap events and comes back to the
state it was in; with a whole divider, over a sixteenth of that, exactly one. Of the whole block, after as many steps of `PwmClk`
the slice is where it was and its bit of `PWM_INTR` is 1. Inferred as R190 itself is; the premises on the counter, the
accumulator and the phase requests are not in R190. -/
def Obligations.PwmPeriod : Prop :=
  ∀ (sl : Slice) (b : Nat → Bool), sl.en = true → sl.divmode = 0 → sl.phAdv = false → sl.phRet = false → 16 ≤ sl.div16 →
    sl.fracAcc < sl.div16 → sl.ctr ≤ sl.top → (sl.phCorrect = false → sl.dirDown = false) →
    let n := (sl.top.toNat + 1) * (if sl.phCorrect then 2 else 1)
    (∃ pb, Slice.cycles b (sl.div16 * n) sl = ({ sl with prevB := pb }, 16)) ∧
    (sl.divFrac = 0 → ∃ pb, Slice.cycles b (sl.divInt.toNat * n) sl = ({ sl with prevB := pb }, 1)) ∧
    (∀ (s : State) (i : SliceId) (k : Nat), s.slices[i] = sl → k = sl.div16 * n ∨ (sl.divFrac = 0 ∧ k = sl.divInt.toNat * n) →
      (∃ pb, (s.clocked k).slices[i] = { sl with prevB := pb }) ∧ (s.clocked k).pwmIntr.getLsbD i.val = true)

/-- 42_pwm_engine R180, R182 to R185, R187, R188, R189, 10_state R39: one step of `PwmClk`. A disabled slice, and one that is
gated off, keeps everything but `prev_b`. In any other a posted retard swallows a tick of the divider, a posted advance gives a
tick to a cycle without one, each request is cleared when served, and where both are posted in a cycle with a tick both are
served and the counter makes its one count. A free-running counter at `TOP` goes to 0 with a wrap event and elsewhere, above `TOP`
too, to the next number mod 65536; a phase-correct one goes up, holds `TOP` one tick, goes down and holds 0 one tick, with the
event. `PWM_INTR` gains the bit of every slice that wraps and keeps the others, and nothing else changes. -/
def Obligations.PhaseRequestsServed : Prop :=
  let count (x : Slice) : Slice × Bool :=
    if x.csr.getLsbD 1 = false then
      ({ x with dirDown := false, ctr := BitVec.ofNat 16 (if x.ctr = x.top then 0 else (x.ctr.toNat + 1) % 65536) },
        decide (x.ctr = x.top))
    else if x.dirDown = false then
      (if x.ctr = x.top then { x with dirDown := true } else { x with ctr := BitVec.ofNat 16 ((x.ctr.toNat + 1) % 65536) }, false)
    else
      (if x.ctr = 0 then { x with dirDown := false } else { x with ctr := BitVec.ofNat 16 (x.ctr.toNat - 1) }, decide (x.ctr = 0))
  (∀ x : Slice, x.countTick = count x) ∧
  ∀ s : State,
    { s.pwmClk with slices := s.slices, pwmIntr := s.pwmIntr } = s ∧
    ∀ i : SliceId,
      let sl := s.slices[i]
      let b := s.env.bIn.getLsbD i.val
      let tick := decide (sl.div16 ≤ sl.fracAcc + 16)
      let moved : Slice :=
        { sl with prevB := b, fracAcc := if sl.div16 ≤ sl.fracAcc + 16 then sl.fracAcc + 16 - sl.div16 else sl.fracAcc + 16 }
      let gateOpen : Prop :=
        sl.divmode = 0 ∨ (sl.divmode = 1 ∧ b = true) ∨ (sl.divmode = 2 ∧ b = true ∧ sl.prevB = false) ∨
          (sl.divmode = 3 ∧ b = false ∧ sl.prevB = true)
      let becomes (x : Slice × Bool) : Prop :=
        s.pwmClk.slices[i] = x.1 ∧ s.pwmClk.pwmIntr.getLsbD i.val = (s.pwmIntr.getLsbD i.val || x.2)
      (sl.en = false ∨ ¬ gateOpen → becomes ({ sl with prevB := b }, false)) ∧
      (sl.en = true → gateOpen → becomes (
        match tick, sl.phRet, sl.phAdv with
        | true, false, _ => count moved
        | true, true, false => ({ moved with csr := sl.csr &&& 0xBF }, false)
        | true, true, true => count { moved with csr := sl.csr &&& 0x3F }
        | false, _, true => count { moved with csr := sl.csr &&& 0x7F }
        | false, _, false => (moved, false)))

/-! ### The ADC -/

/-- 43_adc_sequencer R242, R256: `ADC_init`, undisturbed, runs once: it resets the block, enables it and waits until it is
ready; `AdcTemp` does the same, binds channel 4 and answers 4. The order of the turns is a hypothesis (logs 1 and 2). -/
def Obligations.AdcInitAdcTempComplete : Prop :=
  ∀ s : State, s.Ready → s.Settled → 1 ≤ s.params.resetTicks → 1 ≤ s.params.readyTicks →
    (s.NextTurns s.initTurns → exec .adcInit s = .next ((s.taken s.initTurns.length).adcReady.answer .ok 0)) ∧
    (let n := if s.adcCreated[(4 : AdcCh)] then 1 else 2
     s.NextTurns (s.initTurns ++ List.replicate n (.core s.sel)) →
     let u := (s.taken (s.initTurns.length + n)).adcReady
     exec .adcTemp s = .next (({ u with adcCreated := u.adcCreated.set (4 : AdcCh) true } : State).answer .ok 4))

/-- 43_adc_sequencer R252, R258: on a bound channel with the converter idle, `AdcGet` answers the draw and `GetVoltage` its
voltage. The order of the turns is a hypothesis (logs 1 and 2); a draw not recorded is a free value (log 8). -/
def Obligations.ConversionsComplete : Prop :=
  ∀ (s : State) (chan : Byte) (vref : Word) (ch : AdcCh), s.Ready → s.Settled → 1 ≤ s.params.convTicks → chOf chan = some ch →
    s.adcCreated[ch] = true → s.adc.Idle → s.NextTurns s.convTurns →
    let raw : Word := (s.sample (BitVec.ofNat 3 ch.val)).setWidth 32
    let u := (s.taken s.convTurns.length).converted ch
    exec (.adcGet chan) s = .next (u.answer .ok raw) ∧
    exec (.getVoltage chan vref) s = .next (u.answer .ok (voltageOf raw vref))

/-- 43_adc_sequencer R262: `GetTemperature(4)` on the bound sensor channel with the converter idle turns the sensor on, once,
and answers the temperature of the draw; on another channel it makes no access and answers 0, or `BadParameter` under the
switch. The order of the turns is a hypothesis (logs 1 and 2); a draw not recorded is a free value (log 8). -/
def Obligations.GetTemperatureCompletes : Prop :=
  ∀ (s : State) (chan : Byte) (ch : AdcCh), s.Ready → s.Settled → 1 ≤ s.params.convTicks → chOf chan = some ch →
    (ch = 4 → s.adcCreated[(4 : AdcCh)] = true → s.adc.Idle → s.adc.Inv →
      let n := if s.adc.cs.getLsbD 1 then 2 else 3
      s.NextTurns (List.replicate n (.core s.sel) ++ s.convTurns) →
      let u := (s.taken (n + s.convTurns.length)).setAdc { s.adc with cs := s.adc.cs ||| 0x02 }
      exec (.getTemperature chan) s
        = .next ((u.converted 4).answer .ok (temperatureOf ((s.sample 4).setWidth 32)))) ∧
    (ch ≠ 4 →
      exec (.getTemperature chan) s
        = .next (if s.params.tempWrongChannel = .zero then s.answer .ok 0 else s.answer .badParameter 0))

/-- 43_adc_sequencer R245: a write of 0 to `RST.ADC`, of the whole register or as an atomic clear, begins the countdown to
reset-done where it was 1 and does nothing where it was 0; the step of `AdcSeq` that counts it down to 0 sets `RST_DONE.ADC`. -/
def Obligations.ResetRelease : Prop :=
  ∀ (s : State) (w : Word), w.getLsbD 0 = false →
    (s.adc.rst = true →
      s.writeReg .rst w = s.setAdc { s.adc with rst := false, resetLeft := some s.params.resetTicks } ∧
      s.clrBits .rst 1 = s.setAdc { s.adc with rst := false, resetLeft := some s.params.resetTicks }) ∧
    (s.adc.rst = false → s.writeReg .rst w = s ∧ s.clrBits .rst 1 = s) ∧
    (∀ n, 1 ≤ n → s.adc.resetLeft = some n →
      s.adcSeq.adc.resetLeft = (if n = 1 then none else some (n - 1)) ∧
      s.adcSeq.adc.rstDone = (s.adc.rstDone || n == 1))

/-- 43_adc_sequencer R244, R246, R250, 20_memory R86: what writing `RST.ADC` and `ADC_CS` does. Writing 1 to `RST.ADC` puts
every ADC register at its reset value and no table; on a block out of reset, setting `EN` of a disabled block starts the ready
timer, clearing it makes the block not ready and stops the timers, and setting `START_ONCE` starts a conversion exactly where
the block is enabled and ready. That a write to a block held in reset is ignored is the model's reading and not part of this
(log 15). -/
def Obligations.AdcControl : Prop :=
  ∀ s : State, s.adc.Inv →
    s.setBits .rst 1 = s.setAdc (AdcBlock.reset true) ∧
    (s.adc.rst = false → s.adc.en = false →
      s.setBits .adcCs 1 = s.setAdc { s.adc with cs := s.adc.cs ||| 1, readyLeft := some s.params.readyTicks } ∧
      s.setBits .adcCs 4 = s) ∧
    (s.adc.rst = false →
      s.clrBits .adcCs 1 = s.setAdc { s.adc with cs := s.adc.cs &&& ~~~0x101, readyLeft := none, convLeft := none }) ∧
    (s.adc.rst = false → s.adc.en = true →
      s.setBits .adcCs 4
        = if s.adc.ready then s.setAdc { s.adc with cs := s.adc.cs &&& ~~~0x100, convLeft := some s.params.convTicks } else s)

/-- 43_adc_sequencer R247, R251: a step of `AdcSeq` takes one from each timer that runs, and one that reaches 0 stops and fires:
reset-done, ready, or the end of the conversion, which takes the draw for the channel selected at that moment into the result
and is ready. Nothing else changes but the draws left. In these terms a timer that holds 0 never occurs (log 25); it is
excluded. -/
def Obligations.AdcSeqStep : Prop :=
  ∀ s : State, s.adc.resetLeft ≠ some 0 → s.adc.readyLeft ≠ some 0 → s.adc.convLeft ≠ some 0 →
    let t := s.adcSeq
    let next (left : Option Nat) : Option Nat := if left = some 1 then none else left.map (· - 1)
    t.adc = { s.adc with
      resetLeft := next s.adc.resetLeft, readyLeft := next s.adc.readyLeft, convLeft := next s.adc.convLeft,
      rstDone := s.adc.rstDone || decide (s.adc.resetLeft = some 1),
      cs := if s.adc.readyLeft = some 1 ∨ s.adc.convLeft = some 1 then s.adc.cs ||| 0x100 else s.adc.cs,
      result := if s.adc.convLeft = some 1 then s.sample s.adc.ainsel else s.adc.result } ∧
    { t with adc := s.adc, samples := s.samples, drawNo := s.drawNo } = s ∧
    (s.adc.convLeft ≠ some 1 → t.samples = s.samples ∧ t.drawNo = s.drawNo)

/-- 43_adc_sequencer R260, 30_encoding R119: `± m × 2^e` is rounded to the nearest binary32 number, ties to even, and from the
limit of the range on to an infinity, with its sign; a number of at most 24 bits in the range of normal numbers, 0 among them, is
rounded to itself, so that a raw result travels to binary32 exactly. -/
def Obligations.RoundingIsExactOnShortNumbers : Prop :=
  ∀ (neg : Bool) (m : Nat) (e : Int),
    let x : ℚ := (if neg then -1 else 1) * m * 2 ^ e
    (roundF32 neg m e).getLsbD 31 = neg ∧
    (|x| < f32Limit → RoundsTo x (roundF32 neg m e)) ∧ (f32Limit ≤ |x| → roundF32 neg m e = f32Inf neg) ∧
    (m < 2 ^ 24 → -149 ≤ e → e ≤ 104 → ∃ n f, f32Of (roundF32 neg m e) = .fin neg n f ∧ (n : ℚ) * 2 ^ f = m * 2 ^ e) ∧
    (m < 4096 → f32Value (f32OfNat m) = some (m : ℚ))

/-- 43_adc_sequencer R258, R260, R262: the product, the quotient and the difference of finite binary32 numbers are the exact ones
rounded once, to nearest even; of a raw result, `GetVoltage` answers `raw × vref / 4096` within a relative error of `2^-23` where
that is 0 or in the range of normal numbers, and `GetTemperature` the formula over the reals within 0.001 degrees. -/
def Obligations.ArithmeticRoundsOnce : Prop :=
  (∀ (a b : Word) (x y : ℚ), f32Value a = some x → f32Value b = some y →
    (|x * y| < f32Limit → RoundsTo (x * y) (f32Mul a b)) ∧
    (y ≠ 0 → |x / y| < f32Limit → RoundsTo (x / y) (f32Div a b)) ∧
    (|x - y| < f32Limit → RoundsTo (x - y) (f32Sub a b))) ∧
  (∀ (raw vref : Word) (y : ℚ), raw.toNat < 4096 → f32Value vref = some y → |raw.toNat * y| < f32Limit →
    let x : ℚ := raw.toNat * y / 4096
    x = 0 ∨ 1 / 2 ^ 126 ≤ |x| → ∃ v, f32Value (voltageOf raw vref) = some v ∧ |v - x| ≤ |x| / 2 ^ 23) ∧
  (∀ raw : Word, raw.toNat < 4096 →
    ∃ v, f32Value (temperatureOf raw) = some v ∧ |v - (27 - ((33 / 10) * raw.toNat / 4096 - 706 / 1000) / (1721 / 1000000))| ≤ 1 / 1000)

/-! ### Interrupts -/

/-- 44_irq_router R280, R284: `SetInterrupt`, undisturbed: with a handler it clears the pin's latched bits, enables both edges
in the issuing core's bank, binds the handler with both edges and opens that core's gate; with none it closes the gate only
under `NIL_DISABLES_LINE`, disables both edges and removes the binding. Undisturbed: the turns it takes are its agent's own;
that `exec` carries it through the recorded turns is the model's choice (logs 1, 2). -/
def Obligations.SetInterruptCompletes : Prop :=
  ∀ (s : State) (pin : Byte) (h : Word) (p : Pin), s.Ready → s.Settled → pinOf pin = some p →
    let b := bankOf p
    let k := s.cores[s.sel]
    (h ≠ 0 →
      let n := if k.nvicGpio then 3 else 4
      s.Alone n →
      exec (.setInterrupt pin h) s
        = .next ((({ s.taken n with ioIntr := s.ioIntr.set b (s.ioIntr[b] &&& ~~~mask4 p) } : State).setCore s.sel
            { k with inte := k.inte.set b ((k.inte[b] ||| edgesOf p) &&& bankMask b), gpioCb := k.gpioCb.set p h,
                     gpioEdges := k.gpioEdges.set p 3, nvicGpio := true }).answer .ok 0)) ∧
    (h = 0 →
      let n := if s.params.nilDisablesLine then 2 else 1
      s.Alone n →
      exec (.setInterrupt pin h) s
        = .next (((s.taken n).setCore s.sel
            { k with inte := k.inte.set b (k.inte[b] &&& ~~~edgesOf p &&& bankMask b), gpioCb := k.gpioCb.set p 0,
                     gpioEdges := k.gpioEdges.set p 0, nvicGpio := k.nvicGpio && !s.params.nilDisablesLine }).answer .ok 0))

/-- 44_irq_router R294, R296, 60_exceptions R336, 30_encoding R111: in interrupt context with a handler open, `CbReturn` closes
it, and `CbFault` sets the fatal flag and gives no response; in main context both are `BadParameter`; in interrupt context with no
handler open they and every other command are `BadParameter`. That a CbFault has no response is in R296; how it is recorded is
log 22. That a command in interrupt context without a handler is answered at all is from R111 and 93 U2 (log 4). -/
def Obligations.CallbacksComplete : Prop :=
  ∀ s : State, s.Settled →
    (s.Ready → s.ctx = true →
      exec .cbReturn s = .next ((s.setCore s.sel { s.cores[s.sel] with cbDepth := 0 }).answer .ok 0) ∧
      exec .cbFault s = .next (({ s with fatal := true } : State).setResp s.sel true none)) ∧
    (s.Ready → s.ctx = false →
      exec .cbReturn s = .next (s.answer .badParameter 0) ∧ exec .cbFault s = .next (s.answer .badParameter 0)) ∧
    (s.fatal = false → s.flight s.sel s.ctx = none → s.ctx = true → s.cores[s.sel].cbDepth = 0 →
      ∀ i : Instr, exec i s = .next (s.answer .badParameter 0))

/-- 44_irq_router R272, 10_state R27, R56: the edge detector latches the rise of every pin that was 0 and is 1 and the fall of
every pin that was 1 and is 0, keeps every other bit as it is, and remembers the levels. -/
def Obligations.EdgeDetector : Prop :=
  ∀ s : State,
    s.edgeDetect.quiet = s.quiet ∧ s.edgeDetect.prevIn = s.pinInAll ∧
    (∀ p : Pin, s.pinInAll.getLsbD p.val = s.pinIn p) ∧
    (∀ (b : BankReg) (j : Nat), j < 32 →
      s.edgeDetect.ioIntr[b].getLsbD j =
        (s.ioIntr[b].getLsbD j ||
          if h : 8 * b.val + j / 4 < 30 then
            let p : Pin := ⟨8 * b.val + j / 4, h⟩
            (j % 4 == 3 && !s.prevIn.getLsbD p.val && s.pinIn p) || (j % 4 == 2 && s.prevIn.getLsbD p.val && !s.pinIn p)
          else false))

/-- 44_irq_router R276, 10_state R39, R60, R61: the masked status is the raw one where it is enabled, and what is forced; the
GPIO line of a core is 1 exactly when a register of its masked status bank is not 0, the PWM line, one signal for both cores,
exactly when the masked wrap status is not 0; an interrupt is pending on a core exactly when its line is 1 and its gate is open. It
is a function of the state alone: there is no latch. -/
def Obligations.PendingRules : Prop :=
  ∀ (s : State) (c : CoreId),
    (∀ b : BankReg, s.ints c b = (s.intr b &&& s.cores[c].inte[b]) ||| s.cores[c].intf[b]) ∧
    s.pwmInts = (s.pwmIntr &&& s.pwmInte) ||| s.pwmIntf ∧
    (s.gpioLine c = true ↔ ∃ b : BankReg, s.ints c b ≠ 0) ∧ (s.pwmLine = true ↔ s.pwmInts ≠ 0) ∧
    (s.gpioPending c = true ↔ s.gpioLine c = true ∧ s.cores[c].nvicGpio = true) ∧
    (s.pwmPending c = true ↔ s.pwmLine = true ∧ s.cores[c].nvicPwm = true)

/-- 60_exceptions R322, R326, R327, R330, R331: interrupt entry on a core happens where the block is not fatal, the core serves
none and one is pending; it changes `in_irq` and begins the dispatch, the PWM wrap first, and changes nothing else; elsewhere it
does nothing. The return ends both, and changes nothing else. -/
def Obligations.InterruptEntryAndReturn : Prop :=
  ∀ (s : State) (c : CoreId),
    (s.fatal = false → s.cores[c].inIrq = none → s.pwmPending c = true →
      s.enterIrq c = s.setCore c { s.cores[c] with inIrq := some .pwmWrap, disp := dispatchCode .pwmWrap }) ∧
    (s.fatal = false → s.cores[c].inIrq = none → s.pwmPending c = false → s.gpioPending c = true →
      s.enterIrq c = s.setCore c { s.cores[c] with inIrq := some .gpioBank, disp := dispatchCode .gpioBank }) ∧
    (s.fatal = true ∨ s.cores[c].inIrq ≠ none ∨ (s.pwmPending c = false ∧ s.gpioPending c = false) → s.enterIrq c = s) ∧
    (∀ rest, s.fatal = false → s.cores[c].inIrq ≠ none → s.cores[c].irq = none → s.cores[c].cbDepth = 0 →
      s.cores[c].disp = .leave :: rest →
      s.atomic (.core c) = (s.setCore c { s.cores[c] with inIrq := none, disp := [] }).edgeDetect)

/-- 10_state R63, 60_exceptions R327, R331: while a core serves an interrupt no turn of any agent changes what its main line has
in flight, its last response or its commands. -/
def Obligations.MainLineWaits : Prop :=
  ∀ (s : State) (c : CoreId) (t : Turn), s.cores[c].inIrq ≠ none →
    (s.atomic t).cores[c].main = s.cores[c].main ∧ (s.atomic t).cores[c].mainResp = s.cores[c].mainResp ∧
    (s.atomic t).cores[c].mainQ = s.cores[c].mainQ

/-- 42_pwm_engine R230, R232, 44_irq_router R292: the wrap dispatch on a core that takes its turns undisturbed reads the masked
status once, acknowledges exactly those bits, and then looks up the slices it read in ascending order. The lookup of a slice
invokes its handler with kind 1 and the slice's number, which opens the handler, gives it the commands of its body and emits one
message; a slice without a handler is passed over. That the invocation is an atomic step of its own is the model's reading (log
21). -/
def Obligations.WrapDispatchAcknowledges : Prop :=
  ∀ (s : State) (c : CoreId), s.fatal = false → s.Settled → s.cores[c].inIrq = some .pwmWrap → s.cores[c].irq = none →
    s.cores[c].cbDepth = 0 →
    (s.cores[c].disp = dispatchCode .pwmWrap →
      (s.atomic (.core c)).atomic (.core c)
        = ({ s with pwmIntr := s.pwmIntr &&& ~~~s.pwmInts } : State).setCore c
            { s.cores[c] with
              disp := ((List.finRange 8).filter (fun i : SliceId => s.pwmInts.getLsbD i.val)).map .pwmLookup ++ [.leave] }) ∧
    (∀ (i : SliceId) (rest : List DStep), s.cores[c].disp = .pwmLookup i :: rest →
      (s.slices[i].cb = 0 → s.atomic (.core c) = s.setCore c { s.cores[c] with disp := rest }) ∧
      (s.slices[i].cb ≠ 0 →
        s.atomic (.core c) = s.setCore c { s.cores[c] with disp := .invoke .wrap s.slices[i].cb i.val 0 :: rest } ∧
        let t := (s.atomic (.core c)).atomic (.core c)
        t = { s.setCore c { s.cores[c] with cbDepth := 1, disp := rest, irqQ := t.cores[c].irqQ } with
              cbLog := { core := c, kind := .wrap, h := s.slices[i].cb, a0 := i.val, a1 := 0 } :: s.cbLog } ∧
        ∀ body, s.params.handlers.lookup s.slices[i].cb = some body → t.cores[c].irqQ = body))

/-- 44_irq_router R288, R289: a read of a bank register in the GPIO dispatch puts before the rest, for every existing pin with an
event in ascending order, the acknowledgement of exactly the bits seen and then the lookup of its handler, and nothing else. -/
def Obligations.GpioDispatchOrder : Prop :=
  ∀ (s : State) (c : CoreId) (b : BankReg) (rest : List DStep), s.fatal = false → s.Settled → s.cores[c].inIrq ≠ none →
    s.cores[c].irq = none → s.cores[c].cbDepth = 0 → s.cores[c].disp = .gpioRead b :: rest →
    ∃ code, s.atomic (.core c) = s.setCore c { s.cores[c] with disp := code ++ rest } ∧
      (∀ (p : Pin) (ev : BitVec 4), DStep.gpioLookup p ev ∈ code ↔
        bankOf p = b ∧ ev = (s.ints c b).extractLsb' (4 * (p.val % 8)) 4 ∧ ev ≠ 0) ∧
      code.length = 2 * (List.finRange 30).countP (fun p : Pin =>
        decide (bankOf p = b ∧ (s.ints c b).extractLsb' (4 * (p.val % 8)) 4 ≠ 0)) ∧
      (∀ (x : BankReg) (w : Word), DStep.gpioAck x w ∈ code ↔
        x = b ∧ w ≠ 0 ∧ ∃ p : Pin, bankOf p = b ∧ w = s.ints c b &&& mask4 p) ∧
      (code.filterMap (fun d => match d with | .gpioLookup p _ => some p.val | _ => none)).Pairwise (· < ·) ∧
      (∀ j p ev, code[j]? = some (DStep.gpioLookup p ev) →
        ∃ k, j = k + 1 ∧ code[k]? = some (DStep.gpioAck b (s.ints c b &&& mask4 p)))

/-- 44_irq_router R288, R290, R292: in the GPIO dispatch the lookup of a pin's event invokes the bound handler with the pin and
the bound edges seen, or, where none is left, acknowledges all four bits of the pin; and invoking opens the handler and emits
one message. That the invocation is an atomic step of its own is the model's reading (log 21). -/
def Obligations.GpioLookupServes : Prop :=
  ∀ (s : State) (c : CoreId) (p : Pin) (ev : BitVec 4) (rest : List DStep), s.fatal = false → s.Settled →
    s.cores[c].inIrq ≠ none → s.cores[c].irq = none → s.cores[c].cbDepth = 0 → s.cores[c].disp = .gpioLookup p ev :: rest →
    let h := s.cores[c].gpioCb[p]
    let e := ev.extractLsb' 2 2 &&& s.cores[c].gpioEdges[p]
    (h ≠ 0 ∧ e ≠ 0 →
      (s.atomic (.core c)) = s.setCore c { s.cores[c] with disp := .invoke .gpio h p.val e.toNat :: rest } ∧
      ((s.atomic (.core c)).atomic (.core c)).cbLog = { core := c, kind := .gpio, h := h, a0 := p.val, a1 := e.toNat } :: s.cbLog ∧
      ((s.atomic (.core c)).atomic (.core c)).cores[c].cbDepth = 1 ∧
      ((s.atomic (.core c)).atomic (.core c)).cores[c].disp = rest) ∧
    (h = 0 ∨ e = 0 →
      ((s.atomic (.core c)).atomic (.core c))
        = ({ s with ioIntr := s.ioIntr.set (bankOf p) (s.ioIntr[bankOf p] &&& ~~~mask4 p) } : State).setCore c
            { s.cores[c] with disp := rest })

/-- 44_irq_router R300: a handler is registered on pin `X` from core `c`, there is no other enabled event and no forced bit, the
core is idle and its gate open. Then after `AssertEvent(X, 3)` and the core's turns, the handler answering with `CbReturn`, it
has been invoked exactly once, with `(X, Rise)`; the event is cleared, the line is low, the core is back in its main line, and
nothing else has changed. The order of the turns is a hypothesis (log 1). -/
def Obligations.ExactlyOneInvocation : Prop :=
  ∀ (s : State) (c : CoreId) (X : Pin) (h : Word), s.fatal = false → s.Settled →
    s.cores[c].inIrq = none → s.cores[c].irq = none → s.cores[c].cbDepth = 0 → s.cores[c].disp = [] → s.cores[c].irqQ = [] →
    s.cores[c].nvicGpio = true → s.pwmPending c = false →
    s.cores[c].gpioCb[X] = h → h ≠ 0 → s.cores[c].gpioEdges[X] = 3 →
    s.params.handlers.lookup h = some [⟨0x4E, 0, 0, 0⟩] →
    (∀ b : BankReg, s.cores[c].intf[b] = 0 ∧ s.cores[c].inte[b] = (if b = bankOf X then edgesOf X else 0)) →
    s.ioIntr[bankOf X] &&& mask4 X = 0 →
    let t := ([Turn.hostEvent X true, Turn.enter c] ++ List.replicate 9 (Turn.core c)).foldl State.atomic s
    t.cbLog = { core := c, kind := .gpio, h := h, a0 := X.val, a1 := 2 } :: s.cbLog ∧
    t.gpioLine c = false ∧
    { t with cbLog := s.cbLog } = s.setCore c { s.cores[c] with irqResp := some ⟨.ok, 0⟩ }

/-- 41_gpio_arbiter R170 (1), R160, R158, 10_state R27, R28: on a pin whose hardware is that of `Output`, `Set(p, v)` and then
`Get(p)` answer `OK` and `v`, whatever the outside world drives. -/
def Obligations.SetGetRoundTrip : Prop :=
  ∀ (s : State) (pin level : Byte) (p : Pin) (v : Bool), s.Ready → s.Settled → pinOf pin = some p → boolOf level = some v →
    s.funcsel[p] = hwFuncsel .output → s.sioOe.getLsbD p.val = true → padIe s.pad[p] = true →
    ∃ t u, exec (.set false pin level) s = .next t ∧ t.lastResp = some ⟨.ok, 0⟩ ∧
      exec (.get false pin) t = .next u ∧ u.lastResp = some ⟨.ok, if v then 1 else 0⟩

/-! ### Invariants -/

/-- 10_state R65, 44_irq_router R272: after every step the edge detector's memory agrees with the pins. -/
def Obligations.StepSettles : Prop := ∀ s t : State, step s = .next t → t.Settled

/-- 10_state R23 (c). -/
def Obligations.StepKeepsPull : Prop := ∀ s t : State, s.PullInv → step s = .next t → t.PullInv

/-- 10_state R54, R56 to R59. -/
def Obligations.StepKeepsBanks : Prop := ∀ s t : State, s.BankInv → step s = .next t → t.BankInv

/-- 43_adc_sequencer R244 to R251, 10_state R47, R48. -/
def Obligations.StepKeepsAdc : Prop := ∀ s t : State, s.adc.Inv → step s = .next t → t.adc.Inv

/-- 10_state R63, R64, 60_exceptions R330, R331. -/
def Obligations.StepKeepsInterrupts : Prop := ∀ s t : State, s.IrqInv → step s = .next t → t.IrqInv

/-- 10_state R34, R40, 42_pwm_engine R183: no divider becomes 0, and every accumulator stays below its divider. -/
def Obligations.StepKeepsDividers : Prop := ∀ s t : State, s.DivInv → step s = .next t → t.DivInv

/-- 41_gpio_arbiter R144, 10_state R46, 00_scope R15: no step takes back the initialisation of a pin, of the ADC or of a channel,
and none changes the parameters. -/
def Obligations.StepForgetsNothing : Prop :=
  ∀ s t : State, step s = .next t →
    (∀ p : Pin, s.pinInit[p] = true → t.pinInit[p] = true) ∧ (s.adcInited = true → t.adcInited = true) ∧
    (∀ ch : AdcCh, s.adcCreated[ch] = true → t.adcCreated[ch] = true) ∧ t.params = s.params

/-- 70_reset R350 to R352, 10_state R30, R70: at reset, for any parameters, inputs and draw of `RST.ADC`, with the edge memory that
the inputs give, the five invariants hold, no interrupt can be entered, and the issuing agent is ready; and where the parameters
are in their domains no pad has both pulls or its output disabled, and the addresses name the registers one to one (20_memory
R97). Stated for every value the model chooses at reset (logs 5, 6 and 7), so that it rests on none of them. -/
def Obligations.ResetInvariants : Prop :=
  ∀ (P : Params) (E : Inputs) (rst : Bool) (prev : BitVec 30),
    let s := State.resetWith P E rst prev
    s.PullInv ∧ s.BankInv ∧ s.adc.Inv ∧ s.IrqInv ∧ s.DivInv ∧ s.Ready ∧ (prev = s.pinInAll → s.Settled) ∧
    (∀ c, s.entryEnabled c = false) ∧
    (paramsOk P = true →
      (∀ p : Pin, (padPue s.pad[p] && padPde s.pad[p]) = false ∧ s.pad[p].getLsbD 7 = false) ∧
      ∀ r : Reg, ∃ a, a.toNat % 4 = 0 ∧ ∀ b, s.regOf b = some r ↔ b = a)
end

