-- ==== Sys2Proof/Laws/State.lean ====
section
/-! SUPPORT. One lemma per field per update: what reading a part of the state after an update gives. -/

namespace Sys2Proof.Machine

/-! ### `setSlice` -/

@[simp] theorem setSlice_params (s : State) (i : SliceId) (x : Slice) : (s.setSlice i x).params = s.params := rfl
@[simp] theorem setSlice_env (s : State) (i : SliceId) (x : Slice) : (s.setSlice i x).env = s.env := rfl
@[simp] theorem setSlice_funcsel (s : State) (i : SliceId) (x : Slice) : (s.setSlice i x).funcsel = s.funcsel := rfl
@[simp] theorem setSlice_sioOut (s : State) (i : SliceId) (x : Slice) : (s.setSlice i x).sioOut = s.sioOut := rfl
@[simp] theorem setSlice_sioOe (s : State) (i : SliceId) (x : Slice) : (s.setSlice i x).sioOe = s.sioOe := rfl
@[simp] theorem setSlice_pad (s : State) (i : SliceId) (x : Slice) : (s.setSlice i x).pad = s.pad := rfl
@[simp] theorem setSlice_pinFn (s : State) (i : SliceId) (x : Slice) : (s.setSlice i x).pinFn = s.pinFn := rfl
@[simp] theorem setSlice_pinInit (s : State) (i : SliceId) (x : Slice) : (s.setSlice i x).pinInit = s.pinInit := rfl
@[simp] theorem setSlice_pinPull (s : State) (i : SliceId) (x : Slice) : (s.setSlice i x).pinPull = s.pinPull := rfl
@[simp] theorem setSlice_slices (s : State) (i : SliceId) (x : Slice) : (s.setSlice i x).slices = s.slices.set i x := rfl
@[simp] theorem setSlice_pwmIntr (s : State) (i : SliceId) (x : Slice) : (s.setSlice i x).pwmIntr = s.pwmIntr := rfl
@[simp] theorem setSlice_pwmInte (s : State) (i : SliceId) (x : Slice) : (s.setSlice i x).pwmInte = s.pwmInte := rfl
@[simp] theorem setSlice_pwmIntf (s : State) (i : SliceId) (x : Slice) : (s.setSlice i x).pwmIntf = s.pwmIntf := rfl
@[simp] theorem setSlice_adcInited (s : State) (i : SliceId) (x : Slice) : (s.setSlice i x).adcInited = s.adcInited := rfl
@[simp] theorem setSlice_adcCreated (s : State) (i : SliceId) (x : Slice) : (s.setSlice i x).adcCreated = s.adcCreated := rfl
@[simp] theorem setSlice_adc (s : State) (i : SliceId) (x : Slice) : (s.setSlice i x).adc = s.adc := rfl
@[simp] theorem setSlice_ioIntr (s : State) (i : SliceId) (x : Slice) : (s.setSlice i x).ioIntr = s.ioIntr := rfl
@[simp] theorem setSlice_cores (s : State) (i : SliceId) (x : Slice) : (s.setSlice i x).cores = s.cores := rfl
@[simp] theorem setSlice_prevIn (s : State) (i : SliceId) (x : Slice) : (s.setSlice i x).prevIn = s.prevIn := rfl
@[simp] theorem setSlice_fatal (s : State) (i : SliceId) (x : Slice) : (s.setSlice i x).fatal = s.fatal := rfl
@[simp] theorem setSlice_sel (s : State) (i : SliceId) (x : Slice) : (s.setSlice i x).sel = s.sel := rfl
@[simp] theorem setSlice_turns (s : State) (i : SliceId) (x : Slice) : (s.setSlice i x).turns = s.turns := rfl
@[simp] theorem setSlice_turnNo (s : State) (i : SliceId) (x : Slice) : (s.setSlice i x).turnNo = s.turnNo := rfl
@[simp] theorem setSlice_samples (s : State) (i : SliceId) (x : Slice) : (s.setSlice i x).samples = s.samples := rfl
@[simp] theorem setSlice_drawNo (s : State) (i : SliceId) (x : Slice) : (s.setSlice i x).drawNo = s.drawNo := rfl
@[simp] theorem setSlice_cbLog (s : State) (i : SliceId) (x : Slice) : (s.setSlice i x).cbLog = s.cbLog := rfl

/-! ### `setCore` -/

@[simp] theorem setCore_params (s : State) (c : CoreId) (k : CoreSt) : (s.setCore c k).params = s.params := rfl
@[simp] theorem setCore_env (s : State) (c : CoreId) (k : CoreSt) : (s.setCore c k).env = s.env := rfl
@[simp] theorem setCore_funcsel (s : State) (c : CoreId) (k : CoreSt) : (s.setCore c k).funcsel = s.funcsel := rfl
@[simp] theorem setCore_sioOut (s : State) (c : CoreId) (k : CoreSt) : (s.setCore c k).sioOut = s.sioOut := rfl
@[simp] theorem setCore_sioOe (s : State) (c : CoreId) (k : CoreSt) : (s.setCore c k).sioOe = s.sioOe := rfl
@[simp] theorem setCore_pad (s : State) (c : CoreId) (k : CoreSt) : (s.setCore c k).pad = s.pad := rfl
@[simp] theorem setCore_pinFn (s : State) (c : CoreId) (k : CoreSt) : (s.setCore c k).pinFn = s.pinFn := rfl
@[simp] theorem setCore_pinInit (s : State) (c : CoreId) (k : CoreSt) : (s.setCore c k).pinInit = s.pinInit := rfl
@[simp] theorem setCore_pinPull (s : State) (c : CoreId) (k : CoreSt) : (s.setCore c k).pinPull = s.pinPull := rfl
@[simp] theorem setCore_slices (s : State) (c : CoreId) (k : CoreSt) : (s.setCore c k).slices = s.slices := rfl
@[simp] theorem setCore_pwmIntr (s : State) (c : CoreId) (k : CoreSt) : (s.setCore c k).pwmIntr = s.pwmIntr := rfl
@[simp] theorem setCore_pwmInte (s : State) (c : CoreId) (k : CoreSt) : (s.setCore c k).pwmInte = s.pwmInte := rfl
@[simp] theorem setCore_pwmIntf (s : State) (c : CoreId) (k : CoreSt) : (s.setCore c k).pwmIntf = s.pwmIntf := rfl
@[simp] theorem setCore_adcInited (s : State) (c : CoreId) (k : CoreSt) : (s.setCore c k).adcInited = s.adcInited := rfl
@[simp] theorem setCore_adcCreated (s : State) (c : CoreId) (k : CoreSt) : (s.setCore c k).adcCreated = s.adcCreated := rfl
@[simp] theorem setCore_adc (s : State) (c : CoreId) (k : CoreSt) : (s.setCore c k).adc = s.adc := rfl
@[simp] theorem setCore_ioIntr (s : State) (c : CoreId) (k : CoreSt) : (s.setCore c k).ioIntr = s.ioIntr := rfl
@[simp] theorem setCore_cores (s : State) (c : CoreId) (k : CoreSt) : (s.setCore c k).cores = s.cores.set c k := rfl
@[simp] theorem setCore_prevIn (s : State) (c : CoreId) (k : CoreSt) : (s.setCore c k).prevIn = s.prevIn := rfl
@[simp] theorem setCore_fatal (s : State) (c : CoreId) (k : CoreSt) : (s.setCore c k).fatal = s.fatal := rfl
@[simp] theorem setCore_sel (s : State) (c : CoreId) (k : CoreSt) : (s.setCore c k).sel = s.sel := rfl
@[simp] theorem setCore_turns (s : State) (c : CoreId) (k : CoreSt) : (s.setCore c k).turns = s.turns := rfl
@[simp] theorem setCore_turnNo (s : State) (c : CoreId) (k : CoreSt) : (s.setCore c k).turnNo = s.turnNo := rfl
@[simp] theorem setCore_samples (s : State) (c : CoreId) (k : CoreSt) : (s.setCore c k).samples = s.samples := rfl
@[simp] theorem setCore_drawNo (s : State) (c : CoreId) (k : CoreSt) : (s.setCore c k).drawNo = s.drawNo := rfl
@[simp] theorem setCore_cbLog (s : State) (c : CoreId) (k : CoreSt) : (s.setCore c k).cbLog = s.cbLog := rfl

/-! ### `setAdc` -/

@[simp] theorem setAdc_params (s : State) (a : AdcBlock) : (s.setAdc a).params = s.params := rfl
@[simp] theorem setAdc_env (s : State) (a : AdcBlock) : (s.setAdc a).env = s.env := rfl
@[simp] theorem setAdc_funcsel (s : State) (a : AdcBlock) : (s.setAdc a).funcsel = s.funcsel := rfl
@[simp] theorem setAdc_sioOut (s : State) (a : AdcBlock) : (s.setAdc a).sioOut = s.sioOut := rfl
@[simp] theorem setAdc_sioOe (s : State) (a : AdcBlock) : (s.setAdc a).sioOe = s.sioOe := rfl
@[simp] theorem setAdc_pad (s : State) (a : AdcBlock) : (s.setAdc a).pad = s.pad := rfl
@[simp] theorem setAdc_pinFn (s : State) (a : AdcBlock) : (s.setAdc a).pinFn = s.pinFn := rfl
@[simp] theorem setAdc_pinInit (s : State) (a : AdcBlock) : (s.setAdc a).pinInit = s.pinInit := rfl
@[simp] theorem setAdc_pinPull (s : State) (a : AdcBlock) : (s.setAdc a).pinPull = s.pinPull := rfl
@[simp] theorem setAdc_slices (s : State) (a : AdcBlock) : (s.setAdc a).slices = s.slices := rfl
@[simp] theorem setAdc_pwmIntr (s : State) (a : AdcBlock) : (s.setAdc a).pwmIntr = s.pwmIntr := rfl
@[simp] theorem setAdc_pwmInte (s : State) (a : AdcBlock) : (s.setAdc a).pwmInte = s.pwmInte := rfl
@[simp] theorem setAdc_pwmIntf (s : State) (a : AdcBlock) : (s.setAdc a).pwmIntf = s.pwmIntf := rfl
@[simp] theorem setAdc_adcInited (s : State) (a : AdcBlock) : (s.setAdc a).adcInited = s.adcInited := rfl
@[simp] theorem setAdc_adcCreated (s : State) (a : AdcBlock) : (s.setAdc a).adcCreated = s.adcCreated := rfl
@[simp] theorem setAdc_adc (s : State) (a : AdcBlock) : (s.setAdc a).adc = a := rfl
@[simp] theorem setAdc_ioIntr (s : State) (a : AdcBlock) : (s.setAdc a).ioIntr = s.ioIntr := rfl
@[simp] theorem setAdc_cores (s : State) (a : AdcBlock) : (s.setAdc a).cores = s.cores := rfl
@[simp] theorem setAdc_prevIn (s : State) (a : AdcBlock) : (s.setAdc a).prevIn = s.prevIn := rfl
@[simp] theorem setAdc_fatal (s : State) (a : AdcBlock) : (s.setAdc a).fatal = s.fatal := rfl
@[simp] theorem setAdc_sel (s : State) (a : AdcBlock) : (s.setAdc a).sel = s.sel := rfl
@[simp] theorem setAdc_turns (s : State) (a : AdcBlock) : (s.setAdc a).turns = s.turns := rfl
@[simp] theorem setAdc_turnNo (s : State) (a : AdcBlock) : (s.setAdc a).turnNo = s.turnNo := rfl
@[simp] theorem setAdc_samples (s : State) (a : AdcBlock) : (s.setAdc a).samples = s.samples := rfl
@[simp] theorem setAdc_drawNo (s : State) (a : AdcBlock) : (s.setAdc a).drawNo = s.drawNo := rfl
@[simp] theorem setAdc_cbLog (s : State) (a : AdcBlock) : (s.setAdc a).cbLog = s.cbLog := rfl

/-! ### `edgeDetect` -/

@[simp] theorem edgeDetect_params (s : State) : s.edgeDetect.params = s.params := rfl
@[simp] theorem edgeDetect_env (s : State) : s.edgeDetect.env = s.env := rfl
@[simp] theorem edgeDetect_funcsel (s : State) : s.edgeDetect.funcsel = s.funcsel := rfl
@[simp] theorem edgeDetect_sioOut (s : State) : s.edgeDetect.sioOut = s.sioOut := rfl
@[simp] theorem edgeDetect_sioOe (s : State) : s.edgeDetect.sioOe = s.sioOe := rfl
@[simp] theorem edgeDetect_pad (s : State) : s.edgeDetect.pad = s.pad := rfl
@[simp] theorem edgeDetect_pinFn (s : State) : s.edgeDetect.pinFn = s.pinFn := rfl
@[simp] theorem edgeDetect_pinInit (s : State) : s.edgeDetect.pinInit = s.pinInit := rfl
@[simp] theorem edgeDetect_pinPull (s : State) : s.edgeDetect.pinPull = s.pinPull := rfl
@[simp] theorem edgeDetect_slices (s : State) : s.edgeDetect.slices = s.slices := rfl
@[simp] theorem edgeDetect_pwmIntr (s : State) : s.edgeDetect.pwmIntr = s.pwmIntr := rfl
@[simp] theorem edgeDetect_pwmInte (s : State) : s.edgeDetect.pwmInte = s.pwmInte := rfl
@[simp] theorem edgeDetect_pwmIntf (s : State) : s.edgeDetect.pwmIntf = s.pwmIntf := rfl
@[simp] theorem edgeDetect_adcInited (s : State) : s.edgeDetect.adcInited = s.adcInited := rfl
@[simp] theorem edgeDetect_adcCreated (s : State) : s.edgeDetect.adcCreated = s.adcCreated := rfl
@[simp] theorem edgeDetect_adc (s : State) : s.edgeDetect.adc = s.adc := rfl
@[simp] theorem edgeDetect_cores (s : State) : s.edgeDetect.cores = s.cores := rfl
@[simp] theorem edgeDetect_prevIn (s : State) : s.edgeDetect.prevIn = s.pinInAll := rfl
@[simp] theorem edgeDetect_fatal (s : State) : s.edgeDetect.fatal = s.fatal := rfl
@[simp] theorem edgeDetect_sel (s : State) : s.edgeDetect.sel = s.sel := rfl
@[simp] theorem edgeDetect_turns (s : State) : s.edgeDetect.turns = s.turns := rfl
@[simp] theorem edgeDetect_turnNo (s : State) : s.edgeDetect.turnNo = s.turnNo := rfl
@[simp] theorem edgeDetect_samples (s : State) : s.edgeDetect.samples = s.samples := rfl
@[simp] theorem edgeDetect_drawNo (s : State) : s.edgeDetect.drawNo = s.drawNo := rfl
@[simp] theorem edgeDetect_cbLog (s : State) : s.edgeDetect.cbLog = s.cbLog := rfl

/-! ### The core a `setFlight` or a `setResp` leaves -/

/-- A core with the operation in flight of one of its agents replaced. -/
def CoreSt.withFlight (k : CoreSt) (irq : Bool) (f : Option Flight) : CoreSt := if irq then { k with irq := f } else { k with main := f }
/-- A core with the last response of one of its agents replaced. -/
def CoreSt.withResp (k : CoreSt) (irq : Bool) (r : Option Resp) : CoreSt :=
  if irq then { k with irqResp := r } else { k with mainResp := r }
/-- The operation in flight of one agent of a core. -/
def CoreSt.flight (k : CoreSt) (irq : Bool) : Option Flight := if irq then k.irq else k.main

theorem setFlight_eq (s : State) (c : CoreId) (irq : Bool) (f : Option Flight) :
    s.setFlight c irq f = s.setCore c (s.cores[c].withFlight irq f) := rfl
theorem setResp_eq (s : State) (c : CoreId) (irq : Bool) (r : Option Resp) :
    s.setResp c irq r = s.setCore c (s.cores[c].withResp irq r) := rfl
theorem flight_eq (s : State) (c : CoreId) (irq : Bool) : s.flight c irq = s.cores[c].flight irq := rfl

@[simp] theorem withFlight_nvicPwm (k : CoreSt) (irq : Bool) (f : Option Flight) : (k.withFlight irq f).nvicPwm = k.nvicPwm := by
  cases irq <;> rfl
@[simp] theorem withResp_nvicPwm (k : CoreSt) (irq : Bool) (r : Option Resp) : (k.withResp irq r).nvicPwm = k.nvicPwm := by
  cases irq <;> rfl
@[simp] theorem withFlight_nvicGpio (k : CoreSt) (irq : Bool) (f : Option Flight) : (k.withFlight irq f).nvicGpio = k.nvicGpio := by
  cases irq <;> rfl
@[simp] theorem withResp_nvicGpio (k : CoreSt) (irq : Bool) (r : Option Resp) : (k.withResp irq r).nvicGpio = k.nvicGpio := by
  cases irq <;> rfl
@[simp] theorem withFlight_inte (k : CoreSt) (irq : Bool) (f : Option Flight) : (k.withFlight irq f).inte = k.inte := by
  cases irq <;> rfl
@[simp] theorem withResp_inte (k : CoreSt) (irq : Bool) (r : Option Resp) : (k.withResp irq r).inte = k.inte := by
  cases irq <;> rfl
@[simp] theorem withFlight_intf (k : CoreSt) (irq : Bool) (f : Option Flight) : (k.withFlight irq f).intf = k.intf := by
  cases irq <;> rfl
@[simp] theorem withResp_intf (k : CoreSt) (irq : Bool) (r : Option Resp) : (k.withResp irq r).intf = k.intf := by
  cases irq <;> rfl
@[simp] theorem withFlight_gpioCb (k : CoreSt) (irq : Bool) (f : Option Flight) : (k.withFlight irq f).gpioCb = k.gpioCb := by
  cases irq <;> rfl
@[simp] theorem withResp_gpioCb (k : CoreSt) (irq : Bool) (r : Option Resp) : (k.withResp irq r).gpioCb = k.gpioCb := by
  cases irq <;> rfl
@[simp] theorem withFlight_gpioEdges (k : CoreSt) (irq : Bool) (f : Option Flight) : (k.withFlight irq f).gpioEdges = k.gpioEdges := by
  cases irq <;> rfl
@[simp] theorem withResp_gpioEdges (k : CoreSt) (irq : Bool) (r : Option Resp) : (k.withResp irq r).gpioEdges = k.gpioEdges := by
  cases irq <;> rfl
@[simp] theorem withFlight_inIrq (k : CoreSt) (irq : Bool) (f : Option Flight) : (k.withFlight irq f).inIrq = k.inIrq := by
  cases irq <;> rfl
@[simp] theorem withResp_inIrq (k : CoreSt) (irq : Bool) (r : Option Resp) : (k.withResp irq r).inIrq = k.inIrq := by
  cases irq <;> rfl
@[simp] theorem withFlight_cbDepth (k : CoreSt) (irq : Bool) (f : Option Flight) : (k.withFlight irq f).cbDepth = k.cbDepth := by
  cases irq <;> rfl
@[simp] theorem withResp_cbDepth (k : CoreSt) (irq : Bool) (r : Option Resp) : (k.withResp irq r).cbDepth = k.cbDepth := by
  cases irq <;> rfl
@[simp] theorem withResp_main (k : CoreSt) (irq : Bool) (r : Option Resp) : (k.withResp irq r).main = k.main := by
  cases irq <;> rfl
@[simp] theorem withResp_irq (k : CoreSt) (irq : Bool) (r : Option Resp) : (k.withResp irq r).irq = k.irq := by
  cases irq <;> rfl
@[simp] theorem withFlight_disp (k : CoreSt) (irq : Bool) (f : Option Flight) : (k.withFlight irq f).disp = k.disp := by
  cases irq <;> rfl
@[simp] theorem withResp_disp (k : CoreSt) (irq : Bool) (r : Option Resp) : (k.withResp irq r).disp = k.disp := by
  cases irq <;> rfl
@[simp] theorem withFlight_mainQ (k : CoreSt) (irq : Bool) (f : Option Flight) : (k.withFlight irq f).mainQ = k.mainQ := by
  cases irq <;> rfl
@[simp] theorem withResp_mainQ (k : CoreSt) (irq : Bool) (r : Option Resp) : (k.withResp irq r).mainQ = k.mainQ := by
  cases irq <;> rfl
@[simp] theorem withFlight_irqQ (k : CoreSt) (irq : Bool) (f : Option Flight) : (k.withFlight irq f).irqQ = k.irqQ := by
  cases irq <;> rfl
@[simp] theorem withResp_irqQ (k : CoreSt) (irq : Bool) (r : Option Resp) : (k.withResp irq r).irqQ = k.irqQ := by
  cases irq <;> rfl
@[simp] theorem withFlight_mainResp (k : CoreSt) (irq : Bool) (f : Option Flight) : (k.withFlight irq f).mainResp = k.mainResp := by
  cases irq <;> rfl
@[simp] theorem withFlight_irqResp (k : CoreSt) (irq : Bool) (f : Option Flight) : (k.withFlight irq f).irqResp = k.irqResp := by
  cases irq <;> rfl
@[simp] theorem withFlight_flight (k : CoreSt) (irq : Bool) (f : Option Flight) : (k.withFlight irq f).flight irq = f := by
  cases irq <;> rfl
@[simp] theorem withResp_flight (k : CoreSt) (irq j : Bool) (r : Option Resp) : (k.withResp irq r).flight j = k.flight j := by
  cases irq <;> rfl
@[simp] theorem withFlight_withFlight (k : CoreSt) (irq : Bool) (f g : Option Flight) :
    (k.withFlight irq f).withFlight irq g = k.withFlight irq g := by cases irq <;> rfl
@[simp] theorem withResp_withResp (k : CoreSt) (irq : Bool) (q r : Option Resp) :
    (k.withResp irq q).withResp irq r = k.withResp irq r := by cases irq <;> rfl
theorem withResp_withFlight (k : CoreSt) (irq : Bool) (f : Option Flight) (r : Option Resp) :
    (k.withResp irq r).withFlight irq f = (k.withFlight irq f).withResp irq r := by cases irq <;> rfl
theorem withFlight_self (k : CoreSt) (irq : Bool) : k.withFlight irq (k.flight irq) = k := by cases irq <;> rfl

/-! ### Reading back -/

@[simp] theorem setCore_same (s : State) (c : CoreId) (k : CoreSt) : (s.setCore c k).cores[c.val] = k := by
  simp [State.setCore]
theorem setCore_other (s : State) (c d : CoreId) (k : CoreSt) (h : c ≠ d) : (s.setCore c k).cores[d.val] = s.cores[d.val] := by
  have : c.val ≠ d.val := fun e => h (Fin.ext e)
  simp [State.setCore, this]
@[simp] theorem setCore_setCore (s : State) (c : CoreId) (k l : CoreSt) : (s.setCore c k).setCore c l = s.setCore c l := by
  simp only [State.setCore]
  congr 1
  ext i hi
  simp only [Vector.getElem_set]
  split <;> rfl
theorem setCore_comm (s : State) (c d : CoreId) (k l : CoreSt) (h : c ≠ d) :
    (s.setCore c k).setCore d l = (s.setCore d l).setCore c k := by
  have : c.val ≠ d.val := fun e => h (Fin.ext e)
  simp only [State.setCore]
  congr 1
  ext i hi
  simp only [Vector.getElem_set]
  split <;> split <;> first | rfl | omega
@[simp] theorem setCore_self (s : State) (c : CoreId) : s.setCore c s.cores[c.val] = s := by
  simp [State.setCore]
@[simp] theorem setSlice_same (s : State) (i : SliceId) (x : Slice) : (s.setSlice i x).slices[i.val] = x := by
  simp [State.setSlice]
theorem setSlice_other (s : State) (i j : SliceId) (x : Slice) (h : i ≠ j) : (s.setSlice i x).slices[j.val] = s.slices[j.val] := by
  have : i.val ≠ j.val := fun e => h (Fin.ext e)
  simp [State.setSlice, this]
@[simp] theorem setSlice_setSlice (s : State) (i : SliceId) (x y : Slice) : (s.setSlice i x).setSlice i y = s.setSlice i y := by
  simp only [State.setSlice]
  congr 1
  ext k hk
  simp only [Vector.getElem_set]
  split <;> rfl

end Sys2Proof.Machine
end

