-- ==== Sys2Proof/Laws/Edges.lean ====
section
/-! SUPPORT. Packed bits, and what the edge detector can do. -/

namespace Sys2Proof.Machine

@[simp] theorem packBits_getLsbD (f : Nat → Bool) (n i : Nat) : (packBits f n).getLsbD i = (decide (i < n) && f i) := by
  induction n with
  | zero => simp [packBits]
  | succ n ih =>
    simp only [packBits, BitVec.getLsbD_cons, ih]
    by_cases h : i = n
    · subst h; simp
    · have : (i < n + 1) = (i < n) := by simp; omega
      simp [h, this]

@[simp] theorem spread_getLsbD (x : Nat → Bool) (k i : Nat) :
    (spread x k).getLsbD i = (decide (i < 32) && (i % 4 == k && x (i / 4))) := by simp [spread]

theorem spread_false (k : Nat) : spread (fun _ => false) k = 0 := by
  apply BitVec.eq_of_getLsbD_eq; intro i hi; simp

/-- The edge bits the detector adds to register `b` for the pins `rise` and `fall`. -/
theorem latch_eq (s : State) (b : BankReg) :
    s.edgeDetect.ioIntr[b.val] = s.ioIntr[b.val] ||| spread (pinBit (~~~s.prevIn &&& s.pinInAll) b) 3
      ||| spread (pinBit (s.prevIn &&& ~~~s.pinInAll) b) 2 := by
  fin_cases b <;> rfl

/-- Where the memory agrees with the pins the edge detector does nothing. -/
theorem edgeDetect_of_settled (s : State) (h : s.Settled) : s.edgeDetect = s := by
  have hz (b : BankReg) (x : BitVec 30) (hx : x = 0) : pinBit x b = fun _ => false := by
    subst hx; funext i; simp [pinBit]
  have hio : s.edgeDetect.ioIntr = s.ioIntr := by
    ext i hi
    have := latch_eq s ⟨i, hi⟩
    simp only at this
    rw [this, h, hz _ _ (by simp), hz _ _ (by simp), spread_false, spread_false]
    simp
  have hp : s.edgeDetect.prevIn = s.prevIn := by rw [edgeDetect_prevIn, h]
  have : s.edgeDetect = { s with ioIntr := s.edgeDetect.ioIntr, prevIn := s.edgeDetect.prevIn } := rfl
  rw [this, hio, hp]

/-- After the edge detector its memory agrees with the pins. -/
theorem settled_edgeDetect (s : State) : s.edgeDetect.Settled := rfl

@[simp] theorem quiet_edgeDetect (s : State) : s.edgeDetect.quiet = s.quiet := rfl

theorem edgesIn_getLsbD (pins : Pin → Bool) (b : BankReg) (i : Nat) (hi : i < 32) :
    (edgesIn pins b).getLsbD i
      = ((i % 4 == 2 || i % 4 == 3) && if h : 8 * b.val + i / 4 < 30 then pins ⟨8 * b.val + i / 4, h⟩ else false) := by
  simp only [edgesIn, BitVec.getLsbD_or, spread_getLsbD, hi, decide_true, Bool.true_and]
  generalize (i % 4 == 2) = e2
  generalize (i % 4 == 3) = e3
  cases e2 <;> cases e3 <;> simp

/-- Where the level changed only on the pins that `pins` names, only their edges are added. -/
theorem edgeDetect_edges (s : State) (pins : Pin → Bool)
    (h : ∀ p : Pin, pins p = false → s.prevIn.getLsbD p.val = s.pinInAll.getLsbD p.val) : EdgesAddedOnly pins s s.edgeDetect := by
  intro b
  simp only [Fin.getElem_fin, latch_eq]
  constructor
  · rw [BitVec.or_assoc]
    apply BitVec.eq_of_getLsbD_eq; intro i hi
    rw [BitVec.getLsbD_and, BitVec.getLsbD_or]
    cases s.ioIntr[b.val].getLsbD i <;> rfl
  · apply BitVec.eq_of_getLsbD_eq; intro i hi
    simp only [BitVec.getLsbD_or, spread_getLsbD, edgesIn_getLsbD _ _ _ hi, hi, decide_true, Bool.true_and, pinBit,
      BitVec.getLsbD_and, BitVec.getLsbD_not]
    generalize hx : s.prevIn.getLsbD (8 * b.val + i / 4) = x
    generalize hy : s.pinInAll.getLsbD (8 * b.val + i / 4) = y
    generalize (i % 4 == 2) = e2
    generalize (i % 4 == 3) = e3
    generalize s.ioIntr[b.val].getLsbD i = z
    by_cases hp : 8 * b.val + i / 4 < 30
    · simp only [hp, dite_true, decide_true]
      cases hq : pins ⟨8 * b.val + i / 4, hp⟩
      · have := h _ hq
        simp only [hx, hy] at this
        subst this
        cases x <;> cases e2 <;> cases e3 <;> cases z <;> rfl
      · cases x <;> cases y <;> cases e2 <;> cases e3 <;> cases z <;> rfl
    · rw [BitVec.getLsbD_of_ge _ _ (by omega)] at hx hy
      subst hx hy
      simp only [hp, dite_false, decide_false]
      cases e2 <;> cases e3 <;> cases z <;> rfl

theorem edgesAddedOnly_refl (pins : Pin → Bool) (s : State) : EdgesAddedOnly pins s s := by intro b; simp

theorem edgesAddedOnly_trans {pins : Pin → Bool} {s t u : State} (h : EdgesAddedOnly pins s t) (k : EdgesAddedOnly pins t u) :
    EdgesAddedOnly pins s u := by
  intro b
  obtain ⟨h1, h2⟩ := h b
  obtain ⟨k1, k2⟩ := k b
  refine ⟨?_, k2.trans h2⟩
  rw [← h1, BitVec.and_assoc, k1]

theorem edgesAddedOnly_of_ioIntr {pins : Pin → Bool} {s t u : State} (h : EdgesAddedOnly pins s t) (e : u.ioIntr = t.ioIntr) :
    EdgesAddedOnly pins s u := by
  intro b; rw [e]; exact h b

/-- The level of a pin depends on these parts of the state only. -/
theorem pinIn_congr (s t : State) (p : Pin) (h1 : t.env = s.env) (h2 : t.funcsel[p] = s.funcsel[p]) (h3 : t.pad[p] = s.pad[p])
    (h4 : t.sioOe.getLsbD p.val = s.sioOe.getLsbD p.val) (h5 : t.sioOut.getLsbD p.val = s.sioOut.getLsbD p.val)
    (h6 : t.slices[sliceOfPin p.val].out (chanBOfPin p.val) = s.slices[sliceOfPin p.val].out (chanBOfPin p.val)) :
    t.pinIn p = s.pinIn p := by
  simp only [State.pinIn, State.padLevel, State.undriven, h1, h2, h3, h4, h5, h6]

@[simp] theorem pinInAll_getLsbD (s : State) (p : Pin) : s.pinInAll.getLsbD p.val = s.pinIn p := by
  rw [State.pinInAll, packBits_getLsbD]
  simp

theorem pinInAll_congr (s t : State) (h1 : t.env = s.env) (h2 : t.funcsel = s.funcsel) (h3 : t.pad = s.pad)
    (h4 : t.sioOe = s.sioOe) (h5 : t.sioOut = s.sioOut)
    (h6 : ∀ (i : SliceId) (b : Bool), t.slices[i].out b = s.slices[i].out b) : t.pinInAll = s.pinInAll := by
  simp only [State.pinInAll]
  congr 1
  funext p
  split
  · rename_i hp
    exact pinIn_congr s t ⟨p, hp⟩ h1 (by rw [h2]) (by rw [h3]) (by rw [h4]) (by rw [h5]) (h6 _ _)
  · rfl

end Sys2Proof.Machine
end

