-- ==== Sys2Proof/Laws/Run.lean ====
section
/-! SUPPORT. An operation's run, on its own: `runOp` follows the micro-steps of one operation through given turns without the
bookkeeping of the flight, and `issue_run` says that this is what `issue` does. -/

namespace Sys2Proof.Machine

/-- The state as it stands while the agent `irq` of core `c` has the operation `f` in flight, the response `r` and the recorded
turns `ts`. -/
def State.dress (s : State) (c : CoreId) (irq : Bool) (f : Option Flight) (r : Option Resp) (ts : List Turn) : State :=
  { s.setCore c ((s.cores[c].withFlight irq f).withResp irq r) with turns := ts }

section dress
variable (s : State) (c : CoreId) (irq : Bool) (f : Option Flight) (r : Option Resp) (ts : List Turn)

@[simp] theorem dress_params : (s.dress c irq f r ts).params = s.params := rfl
@[simp] theorem dress_env : (s.dress c irq f r ts).env = s.env := rfl
@[simp] theorem dress_funcsel : (s.dress c irq f r ts).funcsel = s.funcsel := rfl
@[simp] theorem dress_sioOut : (s.dress c irq f r ts).sioOut = s.sioOut := rfl
@[simp] theorem dress_sioOe : (s.dress c irq f r ts).sioOe = s.sioOe := rfl
@[simp] theorem dress_pad : (s.dress c irq f r ts).pad = s.pad := rfl
@[simp] theorem dress_pinFn : (s.dress c irq f r ts).pinFn = s.pinFn := rfl
@[simp] theorem dress_pinInit : (s.dress c irq f r ts).pinInit = s.pinInit := rfl
@[simp] theorem dress_pinPull : (s.dress c irq f r ts).pinPull = s.pinPull := rfl
@[simp] theorem dress_slices : (s.dress c irq f r ts).slices = s.slices := rfl
@[simp] theorem dress_pwmIntr : (s.dress c irq f r ts).pwmIntr = s.pwmIntr := rfl
@[simp] theorem dress_pwmInte : (s.dress c irq f r ts).pwmInte = s.pwmInte := rfl
@[simp] theorem dress_pwmIntf : (s.dress c irq f r ts).pwmIntf = s.pwmIntf := rfl
@[simp] theorem dress_adcInited : (s.dress c irq f r ts).adcInited = s.adcInited := rfl
@[simp] theorem dress_adcCreated : (s.dress c irq f r ts).adcCreated = s.adcCreated := rfl
@[simp] theorem dress_adc : (s.dress c irq f r ts).adc = s.adc := rfl
@[simp] theorem dress_ioIntr : (s.dress c irq f r ts).ioIntr = s.ioIntr := rfl
@[simp] theorem dress_prevIn : (s.dress c irq f r ts).prevIn = s.prevIn := rfl
@[simp] theorem dress_fatal : (s.dress c irq f r ts).fatal = s.fatal := rfl
@[simp] theorem dress_sel : (s.dress c irq f r ts).sel = s.sel := rfl
@[simp] theorem dress_turns : (s.dress c irq f r ts).turns = ts := rfl
@[simp] theorem dress_samples : (s.dress c irq f r ts).samples = s.samples := rfl
@[simp] theorem dress_drawNo : (s.dress c irq f r ts).drawNo = s.drawNo := rfl
@[simp] theorem dress_pinInAll : (s.dress c irq f r ts).pinInAll = s.pinInAll := rfl
@[simp] theorem dress_intr (b : BankReg) : (s.dress c irq f r ts).intr b = s.intr b := rfl

theorem dress_cores : (s.dress c irq f r ts).cores = s.cores.set c ((s.cores[c].withFlight irq f).withResp irq r) := rfl

/-- Away from the operations in flight and the responses, a dressed core is the core. -/
theorem dress_core {α : Type} (g : CoreSt → α) (h : ∀ k q x y, g ((CoreSt.withFlight k q x).withResp q y) = g k) (d : CoreId) :
    g (s.dress c irq f r ts).cores[d] = g s.cores[d] := by
  rw [dress_cores]
  by_cases e : c = d
  · subst e; simp [h]
  · have : c.val ≠ d.val := fun x => e (Fin.ext x)
    simp [this]

@[simp] theorem dress_inte (d : CoreId) : (s.dress c irq f r ts).cores[d.val].inte = s.cores[d.val].inte :=
  dress_core s c irq f r ts CoreSt.inte (by simp) d
@[simp] theorem dress_intf (d : CoreId) : (s.dress c irq f r ts).cores[d.val].intf = s.cores[d.val].intf :=
  dress_core s c irq f r ts CoreSt.intf (by simp) d
@[simp] theorem dress_nvicPwm (d : CoreId) : (s.dress c irq f r ts).cores[d.val].nvicPwm = s.cores[d.val].nvicPwm :=
  dress_core s c irq f r ts CoreSt.nvicPwm (by simp) d
@[simp] theorem dress_nvicGpio (d : CoreId) : (s.dress c irq f r ts).cores[d.val].nvicGpio = s.cores[d.val].nvicGpio :=
  dress_core s c irq f r ts CoreSt.nvicGpio (by simp) d
@[simp] theorem dress_gpioCb (d : CoreId) : (s.dress c irq f r ts).cores[d.val].gpioCb = s.cores[d.val].gpioCb :=
  dress_core s c irq f r ts CoreSt.gpioCb (by simp) d
@[simp] theorem dress_gpioEdges (d : CoreId) : (s.dress c irq f r ts).cores[d.val].gpioEdges = s.cores[d.val].gpioEdges :=
  dress_core s c irq f r ts CoreSt.gpioEdges (by simp) d
@[simp] theorem dress_inIrq (d : CoreId) : (s.dress c irq f r ts).cores[d.val].inIrq = s.cores[d.val].inIrq :=
  dress_core s c irq f r ts CoreSt.inIrq (by simp) d
@[simp] theorem dress_cbDepth (d : CoreId) : (s.dress c irq f r ts).cores[d.val].cbDepth = s.cores[d.val].cbDepth :=
  dress_core s c irq f r ts CoreSt.cbDepth (by simp) d
@[simp] theorem dress_inIrqCtx (d : CoreId) : (s.dress c irq f r ts).inIrqCtx d = s.inIrqCtx d := by simp [State.inIrqCtx]
@[simp] theorem dress_flight : (s.dress c irq f r ts).flight c irq = f := by
  simp [flight_eq, dress_cores]

@[simp] theorem dress_readReg (x : Reg) : (s.dress c irq f r ts).readReg x = s.readReg x := by
  cases x <;> simp [State.readReg, State.ints, State.pwmEn, State.pwmInts]

@[simp] theorem dress_edgeDetect : (s.dress c irq f r ts).edgeDetect = s.edgeDetect.dress c irq f r ts := rfl

/-- An update of a core that leaves its operations in flight and its responses, and commutes with replacing them. -/
theorem dress_setCore (d : CoreId) (u : CoreSt → CoreSt)
    (h : ∀ k x y, u ((CoreSt.withFlight k irq x).withResp irq y) = ((u k).withFlight irq x).withResp irq y) :
    (s.dress c irq f r ts).setCore d (u (s.dress c irq f r ts).cores[d]) = (s.setCore d (u s.cores[d])).dress c irq f r ts := by
  by_cases e : c = d
  · subst e
    simp only [State.dress, State.setCore, Fin.getElem_fin, Vector.getElem_set_self, h]
    congr 1
    ext i hi
    simp only [Vector.getElem_set]
    split <;> rfl
  · have hv : c.val ≠ d.val := fun x => e (Fin.ext x)
    have hw : d.val ≠ c.val := fun x => hv x.symm
    simp only [State.dress, State.setCore, Fin.getElem_fin, Vector.getElem_set_ne _ _ hv, Vector.getElem_set_ne _ _ hw]
    congr 1
    ext i hi
    simp only [Vector.getElem_set]
    split <;> split <;> first | rfl | omega

@[simp] theorem dress_setSlice (i : SliceId) (x : Slice) :
    (s.dress c irq f r ts).setSlice i x = (s.setSlice i x).dress c irq f r ts := rfl
@[simp] theorem dress_setAdc (a : AdcBlock) : (s.dress c irq f r ts).setAdc a = (s.setAdc a).dress c irq f r ts := rfl

@[simp] theorem dress_storeReg (x : Reg) (t w : Word) :
    (s.dress c irq f r ts).storeReg x t w = (s.storeReg x t w).dress c irq f r ts := by
  cases x with
  | ioInte d b =>
    exact dress_setCore s c irq f r ts d (fun k => { k with inte := k.inte.set b (w &&& bankMask b) })
      (by intro k x y; cases irq <;> rfl)
  | ioIntf d b =>
    exact dress_setCore s c irq f r ts d (fun k => { k with intf := k.intf.set b (w &&& bankMask b) })
      (by intro k x y; cases irq <;> rfl)
  | rst => simp only [State.storeReg, dress_adc, dress_params]; split; rfl; split <;> rfl
  | _ => first | rfl | (simp only [State.storeReg, dress_adc, dress_params]; by_cases h : s.adc.rst <;> simp [h])

@[simp] theorem dress_writeReg (x : Reg) (w : Word) :
    (s.dress c irq f r ts).writeReg x w = (s.writeReg x w).dress c irq f r ts := dress_storeReg ..
@[simp] theorem dress_setWord (x : Reg) (m : Word) : (s.dress c irq f r ts).setWord x m = s.setWord x m := by
  simp [State.setWord]
@[simp] theorem dress_clrWord (x : Reg) (m : Word) : (s.dress c irq f r ts).clrWord x m = s.clrWord x m := by
  simp [State.clrWord]
@[simp] theorem dress_setBits (x : Reg) (m : Word) :
    (s.dress c irq f r ts).setBits x m = (s.setBits x m).dress c irq f r ts := by simp [State.setBits]
@[simp] theorem dress_clrBits (x : Reg) (m : Word) :
    (s.dress c irq f r ts).clrBits x m = (s.clrBits x m).dress c irq f r ts := by simp [State.clrBits]
@[simp] theorem dress_inaccessible (x : Reg) : (s.dress c irq f r ts).inaccessible x = s.inaccessible x := rfl
@[simp] theorem dress_primStore (x : Reg) (t n w : Word) :
    (s.dress c irq f r ts).primStore x t n w = ((s.primStore x t n w).1.dress c irq f r ts, (s.primStore x t n w).2) := by
  simp only [State.primStore]; split <;> simp

/-- A micro-step neither reads nor writes the flights and the responses. -/
theorem dress_microStep (d : CoreId) (m : Micro) :
    (s.dress c irq f r ts).microStep d m = ((s.microStep d m).1.dress c irq f r ts, (s.microStep d m).2) := by
  cases m with
  | writeGatePwm v =>
    exact Prod.ext (dress_setCore s c irq f r ts d (fun k => { k with nvicPwm := v }) (by intro k x y; cases irq <;> rfl)) rfl
  | writeGateGpio v =>
    exact Prod.ext (dress_setCore s c irq f r ts d (fun k => { k with nvicGpio := v }) (by intro k x y; cases irq <;> rfl)) rfl
  | bindPin p h e =>
    exact Prod.ext (dress_setCore s c irq f r ts d
      (fun k => { k with gpioCb := k.gpioCb.set p h, gpioEdges := k.gpioEdges.set p e })
      (by intro k x y; cases irq <;> rfl)) rfl
  | closeHandler =>
    exact Prod.ext (dress_setCore s c irq f r ts d (fun k => { k with cbDepth := 0 }) (by intro k x y; cases irq <;> rfl)) rfl
  | primGet x => by_cases h : s.inaccessible x <;> simp [State.microStep, h]
  | primSet x n => by_cases h : s.inaccessible x <;> simp [State.microStep, h]
  | primClr x n => by_cases h : s.inaccessible x <;> simp [State.microStep, h]
  | primRead x n v => by_cases h : s.inaccessible x <;> simp [State.microStep, h]
  | primWrite x w =>
    by_cases hr : refusedWrite x w <;> by_cases h : s.inaccessible x <;> simp [State.microStep, hr, h]
  | poll k n => cases k <;> rfl
  | _ => first | rfl | simp [State.microStep]

/-- Agents that are no core neither read nor write the flights and the responses. -/
def notCore : Turn → Bool
  | .core _ | .enter _ => false
  | _ => true

theorem dress_turnBody (t : Turn) (h : notCore t = true) :
    (s.dress c irq f r ts).turnBody t = (s.turnBody t).dress c irq f r ts := by
  cases t with
  | core _ => simp [notCore] at h
  | enter _ => simp [notCore] at h
  | adcSeq =>
    simp only [State.turnBody, State.adcSeq, dress_adc]
    cases hs : s.samples <;> simp [State.drawn, State.sample, hs] <;> split <;> rfl
  | _ => rfl

@[simp] theorem dress_setFlight (g : Option Flight) : (s.dress c irq f r ts).setFlight c irq g = s.dress c irq g r ts := by
  rw [setFlight_eq, dress_cores]
  simp only [Fin.getElem_fin, Vector.getElem_set_self, withResp_withFlight, withFlight_withFlight]
  simp [State.dress, State.setCore]
@[simp] theorem dress_setResp (q : Option Resp) : (s.dress c irq f r ts).setResp c irq q = s.dress c irq f q ts := by
  rw [setResp_eq, dress_cores]
  simp only [Fin.getElem_fin, Vector.getElem_set_self, withResp_withResp]
  simp [State.dress, State.setCore]
@[simp] theorem dress_respond (st : Status) (w : Word) :
    (s.dress c irq f r ts).respond c irq st w = s.dress c irq none (some ⟨st, w⟩) ts := by simp [State.respond]
@[simp] theorem dress_setTurns (us : List Turn) : { s.dress c irq f r ts with turns := us } = s.dress c irq f r us := rfl

end dress

/-! ### A micro-step of an operation -/

/-- The response an operation ends with once its last micro-step is made. -/
def finishResp (res : Word) : Post → Resp
  | .plain => ⟨.ok, res⟩
  | .voltage v => ⟨.ok, voltageOf res v⟩
  | .temperature => ⟨.ok, temperatureOf res⟩
  | .badParameter => ⟨.badParameter, 0⟩

/-- How an operation stands after a micro-step: in flight, or over, with its response if it has one. -/
inductive Stand where
  | flies (f : Flight)
  | done (r : Option Resp)

/-- The operation goes on with `code` and the result `res`, or is over. -/
def standOf (code : List Micro) (res : Word) (post : Post) : Stand :=
  match code with
  | [] => .done (some (finishResp res post))
  | m :: rest => .flies { code := m :: rest, res := res, post := post }

/-- One micro-step of the operation `f`, issued on core `c`, on its own. -/
def microRun (s : State) (c : CoreId) (f : Flight) : State × Stand :=
  match f.code with
  | [] => (s, .done (some (finishResp f.res f.post)))
  | m :: rest =>
    match s.microStep c m with
    | (s', .go push) => (s', standOf (push ++ rest) f.res f.post)
    | (s', .yield v) => (s', standOf rest v f.post)
    | (s', .raise e) => (s', .done (some ⟨e, 0⟩))
    | (s', .halt) => (s', .done none)

/-- How a state is dressed when an operation stands so. -/
def State.dressAs (s : State) (c : CoreId) (irq : Bool) (ts : List Turn) : Stand → State
  | .flies f => s.dress c irq (some f) none ts
  | .done r => s.dress c irq none r ts

theorem dress_finish (s : State) (c : CoreId) (irq : Bool) (g : Option Flight) (ts : List Turn) (res : Word) (post : Post) :
    (s.dress c irq g none ts).finish c irq res post = s.dress c irq none (some (finishResp res post)) ts := by
  cases post <;> simp [State.finish, finishResp, State.raise]

theorem dress_settle (s : State) (c : CoreId) (irq : Bool) (g : Option Flight) (ts : List Turn) (f : Flight) :
    (s.dress c irq g none ts).settle c irq f = s.dressAs c irq ts (standOf f.code f.res f.post) := by
  obtain ⟨code, res, post⟩ := f
  cases code <;> simp [State.settle, standOf, State.dressAs, dress_finish]

/-- What `advance` does to a dressed state is what `microRun` does to the bare one. -/
theorem dress_advance (s : State) (c : CoreId) (irq : Bool) (g : Option Flight) (ts : List Turn) (f : Flight) :
    (s.dress c irq g none ts).advance c irq f = (microRun s c f).1.dressAs c irq ts (microRun s c f).2 := by
  obtain ⟨code, res, post⟩ := f
  cases code with
  | nil => simp [State.advance, microRun, dress_finish, State.dressAs]
  | cons m rest =>
    simp only [State.advance, microRun, dress_microStep]
    generalize s.microStep c m = x
    obtain ⟨s', a⟩ := x
    cases a <;> simp [dress_settle, State.dressAs, State.raise]

/-! ### A whole run -/

/-- The operation `f` of core `c` is followed through the turns `ts`, each one atomic step: the state and the response when it
is over exactly at the last of them. Turns of core `c` are its micro-steps; other turns are those of agents that are no core. -/
def runOp (c : CoreId) : List Turn → State → Flight → Option (State × Option Resp)
  | [], _, _ => none
  | t :: ts, s, f =>
    if t = .core c then
      match microRun s c f with
      | (s', .done r) => if ts = [] then some (s'.edgeDetect, r) else none
      | (s', .flies f') => runOp c ts s'.edgeDetect f'
    else if notCore t then runOp c ts (s.turnBody t).edgeDetect f
    else none

/-! ### What a run keeps -/

/-- An update of core `c` keeps whatever part `g` of every core it keeps of core `c`. -/
theorem setCore_keeps {α : Type} (s : State) (c d : CoreId) (k : CoreSt) (g : CoreSt → α) (h : g k = g s.cores[c.val]) :
    g (s.setCore c k).cores[d.val] = g s.cores[d.val] := by
  by_cases e : c = d
  · subst e; simp [h]
  · rw [setCore_other s c d k e]

/-- A register write changes no part of a core but its enable and force banks. -/
theorem storeReg_core {α : Type} (s : State) (d : CoreId) (x : Reg) (t w : Word) (g : CoreSt → α)
    (he : ∀ k v, g { k with inte := v } = g k) (hf : ∀ k v, g { k with intf := v } = g k) :
    g (s.storeReg x t w).cores[d.val] = g s.cores[d.val] := by
  cases x with
  | ioInte c b => exact setCore_keeps s c d _ g (he ..)
  | ioIntf c b => exact setCore_keeps s c d _ g (hf ..)
  | rst => simp only [State.storeReg]; split; rfl; split <;> rfl
  | _ => first | rfl | (simp only [State.storeReg]; split <;> rfl)

/-- A micro-step changes no `in_irq`. -/
theorem microStep_inIrq (s : State) (c d : CoreId) (m : Micro) : (s.microStep c m).1.cores[d.val].inIrq = s.cores[d.val].inIrq := by
  have hs : ∀ x t w, (s.storeReg x t w).cores[d.val].inIrq = s.cores[d.val].inIrq := fun x t w =>
    storeReg_core s d x t w CoreSt.inIrq (by simp) (by simp)
  have hp : ∀ x t n w, (s.primStore x t n w).1.cores[d.val].inIrq = s.cores[d.val].inIrq := by
    intro x t n w
    by_cases h : refusedWrite x w <;> simp [State.primStore, h, hs]
  cases m with
  | write r w => exact hs ..
  | setBits r m => exact hs ..
  | clrBits r m => exact hs ..
  | primGet x => by_cases h : s.inaccessible x <;> simp [State.microStep, h]
  | primSet x n =>
    by_cases h : s.inaccessible x <;> simp only [State.microStep, h, if_true, Bool.false_eq_true, if_false]
    exact hp ..
  | primClr x n =>
    by_cases h : s.inaccessible x <;> simp only [State.microStep, h, if_true, Bool.false_eq_true, if_false]
    exact hp ..
  | primRead x n v => by_cases h : s.inaccessible x <;> simp [State.microStep, h]
  | primWrite x w =>
    simp only [State.microStep]
    split
    · rfl
    · exact hp ..
  | writeGatePwm v => exact setCore_keeps s c d _ CoreSt.inIrq rfl
  | writeGateGpio v => exact setCore_keeps s c d _ CoreSt.inIrq rfl
  | bindPin p h e => exact setCore_keeps s c d _ CoreSt.inIrq rfl
  | closeHandler => exact setCore_keeps s c d _ CoreSt.inIrq rfl
  | _ => rfl

/-- A register write does not touch the fatal flag. -/
theorem storeReg_fatal (s : State) (x : Reg) (t w : Word) : (s.storeReg x t w).fatal = s.fatal := by
  cases x with
  | rst => simp only [State.storeReg]; split; rfl; split <;> rfl
  | _ => first | rfl | (simp only [State.storeReg]; split <;> rfl)

/-- Only a callback fault sets the fatal flag, and it ends the operation. -/
theorem microStep_fatal (s : State) (c : CoreId) (m : Micro) :
    (s.microStep c m).1.fatal = s.fatal ∨ (s.microStep c m).2 = .halt := by
  cases m with
  | handlerFault => exact .inr rfl
  | write r w => exact .inl (storeReg_fatal ..)
  | setBits r m => exact .inl (storeReg_fatal ..)
  | clrBits r m => exact .inl (storeReg_fatal ..)
  | primGet x => by_cases h : s.inaccessible x <;> simp [State.microStep, h]
  | primSet x n =>
    by_cases h : s.inaccessible x <;> simp only [State.microStep, h, State.primStore, if_true] <;> try simp
    split <;> simp [storeReg_fatal]
  | primClr x n =>
    by_cases h : s.inaccessible x <;> simp only [State.microStep, h, State.primStore, if_true] <;> try simp
    split <;> simp [storeReg_fatal]
  | primRead x n v => by_cases h : s.inaccessible x <;> simp [State.microStep, h]
  | primWrite x w =>
    by_cases hr : refusedWrite x w <;> by_cases h : s.inaccessible x <;>
      simp [State.microStep, State.primStore, hr, h, storeReg_fatal]
  | _ => exact .inl rfl

theorem microRun_fst (s : State) (c : CoreId) (m : Micro) (rest : List Micro) (res : Word) (post : Post) :
    (microRun s c { code := m :: rest, res := res, post := post }).1 = (s.microStep c m).1 := by
  simp only [microRun]
  rcases s.microStep c m with ⟨s', a⟩
  cases a <;> rfl

theorem microRun_inIrq (s : State) (c d : CoreId) (f : Flight) : (microRun s c f).1.cores[d.val].inIrq = s.cores[d.val].inIrq := by
  obtain ⟨code, res, post⟩ := f
  cases code with
  | nil => rfl
  | cons m rest =>
    rw [microRun_fst]
    exact microStep_inIrq s c d m

theorem microRun_fatal (s s' : State) (c : CoreId) (f f' : Flight) (h : microRun s c f = (s', .flies f')) : s'.fatal = s.fatal := by
  obtain ⟨code, res, post⟩ := f
  cases code with
  | nil => simp [microRun] at h
  | cons m rest =>
    have hm := microStep_fatal s c m
    simp only [microRun] at h
    generalize s.microStep c m = x at h hm
    obtain ⟨t, a⟩ := x
    cases a <;> simp_all

theorem turnBody_fatal (s : State) (t : Turn) (h : notCore t = true) : (s.turnBody t).fatal = s.fatal := by
  cases t with
  | core _ => simp [notCore] at h
  | enter _ => simp [notCore] at h
  | adcSeq =>
    simp only [State.turnBody, State.adcSeq]
    cases hs : s.samples <;> simp [State.drawn, hs] <;> split <;> rfl
  | _ => rfl

theorem turnBody_cores (s : State) (t : Turn) (h : notCore t = true) : (s.turnBody t).cores = s.cores := by
  cases t with
  | core _ => simp [notCore] at h
  | enter _ => simp [notCore] at h
  | adcSeq =>
    simp only [State.turnBody, State.adcSeq]
    cases hs : s.samples <;> simp [State.drawn, hs] <;> split <;> rfl
  | _ => rfl

/-- What `drive` does with an operation in flight is what `runOp` does on its own. -/
theorem drive_run (c : CoreId) (irq : Bool) (rest : List Turn) :
    ∀ (ts : List Turn) (s : State) (f : Flight) (u : State) (r : Option Resp),
      runOp c ts s f = some (u, r) → s.fatal = false → s.inIrqCtx c = irq →
      (s.dress c irq (some f) none (ts ++ rest)).drive c irq (ts ++ rest) = u.dress c irq none r rest := by
  have stop : ∀ (u : State) (r : Option Resp), (u.dress c irq none r rest).drive c irq rest = u.dress c irq none r rest := by
    intro u r
    cases rest <;> simp [State.drive]
  intro ts
  induction ts with
  | nil => intro s f u r h; simp [runOp] at h
  | cons t ts ih =>
    intro s f u r h hf hi
    rw [List.cons_append, State.drive, if_neg (by simp [hf]), dress_setTurns, State.atomic, if_neg (by simp [hf])]
    simp only [runOp] at h
    by_cases hc : t = .core c
    · subst hc
      simp only [if_true] at h
      have hb : (s.dress c irq (some f) none (ts ++ rest)).turnBody (.core c)
          = (microRun s c f).1.dressAs c irq (ts ++ rest) (microRun s c f).2 := by
        simp only [State.turnBody, State.coreTurn, dress_inIrqCtx, hi, dress_flight, dress_advance]
      rw [hb]
      have hq := microRun_inIrq s c c f
      have hm : ∀ f', (microRun s c f).2 = .flies f' → (microRun s c f).1.fatal = s.fatal := fun f' e =>
        microRun_fatal s _ c f f' (by rw [← e])
      generalize microRun s c f = x at h hq hm
      obtain ⟨s', a⟩ := x
      cases a with
      | flies f' =>
        simp only [State.dressAs, dress_edgeDetect]
        refine ih s'.edgeDetect f' u r h ?_ ?_
        · simpa [hf] using hm f' rfl
        · rw [← hi]; simp only [State.inIrqCtx, edgeDetect_cores, Fin.getElem_fin]; exact congrArg _ hq
      | done r' =>
        simp only at h
        split at h
        · rename_i e
          subst e
          simp only [Option.some.injEq, Prod.mk.injEq] at h
          obtain ⟨rfl, rfl⟩ := h
          simp only [State.dressAs, dress_edgeDetect, List.nil_append, stop]
        · simp at h
    · simp only [hc, if_false] at h
      split at h
      · rename_i hn
        rw [dress_turnBody _ _ _ _ _ _ _ hn, dress_edgeDetect]
        refine ih _ f u r h ?_ ?_
        · simpa [turnBody_fatal s t hn] using hf
        · simpa [State.inIrqCtx, turnBody_cores s t hn] using hi
      · simp at h

/-- What `issue` does with an operation that runs to its end in the recorded turns `ts`: the run of `runOp`, its acceptance
being its first micro-step, and then the response (log 2, 20). -/
theorem issue_run (s : State) (f : Flight) (ts : List Turn) (u : State) (r : Option Resp) (hr : s.Ready) (ht : s.NextTurns ts)
    (h : runOp s.sel (.core s.sel :: ts) s f = some (u, r)) :
    s.issue (.ok f) = .next (u.dress s.sel s.ctx none r (s.turns.drop ts.length)) := by
  obtain ⟨hf, hfl, hq⟩ := hr
  have hturns : s.turns = ts ++ s.turns.drop ts.length := by
    conv => lhs; rw [← List.take_append_drop ts.length s.turns]
    rw [ht]
  generalize hrest : s.turns.drop ts.length = rest at *
  have hs0 : s.setResp s.sel s.ctx none = s.dress s.sel s.ctx none none (ts ++ rest) := by
    rw [State.dress, ← hturns, setResp_eq]
    have hk : s.cores[s.sel].withFlight s.ctx none = s.cores[s.sel] := by
      conv => rhs; rw [← withFlight_self s.cores[s.sel] s.ctx]
      rw [flight_eq] at hfl; rw [hfl]
    rw [hk]; rfl
  have hstart : s.start s.sel s.ctx (.ok f)
      = (microRun s s.sel f).1.dressAs s.sel s.ctx (ts ++ rest) (microRun s s.sel f).2 := by
    have hg : (s.ctx && decide (s.cores[s.sel].cbDepth ≠ 1)) = false := by
      cases hx : s.ctx <;> simp_all
    simp only [State.start]
    rw [hg]
    simp only [Bool.false_eq_true, if_false, hs0, dress_advance]
  simp only [State.issue, hf, Bool.false_eq_true, if_false, hfl, Option.isSome_none, hstart]
  have hq := microRun_inIrq s s.sel s.sel f
  have hm : ∀ f', (microRun s s.sel f).2 = .flies f' → (microRun s s.sel f).1.fatal = s.fatal := fun f' e =>
    microRun_fatal s _ s.sel f f' (by rw [← e])
  simp only [runOp, if_true] at h
  generalize microRun s s.sel f = x at h hq hm
  obtain ⟨s', a⟩ := x
  cases a with
  | flies f' =>
    simp only [State.dressAs, dress_edgeDetect, dress_turns]
    refine congrArg Host.Outcome.next (drive_run s.sel s.ctx rest ts s'.edgeDetect f' u r h ?_ ?_)
    · simpa [hf] using hm f' rfl
    · simp only [State.ctx, State.inIrqCtx, edgeDetect_cores, Fin.getElem_fin]; exact congrArg _ hq
  | done r' =>
    simp only at h
    split at h
    · rename_i e
      subst e
      simp only [Option.some.injEq, Prod.mk.injEq] at h
      obtain ⟨rfl, rfl⟩ := h
      simp only [State.dressAs, dress_edgeDetect, List.nil_append, dress_turns]
      congr 1
      cases rest <;> simp [State.drive]
    · simp at h

/-- A response, in terms of `answer`. -/
theorem dress_answer (s u : State) (n : Nat) (st : Status) (res : Word) (h : u.sel = s.sel)
    (hc : ∀ d : CoreId, u.cores[d.val].inIrq = s.cores[d.val].inIrq) :
    u.dress s.sel s.ctx none (some ⟨st, res⟩) (s.turns.drop n)
      = ({ u with turns := s.turns.drop n } : State).answer st res := by
  have hv : ({ u with turns := s.turns.drop n } : State).ctx = s.ctx ∧ ({ u with turns := s.turns.drop n } : State).sel = s.sel := by
    simp only [State.ctx, State.inIrqCtx, Fin.getElem_fin, h, hc, and_self]
  have hd : u.dress s.sel s.ctx none (some ⟨st, res⟩) (s.turns.drop n)
      = ({ u with turns := s.turns.drop n } : State).respond s.sel s.ctx st res := by
    simp [State.respond, setFlight_eq, setResp_eq, State.dress, State.setCore]
  rw [hd, State.answer, hv.1, hv.2]

/-- A register write does not touch the selected core. -/
theorem storeReg_sel (s : State) (x : Reg) (t w : Word) : (s.storeReg x t w).sel = s.sel := by
  cases x with
  | rst => simp only [State.storeReg]; split; rfl; split <;> rfl
  | _ => first | rfl | (simp only [State.storeReg]; split <;> rfl)

theorem primStore_sel (s : State) (x : Reg) (t n w : Word) : (s.primStore x t n w).1.sel = s.sel := by
  by_cases h : refusedWrite x w <;> simp [State.primStore, h, storeReg_sel]

theorem microStep_sel (s : State) (c : CoreId) (m : Micro) : (s.microStep c m).1.sel = s.sel := by
  cases m with
  | write r w => exact storeReg_sel ..
  | setBits r m => exact storeReg_sel ..
  | clrBits r m => exact storeReg_sel ..
  | primGet x => by_cases h : s.inaccessible x <;> simp [State.microStep, h]
  | primSet x n =>
    by_cases h : s.inaccessible x <;> simp [State.microStep, h, primStore_sel]
  | primClr x n =>
    by_cases h : s.inaccessible x <;> simp [State.microStep, h, primStore_sel]
  | primRead x n v => by_cases h : s.inaccessible x <;> simp [State.microStep, h]
  | primWrite x w =>
    by_cases hr : refusedWrite x w <;> by_cases h : s.inaccessible x <;> simp [State.microStep, hr, h, primStore_sel]
  | _ => rfl

theorem turnBody_sel (s : State) (t : Turn) (h : notCore t = true) : (s.turnBody t).sel = s.sel := by
  cases t with
  | core _ => simp [notCore] at h
  | enter _ => simp [notCore] at h
  | adcSeq =>
    simp only [State.turnBody, State.adcSeq]
    cases hs : s.samples <;> simp [State.drawn, hs] <;> split <;> rfl
  | _ => rfl

theorem microRun_sel (s : State) (c : CoreId) (f : Flight) : (microRun s c f).1.sel = s.sel := by
  obtain ⟨code, res, post⟩ := f
  cases code with
  | nil => rfl
  | cons m rest => rw [microRun_fst]; exact microStep_sel s c m

/-- A run keeps the selected core and every `in_irq`. -/
theorem runOp_keeps (c : CoreId) : ∀ (ts : List Turn) (s : State) (f : Flight) (u : State) (r : Option Resp),
    runOp c ts s f = some (u, r) → u.sel = s.sel ∧ ∀ d : CoreId, u.cores[d.val].inIrq = s.cores[d.val].inIrq := by
  intro ts
  induction ts with
  | nil => intro s f u r h; simp [runOp] at h
  | cons t ts ih =>
    intro s f u r h
    simp only [runOp] at h
    split at h
    · have hi := microRun_inIrq s c
      have hs := microRun_sel s c f
      rcases hx : microRun s c f with ⟨s', a⟩
      simp only [hx] at h hs
      have hi' : ∀ d : CoreId, s'.cores[d.val].inIrq = s.cores[d.val].inIrq := fun d => by rw [← hi d f, hx]
      cases a with
      | flies f' =>
        obtain ⟨h1, h2⟩ := ih _ _ _ _ h
        exact ⟨h1.trans hs, fun d => (h2 d).trans (hi' d)⟩
      | done r' =>
        simp only at h
        split at h
        · simp only [Option.some.injEq, Prod.mk.injEq] at h
          obtain ⟨rfl, rfl⟩ := h
          exact ⟨hs, hi'⟩
        · simp at h
    · split at h
      · rename_i hn
        obtain ⟨h1, h2⟩ := ih _ _ _ _ h
        refine ⟨h1.trans (turnBody_sel s t hn), fun d => (h2 d).trans ?_⟩
        simp [turnBody_cores s t hn]
      · simp at h

/-- An operation that runs to its end in the recorded turns `ts` and answers `st`, `res`. -/
theorem issue_answer (s : State) (f : Flight) (ts : List Turn) (u : State) (st : Status) (res : Word) (hr : s.Ready)
    (ht : s.NextTurns ts) (h : runOp s.sel (.core s.sel :: ts) s f = some (u, some ⟨st, res⟩)) :
    s.issue (.ok f) = .next (({ u with turns := s.turns.drop ts.length } : State).answer st res) := by
  obtain ⟨h1, h2⟩ := runOp_keeps _ _ _ _ _ _ h
  rw [issue_run s f ts u _ hr ht h, dress_answer s u _ st res h1 h2]

/-- An operation whose operand checks fail. -/
theorem issue_error (s : State) (e : Status) (hr : s.Ready) : s.issue (.error e) = .next (s.answer e 0).edgeDetect := by
  obtain ⟨hf, hfl, hq⟩ := hr
  have hg : (s.ctx && decide (s.cores[s.sel].cbDepth ≠ 1)) = false := by
    cases hx : s.ctx <;> simp_all
  simp only [State.issue, hf, Bool.false_eq_true, if_false, hfl, Option.isSome_none, State.start]
  rw [hg]
  simp only [Bool.false_eq_true, if_false, State.raise]
  have hd : ∀ ts, ((s.respond s.sel s.ctx e 0).edgeDetect).drive s.sel s.ctx ts = (s.respond s.sel s.ctx e 0).edgeDetect := by
    intro ts
    have : ((s.respond s.sel s.ctx e 0).edgeDetect).flight s.sel s.ctx = none := by
      simp [flight_eq, State.respond, setFlight_eq, setResp_eq]
    cases ts with
    | nil => rfl
    | cons t ts => rw [State.drive, if_pos (by rw [this]; simp)]
  rw [hd]; rfl

end Sys2Proof.Machine
end

