-- ==== Sys2Proof/Laws/Issue.lean ====
section
/-! SUPPORT. What `issue` does with an operation of one micro-step, with one that stays in flight, and with one whose checks
fail; runs of a core's own micro-steps; and the parts of the state a register write leaves. -/

namespace Sys2Proof.Machine

theorem issue_one (s : State) (m : Micro) (res : Word) (post : Post) (s' : State) (st : Status) (w : Word) (hr : s.Ready)
    (h : microRun s s.sel ⟨[m], res, post⟩ = (s', .done (some ⟨st, w⟩))) (ht : s'.turns = s.turns) :
    s.issue (.ok ⟨[m], res, post⟩) = .next (s'.answer st w).edgeDetect := by
  rw [issue_answer s _ [] s'.edgeDetect st w hr rfl (by simp [runOp, h])]
  simp only [List.length_nil, List.drop_zero]
  rw [← ht]; rfl

theorem settled_answer {s : State} (h : s.Settled) (st : Status) (w : Word) : (s.answer st w).edgeDetect = s.answer st w :=
  edgeDetect_of_settled _ h

theorem issue_err {s : State} (hr : s.Ready) (hs : s.Settled) (e : Status) : s.issue (.error e) = .next (s.answer e 0) := by
  rw [issue_error s e hr, settled_answer hs]

/-- An operation that is still in flight after its first micro-step. -/
theorem issue_flies (s : State) (f : Flight) (s' : State) (f' : Flight) (hr : s.Ready)
    (h : microRun s s.sel f = (s', .flies f')) :
    s.issue (.ok f) = .next ((s'.edgeDetect.dress s.sel s.ctx (some f') none s.turns).drive s.sel s.ctx s.turns) := by
  obtain ⟨hf, hfl, hq⟩ := hr
  have hs0 : s.setResp s.sel s.ctx none = s.dress s.sel s.ctx none none s.turns := by
    rw [State.dress, setResp_eq]
    have hk : s.cores[s.sel].withFlight s.ctx none = s.cores[s.sel] := by
      conv => rhs; rw [← withFlight_self s.cores[s.sel] s.ctx]
      rw [flight_eq] at hfl; rw [hfl]
    rw [hk]; rfl
  have hg : (s.ctx && decide (s.cores[s.sel].cbDepth ≠ 1)) = false := by
    cases hx : s.ctx <;> simp_all
  simp only [State.issue, hf, Bool.false_eq_true, if_false, hfl, Option.isSome_none, State.start]
  rw [hg]
  simp only [Bool.false_eq_true, if_false, hs0, dress_advance, h, State.dressAs, dress_edgeDetect, dress_turns]

/-! ### Runs of the core's own micro-steps -/

/-- The operation runs to its end in `n` micro-steps of its own core. -/
def Runs (c : CoreId) (n : Nat) (s : State) (code : List Micro) (res : Word) (post : Post) (u : State) (r : Option Resp) : Prop :=
  runOp c (List.replicate n (.core c)) s ⟨code, res, post⟩ = some (u, r)

theorem runs_go {c : CoreId} {n : Nat} {s s' u : State} {m : Micro} {push rest : List Micro} {res : Word} {post : Post}
    {r : Option Resp} (h : s.microStep c m = (s', .go push)) (hne : push ++ rest ≠ [])
    (k : Runs c n s'.edgeDetect (push ++ rest) res post u r) : Runs c (n + 1) s (m :: rest) res post u r := by
  unfold Runs at *
  rw [List.replicate_succ, runOp, if_pos rfl]
  simp only [microRun, h, standOf]
  cases hx : push ++ rest with
  | nil => exact absurd hx hne
  | cons a b => simp only [hx] at k ⊢; exact k

theorem runs_last {c : CoreId} {s s' : State} {m : Micro} {res : Word} {post : Post} (h : s.microStep c m = (s', .go [])) :
    Runs c 1 s [m] res post s'.edgeDetect (some (finishResp res post)) := by
  unfold Runs
  rw [List.replicate_succ, runOp, if_pos rfl]
  simp [microRun, h, standOf]

theorem runs_yield {c : CoreId} {s s' : State} {m : Micro} {res v : Word} {post : Post} (h : s.microStep c m = (s', .yield v)) :
    Runs c 1 s [m] res post s'.edgeDetect (some (finishResp v post)) := by
  unfold Runs
  rw [List.replicate_succ, runOp, if_pos rfl]
  simp [microRun, h, standOf]

theorem runs_raise {c : CoreId} {s s' : State} {m : Micro} {rest : List Micro} {res : Word} {post : Post} {e : Status}
    (h : s.microStep c m = (s', .raise e)) : Runs c 1 s (m :: rest) res post s'.edgeDetect (some ⟨e, 0⟩) := by
  unfold Runs
  rw [List.replicate_succ, runOp, if_pos rfl]
  simp [microRun, h]

/-- What `issue` does with an operation that runs undisturbed in `n + 1` micro-steps. -/
theorem issue_runs {s u : State} {code : List Micro} {res : Word} {post : Post} {st : Status} {w : Word} {n : Nat} (hr : s.Ready)
    (ha : s.Alone n) (h : Runs s.sel (n + 1) s code res post u (some ⟨st, w⟩)) :
    s.issue (.ok ⟨code, res, post⟩) = .next ((u.withTurns (s.turns.drop n)).answer st w) := by
  have := issue_answer s ⟨code, res, post⟩ _ u st w hr ha h
  rw [List.length_replicate] at this
  exact this

/-! ### What a register write leaves -/

theorem storeReg_turns (s : State) (x : Reg) (t w : Word) : (s.storeReg x t w).turns = s.turns := by
  cases x with
  | rst => simp only [State.storeReg]; split; rfl; split <;> rfl
  | _ => first | rfl | (simp only [State.storeReg]; split <;> rfl)

theorem taken_storeReg (s : State) (n : Nat) (x : Reg) (t w : Word) : (s.taken n).storeReg x t w = (s.storeReg x t w).taken n := by
  cases x with
  | rst => simp only [State.storeReg]; generalize t.getLsbD 0 = x; generalize w.getLsbD 0 = y; cases x <;> (cases y <;> rfl)
  | _ => first | rfl | (simp only [State.storeReg]; by_cases h : s.adc.rst <;> simp [h, State.taken] <;> rfl)

theorem answer_edge_taken (s u : State) (n : Nat) (st : Status) (w : Word) (h : u.turns = s.turns) :
    (u.edgeDetect.withTurns (s.turns.drop n)).answer st w = ((u.taken n).answer st w).edgeDetect := by
  rw [← h]; rfl

/-! ### Reaching a state but for edges -/

theorem reaches_refl (pins : Pin → Bool) {s : State} (h : s.Settled) : Reaches pins s s s :=
  ⟨rfl, h, edgesAddedOnly_refl pins s⟩

/-- A further update, with the edge detector after it, that moves only the levels of the pins named. -/
theorem reaches_step {pins : Pin → Bool} {s w w' x y : State} (h : Reaches pins s w x) (hq : y.quiet = w'.quiet)
    (hio : y.ioIntr = x.ioIntr) (hp : y.prevIn = x.prevIn) (hl : ∀ p, pins p = false → y.pinIn p = x.pinIn p) :
    Reaches pins s w' y.edgeDetect := by
  obtain ⟨_, h2, h3⟩ := h
  refine ⟨hq, settled_edgeDetect y, ?_⟩
  have hy : EdgesAddedOnly pins y y.edgeDetect := edgeDetect_edges y pins (fun p hpp => by
    rw [hp, h2, pinInAll_getLsbD, pinInAll_getLsbD, hl p hpp])
  exact edgesAddedOnly_trans (edgesAddedOnly_of_ioIntr h3 hio) hy

/-- The response and the turns are no part of what `Reaches` follows. -/
theorem reaches_answer {pins : Pin → Bool} {s w x : State} {n : Nat} (h : Reaches pins s w x) (st : Status) (v : Word) :
    Reaches pins s ((w.withTurns (s.turns.drop n)).answer st v) ((x.withTurns (s.turns.drop n)).answer st v) := by
  obtain ⟨h1, h2, h3⟩ := h
  refine ⟨?_, h2, h3⟩
  have hx : x.quiet = w.quiet := h1
  have e : ∀ y : State, ((y.withTurns (s.turns.drop n)).answer st v).quiet = (y.quiet.withTurns (s.turns.drop n)).answer st v := fun _ => rfl
  rw [e, e, hx]

end Sys2Proof.Machine
end

