-- ==== Sys2Proof/Laws/Adc.lean ====
section
/-! SUPPORT. Runs through given turns one by one, and what the sequencer's timers and the initialisation of the ADC do in them
(43_adc_sequencer R242, R247). -/

namespace Sys2Proof.Machine

section turns
variable {c : CoreId} {ts : List Turn} {s s' : State} {m : Micro} {push rest : List Micro} {res v : Word} {post : Post}

theorem runOp_go (h : s.microStep c m = (s', .go push)) (hne : push ++ rest ≠ []) :
    runOp c (.core c :: ts) s ⟨m :: rest, res, post⟩ = runOp c ts s'.edgeDetect ⟨push ++ rest, res, post⟩ := by
  rw [runOp, if_pos rfl]
  simp only [microRun, h, standOf]
  cases hx : push ++ rest with
  | nil => exact absurd hx hne
  | cons a b => rfl

theorem runOp_last (h : s.microStep c m = (s', .go [])) :
    runOp c [.core c] s ⟨[m], res, post⟩ = some (s'.edgeDetect, some (finishResp res post)) := by
  rw [runOp, if_pos rfl]; simp [microRun, h, standOf]

theorem runOp_yield (h : s.microStep c m = (s', .yield v)) :
    runOp c [.core c] s ⟨[m], res, post⟩ = some (s'.edgeDetect, some (finishResp v post)) := by
  rw [runOp, if_pos rfl]; simp [microRun, h, standOf]

theorem runOp_other (f : Flight) {t : Turn} (h : notCore t = true) : runOp c (t :: ts) s f = runOp c ts (s.turnBody t).edgeDetect f := by
  rw [runOp, if_neg (by intro e; subst e; simp [notCore] at h), if_pos h]

end turns

/-- A change of the ADC moves no pin. -/
theorem setAdc_settled {s : State} (h : s.Settled) (a : AdcBlock) : (s.setAdc a).edgeDetect = s.setAdc a := edgeDetect_of_settled _ h

theorem adcSeq_reset {s : State} {n : Nat} (h1 : s.adc.resetLeft = some (n + 1)) (h2 : s.adc.readyLeft = none) (h3 : s.adc.convLeft = none) :
    s.adcSeq = s.setAdc { s.adc with resetLeft := if n = 0 then none else some n, rstDone := s.adc.rstDone || n == 0 } := by
  cases n <;> simp [State.adcSeq, h1, h2, h3, countdown]

theorem adcSeq_ready {s : State} {n : Nat} (h1 : s.adc.resetLeft = none) (h2 : s.adc.readyLeft = some (n + 1)) (h3 : s.adc.convLeft = none) :
    s.adcSeq = s.setAdc { s.adc with readyLeft := if n = 0 then none else some n, cs := if n = 0 then s.adc.cs ||| csReady else s.adc.cs } := by
  cases n <;> simp [State.adcSeq, h1, h2, h3, countdown]

theorem adcSeq_conv {s : State} {n : Nat} (h1 : s.adc.resetLeft = none) (h2 : s.adc.readyLeft = none) (h3 : s.adc.convLeft = some (n + 1)) :
    s.adcSeq = if n = 0 then s.drawn.setAdc { s.adc with convLeft := none, cs := s.adc.cs ||| csReady, result := s.sample s.adc.ainsel }
      else s.setAdc { s.adc with convLeft := some n } := by
  cases n <;> simp [State.adcSeq, h1, h2, h3, countdown]

theorem setAdc_setAdc (s : State) (a b : AdcBlock) : (s.setAdc a).setAdc b = s.setAdc b := rfl

theorem runOp_resetTicks {c : CoreId} (f : Flight) (ts : List Turn) : ∀ (k : Nat) (s : State), s.Settled → s.adc.resetLeft = some (k + 1) →
    s.adc.readyLeft = none → s.adc.convLeft = none →
    runOp c (List.replicate (k + 1) .adcSeq ++ ts) s f = runOp c ts (s.setAdc { s.adc with resetLeft := none, rstDone := true }) f := by
  intro k
  induction k with
  | zero =>
    intro s hs h1 h2 h3
    rw [List.replicate_succ, List.cons_append, runOp_other _ rfl, State.turnBody, adcSeq_reset h1 h2 h3, setAdc_settled hs]
    simp
  | succ k ih =>
    intro s hs h1 h2 h3
    rw [List.replicate_succ, List.cons_append, runOp_other _ rfl, State.turnBody, adcSeq_reset h1 h2 h3, setAdc_settled hs]
    rw [if_neg (Nat.succ_ne_zero k)]
    exact ih (s.setAdc { s.adc with resetLeft := some (k + 1), rstDone := s.adc.rstDone || k + 1 == 0 }) hs rfl h2 h3

theorem runOp_readyTicks {c : CoreId} (f : Flight) (ts : List Turn) : ∀ (k : Nat) (s : State), s.Settled → s.adc.resetLeft = none →
    s.adc.readyLeft = some (k + 1) → s.adc.convLeft = none →
    runOp c (List.replicate (k + 1) .adcSeq ++ ts) s f = runOp c ts (s.setAdc { s.adc with readyLeft := none, cs := s.adc.cs ||| csReady }) f := by
  intro k
  induction k with
  | zero =>
    intro s hs h1 h2 h3
    rw [List.replicate_succ, List.cons_append, runOp_other _ rfl, State.turnBody, adcSeq_ready h1 h2 h3, setAdc_settled hs]
    simp
  | succ k ih =>
    intro s hs h1 h2 h3
    rw [List.replicate_succ, List.cons_append, runOp_other _ rfl, State.turnBody, adcSeq_ready h1 h2 h3, setAdc_settled hs]
    rw [if_neg (Nat.succ_ne_zero k), if_neg (Nat.succ_ne_zero k)]
    exact ih (s.setAdc { s.adc with readyLeft := some (k + 1) }) hs h1 rfl h3

theorem drawn_settled {s : State} (h : s.Settled) (a : AdcBlock) : (s.drawn.setAdc a).edgeDetect = s.drawn.setAdc a := by
  refine edgeDetect_of_settled _ ?_
  have h' : s.prevIn = s.pinInAll := h
  unfold State.drawn
  cases hs : s.samples <;> exact h'

theorem runOp_convTicks {c : CoreId} (f : Flight) (ts : List Turn) : ∀ (k : Nat) (s : State), s.Settled → s.adc.resetLeft = none →
    s.adc.readyLeft = none → s.adc.convLeft = some (k + 1) →
    runOp c (List.replicate (k + 1) .adcSeq ++ ts) s f
      = runOp c ts (s.drawn.setAdc { s.adc with convLeft := none, cs := s.adc.cs ||| csReady, result := s.sample s.adc.ainsel }) f := by
  intro k
  induction k with
  | zero =>
    intro s hs h1 h2 h3
    rw [List.replicate_succ, List.cons_append, runOp_other _ rfl, State.turnBody, adcSeq_conv h1 h2 h3, if_pos rfl, drawn_settled hs]
    simp
  | succ k ih =>
    intro s hs h1 h2 h3
    rw [List.replicate_succ, List.cons_append, runOp_other _ rfl, State.turnBody, adcSeq_conv h1 h2 h3, if_neg (by omega), setAdc_settled hs]
    rw [ih (s.setAdc { s.adc with convLeft := some (k + 1) }) hs h1 h2 rfl]
    congr 1
    simp only [State.drawn, State.sample, setAdc_samples, setAdc_adc, AdcBlock.ainsel]
    cases s.samples <;> rfl

theorem setBits_rst (s : State) : s.setBits .rst 1 = s.setAdc s.adc.assertReset := by
  have h : ((BitVec.ofBool s.adc.rst).setWidth 32 ||| 1#32).getLsbD 0 = true := by cases s.adc.rst <;> rfl
  show (if !(1#32).getLsbD 0 then s else if ((BitVec.ofBool s.adc.rst).setWidth 32 ||| 1#32).getLsbD 0 then _ else _) = _
  rw [if_neg (by decide), if_pos h]

theorem clrBits_rst (s : State) : s.clrBits .rst 1 = s.setAdc (s.adc.releaseReset s.params.resetTicks) := by
  have h : ((BitVec.ofBool s.adc.rst).setWidth 32 &&& ~~~1#32).getLsbD 0 ≠ true := by cases s.adc.rst <;> decide
  show (if !(1#32).getLsbD 0 then s else if ((BitVec.ofBool s.adc.rst).setWidth 32 &&& ~~~1#32).getLsbD 0 then _ else _) = _
  rw [if_neg (by decide), if_neg h]

/-- The one-time initialisation, where it has not run, from its test up to the write of its flag. -/
theorem runOp_initCode {c : CoreId} {s : State} (hs : s.Settled) (hi : s.adcInited = false) (h1 : 1 ≤ s.params.resetTicks)
    (h2 : 1 ≤ s.params.readyTicks) (ts : List Turn) (rest : List Micro) (res : Word) (post : Post) :
    runOp c (.core c :: .core c :: .core c :: (List.replicate s.params.resetTicks .adcSeq ++ .core c :: .core c ::
        (List.replicate s.params.readyTicks .adcSeq ++ .core c :: ts))) s ⟨.testInited :: rest, res, post⟩
      = runOp c ts (s.setAdc AdcBlock.fresh) ⟨.setInited :: rest, res, post⟩ := by
  obtain ⟨a, ha⟩ : ∃ a, s.params.resetTicks = a + 1 := ⟨_, (Nat.sub_add_cancel h1).symm⟩
  obtain ⟨b, hb⟩ : ∃ b, s.params.readyTicks = b + 1 := ⟨_, (Nat.sub_add_cancel h2).symm⟩
  rw [runOp_go (s' := s) (push := adcInitCode) (by simp only [State.microStep]; rw [if_neg (by rw [hi]; exact Bool.false_ne_true)])
    (by simp [adcInitCode]), edgeDetect_of_settled s hs, ha, hb]
  simp only [adcInitCode, List.cons_append, List.nil_append]
  rw [runOp_go (s' := s.setAdc s.adc.assertReset) (push := []) (by simp only [State.microStep, setBits_rst]) (by simp), setAdc_settled hs]
  rw [List.nil_append, runOp_go (s' := s.setAdc (s.adc.assertReset.releaseReset s.params.resetTicks)) (push := [])
    (by simp only [State.microStep, clrBits_rst]; rfl) (by simp), setAdc_settled hs]
  rw [List.nil_append, runOp_resetTicks _ _ a (s.setAdc (s.adc.assertReset.releaseReset s.params.resetTicks)) hs (by rw [ha]; rfl) rfl rfl,
    setAdc_setAdc]
  have p1 : (s.setAdc { AdcBlock.fresh with cs := 0 }).microStep c (.poll .resetDone 0) = (s.setAdc { AdcBlock.fresh with cs := 0 }, .go []) := rfl
  have p2 : (s.setAdc { AdcBlock.fresh with cs := 0 }).microStep c (.write .adcCs 1)
      = (s.setAdc { AdcBlock.fresh with cs := 1, readyLeft := some s.params.readyTicks }, .go []) := by
    simp [State.microStep, State.writeReg, State.storeReg, AdcBlock.writeCs, AdcBlock.fresh, csStored, csReady, AdcBlock.en,
      AdcBlock.ready, setAdc_setAdc]
  have p3 : (s.setAdc AdcBlock.fresh).microStep c (.poll .ready 0) = (s.setAdc AdcBlock.fresh, .go []) := by
    simp [State.microStep, State.pollOnce, State.pollHolds, AdcBlock.fresh, AdcBlock.ready]
  refine (runOp_go (rest := .write .adcCs 1 :: .poll .ready 0 :: .setInited :: rest) p1 (by simp)).trans ?_
  rw [setAdc_settled hs, List.nil_append, runOp_go p2 (by simp), setAdc_settled hs, List.nil_append]
  refine (runOp_readyTicks _ _ b (s.setAdc { AdcBlock.fresh with cs := 1, readyLeft := some s.params.readyTicks }) hs rfl (by rw [hb]; rfl)
    rfl).trans ?_
  rw [setAdc_setAdc, show ({ (s.setAdc { AdcBlock.fresh with cs := 1, readyLeft := some s.params.readyTicks }).adc with
    readyLeft := none, cs := (s.setAdc { AdcBlock.fresh with cs := 1, readyLeft := some s.params.readyTicks }).adc.cs ||| csReady } : AdcBlock)
      = AdcBlock.fresh by simp [AdcBlock.fresh, csReady]]
  refine (runOp_go (rest := .setInited :: rest) p3 (by simp)).trans ?_
  rw [setAdc_settled hs, List.nil_append]

theorem adcReady_settled {s : State} (hs : s.Settled) : s.adcReady.Settled := by
  unfold State.adcReady; split <;> exact hs

/-- The one-time initialisation, where more micro-steps come after it. -/
theorem runOp_init {s : State} (hs : s.Settled) (h1 : 1 ≤ s.params.resetTicks) (h2 : 1 ≤ s.params.readyTicks)
    (ts : List Turn) (rest : List Micro) (hne : rest ≠ []) (res : Word) (post : Post) :
    runOp s.sel (.core s.sel :: (s.initTurns ++ ts)) s ⟨.testInited :: rest, res, post⟩
      = runOp s.sel ts s.adcReady ⟨rest, res, post⟩ := by
  unfold State.initTurns State.adcReady
  by_cases hi : s.adcInited
  · rw [if_pos hi, if_pos hi]
    rw [runOp_go (s' := s) (push := []) (by simp only [State.microStep, hi, if_true]) hne, edgeDetect_of_settled s hs]; rfl
  · rw [if_neg hi, if_neg hi]
    have p4 : (s.setAdc AdcBlock.fresh).microStep s.sel .setInited = ({ s.setAdc AdcBlock.fresh with adcInited := true }, .go []) := rfl
    have e := runOp_initCode (c := s.sel) hs (by simpa using hi) h1 h2 (.core s.sel :: ts) rest res post
    simp only [List.cons_append, List.nil_append, List.append_assoc] at e ⊢
    rw [e, runOp_go p4 (by simp [hne]), List.nil_append]
    congr 1
    exact edgeDetect_of_settled _ hs

/-- The one-time initialisation, where nothing comes after it. -/
theorem runOp_init_last {s : State} (hs : s.Settled) (h1 : 1 ≤ s.params.resetTicks) (h2 : 1 ≤ s.params.readyTicks)
    (res : Word) (post : Post) :
    runOp s.sel (.core s.sel :: s.initTurns) s ⟨[.testInited], res, post⟩ = some (s.adcReady, some (finishResp res post)) := by
  unfold State.initTurns State.adcReady
  by_cases hi : s.adcInited
  · rw [if_pos hi, if_pos hi]
    rw [runOp_last (s' := s) (by simp only [State.microStep, hi, if_true]), edgeDetect_of_settled s hs]
  · rw [if_neg hi, if_neg hi]
    have p4 : (s.setAdc AdcBlock.fresh).microStep s.sel .setInited = ({ s.setAdc AdcBlock.fresh with adcInited := true }, .go []) := rfl
    have e := runOp_initCode (c := s.sel) hs (by simpa using hi) h1 h2 [.core s.sel] [] res post
    simp only [List.cons_append, List.nil_append, List.append_assoc] at e ⊢
    rw [e, runOp_last p4]
    congr 2
    exact edgeDetect_of_settled _ hs

end Sys2Proof.Machine
end

