-- ==== Sys2Proof/Laws/Short.lean ====
section
/-! SUPPORT. Short operations, updates that move no pin, and stuck operations (00_scope R18). -/

namespace Sys2Proof.Machine

section
variable {c : CoreId} {n : Nat} {s s' u : State} {m : Micro} {push rest : List Micro} {res : Word} {post : Post} {r : Option Resp}

/-- A micro-step that moves no pin, then the rest. -/
theorem sruns_go (hs' : s'.Settled) (h : s.microStep c m = (s', .go push)) (hne : push ++ rest ≠ [])
    (k : Runs c n s' (push ++ rest) res post u r) : Runs c (n + 1) s (m :: rest) res post u r :=
  runs_go h hne (by rw [edgeDetect_of_settled s' hs']; exact k)

/-- A last micro-step that moves no pin. -/
theorem sruns_last (hs' : s'.Settled) (h : s.microStep c m = (s', .go [])) : Runs c 1 s [m] res post s' (some (finishResp res post)) := by
  have := runs_last (c := c) (res := res) (post := post) h
  rw [edgeDetect_of_settled s' hs'] at this; exact this

end

/-- An operation of one read. -/
theorem issue_read {s : State} (hr : s.Ready) (hs : s.Settled) (m : Micro) (v : Word) (h : s.microStep s.sel m = (s, .yield v)) :
    s.issue (.ok ⟨[m], 0, .plain⟩) = .next (s.answer .ok v) := by
  rw [issue_one s m 0 .plain s .ok v hr (by simp [microRun, h, standOf, finishResp]) rfl, settled_answer hs]

/-- An operation of one micro-step that gives no result. -/
theorem issue_go {s s' : State} (hr : s.Ready) (m : Micro) (h : s.microStep s.sel m = (s', .go [])) (ht : s'.turns = s.turns) :
    s.issue (.ok ⟨[m], 0, .plain⟩) = .next (s'.answer .ok 0).edgeDetect := by
  rw [issue_one s m 0 .plain s' .ok 0 hr (by simp [microRun, h, standOf, finishResp]) ht]

/-- An operation of a read and one more micro-step. -/
theorem issue_two {s s' : State} (hr : s.Ready) (hs : s.Settled) (ha : s.Alone 1) (m k : Micro) (h : s.microStep s.sel m = (s, .go [k]))
    (h2 : s.microStep s.sel k = (s', .go [])) (ht : s'.turns = s.turns) :
    s.issue (.ok ⟨[m], 0, .plain⟩) = .next (((s'.taken 1).answer .ok 0).edgeDetect) := by
  have hq := edgeDetect_of_settled s hs
  refine (issue_runs hr ha (runs_go h (by simp) (by rw [hq]; exact runs_last h2))).trans ?_
  exact congrArg Host.Outcome.next (answer_edge_taken s s' 1 .ok 0 ht)

/-- An update of a slice that moves no output moves no pin. -/
theorem setSlice_settled {s : State} (hs : s.Settled) (i : SliceId) (sl : Slice) (h : ∀ b, sl.out b = s.slices[i].out b) :
    (s.setSlice i sl).Settled := by
  show s.prevIn = _
  rw [show s.prevIn = s.pinInAll from hs]
  refine (pinInAll_congr s (s.setSlice i sl) rfl rfl rfl rfl rfl (fun j b => ?_)).symm
  by_cases e : i = j
  · subst e; rw [Fin.getElem_fin, setSlice_same]; exact h b
  · rw [Fin.getElem_fin, setSlice_other _ _ _ _ e]; rfl

/-- An update of a slice moves only the pins of its outputs. -/
theorem reaches_slice {s w x : State} {i : SliceId} (sl : Slice) (h : Reaches (pinsOfSlice i) s w x) :
    Reaches (pinsOfSlice i) s (w.setSlice i sl) (x.setSlice i sl).edgeDetect := by
  refine reaches_step h ?_ rfl rfl ?_
  · have e : ∀ y : State, (y.setSlice i sl).quiet = y.quiet.setSlice i sl := fun _ => rfl
    rw [e, e, h.1]
  · intro p hp
    refine pinIn_congr x _ p rfl rfl rfl rfl rfl ?_
    have : i ≠ sliceOfPin p.val := by
      intro e; unfold pinsOfSlice at hp; rw [← e, beq_self_eq_true] at hp; exact Bool.noConfusion hp
    rw [Fin.getElem_fin, setSlice_other _ _ _ _ this]; rfl

/-- One step of the clock, one slice. -/
theorem pwmClk_slice (s : State) (i : SliceId) : s.pwmClk.slices[i] = (s.slices[i].cycle (s.env.bIn.getLsbD i)).1 := by
  simp [State.pwmClk]

/-- A stuck operation stays stuck. -/
theorem drive_stuck (c : CoreId) (irq : Bool) : ∀ (n : Nat) (s : State), s.fatal = false → s.Settled → s.inIrqCtx c = irq →
    (s.dress c irq (some ⟨[.stuck], 0, .plain⟩) none (List.replicate n (.core c))).drive c irq (List.replicate n (.core c))
      = s.dress c irq (some ⟨[.stuck], 0, .plain⟩) none [] := by
  intro n
  induction n with
  | zero => intro s _ _ _; rfl
  | succ n ih =>
    intro s hf hs hi
    rw [List.replicate_succ, State.drive, if_neg (by simp [hf]), dress_setTurns, State.atomic, if_neg (by simp [hf])]
    have : (s.dress c irq (some ⟨[.stuck], 0, .plain⟩) none (List.replicate n (.core c))).turnBody (.core c)
        = s.dress c irq (some ⟨[.stuck], 0, .plain⟩) none (List.replicate n (.core c)) := by
      simp only [State.turnBody, State.coreTurn, dress_inIrqCtx, hi, dress_flight, dress_advance]
      rfl
    rw [this, dress_edgeDetect, edgeDetect_of_settled s hs]
    exact ih s hf hs hi

end Sys2Proof.Machine
end

