-- ==== Sys2Proof/Laws/Clock.lean ====
section
/-! SUPPORT. Cycles of the clock: what they keep, what they do to one slice, and polls with cycles between them (42_pwm_engine
R180, 60_exceptions R316). -/

namespace Sys2Proof.Machine

/-! ### One cycle -/

/-- A slice that is disabled, or gated off, keeps everything but `prev_b` (R180, R182). -/
theorem cycle_stopped {sl : Slice} {b : Bool} (h : sl.en = false ∨ sl.gate b = false) : sl.cycle b = ({ sl with prevB := b }, false) := by
  have e : (!sl.en || !sl.gate b) = true := by rcases h with h | h <;> simp [h]
  unfold Slice.cycle
  exact if_pos e

/-- A step of the clock sets the bit of a slice that wraps, and keeps the others (R187). -/
theorem pwmClk_intr (s : State) (i : SliceId) :
    s.pwmClk.pwmIntr.getLsbD i.val = (s.pwmIntr.getLsbD i.val || (s.slices[i].cycle (s.env.bIn.getLsbD i.val)).2) := by
  show (s.pwmIntr ||| packBits _ 8).getLsbD i.val = _
  rw [BitVec.getLsbD_or, packBits_getLsbD]
  simp [i.isLt]

/-- A step of the clock changes the slices and `PWM_INTR`. -/
theorem pwmClk_frame (s : State) : { s.pwmClk with slices := s.slices, pwmIntr := s.pwmIntr } = s := rfl

/-! ### Cycles and no other step -/

theorem clocked_succ (s : State) : ∀ n, s.clocked (n + 1) = s.pwmClk.edgeDetect.clocked n
  | 0 => rfl
  | n + 1 => congrArg (fun x : State => x.pwmClk.edgeDetect) (clocked_succ s n)

theorem clocked_settled {s : State} (h : s.Settled) : ∀ n, (s.clocked n).Settled
  | 0 => h
  | _ + 1 => settled_edgeDetect _

@[simp] theorem clocked_params (s : State) : ∀ n, (s.clocked n).params = s.params
  | 0 => rfl
  | n + 1 => clocked_params s n
@[simp] theorem clocked_env (s : State) : ∀ n, (s.clocked n).env = s.env
  | 0 => rfl
  | n + 1 => clocked_env s n
@[simp] theorem clocked_fatal (s : State) : ∀ n, (s.clocked n).fatal = s.fatal
  | 0 => rfl
  | n + 1 => clocked_fatal s n
@[simp] theorem clocked_cores (s : State) : ∀ n, (s.clocked n).cores = s.cores
  | 0 => rfl
  | n + 1 => clocked_cores s n
@[simp] theorem clocked_turns (s : State) : ∀ n, (s.clocked n).turns = s.turns
  | 0 => rfl
  | n + 1 => clocked_turns s n
@[simp] theorem clocked_sel (s : State) : ∀ n, (s.clocked n).sel = s.sel
  | 0 => rfl
  | n + 1 => clocked_sel s n

/-- The slice after `n` cycles is what its own cycles make of it. -/
theorem clocked_slice (s : State) (i : SliceId) :
    ∀ n, (s.clocked n).slices[i] = (Slice.cycles (fun _ => s.env.bIn.getLsbD i.val) n s.slices[i]).1
  | 0 => rfl
  | n + 1 => by
    show (s.clocked n).pwmClk.slices[i] = _
    rw [pwmClk_slice, clocked_slice s i n, clocked_env]; rfl

/-- Once a slice has wrapped in `n` cycles its bit of `PWM_INTR` is 1 (R187). -/
theorem clocked_intr (s : State) (i : SliceId) :
    ∀ n, (s.clocked n).pwmIntr.getLsbD i.val
      = (s.pwmIntr.getLsbD i.val || decide (0 < (Slice.cycles (fun _ => s.env.bIn.getLsbD i.val) n s.slices[i]).2))
  | 0 => by simp [State.clocked, Slice.cycles]
  | n + 1 => by
    show (s.clocked n).pwmClk.pwmIntr.getLsbD i.val = _
    rw [pwmClk_intr, clocked_intr s i n, clocked_slice, clocked_env]
    simp only [Slice.cycles]
    rw [Bool.or_assoc]
    congr 1
    split <;> simp_all

/-- No cycle changes anything of a disabled slice but `prev_b` (R180, R207). -/
theorem clocked_disabled (s : State) (i : SliceId) (h : s.slices[i].en = false) :
    ∀ n, ∃ pb, (s.clocked n).slices[i] = { s.slices[i] with prevB := pb }
  | 0 => ⟨_, rfl⟩
  | n + 1 => by
    obtain ⟨pb, e⟩ := clocked_disabled s i h n
    refine ⟨s.env.bIn.getLsbD i.val, ?_⟩
    show (s.clocked n).pwmClk.slices[i] = _
    rw [pwmClk_slice, e, clocked_env, cycle_stopped (sl := { s.slices[i] with prevB := pb }) (.inl h)]

/-! ### Polls with cycles between them -/

section
variable {c : CoreId} {cond : PollCond}

theorem microStep_poll_unbounded {s : State} (hp : s.pollHolds cond = false) (hb : s.params.pollBudget = none) (n : Nat) :
    s.microStep c (.poll cond n) = (s, .go [.poll cond (n + 1)]) := by
  show (s, s.pollOnce cond n) = _
  unfold State.pollOnce; rw [if_neg (by rw [hp]; simp), hb]

theorem microStep_poll_bounded {s : State} (hp : s.pollHolds cond = false) {B : Nat} (hb : s.params.pollBudget = some B) (n : Nat) :
    s.microStep c (.poll cond n) = (s, if B ≤ n + 1 then .raise .timeout else .go [.poll cond (n + 1)]) := by
  show (s, s.pollOnce cond n) = _
  unfold State.pollOnce; rw [if_neg (by rw [hp]; simp), hb]

/-- Polls that fail, with cycles between them that do not change that, until the budget is spent at the last turn. -/
theorem runOp_polls {B : Nat} : ∀ (ts : List Turn) (s : State) (n : Nat), s.Settled → (∀ k, (s.clocked k).pollHolds cond = false) →
    s.params.pollBudget = some B → (∀ t ∈ ts, t = .core c ∨ t = .pwmClk) → ts.getLast? = some (.core c) →
    n + ts.count (.core c) = B →
    runOp c ts s ⟨[.poll cond n], 0, .plain⟩ = some (s.clocked (ts.count .pwmClk), some ⟨.timeout, 0⟩) := by
  intro ts
  induction ts with
  | nil => intro s n _ _ _ _ hl; simp at hl
  | cons t ts ih =>
    intro s n hs hp hb hts hl hn
    rcases hts t (by simp) with rfl | rfl
    · have hm := microStep_poll_bounded (c := c) (hp 0) hb n
      rw [List.count_cons_self] at hn
      by_cases h0 : ts = []
      · subst h0
        simp only [List.count_nil] at hn
        rw [State.clocked, if_pos (by omega)] at hm
        rw [runOp, if_pos rfl]
        simp [microRun, hm, edgeDetect_of_settled s hs, State.clocked]
      · have hl' : ts.getLast? = some (.core c) := by
          rw [List.getLast?_cons] at hl
          cases ht : ts.getLast? with
          | none => exact absurd (List.getLast?_eq_none_iff.mp ht) h0
          | some x => rw [ht] at hl; simpa using hl
        have hc : 0 < ts.count (.core c) := List.count_pos_iff.mpr (List.mem_of_getLast? hl')
        rw [State.clocked, if_neg (by omega)] at hm
        rw [runOp_go hm (by simp), edgeDetect_of_settled s hs]
        simp only [List.append_nil]
        rw [ih s (n + 1) hs hp hb (fun t h => hts t (by simp [h])) hl' (by omega)]
        simp
    · have h0 : ts ≠ [] := by rintro rfl; simp at hl
      have hl' : ts.getLast? = some (.core c) := by
        rw [List.getLast?_cons] at hl
        cases ht : ts.getLast? with
        | none => exact absurd (List.getLast?_eq_none_iff.mp ht) h0
        | some x => rw [ht] at hl; simpa using hl
      rw [runOp_other _ rfl]
      show runOp c ts s.pwmClk.edgeDetect _ = _
      rw [ih s.pwmClk.edgeDetect n (settled_edgeDetect _) (fun k => by rw [← clocked_succ]; exact hp (k + 1)) hb (fun t h => hts t (by simp [h])) hl'
        (by simpa [List.count_cons] using hn), List.count_cons_self, clocked_succ]

/-- Polls that fail under an unbounded budget, with cycles between them that do not change that. -/
theorem drive_polls (irq : Bool) : ∀ (ts : List Turn) (s : State) (n : Nat), s.fatal = false → s.Settled → s.inIrqCtx c = irq →
    (∀ k, (s.clocked k).pollHolds cond = false) → s.params.pollBudget = none → (∀ t ∈ ts, t = .core c ∨ t = .pwmClk) →
    (s.dress c irq (some ⟨[.poll cond n], 0, .plain⟩) none ts).drive c irq ts
      = (s.clocked (ts.count .pwmClk)).dress c irq (some ⟨[.poll cond (n + ts.count (.core c))], 0, .plain⟩) none [] := by
  intro ts
  induction ts with
  | nil => intro s n _ _ _ _ _ _; rfl
  | cons t ts ih =>
    intro s n hf hs hi hp hb hts
    rw [State.drive, if_neg (by simp [hf]), dress_setTurns, State.atomic, if_neg (by simp [hf])]
    rcases hts t (by simp) with rfl | rfl
    · have hm : microRun s c ⟨[.poll cond n], 0, .plain⟩ = (s, .flies ⟨[.poll cond (n + 1)], 0, .plain⟩) := by
        have h := microStep_poll_unbounded (c := c) (s := s) (hp 0) hb n
        simp only [microRun, h, standOf]; rfl
      have : (s.dress c irq (some ⟨[.poll cond n], 0, .plain⟩) none ts).turnBody (.core c)
          = s.dress c irq (some ⟨[.poll cond (n + 1)], 0, .plain⟩) none ts := by
        simp only [State.turnBody, State.coreTurn, dress_inIrqCtx, hi, dress_flight, dress_advance, hm]
        rfl
      rw [this, dress_edgeDetect, edgeDetect_of_settled s hs, ih s (n + 1) hf hs hi hp hb (fun t h => hts t (by simp [h])),
        List.count_cons_self, show n + 1 + ts.count (.core c) = n + (ts.count (.core c) + 1) by omega]
      simp
    · have : (s.dress c irq (some ⟨[.poll cond n], 0, .plain⟩) none ts).turnBody .pwmClk
          = s.pwmClk.dress c irq (some ⟨[.poll cond n], 0, .plain⟩) none ts := rfl
      rw [this, dress_edgeDetect, ih s.pwmClk.edgeDetect n hf (settled_edgeDetect _) hi
        (fun k => by rw [← clocked_succ]; exact hp (k + 1)) hb (fun t h => hts t (by simp [h])), List.count_cons_self, clocked_succ]
      simp

end

end Sys2Proof.Machine
end

