-- ==== Sys2Proof/Laws/Conversion.lean ====
section
/-! SUPPORT. The run of a conversion (43_adc_sequencer R248 to R252). -/

namespace Sys2Proof.Machine

theorem taken_adcReady (s : State) (n : Nat) : (s.taken n).adcReady = s.adcReady.withTurns (s.turns.drop n) := by
  unfold State.adcReady
  have : (s.taken n).adcInited = s.adcInited := rfl
  rw [this]; split <;> rfl

theorem adcReady_created (s : State) : s.adcReady.adcCreated = s.adcCreated := by unfold State.adcReady; split <;> rfl

/-- Writing the element that is there changes nothing. -/
theorem set_same {α : Type} {n : Nat} (v : Vector α n) (i : Fin n) (a : α) (h : v[i] = a) : v.set i a = v := by
  ext j hj
  by_cases e : i.val = j
  · subst e; simp at h ⊢; exact h.symm
  · simp [e]

theorem csw_kept (cs : Word) (ch : AdcCh) : (((cs &&& ~~~0x7004#32) ||| (BitVec.ofNat 32 ch.val <<< 12)) &&& csStored) ||| (cs &&& csReady)
    = (cs &&& 0x0703) ||| (BitVec.ofNat 32 ch.val <<< 12) := by
  ext j hj
  have : ch.val < 5 := ch.isLt
  fin_cases ch <;> interval_cases j <;> simp [csStored, csReady]

/-- The block with channel `ch` selected. -/
def selBlock (a : AdcBlock) (ch : AdcCh) : AdcBlock := { a with cs := (a.cs &&& 0x0703) ||| (BitVec.ofNat 32 ch.val <<< 12) }

/-- The block with a conversion of channel `ch` running, `n` steps left. -/
def goingBlock (a : AdcBlock) (ch : AdcCh) (n : Nat) : AdcBlock :=
  { a with cs := (a.cs &&& 0x0603) ||| (BitVec.ofNat 32 ch.val <<< 12), convLeft := some n }

/-- The write that selects a channel. -/
theorem writeCs_sel (a : AdcBlock) (p : Params) (ch : AdcCh) (he : a.en = true) :
    a.writeCs p 0xFFFFFFFF ((a.cs &&& ~~~0x7004#32) ||| (BitVec.ofNat 32 ch.val <<< 12)) = selBlock a ch := by
  have he' : a.cs.getLsbD 0 = true := he
  have b0 : ((a.cs &&& ~~~0x7004#32) ||| (BitVec.ofNat 32 ch.val <<< 12)).getLsbD 0 = true := by
    fin_cases ch <;> simpa using he'
  have b2 : ((a.cs &&& ~~~0x7004#32) ||| (BitVec.ofNat 32 ch.val <<< 12)).getLsbD 2 = false := by
    fin_cases ch <;> simp
  unfold AdcBlock.writeCs selBlock
  simp only [b0, b2, he, csw_kept, Bool.not_true, Bool.false_eq_true, if_false, Bool.false_and]

/-- The write that starts a conversion. -/
theorem writeCs_start (a : AdcBlock) (p : Params) (ch : AdcCh) (he : a.en = true) (hr : a.ready = true) :
    (selBlock a ch).writeCs p 4 ((selBlock a ch).cs ||| 4) = goingBlock a ch p.convTicks := by
  have he' : a.cs.getLsbD 0 = true := he
  have hr' : a.cs.getLsbD 8 = true := hr
  have b0 : ((selBlock a ch).cs ||| 4).getLsbD 0 = true := by simp [selBlock, he']
  have b2 : ((selBlock a ch).cs ||| 4).getLsbD 2 = true := by simp [selBlock]
  have e1 : (selBlock a ch).en = true := by simp [selBlock, he', AdcBlock.en]
  have k : (((selBlock a ch).cs ||| 4) &&& csStored) ||| ((selBlock a ch).cs &&& csReady) = (selBlock a ch).cs := by
    show ((((a.cs &&& 0x0703) ||| (BitVec.ofNat 32 ch.val <<< 12)) ||| 4) &&& csStored) ||| (((a.cs &&& 0x0703) ||| (BitVec.ofNat 32 ch.val <<< 12)) &&& csReady) = ((a.cs &&& 0x0703) ||| (BitVec.ofNat 32 ch.val <<< 12))
    ext j hj
    fin_cases ch <;> interval_cases j <;> simp [csStored, csReady]
  have e2 : (selBlock a ch).ready = true := by simp [selBlock, hr', AdcBlock.ready]
  have k2 : (selBlock a ch).cs &&& ~~~csReady = (a.cs &&& 0x0603) ||| (BitVec.ofNat 32 ch.val <<< 12) := by
    show ((a.cs &&& 0x0703) ||| (BitVec.ofNat 32 ch.val <<< 12)) &&& ~~~csReady = _
    ext j hj
    fin_cases ch <;> interval_cases j <;> simp [csReady]
  unfold AdcBlock.writeCs
  simp only [b0, b2, e1, k, Bool.not_true, Bool.false_eq_true, if_false, Bool.true_and]
  have e3 : ({ selBlock a ch with cs := (selBlock a ch).cs } : AdcBlock) = selBlock a ch := rfl
  rw [if_pos (show AdcBlock.ready (selBlock a ch) = true from e2), k2]
  rfl

theorem going_ainsel (a : AdcBlock) (ch : AdcCh) (n : Nat) : (goingBlock a ch n).ainsel = BitVec.ofNat 3 ch.val := by
  show BitVec.extractLsb' 12 3 ((a.cs &&& 0x0603#32) ||| (BitVec.ofNat 32 ch.val <<< 12)) = _
  ext j hj
  fin_cases ch <;> interval_cases j <;> simp

theorem storeReg_adcCs {s : State} (h : s.adc.rst = false) (t w : Word) : s.storeReg .adcCs t w = s.setAdc (s.adc.writeCs s.params t w) := by
  show (if s.adc.rst then s else _) = _
  rw [if_neg (by rw [h]; exact Bool.false_ne_true)]

theorem going_converted (s : State) (ch : AdcCh) (n : Nat) (h : s.adc.convLeft = none) :
    (s.setAdc (goingBlock s.adc ch n)).drawn.setAdc { (s.setAdc (goingBlock s.adc ch n)).adc with
      convLeft := none, cs := (s.setAdc (goingBlock s.adc ch n)).adc.cs ||| csReady,
      result := (s.setAdc (goingBlock s.adc ch n)).sample (BitVec.ofNat 3 ch.val) } = s.converted ch := by
  have e : (s.setAdc (goingBlock s.adc ch n)).adc.cs ||| csReady
      = (s.adc.cs &&& 0x0603#32) ||| csReady ||| (BitVec.ofNat 32 ch.val <<< 12) := by
    show ((s.adc.cs &&& 0x0603#32) ||| (BitVec.ofNat 32 ch.val <<< 12)) ||| csReady = _
    rw [BitVec.or_assoc, BitVec.or_comm (_ <<< _), ← BitVec.or_assoc]
  rw [e]
  unfold State.converted State.drawn State.sample
  rw [setAdc_samples, setAdc_drawNo, setAdc_adc]
  cases hsm : s.samples <;> simp only <;> (rw [← h]; rfl)

theorem converted_ready (s : State) (ch : AdcCh) : (s.converted ch).adc.ready = true := by
  show BitVec.getLsbD ((s.adc.cs &&& 0x0603#32) ||| csReady ||| (BitVec.ofNat 32 ch.val <<< 12)) 8 = true
  fin_cases ch <;> simp [csReady]

/-- A whole conversion, from the test of the channel on. -/
theorem runOp_conv {c : CoreId} {s : State} (hs : s.Settled) (hi : s.adc.Idle) (h1 : 1 ≤ s.params.convTicks) (ch : AdcCh)
    (hc : s.adcCreated[ch] = true) (res : Word) (post : Post) :
    runOp c (.core c :: ([.core c, .core c, .core c] ++ List.replicate s.params.convTicks .adcSeq ++ [.core c, .core c])) s
      ⟨adcGetCode ch, res, post⟩
    = some (s.converted ch, some (finishResp ((s.sample (BitVec.ofNat 3 ch.val)).setWidth 32) post)) := by
  obtain ⟨hrst, hen, hrdy, hx1, hx2, hx3⟩ := hi
  obtain ⟨a, ha⟩ : ∃ a, s.params.convTicks = a + 1 := ⟨_, (Nat.sub_add_cancel h1).symm⟩
  simp only [List.cons_append, List.nil_append, adcGetCode]
  rw [runOp_go (s' := s) (push := []) (by simp only [State.microStep]; rw [if_pos hc]) (by simp), edgeDetect_of_settled s hs, List.nil_append]
  rw [runOp_go (s' := s) (push := [_]) rfl (by simp), edgeDetect_of_settled s hs]
  simp only [List.cons_append, List.nil_append]
  rw [runOp_go (s' := s.setAdc (selBlock s.adc ch)) (push := []) (by
    show (s.storeReg .adcCs 0xFFFFFFFF _, After.go []) = _
    rw [storeReg_adcCs hrst]
    exact congrArg (fun x => (s.setAdc x, After.go [])) (writeCs_sel s.adc s.params ch hen)) (by simp), setAdc_settled hs, List.nil_append]
  rw [runOp_go (s' := s.setAdc (goingBlock s.adc ch s.params.convTicks)) (push := []) (by
    show ((s.setAdc (selBlock s.adc ch)).storeReg .adcCs 4 _, After.go []) = _
    rw [storeReg_adcCs (s := s.setAdc (selBlock s.adc ch)) hrst]
    exact congrArg (fun x => (s.setAdc x, After.go [])) (writeCs_start s.adc s.params ch hen hrdy)) (by simp), setAdc_settled hs, List.nil_append]
  have hseq := runOp_convTicks (c := c) ⟨[.poll .ready 0, .readResult], res, post⟩ [.core c, .core c] a
    (s.setAdc (goingBlock s.adc ch s.params.convTicks)) hs hx1 hx2 (by rw [ha]; rfl)
  have hainsel : (s.setAdc (goingBlock s.adc ch s.params.convTicks)).adc.ainsel = BitVec.ofNat 3 ch.val := going_ainsel ..
  rw [hainsel] at hseq
  rw [ha] at hseq ⊢
  have hconv := going_converted s ch (a + 1) hx3
  rw [hconv] at hseq
  refine hseq.trans ?_
  have hq : (s.converted ch).edgeDetect = s.converted ch := drawn_settled hs _
  have hp : (s.converted ch).microStep c (.poll .ready 0) = (s.converted ch, .go []) := by
    have := converted_ready s ch
    simp only [State.microStep, State.pollOnce, State.pollHolds, this, if_true]
  rw [runOp_go hp (by simp), hq, List.nil_append, runOp_yield rfl, hq]
  rfl

theorem taken_converted (s : State) (n : Nat) (ch : AdcCh) : (s.taken n).converted ch = (s.converted ch).withTurns (s.turns.drop n) := by
  unfold State.converted State.drawn State.sample
  have : (s.taken n).samples = s.samples := rfl
  rw [this]; cases s.samples <;> rfl

end Sys2Proof.Machine
end

