-- ==== Sys2Proof/Laws/Encoding.lean ====
section
/-! SUPPORT. The fields of an encoded header (30_encoding R110). -/

namespace Sys2Proof

open Sys2Proof.Machine

/-- A bit of a header. -/
theorem header_getLsbD (op : Byte) (strict : Bool) (t a : Byte) (j : Nat) :
    (header op strict t a).getLsbD j =
      if j < 8 then op.getLsbD j
      else if j < 9 then (BitVec.ofBool strict).getLsbD (j - 8)
      else if j < 16 then false
      else if j < 24 then t.getLsbD (j - 16)
      else a.getLsbD (j - 24) := by
  show BitVec.getLsbD (w := 8 + 8 + 7 + 1 + 8) (a ++ t ++ 0#7 ++ BitVec.ofBool strict ++ op) j = _
  simp only [BitVec.getLsbD_append]
  by_cases h1 : j < 8
  · simp [h1]
  by_cases h2 : j < 9
  · have : j = 8 := by omega
    subst this; simp
  by_cases h3 : j < 16
  · have e : j - 8 - 1 < 7 := by omega
    have e' : ¬ j - 8 < 1 := by omega
    simp [h1, h2, h3, e, e']
  have e1 : ¬ j - 8 < 1 := by omega
  have e2 : ¬ j - 8 - 1 < 7 := by omega
  by_cases h4 : j < 24
  · have e3 : j - 8 - 1 - 7 < 8 := by omega
    simp only [h1, h2, h3, h4, e1, e2, e3, if_true, if_false]
    congr 1
  · have e3 : ¬ j - 8 - 1 - 7 < 8 := by omega
    simp only [h1, h2, h3, h4, e1, e2, e3, if_false]
    congr 1

theorem header_op (op : Byte) (strict : Bool) (t a : Byte) : (header op strict t a).extractLsb' 0 8 = op := by
  apply BitVec.eq_of_getLsbD_eq
  intro j hj
  rw [BitVec.getLsbD_extractLsb', header_getLsbD]
  simp [hj]

theorem header_strict (op : Byte) (strict : Bool) (t a : Byte) : (header op strict t a)[8] = strict := by
  rw [← BitVec.getLsbD_eq_getElem, header_getLsbD]; simp

theorem header_z (op : Byte) (strict : Bool) (t a : Byte) : (header op strict t a).extractLsb' 9 7 = 0#7 := by
  apply BitVec.eq_of_getLsbD_eq
  intro j hj
  rw [BitVec.getLsbD_extractLsb', header_getLsbD]
  interval_cases j <;> simp

theorem header_t (op : Byte) (strict : Bool) (t a : Byte) : (header op strict t a).extractLsb' 16 8 = t := by
  apply BitVec.eq_of_getLsbD_eq
  intro j hj
  rw [BitVec.getLsbD_extractLsb', header_getLsbD]
  interval_cases j <;> simp

theorem header_a (op : Byte) (strict : Bool) (t a : Byte) : (header op strict t a).extractLsb' 24 8 = a := by
  apply BitVec.eq_of_getLsbD_eq
  intro j hj
  rw [BitVec.getLsbD_extractLsb', header_getLsbD]
  interval_cases j <;> simp

end Sys2Proof
end

