-- ==== Sys2Proof/Laws/Gpio.lean ====
section
/-! SUPPORT. The micro-steps of the GPIO arbiter, and its blocks: the one-time initialisation, the programming of a pin, the
deinitialisation. Each block says how it runs and what it reaches. -/

namespace Sys2Proof.Machine

/-! ### Named updates of a pin -/

def State.withFuncsel (s : State) (p : Pin) (v : BitVec 5) : State := { s with funcsel := s.funcsel.set p v }
def State.withPad (s : State) (p : Pin) (v : Byte) : State := { s with pad := s.pad.set p v }
def State.withOe (s : State) (p : Pin) (v : Bool) : State := { s with sioOe := withPinBit s.sioOe p v }
def State.withOut (s : State) (p : Pin) (v : Bool) : State := { s with sioOut := withPinBit s.sioOut p v }
def State.withInit (s : State) (p : Pin) : State := { s with pinInit := s.pinInit.set p true }

theorem programmed_eq (s : State) (p : Pin) (m : Mode) :
    s.programmed p m = ((s.withFuncsel p (hwFuncsel m)).withPad p (padAs m s.pad[p])).withOe p (hwOe m) := rfl

theorem pinMask_getLsbD (p : Pin) (i : Nat) (hi : i < 30) : (pinMask p).getLsbD i = decide (i = p.val) := by
  simp only [pinMask, BitVec.getLsbD_shiftLeft, BitVec.getLsbD_one]
  rw [Bool.eq_iff_iff]
  simp
  omega

theorem bitAt_getLsbD (n i : Nat) (hn : n < 32) : (bitAt n).getLsbD i = decide (i = n) := by
  simp only [bitAt, BitVec.getLsbD_shiftLeft, BitVec.getLsbD_one]
  rw [Bool.eq_iff_iff]
  simp
  omega

theorem withPinBit_getLsbD (x : BitVec 30) (p : Pin) (v : Bool) (i : Nat) (hi : i < 30) :
    (withPinBit x p v).getLsbD i = if i = p.val then v else x.getLsbD i := by
  cases v
  · simp only [withPinBit, Bool.false_eq_true, if_false, BitVec.getLsbD_and, BitVec.getLsbD_not, hi, decide_true, Bool.true_and,
      pinMask_getLsbD p i hi]
    by_cases h : i = p.val <;> simp only [h, decide_true, decide_false, if_true, if_false, Bool.not_true, Bool.not_false, Bool.and_false,
      Bool.and_true]
  · simp only [withPinBit, if_true, BitVec.getLsbD_or, pinMask_getLsbD p i hi]
    by_cases h : i = p.val <;> simp only [h, decide_true, decide_false, if_true, if_false, Bool.or_true, Bool.or_false]

theorem low_or (x : BitVec 30) (p : Pin) : (x.setWidth 32 ||| bitAt p.val).extractLsb' 0 30 = withPinBit x p true := by
  apply BitVec.eq_of_getLsbD_eq; intro i hi
  rw [withPinBit_getLsbD _ _ _ _ hi]
  simp only [BitVec.getLsbD_extractLsb', BitVec.getLsbD_or, BitVec.getLsbD_setWidth, Nat.zero_add, hi, decide_true, Bool.true_and,
    bitAt_getLsbD p.val i (by omega), show i < 32 by omega]
  by_cases h : i = p.val <;> simp only [h, decide_true, decide_false, if_true, if_false, Bool.or_true, Bool.or_false]

theorem low_and (x : BitVec 30) (p : Pin) : (x.setWidth 32 &&& ~~~bitAt p.val).extractLsb' 0 30 = withPinBit x p false := by
  apply BitVec.eq_of_getLsbD_eq; intro i hi
  rw [withPinBit_getLsbD _ _ _ _ hi]
  simp only [BitVec.getLsbD_extractLsb', BitVec.getLsbD_and, BitVec.getLsbD_not, BitVec.getLsbD_setWidth, Nat.zero_add, hi, decide_true,
    Bool.true_and, bitAt_getLsbD p.val i (by omega), show i < 32 by omega]
  by_cases h : i = p.val <;> simp only [h, decide_true, decide_false, if_true, if_false, Bool.not_true, Bool.not_false, Bool.and_false,
    Bool.and_true]

theorem setBits_oe (s : State) (p : Pin) : s.setBits .sioOe (bitAt p.val) = s.withOe p true := by
  simp only [State.setBits, State.setWord, regIsW1c, Bool.false_eq_true, if_false, State.readReg, State.storeReg, State.withOe, low_or]

theorem clrBits_oe (s : State) (p : Pin) : s.clrBits .sioOe (bitAt p.val) = s.withOe p false := by
  simp only [State.clrBits, State.clrWord, regIsW1c, Bool.false_eq_true, if_false, State.readReg, State.storeReg, State.withOe, low_and]

theorem setBits_out (s : State) (p : Pin) : s.setBits .sioOut (bitAt p.val) = s.withOut p true := by
  simp only [State.setBits, State.setWord, regIsW1c, Bool.false_eq_true, if_false, State.readReg, State.storeReg, State.withOut, low_or]

theorem clrBits_out (s : State) (p : Pin) : s.clrBits .sioOut (bitAt p.val) = s.withOut p false := by
  simp only [State.clrBits, State.clrWord, regIsW1c, Bool.false_eq_true, if_false, State.readReg, State.storeReg, State.withOut, low_and]

theorem write_funcsel (s : State) (p : Pin) (v : BitVec 5) : s.writeReg (.ioCtrl p) (v.setWidth 32) = s.withFuncsel p v := by
  simp only [State.writeReg, State.storeReg, State.withFuncsel]
  congr 2
  apply BitVec.eq_of_getLsbD_eq; intro i hi
  simp [hi]
  omega

theorem padFor_low (m : Mode) (v : Byte) : (padFor m (v.setWidth 32)).extractLsb' 0 8 = padAs m v := by
  revert v; cases m <;> decide +kernel

theorem write_pad (s : State) (p : Pin) (m : Mode) :
    s.writeReg (.pad p) (padFor m (s.readReg (.pad p))) = s.withPad p (padAs m s.pad[p]) := by
  simp only [State.writeReg, State.storeReg, State.readReg, State.withPad, padFor_low]

/-! ### What each update reaches -/

section reach
variable {s w x : State} {p : Pin}

theorem pinIn_local (y : State) (h1 : y.env = x.env) (h2 : ∀ q : Pin, q ≠ p → y.funcsel[q] = x.funcsel[q])
    (h3 : ∀ q : Pin, q ≠ p → y.pad[q] = x.pad[q]) (h4 : ∀ q : Pin, q ≠ p → y.sioOe.getLsbD q.val = x.sioOe.getLsbD q.val)
    (h5 : ∀ q : Pin, q ≠ p → y.sioOut.getLsbD q.val = x.sioOut.getLsbD q.val) (h6 : y.slices = x.slices) :
    ∀ q : Pin, (q == p) = false → y.pinIn q = x.pinIn q := by
  intro q hq
  have hne : q ≠ p := by simpa using hq
  exact pinIn_congr x y q h1 (h2 q hne) (h3 q hne) (h4 q hne) (h5 q hne) (by rw [h6])

theorem set_other {α : Type} {n : Nat} (v : Vector α n) (p q : Fin n) (a : α) (h : q ≠ p) : (v.set p a)[q] = v[q] := by
  have : p.val ≠ q.val := fun e => h (Fin.ext e.symm)
  simp [this]

theorem withPinBit_other (v : BitVec 30) (p q : Pin) (b : Bool) (h : q ≠ p) : (withPinBit v p b).getLsbD q.val = v.getLsbD q.val := by
  rw [withPinBit_getLsbD _ _ _ _ q.isLt, if_neg (fun e => h (Fin.ext e))]

theorem reaches_funcsel (v : BitVec 5) (h : Reaches (· == p) s w x) : Reaches (· == p) s (w.withFuncsel p v) (x.withFuncsel p v).edgeDetect :=
  reaches_step h (congrArg (fun y => y.withFuncsel p v) h.1 : _) rfl rfl
    (pinIn_local _ rfl (fun _ hq => set_other _ _ _ _ hq) (fun _ _ => rfl) (fun _ _ => rfl) (fun _ _ => rfl) rfl)

theorem reaches_pad (v : Byte) (h : Reaches (· == p) s w x) : Reaches (· == p) s (w.withPad p v) (x.withPad p v).edgeDetect :=
  reaches_step h (congrArg (fun y => y.withPad p v) h.1 : _) rfl rfl
    (pinIn_local _ rfl (fun _ _ => rfl) (fun _ hq => set_other _ _ _ _ hq) (fun _ _ => rfl) (fun _ _ => rfl) rfl)

theorem reaches_oe (v : Bool) (h : Reaches (· == p) s w x) : Reaches (· == p) s (w.withOe p v) (x.withOe p v).edgeDetect :=
  reaches_step h (congrArg (fun y => y.withOe p v) h.1 : _) rfl rfl
    (pinIn_local _ rfl (fun _ _ => rfl) (fun _ _ => rfl) (fun _ hq => withPinBit_other _ _ _ _ hq) (fun _ _ => rfl) rfl)

theorem reaches_out (v : Bool) (h : Reaches (· == p) s w x) : Reaches (· == p) s (w.withOut p v) (x.withOut p v).edgeDetect :=
  reaches_step h (congrArg (fun y => y.withOut p v) h.1 : _) rfl rfl
    (pinIn_local _ rfl (fun _ _ => rfl) (fun _ _ => rfl) (fun _ _ => rfl) (fun _ hq => withPinBit_other _ _ _ _ hq) rfl)

theorem reaches_init (h : Reaches (· == p) s w x) : Reaches (· == p) s (w.withInit p) (x.withInit p).edgeDetect :=
  reaches_step h (congrArg (fun y => y.withInit p) h.1 : _) rfl rfl (fun _ _ => rfl)

theorem reaches_recorded (m : Mode) (h : Reaches (· == p) s w x) : Reaches (· == p) s (w.recorded p m) (x.recorded p m).edgeDetect :=
  reaches_step h (congrArg (fun y => y.recorded p m) h.1 : _) rfl rfl (fun _ _ => rfl)

theorem reaches_pinInit (h : Reaches (· == p) s w x) : x.pinInit = w.pinInit := by
  change x.quiet.pinInit = w.quiet.pinInit; rw [h.1]
theorem reaches_pinFn (h : Reaches (· == p) s w x) : x.pinFn = w.pinFn := by
  change x.quiet.pinFn = w.quiet.pinFn; rw [h.1]
theorem reaches_pads (h : Reaches (· == p) s w x) : x.pad = w.pad := by
  change x.quiet.pad = w.quiet.pad; rw [h.1]
theorem reaches_params (h : Reaches (· == p) s w x) : x.params = w.params := by
  change x.quiet.params = w.quiet.params; rw [h.1]
theorem reaches_sioOe (h : Reaches (· == p) s w x) : x.sioOe = w.sioOe := by
  change x.quiet.sioOe = w.quiet.sioOe; rw [h.1]

end reach

/-! ### Blocks -/

section blocks
variable {s w x u : State} {p : Pin} {c : CoreId} {n : Nat} {rest : List Micro} {res : Word} {post : Post} {r : Option Resp}

/-- The one-time initialisation, up to its last micro-step. -/
def lowLevelState (x : State) (p : Pin) : State := (((x.withOe p false).edgeDetect.withOut p false).edgeDetect.withInit p).edgeDetect

theorem reaches_lowLevel (h : Reaches (· == p) s w x) :
    Reaches (· == p) s (((w.withOe p false).withOut p false).withInit p) (lowLevelState x p) :=
  reaches_init (reaches_out false (reaches_oe false h))

theorem runs_lowLevel (hne : rest ≠ []) (k : Runs c n (lowLevelState x p) rest res post u r) :
    Runs c (n + 3) x (lowLevelInit p ++ rest) res post u r := by
  refine runs_go (s' := x.withOe p false) (push := []) (by simp [State.microStep, clrBits_oe]) (by simp) ?_
  refine runs_go (s' := (x.withOe p false).edgeDetect.withOut p false) (push := []) (by simp [State.microStep, clrBits_out]) (by simp) ?_
  exact runs_go (push := []) rfl hne k

theorem runs_lowLevel_last : Runs c 3 x (lowLevelInit p) res post (lowLevelState x p) (some (finishResp res post)) := by
  refine runs_go (s' := x.withOe p false) (push := []) (by simp [State.microStep, clrBits_oe]) (by simp) ?_
  refine runs_go (s' := (x.withOe p false).edgeDetect.withOut p false) (push := []) (by simp [State.microStep, clrBits_out]) (by simp) ?_
  exact runs_last rfl

/-- A pin's programming. -/
def programState (x : State) (p : Pin) (m : Mode) : State :=
  (((x.withFuncsel p (hwFuncsel m)).edgeDetect.withPad p (padAs m x.pad[p])).edgeDetect.withOe p (hwOe m)).edgeDetect

theorem reaches_program (m : Mode) (h : Reaches (· == p) s w x) : Reaches (· == p) s (w.programmed p m) (programState x p m) := by
  rw [programmed_eq, programState, reaches_pads h]
  exact reaches_oe _ (reaches_pad _ (reaches_funcsel _ h))

theorem edgeDetect_idem (x : State) : x.edgeDetect.edgeDetect = x.edgeDetect := edgeDetect_of_settled _ (settled_edgeDetect x)

theorem microStep_oe (y : State) (m : Mode) :
    y.microStep c (if hwOe m then .setBits .sioOe (bitAt p) else .clrBits .sioOe (bitAt p)) = (y.withOe p (hwOe m), .go []) := by
  cases h : hwOe m <;> simp [State.microStep, setBits_oe, clrBits_oe]

theorem runs_program {m : Mode} (hne : rest ≠ []) (k : Runs c n (programState x p m) rest res post u r) :
    Runs c (n + 4) x (programPin p m ++ rest) res post u r := by
  refine runs_go (s' := x.withFuncsel p (hwFuncsel m)) (push := []) (by simp only [State.microStep, write_funcsel]) (by simp) ?_
  refine runs_go (push := [.write (.pad p) (padFor m ((x.withFuncsel p (hwFuncsel m)).edgeDetect.readReg (.pad p)))]) rfl (by simp) ?_
  rw [edgeDetect_idem]
  refine runs_go (s' := (x.withFuncsel p (hwFuncsel m)).edgeDetect.withPad p (padAs m x.pad[p])) (push := [])
    (by simp only [State.microStep, write_pad]; rfl) (by simp) ?_
  exact runs_go (push := []) (microStep_oe _ m) hne k

/-- A pin's deinitialisation. -/
def deinitState (x : State) (p : Pin) : State := ((programState x p .off).recorded p .off).edgeDetect

theorem reaches_deinit (h : Reaches (· == p) s w x) :
    Reaches (· == p) s ((w.programmed p .off).recorded p .off) (deinitState x p) := reaches_recorded .off (reaches_program .off h)

theorem deinitBody_eq : deinitBody p = programPin p .off ++ [.writeFn p .off] := rfl

theorem runs_deinit (hne : rest ≠ []) (k : Runs c n (deinitState x p) rest res post u r) :
    Runs c (n + 5) x (deinitBody p ++ rest) res post u r := by
  rw [deinitBody_eq, List.append_assoc]
  exact runs_program (by simp) (runs_go (push := []) rfl hne k)

theorem runs_deinit_last : Runs c 5 x (deinitBody p) res post (deinitState x p) (some (finishResp res post)) := by
  rw [deinitBody_eq]
  exact runs_program (by simp) (runs_last rfl)

end blocks

end Sys2Proof.Machine
end

