-- ==== Sys2Proof/Laws/PerInstr.lean ====
section
/-! SUPPORT. Per instruction: the header the encoder writes has no reserved bit set, and the `S` bit only where the operation has
a strict variant (30_encoding R112, R114). -/

namespace Sys2Proof.Laws

/-- The header of the encoded instruction is legal: `Z` is 0, and `S` is 1 only on an operation with a strict variant. -/
def HeaderFixed.Statement (i : Instr) : Prop :=
  (encode i).z = 0#7 ∧ ((encode i).strict = true → i.hasStrict = true)

/-- A header with `S` = 0. -/
theorem header_plain (op t a : Byte) (x0 x1 x2 : Word) :
    (Command.mk (header op false t a) x0 x1 x2).z = 0#7 ∧ (Command.mk (header op false t a) x0 x1 x2).strict = false :=
  ⟨header_z op false t a, header_strict op false t a⟩

theorem HeaderFixed.nop : HeaderFixed.Statement .nop :=
  ⟨(header_plain _ _ _ _ _ _).1, fun h => absurd ((header_plain _ _ _ _ _ _).2.symm.trans h) (by simp)⟩
theorem HeaderFixed.regGet (a : Word) : HeaderFixed.Statement (.regGet a) :=
  ⟨(header_plain _ _ _ _ _ _).1, fun h => absurd ((header_plain _ _ _ _ _ _).2.symm.trans h) (by simp)⟩
theorem HeaderFixed.regSet (a m : Word) : HeaderFixed.Statement (.regSet a m) :=
  ⟨(header_plain _ _ _ _ _ _).1, fun h => absurd ((header_plain _ _ _ _ _ _).2.symm.trans h) (by simp)⟩
theorem HeaderFixed.regClr (a m : Word) : HeaderFixed.Statement (.regClr a m) :=
  ⟨(header_plain _ _ _ _ _ _).1, fun h => absurd ((header_plain _ _ _ _ _ _).2.symm.trans h) (by simp)⟩
theorem HeaderFixed.regReplace (a m v : Word) : HeaderFixed.Statement (.regReplace a m v) :=
  ⟨(header_plain _ _ _ _ _ _).1, fun h => absurd ((header_plain _ _ _ _ _ _).2.symm.trans h) (by simp)⟩
theorem HeaderFixed.init (p : Byte) : HeaderFixed.Statement (.init p) :=
  ⟨(header_plain _ _ _ _ _ _).1, fun h => absurd ((header_plain _ _ _ _ _ _).2.symm.trans h) (by simp)⟩
theorem HeaderFixed.setMode (p m : Byte) : HeaderFixed.Statement (.setMode p m) :=
  ⟨(header_plain _ _ _ _ _ _).1, fun h => absurd ((header_plain _ _ _ _ _ _).2.symm.trans h) (by simp)⟩
theorem HeaderFixed.deinit (t : Bool) (p : Byte) : HeaderFixed.Statement (.deinit t p) :=
  ⟨header_z _ _ _ _, fun _ => rfl⟩
theorem HeaderFixed.mode (t : Bool) (p : Byte) : HeaderFixed.Statement (.mode t p) :=
  ⟨header_z _ _ _ _, fun _ => rfl⟩
theorem HeaderFixed.get (t : Bool) (p : Byte) : HeaderFixed.Statement (.get t p) :=
  ⟨header_z _ _ _ _, fun _ => rfl⟩
theorem HeaderFixed.set (t : Bool) (p v : Byte) : HeaderFixed.Statement (.set t p v) :=
  ⟨header_z _ _ _ _, fun _ => rfl⟩
theorem HeaderFixed.pwm (p : Byte) : HeaderFixed.Statement (.pwm p) :=
  ⟨(header_plain _ _ _ _ _ _).1, fun h => absurd ((header_plain _ _ _ _ _ _).2.symm.trans h) (by simp)⟩
theorem HeaderFixed.adc (p : Byte) : HeaderFixed.Statement (.adc p) :=
  ⟨(header_plain _ _ _ _ _ _).1, fun h => absurd ((header_plain _ _ _ _ _ _).2.symm.trans h) (by simp)⟩
theorem HeaderFixed.pwmGet (i b : Byte) : HeaderFixed.Statement (.pwmGet i b) :=
  ⟨(header_plain _ _ _ _ _ _).1, fun h => absurd ((header_plain _ _ _ _ _ _).2.symm.trans h) (by simp)⟩
theorem HeaderFixed.pwmSet (i b : Byte) (l : Word) : HeaderFixed.Statement (.pwmSet i b l) :=
  ⟨(header_plain _ _ _ _ _ _).1, fun h => absurd ((header_plain _ _ _ _ _ _).2.symm.trans h) (by simp)⟩
theorem HeaderFixed.counter (i : Byte) : HeaderFixed.Statement (.counter i) :=
  ⟨(header_plain _ _ _ _ _ _).1, fun h => absurd ((header_plain _ _ _ _ _ _).2.symm.trans h) (by simp)⟩
theorem HeaderFixed.setCounter (i : Byte) (v : Word) : HeaderFixed.Statement (.setCounter i v) :=
  ⟨(header_plain _ _ _ _ _ _).1, fun h => absurd ((header_plain _ _ _ _ _ _).2.symm.trans h) (by simp)⟩
theorem HeaderFixed.inc (i : Byte) : HeaderFixed.Statement (.inc i) :=
  ⟨(header_plain _ _ _ _ _ _).1, fun h => absurd ((header_plain _ _ _ _ _ _).2.symm.trans h) (by simp)⟩
theorem HeaderFixed.dec (i : Byte) : HeaderFixed.Statement (.dec i) :=
  ⟨(header_plain _ _ _ _ _ _).1, fun h => absurd ((header_plain _ _ _ _ _ _).2.symm.trans h) (by simp)⟩
theorem HeaderFixed.setWrap (i : Byte) (w : Word) : HeaderFixed.Statement (.setWrap i w) :=
  ⟨(header_plain _ _ _ _ _ _).1, fun h => absurd ((header_plain _ _ _ _ _ _).2.symm.trans h) (by simp)⟩
theorem HeaderFixed.wrap (i : Byte) : HeaderFixed.Statement (.wrap i) :=
  ⟨(header_plain _ _ _ _ _ _).1, fun h => absurd ((header_plain _ _ _ _ _ _).2.symm.trans h) (by simp)⟩
theorem HeaderFixed.setEnabled (i e : Byte) : HeaderFixed.Statement (.setEnabled i e) :=
  ⟨(header_plain _ _ _ _ _ _).1, fun h => absurd ((header_plain _ _ _ _ _ _).2.symm.trans h) (by simp)⟩
theorem HeaderFixed.pwmSetInterrupt (i : Byte) (h : Word) : HeaderFixed.Statement (.pwmSetInterrupt i h) :=
  ⟨(header_plain _ _ _ _ _ _).1, fun h => absurd ((header_plain _ _ _ _ _ _).2.symm.trans h) (by simp)⟩
theorem HeaderFixed.setPeriod (i : Byte) (P : Word) : HeaderFixed.Statement (.setPeriod i P) :=
  ⟨(header_plain _ _ _ _ _ _).1, fun h => absurd ((header_plain _ _ _ _ _ _).2.symm.trans h) (by simp)⟩
theorem HeaderFixed.adcInit : HeaderFixed.Statement .adcInit :=
  ⟨(header_plain _ _ _ _ _ _).1, fun h => absurd ((header_plain _ _ _ _ _ _).2.symm.trans h) (by simp)⟩
theorem HeaderFixed.adcTemp : HeaderFixed.Statement .adcTemp :=
  ⟨(header_plain _ _ _ _ _ _).1, fun h => absurd ((header_plain _ _ _ _ _ _).2.symm.trans h) (by simp)⟩
theorem HeaderFixed.adcGet (k : Byte) : HeaderFixed.Statement (.adcGet k) :=
  ⟨(header_plain _ _ _ _ _ _).1, fun h => absurd ((header_plain _ _ _ _ _ _).2.symm.trans h) (by simp)⟩
theorem HeaderFixed.getVoltage (k : Byte) (v : Word) : HeaderFixed.Statement (.getVoltage k v) :=
  ⟨(header_plain _ _ _ _ _ _).1, fun h => absurd ((header_plain _ _ _ _ _ _).2.symm.trans h) (by simp)⟩
theorem HeaderFixed.getTemperature (k : Byte) : HeaderFixed.Statement (.getTemperature k) :=
  ⟨(header_plain _ _ _ _ _ _).1, fun h => absurd ((header_plain _ _ _ _ _ _).2.symm.trans h) (by simp)⟩
theorem HeaderFixed.setInterrupt (p : Byte) (h : Word) : HeaderFixed.Statement (.setInterrupt p h) :=
  ⟨(header_plain _ _ _ _ _ _).1, fun h => absurd ((header_plain _ _ _ _ _ _).2.symm.trans h) (by simp)⟩
theorem HeaderFixed.cbReturn : HeaderFixed.Statement .cbReturn :=
  ⟨(header_plain _ _ _ _ _ _).1, fun h => absurd ((header_plain _ _ _ _ _ _).2.symm.trans h) (by simp)⟩
theorem HeaderFixed.cbFault : HeaderFixed.Statement .cbFault :=
  ⟨(header_plain _ _ _ _ _ _).1, fun h => absurd ((header_plain _ _ _ _ _ _).2.symm.trans h) (by simp)⟩

end Sys2Proof.Laws
end

