-- ==== Sys2Proof/Laws/Step.lean ====
section
/-! SUPPORT. What a step can do, once for all invariants: it is made of acceptances, turns and edge detections, and an
acceptance or a core's turn is made of micro-steps and bookkeeping. -/

namespace Sys2Proof.Machine

/-- `exec` issues the operation of its instruction (30_encoding R120). -/
theorem exec_issue (i : Instr) (s : State) : exec i s = s.issue (opFor i s s.sel) := by cases i <;> rfl

theorem drive_keeps (I : State → Prop) (hturns : ∀ s ts, I s → I { s with turns := ts })
    (hbody : ∀ s t, s.fatal = false → I s → I (s.turnBody t)) (hedge : ∀ s, I s → I s.edgeDetect) (c : CoreId) (irq : Bool) :
    ∀ (ts : List Turn) (s : State), I s → I (s.drive c irq ts) := by
  intro ts
  induction ts with
  | nil => intro s h; exact h
  | cons t ts ih =>
    intro s h
    rw [State.drive]
    by_cases hx : (s.fatal || (s.flight c irq).isNone) = true
    · rw [if_pos hx]; exact h
    · rw [if_neg hx]
      have hf : s.fatal = false := by
        cases e : s.fatal
        · rfl
        · rw [e] at hx; exact absurd rfl hx
      refine ih _ ?_
      unfold State.atomic
      rw [if_neg (by show ¬ s.fatal = true; rw [hf]; exact Bool.false_ne_true)]
      exact hedge _ (hbody _ t hf (hturns s ts h))

theorem issue_keeps (I : State → Prop) (hturns : ∀ s ts, I s → I { s with turns := ts })
    (hstart : ∀ s c i, s.fatal = false → s.flight c (s.inIrqCtx c) = none → I s → I (s.start c (s.inIrqCtx c) (opFor i s c)))
    (hbody : ∀ s t, s.fatal = false → I s → I (s.turnBody t)) (hedge : ∀ s, I s → I s.edgeDetect) (i : Instr) (s t : State) (h : I s)
    (he : exec i s = .next t) : I t := by
  rw [exec_issue] at he
  unfold State.issue at he
  by_cases hf : s.fatal = true
  · rw [if_pos hf] at he; cases he
  · rw [if_neg hf] at he
    cases hfl : s.flight s.sel (s.inIrqCtx s.sel) with
    | some f => rw [hfl, if_pos (show (some f).isSome = true from rfl)] at he; cases he
    | none =>
      rw [hfl, if_neg (by simp)] at he
      injection he with he
      rw [← he]
      exact drive_keeps I hturns hbody hedge _ _ _ _ (hedge _ (hstart s s.sel i (by simpa using hf) hfl h))

/-- An invariant that the parts of a step keep, every step keeps. -/
theorem step_keeps (I : State → Prop) (hturns : ∀ s ts, I s → I { s with turns := ts }) (hno : ∀ s n, I s → I { s with turnNo := n })
    (hsel : ∀ s c, I s → I { s with sel := c })
    (hpresent : ∀ s c cmd s', s.presented c = some (cmd, s') → I s → I s')
    (hstart : ∀ s c i, s.fatal = false → s.flight c (s.inIrqCtx c) = none → I s → I (s.start c (s.inIrqCtx c) (opFor i s c)))
    (hbody : ∀ s t, s.fatal = false → I s → I (s.turnBody t)) (hedge : ∀ s, I s → I s.edgeDetect)
    (s t : State) (h : I s) (he : step s = .next t) : I t := by
  unfold step at he
  by_cases hf : s.fatal = true
  · rw [if_pos hf] at he; cases he
  · rw [if_neg hf] at he
    have hn : I s.nextTurn.2 := by
      unfold State.nextTurn
      cases s.turns with
      | nil => exact hno { s with turns := [] } (s.turnNo + 1) (hturns s [] h)
      | cons t ts => exact hturns s ts h
    have hnf : s.nextTurn.2.fatal = false := by
      have : s.nextTurn.2.fatal = s.fatal := by unfold State.nextTurn; cases s.turns <;> rfl
      rw [this]; simpa using hf
    generalize s.nextTurn = x at he hn hnf
    obtain ⟨t0, s0⟩ := x
    simp only at he hn hnf
    cases ha : s0.accepts t0 with
    | none =>
      rw [ha] at he
      injection he with he
      rw [← he]
      unfold State.atomic
      rw [if_neg (by rw [hnf]; exact Bool.false_ne_true)]
      exact hedge _ (hbody _ _ hnf hn)
    | some y =>
      obtain ⟨i, s1⟩ := y
      rw [ha] at he
      refine issue_keeps I hturns hstart hbody hedge i s1 t ?_ he
      unfold State.accepts at ha
      cases t0 with
      | core c =>
        simp only at ha
        cases hp : s0.presented c with
        | none => rw [hp] at ha; cases ha
        | some z =>
          obtain ⟨cmd, s2⟩ := z
          rw [hp] at ha
          simp only at ha
          cases hd : decode cmd with
          | error e => rw [hd] at ha; cases ha
          | ok j =>
            rw [hd] at ha
            injection ha with ha
            injection ha with h1 h2
            rw [← h2]
            exact hsel _ _ (hpresent _ _ _ _ hp hn)
      | _ => cases ha

/-- What an operation in flight does in one micro-step, for an invariant that does not look at operations in flight. -/
theorem advance_keeps (I : State → Prop) (hflight : ∀ s c irq f, I s → I (s.setFlight c irq f))
    (hresp : ∀ s c irq r, I s → I (s.setResp c irq r)) (hmicro : ∀ s c m, I s → I (s.microStep c m).1)
    (s : State) (c : CoreId) (irq : Bool) (f : Flight) (h : I s) : I (s.advance c irq f) := by
  have hrespond : ∀ s st w, I s → I (s.respond c irq st w) := fun s st w h => hresp _ _ _ _ (hflight _ _ _ _ h)
  have hfinish : ∀ s w p, I s → I (s.finish c irq w p) := by
    intro s w p h
    cases p <;> exact hrespond _ _ _ h
  have hsettle : ∀ s f, I s → I (s.settle c irq f) := by
    intro s f h
    unfold State.settle
    split
    · exact hfinish _ _ _ h
    · exact hflight _ _ _ _ h
  unfold State.advance
  split
  · exact hfinish _ _ _ h
  · rename_i m rest _
    have hm := hmicro s c m h
    generalize s.microStep c m = x at hm
    obtain ⟨s', a⟩ := x
    cases a with
    | go push => exact hsettle _ _ hm
    | yield v => exact hsettle _ _ hm
    | raise e => exact hrespond _ _ _ hm
    | halt => exact hflight _ _ _ _ hm

/-- Every step keeps an invariant that does not look at the operations in flight, the responses, the command queues, the turns
or the selected core, if every micro-step, every micro-step of a dispatch and every step of the other agents keeps it. -/
theorem step_keeps_hardware (I : State → Prop) (hturns : ∀ s ts, I s → I { s with turns := ts })
    (hno : ∀ s n, I s → I { s with turnNo := n }) (hsel : ∀ s c, I s → I { s with sel := c })
    (hpresent : ∀ s c cmd s', s.presented c = some (cmd, s') → I s → I s')
    (hflight : ∀ s c irq f, I s → I (s.setFlight c irq f)) (hresp : ∀ s c irq r, I s → I (s.setResp c irq r))
    (hmicro : ∀ s c m, I s → I (s.microStep c m).1)
    (hdisp : ∀ s c d rest, s.inIrqCtx c = true → s.cores[c].cbDepth = 0 → I s → I (s.dispatchStep c rest d))
    (hother : ∀ s t, (∀ c, t ≠ .core c) → s.fatal = false → I s → I (s.turnBody t)) (hedge : ∀ s, I s → I s.edgeDetect)
    (s t : State) (h : I s) (he : step s = .next t) : I t := by
  have hrespond : ∀ s c irq st w, I s → I (s.respond c irq st w) := fun s c irq st w h => hresp _ _ _ _ (hflight _ _ _ _ h)
  have hadv := advance_keeps I hflight hresp hmicro
  have hstart : ∀ s c irq op, I s → I (s.start c irq op) := by
    intro s c irq op h
    unfold State.start
    split
    · exact hrespond _ _ _ _ _ h
    · split
      · exact hrespond _ _ _ _ _ h
      · exact hadv _ _ _ _ (hresp _ _ _ _ h)
  refine step_keeps I hturns hno hsel hpresent (fun s c i _ _ h => hstart _ _ _ _ h) ?_ hedge s t h he
  intro s t hf h
  cases t with
  | core c =>
    show I (s.coreTurn c)
    unfold State.coreTurn
    split
    · exact hadv _ _ _ _ h
    · split
      · rename_i hq
        rw [Bool.and_eq_true, decide_eq_true_eq] at hq
        split
        · exact h
        · exact hdisp _ _ _ _ hq.1 hq.2 h
      · split
        · exact h
        · rename_i cmd s' hp
          have := hpresent _ _ _ _ hp h
          split
          · exact hrespond _ _ _ _ _ this
          · exact hstart _ _ _ _ this
  | _ => exact hother _ _ (by intro c e; cases e) hf h

end Sys2Proof.Machine
end

