-- ==== Sys2Proof/Laws/Switch.lean ====
section
/-! SUPPORT. Runs of `SetMode` and of the one-time initialisation of a pin (41_gpio_arbiter R142, R143, R150 to R154). -/

namespace Sys2Proof.Machine

/-- The one-time initialisation reaches its state. -/
theorem init_reaches {s : State} (hs : s.Settled) (p : Pin) :
    Reaches (· == p) s (s.initialised p) (if s.pinInit[p] then s else lowLevelState s p) := by
  unfold State.initialised
  by_cases h : s.pinInit[p]
  · rw [if_pos h, if_pos h]; exact reaches_refl _ hs
  · rw [if_neg h, if_neg h]; exact reaches_lowLevel (reaches_refl _ hs)

theorem taken_initialised (s : State) (n : Nat) (p : Pin) : (s.taken n).initialised p = (s.initialised p).withTurns (s.turns.drop n) := by
  unfold State.initialised
  by_cases h : s.pinInit[p]
  · rw [if_pos h, if_pos (show (s.taken n).pinInit[p] = true from h)]; rfl
  · rw [if_neg h, if_neg (show ¬ (s.taken n).pinInit[p] = true from h)]; rfl

/-- The test of the initialisation, and the initialisation where it has not been made, then the rest. -/
theorem runs_testInit {s u : State} (hs : s.Settled) {p : Pin} {c : CoreId} {n : Nat} {rest : List Micro} {res : Word} {post : Post}
    {r : Option Resp} (hne : rest ≠ []) (k : Runs c n (if s.pinInit[p] then s else lowLevelState s p) rest res post u r) :
    Runs c (s.initSteps p + n + 1) s (.testInit p :: rest) res post u r := by
  unfold State.initSteps
  by_cases h : s.pinInit[p]
  · rw [if_pos h] at k
    refine runs_go (s' := s) (push := []) (by simp only [State.microStep, h, if_true]) hne ?_
    rw [edgeDetect_of_settled s hs, if_pos h, Nat.zero_add]; exact k
  · rw [if_neg h] at k
    refine runs_go (s' := s) (push := lowLevelInit p) (by simp only [State.microStep]; rw [if_neg h]) (by simp [hne]) ?_
    rw [edgeDetect_of_settled s hs, if_neg h, Nat.add_comm 3]; exact runs_lowLevel hne k

/-- The state after the micro-steps of `SetMode` from the read of the entry on. -/
def switchState (x : State) (p : Pin) (m : Mode) : State :=
  if m = .off then deinitState x p
  else ((programState (if x.pinFn[p] ≠ .off ∧ x.pinFn[p] ≠ m then deinitState x p else x) p m).recorded p m).edgeDetect

theorem padAs_padAs (m k : Mode) (v : Byte) : padAs m (padAs k v) = padAs m v := by
  revert v; cases m <;> cases k <;> decide +kernel

theorem withPinBit_twice (x : BitVec 30) (p : Pin) (a b : Bool) : withPinBit (withPinBit x p a) p b = withPinBit x p b := by
  apply BitVec.eq_of_getLsbD_eq; intro i hi
  simp only [withPinBit_getLsbD _ _ _ _ hi]
  split <;> rfl

/-- Programming after a deinitialisation leaves what programming alone leaves. -/
theorem reprogram (w : State) (p : Pin) (m k : Mode) :
    ((((w.programmed p k).recorded p k).programmed p m).recorded p m) = (w.programmed p m).recorded p m := by
  simp [State.programmed, State.recorded, padAs_padAs, withPinBit_twice]

theorem reaches_switch {s w x : State} {p : Pin} (m : Mode) (h : Reaches (· == p) s w x) :
    Reaches (· == p) s ((w.programmed p m).recorded p m) (switchState x p m) := by
  unfold switchState
  by_cases hm : m = .off
  · subst hm; rw [if_pos rfl]; exact reaches_deinit h
  · rw [if_neg hm]
    by_cases hf : x.pinFn[p] ≠ .off ∧ x.pinFn[p] ≠ m
    · rw [if_pos hf, ← reprogram w p m .off]
      exact reaches_recorded _ (reaches_program _ (reaches_deinit h))
    · rw [if_neg hf]
      exact reaches_recorded _ (reaches_program _ h)

theorem programState_sioOe (x : State) (p : Pin) (m : Mode) : (programState x p m).sioOe.getLsbD p.val = hwOe m := by
  have : (programState x p m).sioOe = withPinBit x.sioOe p (hwOe m) := rfl
  rw [this, withPinBit_getLsbD _ _ _ _ p.isLt, if_pos rfl]

/-- Programming, readback and record, then the rest. -/
theorem runs_programAndRecord {x u : State} {p : Pin} {m : Mode} {c : CoreId} {n : Nat} {rest : List Micro} {res : Word} {post : Post}
    {r : Option Resp} (hne : rest ≠ []) (hpf : m = .output → x.params.padFault.getLsbD p.val = false)
    (k : Runs c n ((programState x p m).recorded p m).edgeDetect rest res post u r) :
    Runs c (n + if m = .output then 6 else 5) x (programAndRecord p m ++ rest) res post u r := by
  unfold programAndRecord
  by_cases hm : m = .output
  · rw [if_pos hm, if_pos hm, List.append_assoc, List.append_assoc]
    refine runs_program (by simp) ?_
    subst hm
    have hr : (programState x p .output).sioOe.getLsbD p.val = true := programState_sioOe x p .output
    have hq : (programState x p .output).params.padFault.getLsbD p.val = false := hpf rfl
    refine runs_go (s' := programState x p .output) (push := []) (by simp only [State.microStep, hr, hq]; rfl) (by simp) ?_
    rw [show (programState x p .output).edgeDetect = programState x p .output from edgeDetect_idem _]
    exact runs_go (push := []) rfl hne k
  · rw [if_neg hm, if_neg hm, List.append_assoc, List.append_assoc]
    exact runs_program (by simp) (runs_go (push := []) rfl hne k)

theorem runs_programAndRecord_last {x : State} {p : Pin} {m : Mode} {c : CoreId} {res : Word} {post : Post}
    (hpf : m = .output → x.params.padFault.getLsbD p.val = false) :
    Runs c (if m = .output then 6 else 5) x (programAndRecord p m) res post ((programState x p m).recorded p m).edgeDetect
      (some (finishResp res post)) := by
  unfold programAndRecord
  by_cases hm : m = .output
  · rw [if_pos hm, if_pos hm, List.append_assoc]
    refine runs_program (n := 2) (by simp) ?_
    subst hm
    have hr : (programState x p .output).sioOe.getLsbD p.val = true := programState_sioOe x p .output
    have hq : (programState x p .output).params.padFault.getLsbD p.val = false := hpf rfl
    refine runs_go (s' := programState x p .output) (push := []) (by simp only [State.microStep, hr, hq]; rfl) (by simp) ?_
    rw [show (programState x p .output).edgeDetect = programState x p .output from edgeDetect_idem _]
    exact runs_last rfl
  · rw [if_neg hm, if_neg hm, List.append_nil]
    exact runs_program (n := 1) (by simp) (runs_last rfl)

/-- The read of the entry, where the function is not refused. -/
theorem readFn_go {x : State} {p : Pin} {m : Mode} {c : CoreId} (hsw : ¬ x.SwitchRefused p m) :
    x.microStep c (.readFn p m) = (x, .go (if m = .off then deinitBody p
      else if x.pinFn[p] ≠ .off ∧ x.pinFn[p] ≠ m then deinitBody p ++ programAndRecord p m else programAndRecord p m)) := by
  simp only [State.microStep]
  by_cases hm : m = .off
  · simp only [hm, if_true]
  · by_cases hf : x.pinFn[p] ≠ .off ∧ x.pinFn[p] ≠ m
    · rw [if_neg hm, if_pos hf, if_neg hm, if_pos hf]
      cases hpol : x.params.switchPolicy with
      | reject => exact absurd ⟨hm, hf.1, hf.2, hpol⟩ hsw
      | implicitDeinit => rfl
    · rw [if_neg hm, if_neg hf, if_neg hm, if_neg hf]

/-- The read of the entry, where the function is refused. -/
theorem readFn_refused {x : State} {p : Pin} {m : Mode} {c : CoreId} (hsw : x.SwitchRefused p m) :
    x.microStep c (.readFn p m) = (x, .raise .duplicateValue) := by
  simp only [State.microStep]
  rw [if_neg hsw.1, if_pos ⟨hsw.2.1, hsw.2.2.1⟩, hsw.2.2.2]

/-- `SetMode` from the read of the entry on. -/
theorem runs_switch_last {x : State} (hx : x.Settled) {p : Pin} {m : Mode} {c : CoreId} {res : Word} {post : Post}
    (hsw : ¬ x.SwitchRefused p m) (hpf : m = .output → x.params.padFault.getLsbD p.val = false) :
    Runs c (x.switchSteps p m + 1) x [.readFn p m] res post (switchState x p m) (some (finishResp res post)) := by
  refine runs_go (s' := x) (readFn_go hsw) (by
    by_cases hm : m = .off
    · simp [hm, deinitBody]
    · by_cases hf : x.pinFn[p] ≠ .off ∧ x.pinFn[p] ≠ m
      · rw [if_neg hm, if_pos hf]; simp [programAndRecord]
      · rw [if_neg hm, if_neg hf]; simp [programAndRecord]) ?_
  rw [edgeDetect_of_settled x hx, List.append_nil]
  unfold State.switchSteps switchState
  by_cases hm : m = .off
  · subst hm; simp only [if_true]
    rw [if_neg (by simp), if_neg (by simp)]; exact runs_deinit_last
  · rw [if_neg hm, if_neg hm]
    by_cases hf : x.pinFn[p] ≠ .off ∧ x.pinFn[p] ≠ m
    · rw [if_pos hf, if_pos hf, if_pos ⟨hm, hf⟩]
      have : (if m = .output then 11 else 10) = (if m = .output then 6 else 5) + 5 := by split <;> rfl
      rw [this]
      exact runs_deinit (by simp [programAndRecord]) (runs_programAndRecord_last hpf)
    · rw [if_neg hf, if_neg hf, if_neg (fun e => hf e.2)]
      exact runs_programAndRecord_last hpf

theorem init_fields (s : State) (p : Pin) : (if s.pinInit[p] then s else lowLevelState s p).pinFn = s.pinFn ∧
    (if s.pinInit[p] then s else lowLevelState s p).params = s.params := by
  by_cases h : s.pinInit[p]
  · rw [if_pos h]; exact ⟨rfl, rfl⟩
  · rw [if_neg h]; exact ⟨rfl, rfl⟩

theorem init_refused (s : State) (p : Pin) (m : Mode) : (if s.pinInit[p] then s else lowLevelState s p).SwitchRefused p m ↔ s.SwitchRefused p m := by
  unfold State.SwitchRefused
  rw [(init_fields s p).1, (init_fields s p).2]

theorem init_switchSteps (s : State) (p : Pin) (m : Mode) : (if s.pinInit[p] then s else lowLevelState s p).switchSteps p m = s.switchSteps p m := by
  unfold State.switchSteps
  rw [(init_fields s p).1]

end Sys2Proof.Machine
end

