-- ==== Sys2Proof/Tests/Slice0.lean ====
section
/-! SUPPORT. Tests: ill-formed commands, the words of every instruction, vectors of 95_test_vectors, and a witness for the
hypotheses of every statement. -/

namespace Sys2Proof.Tests

open Sys2Proof Sys2Proof.Machine

-- One test after another: each waits for the kernel, and a waiting test holds a thread.
set_option Elab.async false

/-! ### Ill-formed commands (30_encoding R113; 95_test_vectors E3) -/

theorem test_pin_30_ill_formed : (Instr.setMode 30 0).wellFormed = false ∧ (Instr.init 255).wellFormed = false := by decide
theorem test_mode_9_ill_formed : (Instr.setMode 2 9).wellFormed = false := by decide
theorem test_bool_2_ill_formed : (Instr.set false 2 2).wellFormed = false := by decide
theorem test_slice_8_ill_formed : (Instr.pwmGet 8 0).wellFormed = false := by decide
theorem test_channel_5_ill_formed : (Instr.adcGet 5).wellFormed = false := by decide
theorem test_half_65536_ill_formed :
    (Instr.pwmSet 4 0 65536).wellFormed = false ∧ (Instr.setWrap 4 65536).wellFormed = false ∧
    (Instr.setCounter 4 65536).wellFormed = false := by decide
theorem test_period_limits : (Instr.setPeriod 4 7).wellFormed = false ∧ (Instr.setPeriod 4 8).wellFormed = true ∧
    (Instr.setPeriod 4 268369920).wellFormed = true ∧ (Instr.setPeriod 4 268369921).wellFormed = false := by decide
theorem test_address_ill_formed : (Instr.regGet 0x40050061).wellFormed = false := by decide

/-! ### Parameters outside their domains (00_scope R15; 10_state R29, R30; 20_memory R97) -/

theorem test_ticks_0_refused :
    paramsOk { defaultParams with convTicks := 0 } = false ∧ paramsOk { defaultParams with resetTicks := 0 } = false ∧
    paramsOk { defaultParams with readyTicks := 0 } = false := by decide +kernel
/-- Both pulls; the output disabled. The pull-down alone is as good as the default's. -/
theorem test_padReset_refused :
    paramsOk { defaultParams with padReset := 0x5E } = false ∧ paramsOk { defaultParams with padReset := 0xD6 } = false ∧
    paramsOk { defaultParams with padReset := 0x5A } = true := by decide +kernel
/-- An address that is not word-aligned, one that is given twice, a register that is given twice, one that has no address. -/
theorem test_addrMap_refused :
    paramsOk { defaultParams with addrMap := (0x40050061, .sioIn) :: defaultAddrMap.erase (0xd0000004, .sioIn) } = false ∧
    paramsOk { defaultParams with addrMap := (0x40050000, .sioIn) :: defaultAddrMap.erase (0xd0000004, .sioIn) } = false ∧
    paramsOk { defaultParams with addrMap := (0xd0000100, .sioIn) :: defaultAddrMap } = false ∧
    paramsOk { defaultParams with addrMap := defaultAddrMap.erase (0xd0000004, .sioIn) } = false := by decide +kernel

/-! ### Words, from the header layout of 30_encoding R110 and the codes of R120 (95_test_vectors E1) -/

/-- What the decoder reads from a command. -/
def decoded (h : Word) (x0 x1 x2 : Word := 0) : Option Instr := (decode ⟨h, x0, x1, x2⟩).toOption

theorem test_words_primitives :
    decoded 0x00000000 = some .nop ∧ decoded 0x00000001 0x40050060 = some (.regGet 0x40050060) ∧
    decoded 0x00000002 0x40050050 2 = some (.regSet 0x40050050 2) ∧
    decoded 0x00000003 0x400500a8 0x10 = some (.regClr 0x400500a8 0x10) ∧
    decoded 0x00000004 0x40050054 0xFFF 0x2A = some (.regReplace 0x40050054 0xFFF 0x2A) := by decide +kernel
theorem test_words_gpio :
    decoded 0x00030010 = some (.init 3) ∧ decoded 0x05190011 = some (.setMode 25 5) ∧
    decoded 0x00190012 = some (.deinit false 25) ∧ decoded 0x00190112 = some (.deinit true 25) ∧
    decoded 0x00020013 = some (.mode false 2) ∧ decoded 0x00020113 = some (.mode true 2) ∧
    decoded 0x00030014 = some (.get false 3) ∧ decoded 0x00030114 = some (.get true 3) ∧
    decoded 0x01020015 = some (.set false 2 1) ∧ decoded 0x00020115 = some (.set true 2 0) ∧
    decoded 0x00190016 = some (.pwm 25) ∧ decoded 0x001A0017 = some (.adc 26) := by decide +kernel
theorem test_words_pwm :
    decoded 0x01040020 = some (.pwmGet 4 1) ∧ decoded 0x01040021 1000 = some (.pwmSet 4 1 1000) ∧
    decoded 0x00040022 = some (.counter 4) ∧ decoded 0x00040023 65025 = some (.setCounter 4 65025) ∧
    decoded 0x00040024 = some (.inc 4) ∧ decoded 0x00040025 = some (.dec 4) ∧
    decoded 0x00040026 255 = some (.setWrap 4 255) ∧ decoded 0x00040027 = some (.wrap 4) ∧
    decoded 0x01040028 = some (.setEnabled 4 1) ∧ decoded 0x00040029 0x100 = some (.pwmSetInterrupt 4 0x100) ∧
    decoded 0x0004002A 1000000 = some (.setPeriod 4 1000000) := by decide +kernel
theorem test_words_adc :
    decoded 0x00000030 = some .adcInit ∧ decoded 0x00000031 = some .adcTemp ∧ decoded 0x00000032 = some (.adcGet 0) ∧
    decoded 0x00000033 0x40533333 = some (.getVoltage 0 0x40533333) ∧ decoded 0x00040034 = some (.getTemperature 4) := by
  decide +kernel
theorem test_words_irq :
    decoded 0x00070040 0x200 = some (.setInterrupt 7 0x200) ∧ decoded 0x0000004E = some .cbReturn ∧
    decoded 0x0000004F = some .cbFault := by decide +kernel
/-- 95_test_vectors E2. -/
theorem test_words_illegal :
    [0x00000005, 0x000000FF, 0x0000002B, 0x00030210, 0x00038010, 0x00030110, 0x05190111, 0x00000100].all
      (fun h : Word => (decoded h).isNone) = true := by decide +kernel
/-- A table word, laid out as four little-endian words (30_encoding R110). -/
theorem test_table_word : decodeTableWord 128 (0x05190011 + 0xFFFFFFFF * 2 ^ 32) = some (.setMode 25 5) ∧
    decodeTableWord 64 (0x00040026 + 255 * 2 ^ 32) = some (.setWrap 4 255) := by decide +kernel

/-! ### Vectors -/

/-- The state after an outcome, seen through `f`. -/
def seen {α : Type} (f : State → α) : Host.Outcome State Fault Refusal → Option α
  | .next t => some (f t)
  | _ => none

/-- From reset, with `n` more turns of core 0 recorded. -/
def solo (n : Nat) : State := State.withTurns State.reset (List.replicate n (.core 0))

/-- From reset, with `n` times a turn of core 0 and a step of the sequencer recorded. -/
def withSeq (n : Nat) : State := State.withTurns State.reset (List.replicate n [Turn.core 0, .adcSeq]).flatten

/-- A wiring fault on pin 5. -/
def faulty (n : Nat) : State := { solo n with params := { defaultParams with padFault := 0x20 } }
/-- Core `c` changed by `f`. -/
def core (s : State) (c : CoreId) (f : CoreSt → CoreSt) : State := s.setCore c (f s.cores[c])

/-- Slice `i` changed by `f`. -/
def slice (s : State) (i : SliceId) (f : Slice → Slice) : State := s.setSlice i (f s.slices[i])

/-- G3: ten micro-steps, and the pin's registers and entry. -/
theorem test_setMode_pwm :
    seen (fun t => (t.funcsel[25], t.pad[25], t.pinFn[25], t.pinInit[25], t.lastResp)) (exec (.setMode 25 5) (solo 9))
      = some (4, 0x52, .pwm, true, some ⟨.ok, 0⟩) := by decide +kernel
/-- G7: a wiring fault. -/
theorem test_setMode_fault :
    seen (fun t => (t.sioOe, t.pad[5], t.pinFn[5], t.lastResp))
      (exec (.setMode 5 0) { solo 20 with params := { defaultParams with padFault := 0x20 } })
      = some (0x20, 0x52, .off, some ⟨.unexpectedValue, 0⟩) := by decide +kernel
/-- 92_eei_decisions D20: under a wiring fault the readback reads 0, also where the output-enable bit is 0 by then. -/
theorem test_readBack_fault :
    [0#30, 0x20#30].all (fun oe => match (State.microStep { faulty 0 with sioOe := oe } 0 (.readBack 5)).2 with
      | .raise .unexpectedValue => true | _ => false) = true := by decide +kernel
/-- G6: a direct switch is refused. -/
theorem test_switch_refused :
    seen (fun t => (t.pad[2], t.pinFn[2], t.lastResp)) (exec (.setMode 2 3) ((solo 20).recorded 2 .output))
      = some (0x56, .output, some ⟨.duplicateValue, 0⟩) := by decide +kernel
/-- G8: the strict variant, and `Deinit` of a pin that was never initialised. -/
theorem test_deinit :
    seen State.lastResp (exec (.deinit true 3) (solo 9)) = some (some ⟨.notInitialised, 0⟩) ∧
    seen (fun t => (t.pad[3], t.pinInit[3], t.lastResp)) (exec (.deinit false 3) (solo 9))
      = some (0x12, false, some ⟨.ok, 0⟩) := by decide +kernel
/-- I9: `Set` of an output pin that was low latches its rise. -/
theorem test_set_latches_rise :
    seen (fun t => (t.sioOut, t.ioIntr[0], t.prevIn)) (exec (.set false 2 1) ((solo 0).programmed 2 .output))
      = some (4, 0x800, 4) := by decide +kernel
/-- S3. -/
theorem test_pwm_result : seen State.lastResp (exec (.pwm 25) (solo 20)) = some (some ⟨.ok, 9⟩) := by decide +kernel
/-- A3 and A1: `AdcTemp` from reset. -/
theorem test_adcTemp :
    seen (fun t => (t.adc.cs, t.adcInited, t.adcCreated, t.lastResp)) (exec .adcTemp (withSeq 16))
      = some (0x101, true, #v[false, false, false, false, true], some ⟨.ok, 4⟩) := by decide +kernel
/-- A4: the poll budget. -/
theorem test_adcInit_timeout :
    seen (fun t => (t.adcInited, t.adc.resetLeft, t.lastResp))
      (exec .adcInit ({ solo 0 with params := { defaultParams with pollBudget := some 2 } }.withTurns
        [.core 0, .core 0, .core 0, .adcSeq, .core 0])) = some (false, some 1, some ⟨.timeout, 0⟩) := by decide +kernel
/-- S5: the voltage of a draw of 4095 on channel 0. -/
theorem test_getVoltage :
    seen (fun t => (t.adc.result, t.lastResp))
      (exec (.getVoltage 0 0x40533333) { withSeq 16 with samples := [4095], adcInited := true, adc := AdcBlock.fresh,
                                                         adcCreated := Vector.replicate 5 true })
      = some (4095, some ⟨.ok, 0x40532600⟩) := by decide +kernel
/-- P2: the temperature of a draw of 876. -/
theorem test_getTemperature :
    seen (fun t => (t.adc.cs, t.lastResp))
      (exec (.getTemperature 4) { withSeq 16 with samples := [876], adcInited := true, adc := AdcBlock.fresh,
                                                  adcCreated := Vector.replicate 5 true })
      = some (0x4103, some ⟨.ok, 0x41D91B82⟩) := by decide +kernel
/-- A7, A8: other rows. -/
theorem test_voltage_rows : voltageOf 1 0x40533333 = 0x3A533333 ∧ voltageOf 100 0xBF800000 = 0xBCC80000 ∧
    voltageOf 100 0x7F800000 = 0x7F800000 ∧ temperatureOf 4095 = 0xC4B8F972 := by decide +kernel
/-- W17: rows of the period table. -/
theorem test_periodCfg :
    (periodCfg PwmCfg.reset 1000000 = { PwmCfg.reset with divInt := 1, divFrac := 14, wrap := 65535 }) ∧
    (periodCfg PwmCfg.reset 134184961 = { PwmCfg.reset with divInt := 127, divFrac := 15, wrap := 65535, phCorrect := true }) ∧
    (periodCfg { PwmCfg.reset with phCorrect := true } 8 = { PwmCfg.reset with wrap := 0, phCorrect := true }) := by decide +kernel
/-- W13: `Inc` at divider 2.0. -/
theorem test_inc :
    seen (fun t => (t.slices[4].ctr, t.slices[4].csr, t.lastResp))
      (exec (.inc 4) ((slice State.reset 4 (fun x => { x with csr := 1, div := 0x20, ctr := 10, top := 100 })).withTurns
        [.pwmClk, .core 0])) = some (11, 1, some ⟨.ok, 0⟩) := by decide +kernel
/-- W14: `Dec` at divider 1.0. -/
theorem test_dec :
    seen (fun t => (t.slices[4].ctr, t.slices[4].csr, t.lastResp))
      (exec (.dec 4) ((slice State.reset 4 (fun x => { x with csr := 1, ctr := 10, top := 100 })).withTurns
        [.pwmClk, .core 0])) = some (10, 1, some ⟨.ok, 0⟩) := by decide +kernel
/-- W8: the registers after `SetEnabled(4, true)` with a wrap of 255. -/
theorem test_setEnabled :
    seen (fun t => (t.slices[4].div, t.slices[4].top, t.slices[4].csr, t.pwmEn))
      (exec (.setEnabled 4 1) (slice (solo 9) 4 (fun x => { x with cfg := { x.cfg with wrap := 255 } })))
      = some (0x010, 255, 1, 0x10) := by decide +kernel
/-- I2: `SetInterrupt(7, @h)` on core 1. -/
theorem test_setInterrupt :
    seen (fun t => (t.cores[1].inte[0], t.cores[1].gpioCb[7], t.cores[1].nvicGpio, t.cores[0].inte[0]))
      (exec (.setInterrupt 7 0x200) ({ solo 0 with sel := 1 }.withTurns (List.replicate 4 (.core 1))))
      = some (0xC0000000, 0x200, true, 0) := by decide +kernel
/-- P-1, P-4: the level bits of `IO_INTR[3]`, and an acknowledgement through `RegSet`. -/
theorem test_regGet_levels :
    seen State.lastResp (exec (.regGet 0x400140FC) (solo 0)) = some (some ⟨.ok, 0x00111111⟩) ∧
    seen (fun t => t.ioIntr[0]) (exec (.regSet 0x400140F0 0x80000000) ((solo 0).assertEvent 7 true)) = some 0 := by decide +kernel
/-- P-3: a refused write. -/
theorem test_regClr_refused :
    seen (fun t => (t.slices[4].div, t.lastResp)) (exec (.regClr 0x40050054 0x10) (solo 0))
      = some (0x010, some ⟨.badParameter, 0⟩) := by decide +kernel
/-- E3, `Set(2, 2)`: `A[7:1] ≠ 0` ends with (1, 0) and no access; the same check of `SetEnabled`'s Boolean (30_encoding R113). -/
theorem test_bool_above_bit_0 :
    [Instr.set false 2 2, .setEnabled 4 2].all (fun i =>
      seen (fun t => (t.sioOut, t.pwmEn, t.lastResp)) (exec i (solo 9)) == some (0, 0, some ⟨.badParameter, 0⟩)) = true := by
  decide +kernel
/-- A command placed for a step is what the step runs. -/
theorem test_withFetchWord :
    seen (fun t => (t.pinFn[25], t.cores[0].mainResp)) (step (State.reset.withFetchWord 32 0x05190011))
      = some (.pwm, some ⟨.ok, 0⟩) := by decide +kernel

/-! ### Witnesses: for every statement with hypotheses, a state and operands that meet them -/

/-- Core 0 serves an interrupt, with `depth` handlers open and `code` left of the dispatch. -/
def serving (k : IrqKind) (depth : Nat) (code : List DStep) : State :=
  core State.reset 0 (fun x => { x with inIrq := some k, cbDepth := depth, disp := code })

/-- A handler on pin 7 of core 0, as `SetInterrupt` leaves it; its body is `CbReturn`. -/
def watching : State :=
  core { State.reset with params := { defaultParams with handlers := [(0x200, [⟨0x4E, 0, 0, 0⟩])] } } 0 (fun x =>
    { x with inte := x.inte.set 0 0xC0000000, gpioCb := x.gpioCb.set 7 0x200, gpioEdges := x.gpioEdges.set 7 3, nvicGpio := true })

/-- The ADC initialised and every channel bound. -/
def adcUp (ts : List Turn) : State :=
  { State.reset with adc := AdcBlock.fresh, adcInited := true, adcCreated := Vector.replicate 5 true, turns := ts }

/-- One step goes on. -/
def goesOn (s : State) : Bool := match step s with | .next _ => true | _ => false

theorem goesOn_next {s : State} (h : goesOn s = true) : ∃ t, step s = .next t := by
  unfold goesOn at h
  split at h
  · exact ⟨_, by assumption⟩
  · exact absurd h Bool.false_ne_true

/-- `Init(3)` placed for core 0. -/
def placed : State := State.reset.withFetchWord 32 0x00030010

theorem witness_StepRunsDecoded :
    (placed.fatal = false ∧ ∃ ts s', placed.turns = .core 0 :: ts ∧
      (placed.withTurns ts).presented 0 = some (⟨0x00030010, 0, 0, 0⟩, s') ∧ decode ⟨0x00030010, 0, 0, 0⟩ = .ok (.init 3)) ∧
    ((solo 1).fatal = false ∧ (solo 1).turns = .core 0 :: [] ∧ ((solo 1).withTurns []).accepts (.core 0) = none) :=
  ⟨⟨rfl, _, _, rfl, rfl, rfl⟩, by decide +kernel⟩

/-- `Nop` with `S` = 1, placed for core 0. -/
def placedIllegal : State := State.reset.withFetchWord 32 0x00000100

theorem witness_IllegalCommandRefused :
    placedIllegal.fatal = false ∧ placedIllegal.Settled ∧ ∃ ts s', placedIllegal.turns = .core 0 :: ts ∧
      (placedIllegal.withTurns ts).presented 0 = some (⟨0x00000100, 0, 0, 0⟩, s') ∧
      decode ⟨0x00000100, 0, 0, 0⟩ = .error .noStrict :=
  ⟨rfl, by decide +kernel, _, _, rfl, rfl, rfl⟩

theorem witness_FatalStops : ({ State.reset with fatal := true } : State).fatal = true := rfl

theorem witness_OutOfRangeRefused : State.reset.Ready ∧ State.reset.Settled ∧ (Instr.mode false 30).wellFormed = false := by
  decide +kernel

theorem witness_NopCompletes : State.reset.Ready ∧ State.reset.Settled := by decide +kernel

/-- In interrupt context too. -/
theorem witness_NopCompletes_irq :
    (serving .gpioBank 1 []).Ready ∧ (serving .gpioBank 1 []).Settled ∧ (serving .gpioBank 1 []).ctx = true := by decide +kernel

theorem witness_RegGetCompletes :
    State.reset.Ready ∧ State.reset.Settled ∧ State.reset.regOf 0x4004C000 = some .adcCs ∧
    State.reset.inaccessible .adcCs = false ∧ State.reset.BankInv ∧ State.reset.adc.Inv := by decide +kernel

theorem witness_RegSetRegClrComplete :
    State.reset.Ready ∧ State.reset.regOf 0x40050054 = some (.pwmDiv 4) ∧ State.reset.inaccessible (.pwmDiv 4) = false ∧
    refusedWrite (.pwmDiv 4) (State.reset.readReg (.pwmDiv 4) ||| 0xF) = false ∧
    refusedWrite (.pwmDiv 4) (State.reset.readReg (.pwmDiv 4) &&& ~~~0xF) = false := by decide +kernel

theorem witness_RegReplaceCompletes :
    (solo 1).Ready ∧ (solo 1).Settled ∧ (solo 1).Alone 1 ∧ (solo 1).regOf 0x40050054 = some (.pwmDiv 4) ∧
    (solo 1).inaccessible (.pwmDiv 4) = false ∧
    refusedWrite (.pwmDiv 4) (((solo 1).readReg (.pwmDiv 4) &&& ~~~0xFFF) ||| (0x2A &&& 0xFFF)) = false := by decide +kernel

theorem witness_PrimitivesRefused :
    (solo 1).Ready ∧ (solo 1).Settled ∧ (solo 1).regOf 0x40050061 = none ∧ (solo 1).Alone 1 ∧
    (solo 1).regOf 0x4001C068 = some (.pad 25) ∧ (solo 1).inaccessible (.pad 25) = false ∧
    refusedWrite (.pad 25) ((solo 1).readReg (.pad 25) ||| 0x80) = true ∧
    (solo 1).regOf 0x40050054 = some (.pwmDiv 4) ∧ (solo 1).inaccessible (.pwmDiv 4) = false ∧
    refusedWrite (.pwmDiv 4) ((solo 1).readReg (.pwmDiv 4) &&& ~~~0x10) = true ∧
    refusedWrite (.pwmDiv 4) (((solo 1).readReg (.pwmDiv 4) &&& ~~~0xFF0) ||| (0 &&& 0xFF0)) = true := by decide +kernel

/-- The other draw of `RST.ADC`. -/
def inReset : State := (State.resetWith defaultParams defaultInputs true 0).withTurns (List.replicate 3 (.core 0))

/-- 45_register_primitives R403 (b): the write of a `RegReplace` whose read came before a reset of the ADC ends with
`BadParameter` where its result is refused, and is stuck where it is not (20_memory R96). -/
theorem test_regReplace_after_reset :
    let after (w : Word) := (inReset.setFlight 0 false (some { code := [.primWrite .adcFcs w], res := 0, post := .plain })).atomic
      (.core 0)
    (after 1).lastResp = some ⟨.badParameter, 0⟩ ∧ (after 1).flight 0 false = none ∧
    (after 2).flight 0 false = some { code := [.stuck], res := 0, post := .plain } := by decide +kernel

/-- The ADC in reset, and a `RegReplace` whose write is still to come. -/
theorem witness_PrimitivesRefused_write :
    inReset.Ready ∧ inReset.Settled ∧ refusedWrite .adcFcs 1 = true ∧ inReset.inaccessible .adcFcs = true ∧
    ({ code := [.primWrite .adcFcs 1], res := 0, post := .plain } : Flight).code = [.primWrite .adcFcs 1] := by decide +kernel

theorem witness_PrimitivesStick :
    inReset.Ready ∧ inReset.Settled ∧ inReset.turns = List.replicate 3 (.core inReset.sel) ∧
    inReset.regOf 0x4004C000 = some .adcCs ∧ inReset.inaccessible .adcCs = true ∧
    Instr.regGet 0x4004C000 ∈ [Instr.regGet 0x4004C000, .regSet 0x4004C000 1, .regClr 0x4004C000 1, .regReplace 0x4004C000 1 1] := by
  decide +kernel

theorem witness_RegisterWrites :
    plainMaskOf .sioOut = some 0x3FFFFFFF ∧ plainMaskOf (.ioInte 1 3) = some 0x00FFFFFF ∧ plainMaskOf (.pad 29) ≠ none ∧
    Reg.pad 29 ≠ .pwmEn ∧ State.reset.adc.rst = false ∧
    Reg.rstDone ∈ [Reg.sioIn, .pwmInts, .adcResult, .adcFifo, .adcIntr, .adcInts, .rstDone] ∧
    Reg.adcInts ∈ [Reg.adcFifo, .adcIntr, .adcInts] := by decide

theorem witness_InitCompletes :
    (solo 3).Ready ∧ (solo 3).Settled ∧ pinOf 29 = some 29 ∧ (solo 3).Alone ((solo 3).initSteps 29) := by decide +kernel

theorem witness_SetModeCompletes :
    (solo 10).Ready ∧ (solo 10).Settled ∧ pinOf 0 = some 0 ∧ modeOf 0 = some .output ∧ ¬ (solo 10).SwitchRefused 0 .output ∧
    (Mode.output = .output → (solo 10).params.padFault.getLsbD 0 = false) ∧
    (solo 10).Alone ((solo 10).initSteps 0 + 1 + (solo 10).switchSteps 0 .output) := by decide +kernel

/-- Pin 2 holds `Output`. -/
def held (n : Nat) : State := (solo n).recorded 2 .output

theorem witness_SetModeFails :
    ((held 4).Ready ∧ (held 4).Settled ∧ pinOf 2 = some 2 ∧ modeOf 8 = some .off ∧ modeOf 3 = some .inputPullup ∧
      (held 4).SwitchRefused 2 .inputPullup ∧ (held 4).Alone ((held 4).initSteps 2 + 1)) ∧
    ((faulty 9).Ready ∧ (faulty 9).Settled ∧ pinOf 5 = some 5 ∧ modeOf 0 = some .output ∧ ¬ (faulty 9).SwitchRefused 5 .output ∧
      (faulty 9).params.padFault.getLsbD 5 = true ∧ (faulty 9).Alone ((faulty 9).initSteps 5 + (faulty 9).switchSteps 5 .output)) := by
  decide +kernel

/-- Pin 29 has had its one-time initialisation. -/
def inited (n : Nat) : State := (solo n).initialised 29

theorem witness_DeinitCompletes :
    (inited 5).Ready ∧ (inited 5).Settled ∧ pinOf 29 = some 29 ∧ (inited 5).pinInit[29] = true ∧ (inited 5).Alone 5 ∧
    (inited 5).Alone 4 := by decide +kernel

/-- Pin 29 has been initialised, and its hardware is that of `m`. -/
def leveled (m : Mode) : State := (inited 1).programmed 29 m

theorem witness_ModeGetComplete :
    ((inited 1).Ready ∧ (inited 1).Settled ∧ pinOf 29 = some 29 ∧ (inited 1).pinInit[29] = true ∧ (inited 1).Alone 1) ∧
    ((leveled .pwm).Ready ∧ (leveled .pwm).Settled ∧ (leveled .pwm).pinInit[29] = true ∧ (leveled .pwm).Alone 1 ∧
      (leveled .pwm).programmed 29 .pwm = leveled .pwm) ∧
    ((leveled .off).Ready ∧ (leveled .off).Settled ∧ (leveled .off).Alone 1 ∧
      (leveled .off).programmed 29 .off = leveled .off) := by decide +kernel

theorem witness_SetCompletes :
    (inited 1).Ready ∧ (inited 1).Settled ∧ pinOf 29 = some 29 ∧ boolOf 1 = some true ∧ boolOf 0 = some false ∧
    (inited 1).pinInit[29] = true ∧ (inited 1).Alone 1 := by decide +kernel

theorem witness_NotInitialisedRefused :
    State.reset.Ready ∧ State.reset.Settled ∧ pinOf 29 = some 29 ∧ boolOf 1 = some true ∧ State.reset.pinInit[29] = false ∧
    chOf 0 = some 0 ∧ State.reset.adcCreated[0] = false ∧ chOf 4 = some 4 ∧ State.reset.adcCreated[4] = false := by decide +kernel

theorem witness_PwmCompletes :
    (((solo 0).recorded 15 .pwm).Ready ∧ ((solo 0).recorded 15 .pwm).Settled ∧ pinOf 15 = some 15 ∧
      ((solo 0).recorded 15 .pwm).pinFn[15] = .pwm) ∧
    ((solo 10).Ready ∧ (solo 10).Settled ∧ (solo 10).pinFn[15] ≠ .pwm ∧ ¬ (solo 10).SwitchRefused 15 .pwm ∧
      (solo 10).Alone (1 + (solo 10).initSteps 15 + 1 + (solo 10).switchSteps 15 .pwm)) ∧
    ((held 5).Ready ∧ (held 5).Settled ∧ pinOf 2 = some 2 ∧ (held 5).SwitchRefused 2 .pwm ∧
      (held 5).Alone (1 + (held 5).initSteps 2 + 1)) := by decide +kernel

/-- From reset, with the turns of the ADC's initialisation and `n` more recorded. -/
def initTurnsThen (n : Nat) : State := State.withTurns State.reset (State.reset.initTurns ++ List.replicate n (.core 0))

theorem witness_AdcCompletes :
    (initTurnsThen 7).Ready ∧ (initTurnsThen 7).Settled ∧ 1 ≤ (initTurnsThen 7).params.resetTicks ∧
    1 ≤ (initTurnsThen 7).params.readyTicks ∧ pinOf 26 = some 26 ∧ adcChan 26 = some 0 ∧ pinOf 29 = some 29 ∧ adcChan 29 = some 3 ∧
    (initTurnsThen 7).NextTurns ((initTurnsThen 7).initTurns ++ List.replicate 7 (.core (initTurnsThen 7).sel)) ∧
    pinOf 25 = some 25 ∧ (25 : Pin).val < 26 ∧ (initTurnsThen 7).NextTurns (initTurnsThen 7).initTurns := by decide +kernel

theorem witness_PwmReadsComplete :
    State.reset.Ready ∧ State.reset.Settled ∧ sliceOf 7 = some 7 ∧ sliceOf 0 = some 0 ∧ boolOf 0 = some false ∧
    boolOf 1 = some true := by decide +kernel

theorem witness_PwmWritesComplete :
    (solo 1).Ready ∧ (solo 1).Settled ∧ sliceOf 7 = some 7 ∧ boolOf 1 = some true ∧ halfOf 65535 = some 65535 ∧ halfOf 0 = some 0 ∧
    periodOf 8 = some 8 ∧ periodOf 268369920 = some 268369920 ∧ (solo 1).Alone 1 := by decide +kernel

/-- Slice 4 is enabled, with this divider. -/
def ticking (div : BitVec 12) : State :=
  (slice State.reset 4 (fun x => { x with csr := 1, div := div, ctr := 10, top := 100 })).withTurns [.pwmClk, .core 0]

theorem witness_IncDecComplete :
    ((ticking 0x20).Ready ∧ (ticking 0x20).Settled ∧ sliceOf 4 = some 4 ∧ (ticking 0x20).slices[4].en = true ∧
      (ticking 0x20).slices[4].divmode = 0 ∧ (ticking 0x20).NextTurns [.pwmClk, .core (ticking 0x20).sel] ∧
      (ticking 0x20).slices[4].fracAcc + 16 < (ticking 0x20).slices[4].div16) ∧
    ((ticking 0x10).Ready ∧ (ticking 0x10).Settled ∧ (ticking 0x10).slices[4].en = true ∧ (ticking 0x10).slices[4].divmode = 0 ∧
      (ticking 0x10).NextTurns [.pwmClk, .core (ticking 0x10).sel] ∧
      (ticking 0x10).slices[4].div16 ≤ (ticking 0x10).slices[4].fracAcc + 16 ∧ (ticking 0x10).slices[4].phAdv = false) := by
  decide +kernel

/-- Three turns of core 0 with cycles of `PwmClk` before and between them. -/
def mixed : List Turn := [.pwmClk, .core 0, .core 0, .pwmClk, .core 0]
/-- A budget of three polls. -/
def budgeted : State := { (solo 0).withTurns (mixed ++ [.adcSeq]) with params := { defaultParams with pollBudget := some 3 } }

theorem witness_IncDecOnDisabledSlice :
    (budgeted.Ready ∧ budgeted.Settled ∧ sliceOf 4 = some 4 ∧ budgeted.slices[4].en = false ∧
      (∀ t ∈ mixed, t = .core budgeted.sel ∨ t = .pwmClk) ∧ budgeted.turns = mixed ++ [.adcSeq] ∧
      budgeted.params.pollBudget = some 3 ∧ 1 ≤ 3 ∧ mixed.count (.core budgeted.sel) = 3 ∧
      mixed.getLast? = some (.core budgeted.sel)) ∧
    (let s := (solo 0).withTurns mixed
     s.Ready ∧ s.Settled ∧ s.slices[4].en = false ∧ (∀ t ∈ mixed, t = .core s.sel ∨ t = .pwmClk) ∧ s.turns = mixed ++ [] ∧
      s.params.pollBudget = none) := by decide +kernel

theorem witness_SetEnabledCompletes :
    (solo 6).Ready ∧ (solo 6).Settled ∧ sliceOf 7 = some 7 ∧ boolOf 1 = some true ∧ boolOf 0 = some false ∧ (solo 6).Alone 6 := by
  decide +kernel

theorem witness_PwmSetInterruptCompletes :
    (solo 3).Ready ∧ (solo 3).Settled ∧ sliceOf 4 = some 4 ∧ (0x100 : Word) ≠ 0 ∧
    (solo 3).Alone (if (solo 3).cores[(solo 3).sel].nvicPwm then 2 else 3) ∧
    (solo 3).Alone (if (solo 3).params.nilDisablesLine then 2 else 1) := by decide +kernel

theorem witness_SetPeriodSolves :
    (8 ≤ 8 ∧ 8 ≤ 268369920) ∧ (8 ≤ 268369920 ∧ 268369920 ≤ 268369920) ∧ PwmCfg.reset.phCorrect = false ∧
    ({ PwmCfg.reset with phCorrect := true } : PwmCfg).phCorrect = true ∧ 8 < 16 ∧ 16 ≤ 268369920 := by decide

/-- A slice that counts: free-running or phase-correct, divider 2. -/
def counting (csr : BitVec 8) : Slice := { Slice.reset with csr := csr, div := 0x020, top := 3, ctr := 3 }

theorem witness_PwmPeriod :
    (counting 1).en = true ∧ (counting 1).divmode = 0 ∧ (counting 1).phAdv = false ∧ (counting 1).phRet = false ∧
    16 ≤ (counting 1).div16 ∧ (counting 1).fracAcc < (counting 1).div16 ∧ (counting 1).ctr ≤ (counting 1).top ∧
    ((counting 1).phCorrect = false → (counting 1).dirDown = false) ∧ (counting 1).divFrac = 0 ∧
    (counting 3).en = true ∧ (counting 3).divmode = 0 ∧ (counting 3).phCorrect = true ∧
    (slice State.reset 4 (fun _ => counting 1)).slices[4] = counting 1 := by decide +kernel

/-- Slice 4 has both requests posted; disabled, free-running, and gated by `B` (which is 0). -/
theorem witness_PhaseRequestsServed :
    (counting 0xC0).en = false ∧
    ((counting 0xC1).en = true ∧ (counting 0xC1).divmode = 0 ∧ (counting 0xC1).phAdv = true ∧ (counting 0xC1).phRet = true) ∧
    ((counting 0xD1).en = true ∧ (counting 0xD1).divmode = 1 ∧ (slice State.reset 4 (fun _ => counting 0xD1)).slices[4]
      = counting 0xD1 ∧ State.reset.env.bIn.getLsbD 4 = false) := by decide +kernel

theorem witness_AdcInitAdcTempComplete :
    (initTurnsThen 2).Ready ∧ (initTurnsThen 2).Settled ∧ 1 ≤ (initTurnsThen 2).params.resetTicks ∧
    1 ≤ (initTurnsThen 2).params.readyTicks ∧ (initTurnsThen 2).NextTurns (initTurnsThen 2).initTurns ∧
    (initTurnsThen 2).NextTurns ((initTurnsThen 2).initTurns ++
      List.replicate (if (initTurnsThen 2).adcCreated[4] then 1 else 2) (.core (initTurnsThen 2).sel)) := by decide +kernel

/-- The ADC ready, and the turns of a conversion recorded. -/
def convertible : State := adcUp (adcUp []).convTurns

theorem witness_ConversionsComplete :
    convertible.Ready ∧ convertible.Settled ∧ 1 ≤ convertible.params.convTicks ∧ chOf 4 = some 4 ∧
    convertible.adcCreated[4] = true ∧ convertible.adc.Idle ∧ convertible.NextTurns convertible.convTurns := by decide +kernel

/-- The same after the micro-steps that turn the sensor on. -/
def sensing : State := adcUp (List.replicate 3 (.core 0) ++ (adcUp []).convTurns)

theorem witness_GetTemperatureCompletes :
    sensing.Ready ∧ sensing.Settled ∧ 1 ≤ sensing.params.convTicks ∧ chOf 4 = some 4 ∧ sensing.adcCreated[4] = true ∧
    sensing.adc.Idle ∧ sensing.adc.Inv ∧
    sensing.NextTurns (List.replicate (if sensing.adc.cs.getLsbD 1 then 2 else 3) (.core sensing.sel) ++ sensing.convTurns) ∧
    chOf 3 = some 3 ∧ (3 : AdcCh) ≠ 4 := by decide +kernel

theorem witness_ResetRelease :
    (0xFFFFFFFE : Word).getLsbD 0 = false ∧ inReset.adc.rst = true ∧ State.reset.adc.rst = false ∧ 1 ≤ 1 ∧
    ({ State.reset with adc := { AdcBlock.fresh with resetLeft := some 1 } } : State).adc.resetLeft = some 1 := by decide +kernel

theorem witness_AdcControl :
    (State.reset.adc.Inv ∧ State.reset.adc.rst = false ∧ State.reset.adc.en = false) ∧
    (convertible.adc.Inv ∧ convertible.adc.rst = false ∧ convertible.adc.en = true) ∧ inReset.adc.Inv := by decide +kernel

theorem witness_AdcSeqStep :
    let s : State := { State.reset with adc := { AdcBlock.fresh with resetLeft := some 1, readyLeft := some 2, convLeft := some 1 } }
    s.adc.resetLeft ≠ some 0 ∧ s.adc.readyLeft ≠ some 0 ∧ s.adc.convLeft ≠ some 0 ∧
    State.reset.adc.resetLeft ≠ some 0 ∧ State.reset.adc.readyLeft ≠ some 0 ∧ State.reset.adc.convLeft ≠ some 0 := by decide +kernel

/-- The boundaries: the smallest and the largest short number, 0, and the numbers on both sides of the limit of the range. -/
theorem witness_RoundingIsExactOnShortNumbers :
    (1 < 2 ^ 24 ∧ (-149 : Int) ≤ -149 ∧ (-149 : Int) ≤ 104) ∧ (16777215 < 2 ^ 24 ∧ (-149 : Int) ≤ 104 ∧ (104 : Int) ≤ 104) ∧
    (0 < 2 ^ 24 ∧ 0 < 4096 ∧ 4095 < 4096) ∧ |(1 : ℚ) * (33554430 : ℕ) * 2 ^ (103 : Int)| < f32Limit ∧
    f32Limit ≤ |(1 : ℚ) * (33554431 : ℕ) * 2 ^ (103 : Int)| ∧ |(-1 : ℚ) * (0 : ℕ) * 2 ^ (0 : Int)| < f32Limit := by
  refine ⟨by decide, by decide, by decide, ?_, ?_, ?_⟩ <;> unfold f32Limit <;> norm_num [abs_of_pos]

/-- 1.5 and 0.75, with their product, quotient and difference; a raw result of 4095 and of 0 with a `vref` of 1.5. -/
theorem witness_ArithmeticRoundsOnce :
    f32Value 0x3FC00000 = some (3 / 2) ∧ f32Value 0x3F400000 = some (3 / 4) ∧ (3 / 4 : ℚ) ≠ 0 ∧
    |(3 / 2 : ℚ) * (3 / 4)| < f32Limit ∧ |(3 / 2 : ℚ) / (3 / 4)| < f32Limit ∧ |(3 / 2 : ℚ) - 3 / 4| < f32Limit ∧
    (4095 : Word).toNat < 4096 ∧ |((4095 : Word).toNat : ℚ) * (3 / 2)| < f32Limit ∧
    1 / 2 ^ 126 ≤ |((4095 : Word).toNat : ℚ) * (3 / 2) / 4096| ∧ (0 : Word).toNat < 4096 ∧
    ((0 : Word).toNat : ℚ) * (3 / 2) / 4096 = 0 := by
  refine ⟨by decide +kernel, by decide +kernel, by norm_num, ?_, ?_, ?_, by decide, ?_, ?_, by decide, ?_⟩
  all_goals try unfold f32Limit
  all_goals norm_num [abs_of_pos, show (4095 : Word).toNat = 4095 from by decide]

theorem witness_SetInterruptCompletes :
    (solo 4).Ready ∧ (solo 4).Settled ∧ pinOf 29 = some 29 ∧ (0x200 : Word) ≠ 0 ∧
    (solo 4).Alone (if (solo 4).cores[(solo 4).sel].nvicGpio then 3 else 4) ∧
    (solo 4).Alone (if (solo 4).params.nilDisablesLine then 2 else 1) := by decide +kernel

theorem witness_CallbacksComplete :
    ((serving .gpioBank 1 []).Ready ∧ (serving .gpioBank 1 []).Settled ∧ (serving .gpioBank 1 []).ctx = true) ∧
    (State.reset.Ready ∧ State.reset.Settled ∧ State.reset.ctx = false) ∧
    ((serving .gpioBank 0 []).Settled ∧ (serving .gpioBank 0 []).fatal = false ∧
      (serving .gpioBank 0 []).flight (serving .gpioBank 0 []).sel (serving .gpioBank 0 []).ctx = none ∧
      (serving .gpioBank 0 []).ctx = true ∧ (serving .gpioBank 0 []).cores[(serving .gpioBank 0 []).sel].cbDepth = 0) := by
  decide +kernel

/-- `watching`, with a rise of pin 7 latched. -/
def risen : State := watching.assertEvent 7 true
/-- A wrap event of slice 4 latched and enabled, core 0's gate open. -/
def wrapped : State := core { State.reset with pwmIntr := 0x10, pwmInte := 0x10 } 0 (fun x => { x with nvicPwm := true })

theorem witness_InterruptEntryAndReturn :
    (wrapped.fatal = false ∧ wrapped.cores[0].inIrq = none ∧ wrapped.pwmPending 0 = true) ∧
    (risen.fatal = false ∧ risen.cores[0].inIrq = none ∧ risen.pwmPending 0 = false ∧ risen.gpioPending 0 = true) ∧
    (State.reset.pwmPending 1 = false ∧ State.reset.gpioPending 1 = false) ∧
    ((serving .pwmWrap 0 [.leave]).fatal = false ∧ (serving .pwmWrap 0 [.leave]).cores[0].inIrq ≠ none ∧
      (serving .pwmWrap 0 [.leave]).cores[0].irq = none ∧ (serving .pwmWrap 0 [.leave]).cores[0].cbDepth = 0 ∧
      (serving .pwmWrap 0 [.leave]).cores[0].disp = .leave :: []) := by decide +kernel

theorem witness_MainLineWaits : (serving .pwmWrap 0 [.leave]).cores[0].inIrq ≠ none := by decide +kernel

/-- Core 0 begins the wrap dispatch with slices 1 and 6 to serve. -/
def wrapServing : State := { serving .pwmWrap 0 (dispatchCode .pwmWrap) with pwmIntr := 0x42, pwmInte := 0x42 }

/-- Core 0 is about to look up the handler of slice 6, which is `h`. -/
def wrapLookup (h : Word) : State :=
  slice { serving .pwmWrap 0 [.pwmLookup 6, .leave] with params := { defaultParams with handlers := [(0x200, [⟨0x4E, 0, 0, 0⟩])] } } 6
    (fun x => { x with cb := h })

theorem witness_WrapDispatchAcknowledges :
    (wrapServing.fatal = false ∧ wrapServing.Settled ∧ wrapServing.cores[0].inIrq = some .pwmWrap ∧
      wrapServing.cores[0].irq = none ∧ wrapServing.cores[0].cbDepth = 0 ∧ wrapServing.cores[0].disp = dispatchCode .pwmWrap) ∧
    [0, 0x200].all (fun h : Word => let s := wrapLookup h
      s.fatal = false ∧ s.Settled ∧ s.cores[0].inIrq = some .pwmWrap ∧ s.cores[0].irq = none ∧ s.cores[0].cbDepth = 0 ∧
      s.cores[0].disp = .pwmLookup 6 :: [.leave] ∧ s.slices[6].cb = h) = true ∧
    (wrapLookup 0x200).params.handlers.lookup 0x200 = some [⟨0x4E, 0, 0, 0⟩] := by decide +kernel

/-- Core 0 is about to read the last bank register, the rise of pin 29 being enabled and latched. -/
def bankServing : State :=
  core (({ State.reset with ioIntr := #v[0, 0, 0, 0x00800000] } : State)) 0 (fun x =>
    { x with inIrq := some .gpioBank, inte := x.inte.set 3 0x00C00000, disp := [.gpioRead 3, .leave] })

theorem witness_GpioDispatchOrder :
    bankServing.fatal = false ∧ bankServing.Settled ∧ bankServing.cores[0].inIrq ≠ none ∧ bankServing.cores[0].irq = none ∧
    bankServing.cores[0].cbDepth = 0 ∧ bankServing.cores[0].disp = .gpioRead 3 :: [.leave] ∧
    eventBits (bankServing.ints 0 3) (29 % 8) ≠ 0 := by decide +kernel

/-- Core 0 is about to look up the handler of pin 7, bound to `h`. -/
def lookingUp (h : Word) : State :=
  core State.reset 0 (fun x =>
    { x with inIrq := some .gpioBank, gpioCb := x.gpioCb.set 7 h, gpioEdges := x.gpioEdges.set 7 3, disp := [.gpioLookup 7 8, .leave] })

theorem witness_GpioLookupServes :
    ((lookingUp 0x200).fatal = false ∧ (lookingUp 0x200).Settled ∧ (lookingUp 0x200).cores[0].inIrq ≠ none ∧
      (lookingUp 0x200).cores[0].irq = none ∧ (lookingUp 0x200).cores[0].cbDepth = 0 ∧
      (lookingUp 0x200).cores[0].disp = .gpioLookup 7 8 :: [.leave] ∧
      (lookingUp 0x200).cores[0].gpioCb[7] ≠ 0 ∧ (8#4).extractLsb' 2 2 &&& (lookingUp 0x200).cores[0].gpioEdges[7] ≠ 0) ∧
    ((lookingUp 0).Settled ∧ (lookingUp 0).cores[0].disp = .gpioLookup 7 8 :: [.leave] ∧ (lookingUp 0).cores[0].gpioCb[7] = 0) := by
  decide +kernel

theorem witness_ExactlyOneInvocation :
    watching.fatal = false ∧ watching.Settled ∧ watching.cores[0].inIrq = none ∧ watching.cores[0].irq = none ∧
    watching.cores[0].cbDepth = 0 ∧ watching.cores[0].disp = [] ∧ watching.cores[0].irqQ = [] ∧
    watching.cores[0].nvicGpio = true ∧ watching.pwmPending 0 = false ∧ watching.cores[0].gpioCb[7] = 0x200 ∧
    (0x200 : Word) ≠ 0 ∧ watching.cores[0].gpioEdges[7] = 3 ∧ watching.params.handlers.lookup 0x200 = some [⟨0x4E, 0, 0, 0⟩] ∧
    (∀ b : BankReg, watching.cores[0].intf[b] = 0 ∧ watching.cores[0].inte[b] = (if b = bankOf 7 then edgesOf 7 else 0)) ∧
    watching.ioIntr[bankOf 7] &&& mask4 7 = 0 := by decide +kernel

theorem witness_SetGetRoundTrip :
    ((solo 0).programmed 2 .output).Ready ∧ ((solo 0).programmed 2 .output).Settled ∧ pinOf 2 = some 2 ∧ boolOf 1 = some true ∧
    ((solo 0).programmed 2 .output).funcsel[2] = hwFuncsel .output ∧ ((solo 0).programmed 2 .output).sioOe.getLsbD 2 = true ∧
    padIe ((solo 0).programmed 2 .output).pad[2] = true := by decide +kernel

theorem witness_StepSettles : ∃ t, step placed = .next t := goesOn_next (by decide +kernel)

theorem witness_StepKeeps :
    placed.PullInv ∧ placed.BankInv ∧ placed.adc.Inv ∧ placed.IrqInv ∧ placed.DivInv ∧ ∃ t, step placed = .next t :=
  ⟨by decide +kernel, by decide +kernel, by decide +kernel, by decide +kernel, by decide +kernel, witness_StepSettles⟩

theorem witness_StepForgetsNothing :
    (∃ t, step placed = .next t) ∧ ((inited 0).pinInit[29] = true ∧ convertible.adcInited = true ∧ convertible.adcCreated[0] = true) ∧
    (∃ t, step (inited 1) = .next t) ∧ ∃ t, step convertible = .next t :=
  ⟨witness_StepSettles, by decide +kernel, goesOn_next (by decide +kernel), goesOn_next (by decide +kernel)⟩

theorem witness_ResetInvariants :
    (0 : BitVec 30) = (State.resetWith defaultParams defaultInputs false 0).pinInAll ∧ paramsOk defaultParams = true := by
  decide +kernel

end Sys2Proof.Tests
end

/-! SUPPORT. What micro-steps, operations, turns and dispatches can do, each said once: the inversion lemmas every invariant
rests on. -/

namespace Sys2Proof.Machine

/-! ### What a write and the other agents can do -/

/-- A write of a register of the ADC or of its reset controller changes the ADC block only. -/
theorem storeReg_adcOnly (s : State) (r : Reg) (touched new : Word) (hr : (regIsAdc r || r == .rst) = true) :
    ∃ a, s.storeReg r touched new = s.setAdc a := by
  cases r with
  | rst =>
    simp only [State.storeReg]
    split
    · exact ⟨s.adc, rfl⟩
    · split <;> exact ⟨_, rfl⟩
  | adcCs | adcFcs | adcDiv | adcInte | adcIntf =>
    simp only [State.storeReg]
    split
    · exact ⟨s.adc, rfl⟩
    · exact ⟨_, rfl⟩
  | adcResult | adcFifo | adcIntr | adcInts => exact ⟨s.adc, rfl⟩
  | _ => cases hr

/-- `AdcSeq` changes the ADC block and the draws (43_adc_sequencer R247). -/
theorem adcSeq_frame (s : State) : ∃ a xs n, s.adcSeq = { s with adc := a, samples := xs, drawNo := n } := by
  simp only [State.adcSeq, State.drawn]
  split
  · split <;> exact ⟨_, _, _, rfl⟩
  · exact ⟨_, s.samples, s.drawNo, rfl⟩

/-- Interrupt entry begins a dispatch, where it is enabled (60_exceptions R326). -/
theorem enterIrq_cases (s : State) (c : CoreId) :
    s.enterIrq c = s ∨ ∃ k, s.enterIrq c = s.setCore c { s.cores[c] with inIrq := some k, disp := dispatchCode k } := by
  unfold State.enterIrq
  split
  · exact .inr ⟨_, rfl⟩
  · exact .inl rfl

/-! ### What a micro-step can do -/

/-- What the micro-step `m` of an operation of core `c` may make of the state `s`: at most one access or one update of a table
entry (20_memory R88). Where a divider could be stored the constructor keeps how the value was admitted: an operation's own
micro-step names it, or 45_register_primitives R406 did not refuse it. -/
inductive MicroEffect (s : State) (c : CoreId) (m : Micro) : State → Prop where
  | same : MicroEffect s c m s
  | write (r : Reg) (w : Word) (h : m = .write r w ∨ refusedWrite r w = false) : MicroEffect s c m (s.writeReg r w)
  | setBits (r : Reg) (n : Word) : MicroEffect s c m (s.setBits r n)
  | clrBits (r : Reg) (n : Word) (h : m = .clrBits r n ∨ refusedWrite r (s.readReg r &&& ~~~n) = false) :
      MicroEffect s c m (s.clrBits r n)
  | pinInit (p : Pin) : MicroEffect s c m { s with pinInit := s.pinInit.set p true }
  | pinFn (p : Pin) (k : Mode) : MicroEffect s c m (s.recorded p k)
  | created (ch : AdcCh) : MicroEffect s c m { s with adcCreated := s.adcCreated.set ch true }
  | inited : MicroEffect s c m { s with adcInited := true }
  | cfg (i : SliceId) (k : PwmCfg) (h : m = .writeCfg i k ∨ k.divInt = s.slices[i].cfg.divInt) :
      MicroEffect s c m (s.setSlice i { s.slices[i] with cfg := k })
  | cb (i : SliceId) (h : Word) : MicroEffect s c m (s.setSlice i { s.slices[i] with cb := h })
  | gatePwm (v : Bool) : MicroEffect s c m (s.setCore c { s.cores[c] with nvicPwm := v })
  | gateGpio (v : Bool) : MicroEffect s c m (s.setCore c { s.cores[c] with nvicGpio := v })
  | bind (cb : Vector Word 30) (edges : Vector (BitVec 2) 30) :
      MicroEffect s c m (s.setCore c { s.cores[c] with gpioCb := cb, gpioEdges := edges })
  | close : MicroEffect s c m (s.setCore c { s.cores[c] with cbDepth := 0 })
  | fatal : MicroEffect s c m { s with fatal := true }

/-- The write of a primitive: refused, or made. -/
theorem primStore_effect {s : State} {c : CoreId} {m : Micro} {r : Reg} {touched new refusedOn : Word}
    (h : refusedWrite r refusedOn = false → MicroEffect s c m (s.storeReg r touched new)) :
    MicroEffect s c m (s.primStore r touched new refusedOn).1 := by
  unfold State.primStore
  split
  · exact .same
  · rename_i hr
    exact h (by simpa using hr)

theorem microStep_effect (s : State) (c : CoreId) (m : Micro) : MicroEffect s c m (s.microStep c m).1 := by
  cases m with
  | write r w => exact .write r w (.inl rfl)
  | setBits r n => exact .setBits r n
  | clrBits r n => exact .clrBits r n (.inl rfl)
  | primGet r => simp only [State.microStep]; split <;> exact .same
  | primRead r n v => simp only [State.microStep]; split <;> exact .same
  | primSet r n =>
    simp only [State.microStep]
    split
    · exact .same
    · exact primStore_effect fun _ => .setBits r n
  | primClr r n =>
    simp only [State.microStep]
    split
    · exact .same
    · exact primStore_effect fun hr => .clrBits r n (.inr hr)
  | primWrite r w =>
    simp only [State.microStep]
    split
    · exact .same
    · exact primStore_effect fun hr => .write r w (.inr hr)
  | setInit p => exact .pinInit p
  | writeFn p k => exact .pinFn p k
  | setCreated ch => exact .created ch
  | setInited => exact .inited
  | setWrapRec i w => exact .cfg i _ (.inr rfl)
  | writeCfg i k => exact .cfg i k (.inl rfl)
  | writeCb i h => exact .cb i h
  | writeGatePwm v => exact .gatePwm v
  | writeGateGpio v => exact .gateGpio v
  | bindPin p h e => exact .bind _ _
  | closeHandler => exact .close
  | handlerFault => exact .fatal
  | _ => exact .same

/-- A micro-step leaves every part of a core but its gates, its enable and force banks, its handlers and its open handler. -/
theorem MicroEffect.core_eq {s t : State} {c : CoreId} {m : Micro} (h : MicroEffect s c m t) (d : CoreId) {α : Type}
    (g : CoreSt → α) (hinte : ∀ k v, g { k with inte := v } = g k) (hintf : ∀ k v, g { k with intf := v } = g k)
    (hpwm : ∀ k v, g { k with nvicPwm := v } = g k) (hgpio : ∀ k v, g { k with nvicGpio := v } = g k)
    (hbind : ∀ k v w, g { k with gpioCb := v, gpioEdges := w } = g k) (hdepth : ∀ k n, g { k with cbDepth := n } = g k) :
    g t.cores[d.val] = g s.cores[d.val] := by
  cases h with
  | write r w => exact storeReg_core s d r _ _ g hinte hintf
  | setBits r n => exact storeReg_core s d r _ _ g hinte hintf
  | clrBits r n => exact storeReg_core s d r _ _ g hinte hintf
  | gatePwm v => exact setCore_keeps s c d _ g (hpwm ..)
  | gateGpio v => exact setCore_keeps s c d _ g (hgpio ..)
  | bind cb edges => exact setCore_keeps s c d _ g (hbind ..)
  | close => exact setCore_keeps s c d _ g (hdepth ..)
  | _ => rfl

/-! ### What the bookkeeping of an operation can do -/

/-- What one micro-step of the operation `f` in flight makes of the state: it is answered, or the micro-step is made and then
the operation is answered, ends unanswered, or stays in flight with what is left and what the micro-step pushed. -/
theorem advance_cases (s : State) (c : CoreId) (irq : Bool) (f : Flight) :
    (∃ st w, s.advance c irq f = s.respond c irq st w) ∨
    ∃ m rest, f.code = m :: rest ∧
      ((∃ st w, s.advance c irq f = (s.microStep c m).1.respond c irq st w) ∨
        s.advance c irq f = (s.microStep c m).1.setFlight c irq none ∨
        ∃ g push, s.advance c irq f = (s.microStep c m).1.setFlight c irq (some g) ∧ g.code = push ++ rest ∧
          (push = [] ∨ (s.microStep c m).2 = .go push)) := by
  have finish_eq : ∀ (t : State) res post, ∃ st w, t.finish c irq res post = t.respond c irq st w := by
    intro t res post
    cases post <;> exact ⟨_, _, rfl⟩
  have settle_cases : ∀ (t : State) (g : Flight), (∃ st w, t.settle c irq g = t.respond c irq st w) ∨
      t.settle c irq g = t.setFlight c irq (some g) := by
    intro t g
    unfold State.settle
    split
    · exact .inl (finish_eq ..)
    · exact .inr rfl
  unfold State.advance
  split
  · exact .inl (finish_eq ..)
  · rename_i m rest hcode
    refine .inr ⟨m, rest, hcode, ?_⟩
    generalize s.microStep c m = x
    obtain ⟨t, a⟩ := x
    cases a with
    | go push =>
      exact (settle_cases t { f with code := push ++ rest }).imp_right fun h => .inr ⟨_, push, h, rfl, .inr rfl⟩
    | yield v => exact (settle_cases t { f with code := rest, res := v }).imp_right fun h => .inr ⟨_, [], h, rfl, .inl rfl⟩
    | raise e => exact .inl ⟨e, 0, rfl⟩
    | halt => exact .inr (.inl rfl)

/-- A command is refused with a status, or its operation begins (30_encoding R111, R113). -/
theorem start_cases (s : State) (c : CoreId) (irq : Bool) (op : Op) :
    (∃ e, s.start c irq op = s.respond c irq e 0) ∨
    ∃ f, op = .ok f ∧ s.start c irq op = (s.setResp c irq none).advance c irq f := by
  unfold State.start
  split
  · exact .inl ⟨_, rfl⟩
  · cases op with
    | error e => exact .inl ⟨e, rfl⟩
    | ok f => exact .inr ⟨f, rfl, rfl⟩

/-- Presenting a command takes it out of the queue of the context the core is in (10_state R63). -/
theorem presented_eq {s s' : State} {c : CoreId} {cmd : Command} (h : s.presented c = some (cmd, s')) :
    ∃ q, s' = s.setCore c (if s.inIrqCtx c then { s.cores[c] with irqQ := q } else { s.cores[c] with mainQ := q }) := by
  unfold State.presented at h
  split at h
  · cases h
  · split at h
    · rename_i hirq
      split at h
      · cases h
      · split at h
        · cases h
        · rename_i q _
          injection h with h
          injection h with _ h
          exact ⟨q, by rw [if_pos hirq]; exact h.symm⟩
    · rename_i hirq
      split at h
      · cases h
      · rename_i q _
        injection h with h
        injection h with _ h
        exact ⟨q, by rw [if_neg hirq]; exact h.symm⟩

/-- What a turn of core `c` can be: nothing, a micro-step of its operation in flight, one of its dispatch, the refusal of an
illegal command, or the acceptance of a legal one. -/
theorem coreTurn_cases (s : State) (c : CoreId) :
    s.coreTurn c = s ∨
    (∃ f, s.flight c (s.inIrqCtx c) = some f ∧ s.coreTurn c = s.advance c (s.inIrqCtx c) f) ∨
    (∃ d rest, s.inIrqCtx c = true ∧ s.cores[c].cbDepth = 0 ∧ s.coreTurn c = s.dispatchStep c rest d) ∨
    ∃ cmd s', s.presented c = some (cmd, s') ∧
      (s.coreTurn c = s'.respond c (s'.inIrqCtx c) .badParameter 0 ∨
        ∃ i, s.coreTurn c = s'.start c (s'.inIrqCtx c) (opFor i s' c)) := by
  unfold State.coreTurn
  split
  · rename_i f hf
    exact .inr (.inl ⟨f, hf, rfl⟩)
  · split
    · rename_i hq
      rw [Bool.and_eq_true, decide_eq_true_eq] at hq
      obtain ⟨hirq, hdepth⟩ := hq
      split
      · exact .inl rfl
      · exact .inr (.inr (.inl ⟨_, _, hirq, hdepth, rfl⟩))
    · split
      · exact .inl rfl
      · rename_i cmd s' hp
        refine .inr (.inr (.inr ⟨cmd, s', hp, ?_⟩))
        split
        · exact .inl rfl
        · exact .inr ⟨_, rfl⟩

/-- What a micro-step of a dispatch can be: it goes on, it acknowledges event bits, it opens a handler, or it returns. -/
theorem dispatchStep_cases (s : State) (c : CoreId) (rest : List DStep) (d : DStep) :
    (∃ code, s.dispatchStep c rest d = s.setDisp c code) ∨
    (∃ r w, regIsW1c r = true ∧ s.dispatchStep c rest d = (s.writeReg r w).setDisp c rest) ∨
    (∃ kind h a0 a1, s.dispatchStep c rest d = (s.openHandler c kind h a0 a1).setDisp c rest) ∨
    s.dispatchStep c rest d = s.leaveIrq c := by
  cases d with
  | pwmAck m => exact .inr (.inl ⟨_, _, rfl, rfl⟩)
  | gpioAck b w => exact .inr (.inl ⟨.ioIntr b, w, rfl, rfl⟩)
  | invoke kind h a0 a1 => exact .inr (.inr (.inl ⟨kind, h, a0, a1, rfl⟩))
  | leave => exact .inr (.inr (.inr rfl))
  | _ => exact .inl ⟨_, rfl⟩

end Sys2Proof.Machine

/-! The invariants a step keeps whatever is in flight: the recorded pull (O54) and the event banks (O55). -/

namespace Sys2Proof.Machine

/-! ### What no command touches, every step keeps by its other parts -/

/-- `g` reads nothing of a core's operations in flight, responses and command queues. -/
def CommandFree {β : Type} (g : CoreSt → β) : Prop :=
  ∀ k main irq mainQ irqQ mainResp irqResp,
    g { k with main := main, irq := irq, mainQ := mainQ, irqQ := irqQ, mainResp := mainResp, irqResp := irqResp } = g k

theorem CommandFree.withFlight {β : Type} {g : CoreSt → β} (h : CommandFree g) (k : CoreSt) (irq : Bool) (f : Option Flight) :
    g (k.withFlight irq f) = g k := by
  cases irq
  · exact h k f k.irq k.mainQ k.irqQ k.mainResp k.irqResp
  · exact h k k.main f k.mainQ k.irqQ k.mainResp k.irqResp

theorem CommandFree.withResp {β : Type} {g : CoreSt → β} (h : CommandFree g) (k : CoreSt) (irq : Bool) (r : Option Resp) :
    g (k.withResp irq r) = g k := by
  cases irq
  · exact h k k.main k.irq k.mainQ k.irqQ r k.irqResp
  · exact h k k.main k.irq k.mainQ k.irqQ k.mainResp r

/-- Every step keeps an invariant that of the cores reads only `g`, which is free of commands, and that reads neither the turns
nor the selected core, if every micro-step, every micro-step of a dispatch and every step of the other agents keeps it. -/
theorem step_keeps_view {β : Type} (g : CoreSt → β) (hfree : CommandFree g) (I : State → Prop)
    (hcore : ∀ s c k, g k = g s.cores[c.val] → I s → I (s.setCore c k))
    (hturns : ∀ s ts n, I s → I { s with turns := ts, turnNo := n }) (hsel : ∀ s c, I s → I { s with sel := c })
    (hmicro : ∀ s c m t, MicroEffect s c m t → I s → I t)
    (hdisp : ∀ s c d rest, s.inIrqCtx c = true → s.cores[c].cbDepth = 0 → I s → I (s.dispatchStep c rest d))
    (hother : ∀ s t, (∀ c, t ≠ .core c) → I s → I (s.turnBody t)) (hedge : ∀ s, I s → I s.edgeDetect)
    (s t : State) (h : I s) (he : step s = .next t) : I t := by
  refine step_keeps_hardware I (fun s ts => hturns s ts s.turnNo) (fun s n => hturns s s.turns n) hsel ?present
    (fun s c irq f => hcore s c _ (hfree.withFlight ..)) (fun s c irq r => hcore s c _ (hfree.withResp ..))
    (fun s c m => hmicro s c m _ (microStep_effect s c m)) hdisp (fun s t hc _ => hother s t hc) hedge s t h he
  case present =>
    intro s c cmd s' hp hs
    obtain ⟨q, rfl⟩ := presented_eq hp
    refine hcore s c _ ?_ hs
    split
    · exact hfree s.cores[c] _ _ _ q _ _
    · exact hfree s.cores[c] _ _ q _ _ _

/-! ### The recorded pull (10_state R23 (c)) -/

/-- A register write reaches no entry of the function table (20_memory R80 (2)). -/
theorem storeReg_pinFn_pinPull (s : State) (r : Reg) (touched new : Word) :
    (s.storeReg r touched new).pinFn = s.pinFn ∧ (s.storeReg r touched new).pinPull = s.pinPull := by
  have hadc := storeReg_adcOnly s r touched new
  cases r with
  | rst | adcCs | adcFcs | adcDiv | adcInte | adcIntf =>
    obtain ⟨a, e⟩ := hadc rfl
    rw [e]
    exact ⟨rfl, rfl⟩
  | _ => exact ⟨rfl, rfl⟩

theorem pullInv_congr {s t : State} (hfn : t.pinFn = s.pinFn) (hpull : t.pinPull = s.pinPull) (h : s.PullInv) : t.PullInv := by
  intro p; rw [hfn, hpull]; exact h p

theorem pullInv_storeReg {s : State} (h : s.PullInv) (r : Reg) (touched new : Word) : (s.storeReg r touched new).PullInv :=
  pullInv_congr (storeReg_pinFn_pinPull ..).1 (storeReg_pinFn_pinPull ..).2 h

/-- A function is recorded together with its pull. -/
theorem pullInv_recorded {s : State} (h : s.PullInv) (p : Pin) (k : Mode) : (s.recorded p k).PullInv := by
  intro q
  simp only [State.recorded, Fin.getElem_fin, Vector.getElem_set]
  split
  · rfl
  · exact h q

theorem pullInv_effect {s t : State} {c : CoreId} {m : Micro} (e : MicroEffect s c m t) (h : s.PullInv) : t.PullInv := by
  cases e with
  | write r w => exact pullInv_storeReg h r _ _
  | setBits r n => exact pullInv_storeReg h r _ _
  | clrBits r n => exact pullInv_storeReg h r _ _
  | pinFn p k => exact pullInv_recorded h p k
  | _ => exact h

theorem pullInv_dispatchStep {s : State} (h : s.PullInv) (c : CoreId) (rest : List DStep) (d : DStep) :
    (s.dispatchStep c rest d).PullInv := by
  obtain ⟨_, e⟩ | ⟨r, w, -, e⟩ | ⟨_, _, _, _, e⟩ | e := dispatchStep_cases s c rest d <;> rw [e]
  · exact h
  · exact pullInv_storeReg h r _ w
  · exact h
  · exact h

theorem pullInv_otherTurn {s : State} (h : s.PullInv) (t : Turn) (hc : ∀ c, t ≠ .core c) : (s.turnBody t).PullInv := by
  cases t with
  | core c => exact absurd rfl (hc c)
  | enter c => obtain e | ⟨k, e⟩ := enterIrq_cases s c <;> simp only [State.turnBody, e] <;> exact h
  | adcSeq =>
    obtain ⟨a, xs, n, e⟩ := adcSeq_frame s
    simp only [State.turnBody, e]
    exact h
  | _ => exact h

/-- Settles O54: only the record of a function writes either table, and it writes both. -/
theorem stepKeepsPull : Obligations.StepKeepsPull := fun s t h he =>
  step_keeps_view (fun _ => ()) (fun _ _ _ _ _ _ _ => rfl) State.PullInv (fun _ _ _ _ h => h) (fun _ _ _ h => h) (fun _ _ h => h)
    (fun _ _ _ _ e h => pullInv_effect e h) (fun _ c d rest _ _ h => pullInv_dispatchStep h c rest d)
    (fun _ t hc h => pullInv_otherTurn h t hc) (fun _ h => h) s t h he

/-! ### The event banks (10_state R54 to R59) -/

/-- The bits of `x` are among those of `m`. -/
theorem and_not_eq_zero_iff {w : Nat} (x m : BitVec w) : x &&& ~~~m = 0 ↔ ∀ i, x.getLsbD i = true → m.getLsbD i = true := by
  constructor
  · intro h i hx
    have hi : i < w := BitVec.lt_of_getLsbD hx
    have hbit := congrArg (BitVec.getLsbD · i) h
    simpa [hi, hx] using hbit
  · intro h
    apply BitVec.eq_of_getLsbD_eq
    intro i hi
    cases hx : x.getLsbD i with
    | false => simp [hx]
    | true => simp [hi, h i hx]

theorem or_and_not_eq_zero {w : Nat} {x y m : BitVec w} (hx : x &&& ~~~m = 0) (hy : y &&& ~~~m = 0) : (x ||| y) &&& ~~~m = 0 := by
  rw [and_not_eq_zero_iff] at *
  intro i hi
  rw [BitVec.getLsbD_or, Bool.or_eq_true] at hi
  exact hi.elim (hx i) (hy i)

theorem and_and_not_eq_zero {w : Nat} {x m : BitVec w} (hx : x &&& ~~~m = 0) (y : BitVec w) : (x &&& y) &&& ~~~m = 0 := by
  rw [and_not_eq_zero_iff] at *
  intro i hi
  rw [BitVec.getLsbD_and, Bool.and_eq_true] at hi
  exact hx i hi.1

/-- The latched bits of a register are the fall and the rise of its existing pins. -/
theorem edgeMask_getLsbD (b : BankReg) (i : Fin 32) :
    (edgeMask b).getLsbD i.val = (decide (8 * b.val + i.val / 4 < 30) && (i.val % 4 == 2 || i.val % 4 == 3)) := by
  revert b i; decide

/-- An edge bit of pins that exist is a latched bit. -/
theorem spread_within_edgeMask (x : BitVec 30) (b : BankReg) {k : Nat} (hk : k = 2 ∨ k = 3) :
    spread (pinBit x b) k &&& ~~~edgeMask b = 0 := by
  rw [and_not_eq_zero_iff]
  intro i hi
  simp only [spread_getLsbD, pinBit, Bool.and_eq_true, decide_eq_true_eq, beq_iff_eq] at hi
  obtain ⟨hlt, hmod, hpin⟩ := hi
  have hexists : 8 * b.val + i / 4 < 30 := BitVec.lt_of_getLsbD hpin
  rw [edgeMask_getLsbD b ⟨i, hlt⟩]
  rcases hk with rfl | rfl <;> simp [hexists, hmod]

/-- The bit an asserted edge latches is one that exists. -/
theorem edgeBit_within_edgeMask (p : Pin) (rise : Bool) :
    (if rise then riseOf p else fallOf p) &&& ~~~edgeMask (bankOf p) = 0 := by
  revert p rise; decide

/-- The raw bank stores only latched bits that exist (10_state R54, R56). -/
abbrev State.RawOk (s : State) : Prop := ∀ b : BankReg, s.ioIntr[b.val] &&& ~~~edgeMask b = 0

/-- The enable and force banks of a core store only bits that exist (10_state R58, R59). -/
abbrev CoreSt.BanksOk (k : CoreSt) : Prop := ∀ b : BankReg, k.inte[b.val] &&& ~~~bankMask b = 0 ∧ k.intf[b.val] &&& ~~~bankMask b = 0

theorem bankInv_iff (s : State) : s.BankInv ↔ s.RawOk ∧ ∀ c : CoreId, s.cores[c.val].BanksOk :=
  ⟨fun h => ⟨fun b => (h b).1, fun c b => (h b).2 c⟩, fun ⟨hraw, hbanks⟩ b => ⟨hraw b, fun c => hbanks c b⟩⟩

theorem bankInv_setCore {s : State} (h : s.BankInv) (c : CoreId) {k : CoreSt} (hk : k.BanksOk) : (s.setCore c k).BankInv := by
  obtain ⟨hraw, hbanks⟩ := (bankInv_iff s).1 h
  refine (bankInv_iff _).2 ⟨hraw, fun d => ?_⟩
  by_cases hd : c = d
  · subst hd; rw [setCore_same]; exact hk
  · rw [setCore_other s c d k hd]; exact hbanks d

/-- An update of a core that leaves its enable and force banks. -/
theorem bankInv_setCore_same {s : State} (h : s.BankInv) (c : CoreId) {k : CoreSt}
    (hk : (k.inte, k.intf) = (s.cores[c.val].inte, s.cores[c.val].intf)) : (s.setCore c k).BankInv := by
  obtain ⟨hinte, hintf⟩ := Prod.mk.inj hk
  refine bankInv_setCore h c fun b => ?_
  rw [hinte, hintf]
  exact ((bankInv_iff s).1 h).2 c b

theorem bankInv_setRaw {s : State} (h : s.BankInv) (b : BankReg) {w : Word} (hw : w &&& ~~~edgeMask b = 0) :
    ({ s with ioIntr := s.ioIntr.set b w } : State).BankInv := by
  obtain ⟨hraw, hbanks⟩ := (bankInv_iff s).1 h
  refine (bankInv_iff _).2 ⟨fun d => ?_, hbanks⟩
  simp only [Vector.getElem_set]
  split
  · rename_i hd
    rw [← Fin.ext hd]; exact hw
  · exact hraw d

/-- A write masks what it stores in an enable or a force bank, and only clears latched bits (20_memory R86 (a)). -/
theorem bankInv_storeReg {s : State} (h : s.BankInv) (r : Reg) (touched new : Word) : (s.storeReg r touched new).BankInv := by
  have hmask : ∀ b : BankReg, (new &&& bankMask b) &&& ~~~bankMask b = 0 := fun b => by
    simp [BitVec.and_assoc]
  have hset : ∀ (v : Vector Word 4) (b : BankReg), (∀ d : BankReg, v[d.val] &&& ~~~bankMask d = 0) →
      ∀ d : BankReg, (v.set b (new &&& bankMask b))[d.val] &&& ~~~bankMask d = 0 := by
    intro v b hv d
    rw [Vector.getElem_set]
    split
    · rename_i hd
      rw [← Fin.ext hd]; exact hmask b
    · exact hv d
  have hbanks := fun c => ((bankInv_iff s).1 h).2 c
  have hadc := storeReg_adcOnly s r touched new
  cases r with
  | ioIntr b => exact bankInv_setRaw h b (and_and_not_eq_zero ((h b).1) _)
  | ioInte c b => exact bankInv_setCore h c fun d => ⟨hset _ b (fun d => (hbanks c d).1) d, (hbanks c d).2⟩
  | ioIntf c b => exact bankInv_setCore h c fun d => ⟨(hbanks c d).1, hset _ b (fun d => (hbanks c d).2) d⟩
  | rst | adcCs | adcFcs | adcDiv | adcInte | adcIntf =>
    obtain ⟨a, e⟩ := hadc rfl
    rw [e]
    exact h
  | _ => exact h

theorem bankInv_edgeDetect {s : State} (h : s.BankInv) : s.edgeDetect.BankInv := by
  obtain ⟨hraw, hbanks⟩ := (bankInv_iff s).1 h
  refine (bankInv_iff _).2 ⟨fun b => ?_, hbanks⟩
  rw [latch_eq]
  exact or_and_not_eq_zero (or_and_not_eq_zero (hraw b) (spread_within_edgeMask _ b (.inr rfl))) (spread_within_edgeMask _ b (.inl rfl))

theorem bankInv_effect {s t : State} {c : CoreId} {m : Micro} (e : MicroEffect s c m t) (h : s.BankInv) : t.BankInv := by
  cases e with
  | write r w => exact bankInv_storeReg h r _ _
  | setBits r n => exact bankInv_storeReg h r _ _
  | clrBits r n => exact bankInv_storeReg h r _ _
  | gatePwm | gateGpio | bind | close => exact bankInv_setCore_same h c rfl
  | _ => exact h

theorem bankInv_dispatchStep {s : State} (h : s.BankInv) (c : CoreId) (rest : List DStep) (d : DStep) :
    (s.dispatchStep c rest d).BankInv := by
  obtain ⟨_, e⟩ | ⟨r, w, -, e⟩ | ⟨kind, hd, a0, a1, e⟩ | e := dispatchStep_cases s c rest d <;> rw [e]
  · exact bankInv_setCore_same h c rfl
  · exact bankInv_setCore_same (bankInv_storeReg h r _ w) c rfl
  · have hopen : (s.openHandler c kind hd a0 a1).BankInv := bankInv_setCore_same h c rfl
    exact bankInv_setCore_same hopen c rfl
  · exact bankInv_setCore_same h c rfl

theorem bankInv_otherTurn {s : State} (h : s.BankInv) (t : Turn) (hc : ∀ c, t ≠ .core c) : (s.turnBody t).BankInv := by
  cases t with
  | core c => exact absurd rfl (hc c)
  | enter c =>
    obtain e | ⟨k, e⟩ := enterIrq_cases s c <;> simp only [State.turnBody, e]
    · exact h
    · exact bankInv_setCore_same h c rfl
  | adcSeq =>
    obtain ⟨a, xs, n, e⟩ := adcSeq_frame s
    simp only [State.turnBody, e]
    exact h
  | hostEvent p rise => exact bankInv_setRaw h _ (or_and_not_eq_zero (h (bankOf p)).1 (edgeBit_within_edgeMask p rise))
  | _ => exact h

/-- Settles O55: writes are masked, and the edge detector and `AssertEvent` latch only edge bits of existing pins. -/
theorem stepKeepsBanks : Obligations.StepKeepsBanks := fun s t h he =>
  step_keeps_view (fun k => (k.inte, k.intf)) (fun _ _ _ _ _ _ _ => rfl) State.BankInv (fun _ c _ hk h => bankInv_setCore_same h c hk)
    (fun _ _ _ h => h) (fun _ _ h => h) (fun _ _ _ _ e h => bankInv_effect e h)
    (fun _ c d rest _ _ h => bankInv_dispatchStep h c rest d) (fun _ t hc h => bankInv_otherTurn h t hc)
    (fun _ h => bankInv_edgeDetect h) s t h he

end Sys2Proof.Machine

/-! The invariants a step keeps whatever is in flight: interrupts (O57) and the ADC block (O56). -/

namespace Sys2Proof.Machine

/-! ### Interrupts (10_state R63, R64, 60_exceptions R330, R331) -/

/-- A core has at most one handler open, and outside an interrupt none, and no dispatch. -/
abbrev CoreSt.IrqOk (k : CoreSt) : Prop := k.cbDepth ≤ 1 ∧ (k.inIrq = none → k.cbDepth = 0 ∧ k.disp = [])

theorem irqInv_setCore {s : State} (h : s.IrqInv) (c : CoreId) {k : CoreSt} (hk : k.IrqOk) : (s.setCore c k).IrqInv := by
  intro d
  by_cases hd : c = d
  · subst hd
    rw [Fin.getElem_fin, setCore_same]
    exact hk
  · rw [Fin.getElem_fin, setCore_other s c d k hd]
    exact h d

/-- An update of a core that leaves its interrupt, its open handler and its dispatch. -/
theorem irqInv_setCore_same {s : State} (h : s.IrqInv) (c : CoreId) {k : CoreSt}
    (hk : (k.cbDepth, k.inIrq, k.disp) = (s.cores[c.val].cbDepth, s.cores[c.val].inIrq, s.cores[c.val].disp)) :
    (s.setCore c k).IrqInv := by
  obtain ⟨hdepth, hirq, hdisp⟩ : k.cbDepth = s.cores[c.val].cbDepth ∧ k.inIrq = s.cores[c.val].inIrq ∧
      k.disp = s.cores[c.val].disp := by simpa using hk
  refine irqInv_setCore h c ?_
  rw [CoreSt.IrqOk, hdepth, hirq, hdisp]
  exact h c

/-- A core that serves an interrupt may go on with any dispatch, one handler open or none. -/
theorem irqOk_of_serving {k : CoreSt} (hirq : k.inIrq.isSome = true) (hdepth : k.cbDepth ≤ 1) : k.IrqOk :=
  ⟨hdepth, fun hnone => by rw [hnone] at hirq; cases hirq⟩

theorem irqInv_storeReg {s : State} (h : s.IrqInv) (r : Reg) (touched new : Word) : (s.storeReg r touched new).IrqInv := by
  intro c
  have hsame : (s.storeReg r touched new).cores[c.val].IrqOk = s.cores[c.val].IrqOk :=
    storeReg_core s c r touched new CoreSt.IrqOk (fun _ _ => rfl) (fun _ _ => rfl)
  exact hsame.mpr (h c)

theorem irqInv_effect {s t : State} {c : CoreId} {m : Micro} (e : MicroEffect s c m t) (h : s.IrqInv) : t.IrqInv := by
  cases e with
  | write r w => exact irqInv_storeReg h r _ _
  | setBits r n => exact irqInv_storeReg h r _ _
  | clrBits r n => exact irqInv_storeReg h r _ _
  | gatePwm | gateGpio | bind => exact irqInv_setCore_same h c rfl
  | close => exact irqInv_setCore h c ⟨Nat.zero_le 1, fun hirq => ⟨rfl, ((h c).2 hirq).2⟩⟩
  | _ => exact h

/-- The dispatch of a core that serves an interrupt, no handler being open: only its return ends the interrupt. -/
theorem irqInv_dispatchStep {s : State} (h : s.IrqInv) {c : CoreId} (hirq : s.inIrqCtx c = true) (hdepth : s.cores[c].cbDepth = 0)
    (rest : List DStep) (d : DStep) : (s.dispatchStep c rest d).IrqInv := by
  have hle : s.cores[c].cbDepth ≤ 1 := (h c).1
  obtain ⟨_, e⟩ | ⟨r, w, -, e⟩ | ⟨kind, hd, a0, a1, e⟩ | e := dispatchStep_cases s c rest d <;> rw [e]
  · exact irqInv_setCore h c (irqOk_of_serving hirq hle)
  · have hsame : (s.writeReg r w).cores[c.val].inIrq = s.cores[c.val].inIrq :=
      storeReg_core s c r _ w CoreSt.inIrq (fun _ _ => rfl) (fun _ _ => rfl)
    have hwrite : (s.writeReg r w).IrqInv := irqInv_storeReg h r _ w
    exact irqInv_setCore hwrite c (irqOk_of_serving (by rw [Fin.getElem_fin, hsame]; exact hirq) (hwrite c).1)
  · have hopened : (s.openHandler c kind hd a0 a1).cores[c.val]
        = { s.cores[c] with cbDepth := 1, irqQ := (s.openHandler c kind hd a0 a1).cores[c.val].irqQ } := by
      simp [State.openHandler]
    have hopen : (s.openHandler c kind hd a0 a1).IrqInv := irqInv_setCore h c (irqOk_of_serving hirq (Nat.le_refl 1))
    exact irqInv_setCore hopen c (irqOk_of_serving (by rw [Fin.getElem_fin, hopened]; exact hirq) (hopen c).1)
  · exact irqInv_setCore h c ⟨hle, fun _ => ⟨hdepth, rfl⟩⟩

theorem irqInv_otherTurn {s : State} (h : s.IrqInv) (t : Turn) (hc : ∀ c, t ≠ .core c) : (s.turnBody t).IrqInv := by
  cases t with
  | core c => exact absurd rfl (hc c)
  | enter c =>
    obtain e | ⟨k, e⟩ := enterIrq_cases s c <;> simp only [State.turnBody, e]
    · exact h
    · exact irqInv_setCore h c (irqOk_of_serving rfl (h c).1)
  | adcSeq =>
    obtain ⟨a, xs, n, e⟩ := adcSeq_frame s
    simp only [State.turnBody, e]
    exact h
  | _ => exact h

/-- Settles O57: a handler is opened by the dispatch, one at a time, and the dispatch returns only with none open. -/
theorem stepKeepsInterrupts : Obligations.StepKeepsInterrupts := fun s t h he =>
  step_keeps_view (fun k => (k.cbDepth, k.inIrq, k.disp)) (fun _ _ _ _ _ _ _ => rfl) State.IrqInv
    (fun _ c _ hk h => irqInv_setCore_same h c hk) (fun _ _ _ h => h) (fun _ _ h => h) (fun _ _ _ _ e h => irqInv_effect e h)
    (fun _ _ d rest hirq hdepth h => irqInv_dispatchStep h hirq hdepth rest d) (fun _ t hc h => irqInv_otherTurn h t hc)
    (fun _ h => h) s t h he

/-! ### The ADC block (43_adc_sequencer R244 to R251) -/

/-- What a write of `ADC_CS` that leaves `READY` stores. -/
def AdcBlock.csWith (a : AdcBlock) (new : Word) : Word := (new &&& csStored) ||| (a.cs &&& csReady)

theorem csWith_en (a : AdcBlock) (new : Word) : (a.csWith new).getLsbD 0 = new.getLsbD 0 := by simp [AdcBlock.csWith, csStored, csReady]
theorem csWith_ready (a : AdcBlock) (new : Word) : (a.csWith new).getLsbD 8 = a.ready := by
  simp [AdcBlock.csWith, csStored, csReady, AdcBlock.ready]

theorem stored_within_fields (new : Word) : (new &&& csStored) &&& ~~~0x7703#32 = 0 := by
  rw [BitVec.and_assoc, show csStored &&& ~~~0x7703#32 = 0#32 from by decide, BitVec.and_zero]; rfl

theorem ready_within_fields (x : Word) : (x &&& csReady) &&& ~~~0x7703#32 = 0 := by
  rw [BitVec.and_assoc, show csReady &&& ~~~0x7703#32 = 0#32 from by decide, BitVec.and_zero]; rfl

theorem csWith_within_fields (a : AdcBlock) (new : Word) : a.csWith new &&& ~~~0x7703#32 = 0 :=
  or_and_not_eq_zero (stored_within_fields new) (ready_within_fields a.cs)

/-- A write of `ADC_CS` before the start of a conversion: it disables the block, enables it, or leaves it as it is. -/
def AdcBlock.enableCs (a : AdcBlock) (p : Params) (touched new : Word) : AdcBlock :=
  if !new.getLsbD 0 then
    if touched.getLsbD 0 then { a with cs := new &&& csStored, readyLeft := none, convLeft := none } else { a with cs := a.csWith new }
  else if !a.en then { a with cs := a.csWith new, readyLeft := some p.readyTicks }
  else { a with cs := a.csWith new }

/-- A conversion begins (43_adc_sequencer R250). -/
def AdcBlock.startConv (a : AdcBlock) (p : Params) : AdcBlock :=
  { a with cs := a.cs &&& ~~~csReady, convLeft := some p.convTicks }

theorem writeCs_eq (a : AdcBlock) (p : Params) (touched new : Word) :
    a.writeCs p touched new =
      if new.getLsbD 2 && (a.enableCs p touched new).en && (a.enableCs p touched new).ready
      then (a.enableCs p touched new).startConv p else a.enableCs p touched new := rfl

/-- `new` is what a write with these touched bits may deliver to `ADC_CS`: where it leaves `EN` untouched, as it was. -/
theorem adcInv_enableCs {a : AdcBlock} (h : a.Inv) (hrst : a.rst = false) (p : Params) {touched new : Word}
    (huntouched : touched.getLsbD 0 = false → new.getLsbD 0 = a.en) : (a.enableCs p touched new).Inv := by
  obtain ⟨-, hreset, hoff, htimer, hexcl, -⟩ := h
  unfold AdcBlock.enableCs
  split
  · rename_i hnew
    rw [Bool.not_eq_true'] at hnew
    split
    · refine ⟨?_, hreset, fun _ => ⟨?_, rfl, rfl⟩, ?_, ?_, stored_within_fields new⟩ <;> simp [AdcBlock.ready, csStored, hrst]
    · rename_i htouched
      have hen : a.en = false := (huntouched (by simpa using htouched)).symm.trans hnew
      obtain ⟨hready, hready', hconv⟩ := hoff hen
      refine ⟨?_, hreset, fun _ => ⟨(csWith_ready a new).trans hready, hready', hconv⟩, fun _ => (csWith_ready a new).trans hready,
        hexcl, csWith_within_fields a new⟩
      simp [hrst]
  · rename_i hnew
    have hon : (a.csWith new).getLsbD 0 = true := (csWith_en a new).trans (by simpa using hnew)
    split
    · rename_i hen
      obtain ⟨hready, -, hconv⟩ := hoff (by simpa using hen)
      refine ⟨?_, hreset, fun hoff' => absurd (hon.symm.trans hoff') (by decide), fun _ => (csWith_ready a new).trans hready, ?_,
        csWith_within_fields a new⟩ <;> simp [hrst, hconv]
    · refine ⟨?_, hreset, fun hoff' => absurd (hon.symm.trans hoff') (by decide),
        fun hrun => (csWith_ready a new).trans (htimer hrun), hexcl, csWith_within_fields a new⟩
      simp [hrst]

theorem adcInv_startConv {a : AdcBlock} (h : a.Inv) (hrst : a.rst = false) (hen : a.en = true) (hready : a.ready = true) (p : Params) :
    (a.startConv p).Inv := by
  obtain ⟨-, hreset, -, htimer, -, hfields⟩ := h
  have hidle : a.readyLeft = none := by
    cases hleft : a.readyLeft with
    | none => rfl
    | some n => rw [htimer (.inl (by rw [hleft]; rfl))] at hready; cases hready
  have hon : (a.startConv p).en = true := by
    rw [AdcBlock.en] at hen
    simp [AdcBlock.startConv, AdcBlock.en, csReady, hen]
  refine ⟨?_, hreset, fun hoff => absurd (hon.symm.trans hoff) (by decide), ?_, fun _ => hidle, and_and_not_eq_zero hfields _⟩ <;>
    simp [AdcBlock.startConv, AdcBlock.ready, csReady, hrst]

theorem enableCs_rst (a : AdcBlock) (p : Params) (touched new : Word) : (a.enableCs p touched new).rst = a.rst := by
  unfold AdcBlock.enableCs
  split <;> split <;> rfl

theorem adcInv_writeCs {a : AdcBlock} (h : a.Inv) (hrst : a.rst = false) (p : Params) {touched new : Word}
    (huntouched : touched.getLsbD 0 = false → new.getLsbD 0 = a.en) : (a.writeCs p touched new).Inv := by
  have henabled := adcInv_enableCs h hrst p huntouched
  rw [writeCs_eq]
  split
  · rename_i hstart
    simp only [Bool.and_eq_true] at hstart
    obtain ⟨⟨-, hen⟩, hready⟩ := hstart
    exact adcInv_startConv henabled ((enableCs_rst ..).trans hrst) hen hready p
  · exact henabled

/-- A write of a register the block only stores, out of reset. -/
theorem adcInv_congr {a b : AdcBlock} (h : a.Inv) (hrst : b.rst = false) (hdone : b.rstDone = a.rstDone) (hcs : b.cs = a.cs)
    (hreset : b.resetLeft = a.resetLeft) (hready : b.readyLeft = a.readyLeft) (hconv : b.convLeft = a.convLeft) : b.Inv := by
  obtain ⟨-, hrest⟩ := h
  refine ⟨fun hr => absurd (hrst.symm.trans hr) (by decide), ?_⟩
  simpa only [AdcBlock.en, AdcBlock.ready, hdone, hcs, hreset, hready, hconv] using hrest

theorem adcInv_assertReset (a : AdcBlock) : a.assertReset.Inv := by
  refine ⟨fun _ => rfl, ?_, ?_, ?_, ?_, ?_⟩ <;> simp [AdcBlock.assertReset, AdcBlock.ready]

theorem adcInv_releaseReset {a : AdcBlock} (h : a.Inv) (ticks : Nat) : (a.releaseReset ticks).Inv := by
  unfold AdcBlock.releaseReset
  split
  · rename_i hrst
    rw [h.1 hrst]
    refine ⟨?_, ?_, ?_, ?_, ?_, ?_⟩ <;> simp [AdcBlock.reset, AdcBlock.ready]
  · exact h

theorem adcInv_storeReg {s : State} (h : s.adc.Inv) (r : Reg) {touched new : Word}
    (huntouched : r = .adcCs → touched.getLsbD 0 = false → new.getLsbD 0 = s.adc.en) : (s.storeReg r touched new).adc.Inv := by
  cases r with
  | rst =>
    simp only [State.storeReg]
    split
    · exact h
    · split
      · exact adcInv_assertReset s.adc
      · exact adcInv_releaseReset h _
  | adcCs =>
    simp only [State.storeReg]
    split
    · exact h
    · rename_i hrst
      exact adcInv_writeCs h (by simpa using hrst) s.params (huntouched rfl)
  | adcFcs | adcDiv | adcInte | adcIntf =>
    simp only [State.storeReg]
    split
    · exact h
    · rename_i hrst
      exact adcInv_congr h (by simpa using hrst) rfl rfl rfl rfl rfl
  | _ => exact h

theorem adcInv_writeReg {s : State} (h : s.adc.Inv) (r : Reg) (w : Word) : (s.writeReg r w).adc.Inv :=
  adcInv_storeReg h r fun _ htouched => absurd htouched (by decide)

/-- A masked set delivers the bits outside its mask as they are. -/
theorem adcInv_setBits {s : State} (h : s.adc.Inv) (r : Reg) (n : Word) : (s.setBits r n).adc.Inv := by
  refine adcInv_storeReg h r ?_
  rintro rfl htouched
  show (s.adc.cs ||| n).getLsbD 0 = s.adc.cs.getLsbD 0
  rw [BitVec.getLsbD_or, htouched, Bool.or_false]

theorem adcInv_clrBits {s : State} (h : s.adc.Inv) (r : Reg) (n : Word) : (s.clrBits r n).adc.Inv := by
  refine adcInv_storeReg h r ?_
  rintro rfl htouched
  show (s.adc.cs &&& ~~~n).getLsbD 0 = s.adc.cs.getLsbD 0
  rw [BitVec.getLsbD_and, BitVec.getLsbD_not, htouched]
  simp

theorem adcInv_effect {s t : State} {c : CoreId} {m : Micro} (e : MicroEffect s c m t) (h : s.adc.Inv) : t.adc.Inv := by
  cases e with
  | write r w => exact adcInv_writeReg h r w
  | setBits r n => exact adcInv_setBits h r n
  | clrBits r n => exact adcInv_clrBits h r n
  | _ => exact h

theorem adcInv_dispatchStep {s : State} (h : s.adc.Inv) (c : CoreId) (rest : List DStep) (d : DStep) :
    (s.dispatchStep c rest d).adc.Inv := by
  obtain ⟨_, e⟩ | ⟨r, w, -, e⟩ | ⟨_, _, _, _, e⟩ | e := dispatchStep_cases s c rest d <;> rw [e]
  · exact h
  · exact adcInv_writeReg h r w
  · exact h
  · exact h

/-! The three timers of `AdcSeq` take their step one after another; an idle one changes nothing. -/

/-- `ADC_CS` with `READY` set where a timer has fired. -/
def readyIf (fires : Bool) (cs : Word) : Word := if fires then cs ||| csReady else cs

def AdcBlock.tickReset (a : AdcBlock) : AdcBlock :=
  { a with resetLeft := (countdown a.resetLeft).1, rstDone := a.rstDone || (countdown a.resetLeft).2 }

def AdcBlock.tickReady (a : AdcBlock) : AdcBlock :=
  { a with readyLeft := (countdown a.readyLeft).1, cs := readyIf (countdown a.readyLeft).2 a.cs }

def AdcBlock.tickConv (a : AdcBlock) (w : BitVec 12) : AdcBlock :=
  { a with convLeft := (countdown a.convLeft).1, cs := readyIf (countdown a.convLeft).2 a.cs,
           result := if (countdown a.convLeft).2 then w else a.result }

theorem adcSeq_adc (s : State) : s.adcSeq.adc = (s.adc.tickReset.tickReady).tickConv (s.sample s.adc.ainsel) := by
  have hcs : ∀ (r c : Bool) (cs : Word), (if r || c then cs ||| csReady else cs) = readyIf c (readyIf r cs) := by
    intro r c cs
    cases r <;> cases c <;> simp [readyIf, BitVec.or_assoc]
  have hadc : s.adcSeq.adc =
      { s.adc with
        resetLeft := (countdown s.adc.resetLeft).1, readyLeft := (countdown s.adc.readyLeft).1,
        convLeft := (countdown s.adc.convLeft).1, rstDone := s.adc.rstDone || (countdown s.adc.resetLeft).2,
        cs := if (countdown s.adc.readyLeft).2 || (countdown s.adc.convLeft).2 then s.adc.cs ||| csReady else s.adc.cs,
        result := if (countdown s.adc.convLeft).2 then s.sample s.adc.ainsel else s.adc.result } := by
    simp only [State.adcSeq]
    split <;> rfl
  rw [hadc, hcs]
  rfl

theorem countdown_cases (t : Option Nat) : countdown t = (t, false) ∧ t = none ∨
    t.isSome = true ∧ (countdown t = (none, true) ∨ ∃ n, countdown t = (some n, false)) := by
  cases t with
  | none => exact .inl ⟨rfl, rfl⟩
  | some n =>
    refine .inr ⟨rfl, ?_⟩
    by_cases hlast : n ≤ 1
    · exact .inl (if_pos hlast)
    · exact .inr ⟨n - 1, if_neg hlast⟩

/-- A block with a timer running is out of reset. -/
theorem adcInv_running {a : AdcBlock} (h : a.Inv)
    (hrun : a.resetLeft.isSome = true ∨ a.readyLeft.isSome = true ∨ a.convLeft.isSome = true) : a.rst = false := by
  cases hrst : a.rst with
  | false => rfl
  | true => rw [h.1 hrst] at hrun; simp [AdcBlock.reset] at hrun

theorem adcInv_enabled {a : AdcBlock} (h : a.Inv) (hrun : a.readyLeft.isSome = true ∨ a.convLeft.isSome = true) : a.en = true := by
  cases hen : a.en with
  | true => rfl
  | false =>
    obtain ⟨-, -, hoff, -⟩ := h
    obtain ⟨-, hready, hconv⟩ := hoff hen
    simp [hready, hconv] at hrun

theorem adcInv_tickReset {a : AdcBlock} (h : a.Inv) : a.tickReset.Inv := by
  unfold AdcBlock.tickReset
  obtain ⟨e, hnone⟩ | ⟨hrun, hcount⟩ := countdown_cases a.resetLeft
  · rw [e, Bool.or_false]; exact h
  · have hrst := adcInv_running h (.inl hrun)
    obtain ⟨-, hreset, hrest⟩ := h
    obtain e | ⟨n, e⟩ := hcount <;> rw [e]
    · exact ⟨by simp [hrst], by simp, hrest⟩
    · exact ⟨by simp [hrst], by simp [hreset hrun], hrest⟩

/-- `READY` sets on an enabled block with no other timer running. -/
theorem adcInv_ready {a : AdcBlock} (h : a.Inv) (hrst : a.rst = false) (hen : a.en = true) {r c : Option Nat}
    (hr : r = none) (hc : c = none) (w : BitVec 12) :
    ({ a with cs := a.cs ||| csReady, readyLeft := r, convLeft := c, result := w } : AdcBlock).Inv := by
  subst hr hc
  obtain ⟨-, hreset, -, -, -, hfields⟩ := h
  have hready : csReady &&& ~~~0x7703#32 = 0 := by decide
  rw [AdcBlock.en] at hen
  refine ⟨?_, hreset, ?_, ?_, fun _ => rfl, or_and_not_eq_zero hfields hready⟩ <;> simp [AdcBlock.en, hrst, hen]

theorem adcInv_tickReady {a : AdcBlock} (h : a.Inv) : a.tickReady.Inv := by
  unfold AdcBlock.tickReady
  obtain ⟨e, hnone⟩ | ⟨hrun, hcount⟩ := countdown_cases a.readyLeft
  · rw [e]; exact h
  · have hrst := adcInv_running h (.inr (.inl hrun))
    have hen := adcInv_enabled h (.inl hrun)
    have ⟨_, hreset, hoff, htimer, hexcl, hfields⟩ := h
    have hconv : a.convLeft = none := by
      cases hc : a.convLeft with
      | none => rfl
      | some n => rw [hexcl (by rw [hc]; rfl)] at hrun; cases hrun
    obtain e | ⟨n, e⟩ := hcount <;> rw [e]
    · exact adcInv_ready h hrst hen rfl hconv a.result
    · exact ⟨by simp [hrst], hreset, fun hoff' => absurd (hen.symm.trans hoff') (by decide), fun _ => htimer (.inl hrun),
        by simp [hconv], hfields⟩

theorem adcInv_tickConv {a : AdcBlock} (h : a.Inv) (w : BitVec 12) : (a.tickConv w).Inv := by
  unfold AdcBlock.tickConv
  obtain ⟨e, hnone⟩ | ⟨hrun, hcount⟩ := countdown_cases a.convLeft
  · rw [e]; exact h
  · have hrst := adcInv_running h (.inr (.inr hrun))
    have hen := adcInv_enabled h (.inr hrun)
    have ⟨_, hreset, hoff, htimer, hexcl, hfields⟩ := h
    have hready : a.readyLeft = none := hexcl hrun
    obtain e | ⟨n, e⟩ := hcount <;> rw [e]
    · exact adcInv_ready h hrst hen hready rfl w
    · exact ⟨by simp [hrst], hreset, fun hoff' => absurd (hen.symm.trans hoff') (by decide), fun _ => htimer (.inr hrun),
        fun _ => hready, hfields⟩

theorem adcInv_otherTurn {s : State} (h : s.adc.Inv) (t : Turn) (hc : ∀ c, t ≠ .core c) : (s.turnBody t).adc.Inv := by
  cases t with
  | core c => exact absurd rfl (hc c)
  | enter c => obtain e | ⟨k, e⟩ := enterIrq_cases s c <;> simp only [State.turnBody, e] <;> exact h
  | adcSeq =>
    simp only [State.turnBody, adcSeq_adc]
    exact adcInv_tickConv (adcInv_tickReady (adcInv_tickReset h)) _
  | _ => exact h

/-- Settles O56: register writes, masked or not, and each timer of `AdcSeq` keep the block legal. -/
theorem stepKeepsAdc : Obligations.StepKeepsAdc := fun s t h he =>
  step_keeps_view (fun _ => ()) (fun _ _ _ _ _ _ _ => rfl) (fun s => s.adc.Inv) (fun _ _ _ _ h => h) (fun _ _ _ h => h)
    (fun _ _ h => h) (fun _ _ _ _ e h => adcInv_effect e h) (fun _ c d rest _ _ h => adcInv_dispatchStep h c rest d)
    (fun _ t hc h => adcInv_otherTurn h t hc) (fun _ h => h) s t h he

end Sys2Proof.Machine

/-! The dividers (O58): an invariant of the slices and of the operations in flight. -/

namespace Sys2Proof.Machine

/-! ### The dividers: one slice (10_state R34, R40, 42_pwm_engine R183) -/

/-- `INT` of a word written to `PWM_DIV` is 0 exactly where the write is refused (45_register_primitives R406). -/
theorem divField_eq_zero_iff (w : Word) : (w.extractLsb' 0 12).extractLsb' 4 8 = 0 ↔ w &&& 0xFF0 = 0 := by
  have hfield : ∀ i : Fin 32, BitVec.getLsbD (0xFF0 : Word) i.val = (decide (4 ≤ i.val) && decide (i.val < 12)) := by decide
  have hfield' : ∀ i, i < 32 → BitVec.getLsbD (0xFF0 : Word) i = (decide (4 ≤ i) && decide (i < 12)) := fun i hi => hfield ⟨i, hi⟩
  constructor
  · intro h
    apply BitVec.eq_of_getLsbD_eq
    intro i hi
    have hbit := congrArg (BitVec.getLsbD · (i - 4)) h
    rw [BitVec.getLsbD_and, hfield' i hi]
    by_cases hlow : 4 ≤ i <;> by_cases hhigh : i < 12
    · simp only [BitVec.getLsbD_extractLsb', show i - 4 < 8 by omega, show 4 + (i - 4) = i by omega, hhigh] at hbit
      simpa [hlow, hhigh] using hbit
    all_goals simp [hlow, hhigh]
  · intro h
    apply BitVec.eq_of_getLsbD_eq
    intro i hi
    have hbit := congrArg (BitVec.getLsbD · (4 + i)) h
    simp only [BitVec.getLsbD_and, hfield' (4 + i) (by omega)] at hbit
    simpa [hi, show 4 + i < 12 by omega] using hbit

theorem divWord_divInt (k : PwmCfg) : ((divWord k).extractLsb' 0 12).extractLsb' 4 8 = k.divInt := by
  apply BitVec.eq_of_getLsbD_eq
  intro i hi
  rw [divWord, BitVec.getLsbD_extractLsb', BitVec.getLsbD_extractLsb', BitVec.getLsbD_setWidth, BitVec.getLsbD_append]
  simp [hi, show 4 + i < 12 by omega, show 4 + i < 32 by omega]

/-- What `PWM_DIV` reads has the slice's own `INT`. -/
theorem readDiv_divInt (sl : Slice) : ((sl.div.setWidth 32).extractLsb' 0 12).extractLsb' 4 8 = sl.divInt := by
  apply BitVec.eq_of_getLsbD_eq
  intro i hi
  rw [Slice.divInt, BitVec.getLsbD_extractLsb', BitVec.getLsbD_extractLsb', BitVec.getLsbD_extractLsb', BitVec.getLsbD_setWidth]
  simp [hi, show 4 + i < 12 by omega, show 4 + i < 32 by omega]

theorem or_and_ne_zero {x m : Word} (h : x &&& m ≠ 0) (n : Word) : (x ||| n) &&& m ≠ 0 := by
  intro hz
  apply h
  apply BitVec.eq_of_getLsbD_eq
  intro i hi
  have hbit := congrArg (BitVec.getLsbD · i) hz
  simp only [BitVec.getLsbD_and, BitVec.getLsbD_or] at hbit ⊢
  cases hx : x.getLsbD i <;> simp_all

theorem sixteen_le_div16 {sl : Slice} (h : sl.divInt ≠ 0) : 16 ≤ sl.div16 := by
  have hpos : sl.divInt.toNat ≠ 0 := fun hz => h (BitVec.eq_of_toNat_eq hz)
  unfold Slice.div16
  omega

/-- A new divider of at least 1 clears the accumulator (20_memory R86 (h)). -/
theorem divOk_writeDiv {sl : Slice} (h : sl.DivOk) {touched new : Word} (hnew : new &&& 0xFF0 ≠ 0) : (sl.writeDiv touched new).DivOk := by
  have ⟨_, hcfg, _⟩ := h
  unfold Slice.writeDiv
  split
  · exact h
  · have hdiv : ({ sl with div := new.extractLsb' 0 12, fracAcc := 0 } : Slice).divInt ≠ 0 :=
      fun hz => hnew ((divField_eq_zero_iff new).1 hz)
    have hlow := sixteen_le_div16 hdiv
    exact ⟨hdiv, hcfg, by show 0 < _; omega⟩

theorem divOk_writeCtr {sl : Slice} (h : sl.DivOk) (touched new : Word) : (sl.writeCtr touched new).DivOk := by
  unfold Slice.writeCtr
  split <;> exact h

/-- What a slice's accumulator depends on: its divider, its record and the accumulator itself. -/
def Slice.divider (sl : Slice) : BitVec 12 × PwmCfg × Nat := (sl.div, sl.cfg, sl.fracAcc)

theorem divOk_congr {x y : Slice} (h : x.divider = y.divider) (hy : y.DivOk) : x.DivOk := by
  simp only [Slice.divider, Prod.mk.injEq] at h
  obtain ⟨hdiv, hcfg, hacc⟩ := h
  simp only [Slice.DivOk, Slice.div16, Slice.divInt, Slice.divFrac, hdiv, hcfg, hacc]
  exact hy

theorem countTick_divider (sl : Slice) : sl.countTick.1.divider = sl.divider := by
  unfold Slice.countTick
  split
  · split <;> rfl
  · split <;> split <;> rfl

/-- A posted retard swallows a tick (42_pwm_engine R189). -/
def Slice.retardTick (sl : Slice) (n : Bool) : Slice × Bool :=
  if sl.phRet && n then ({ sl with csr := sl.csr &&& 0xBF }, false) else (sl, n)

/-- A posted advance gives a cycle without a tick one (42_pwm_engine R188). -/
def Slice.advanceTick (sl : Slice) (n : Bool) : Slice × Bool :=
  if sl.phAdv && !n then ({ sl with csr := sl.csr &&& 0x7F }, true) else (sl, n)

theorem retardTick_divider (sl : Slice) (n : Bool) : (sl.retardTick n).1.divider = sl.divider := by
  unfold Slice.retardTick
  split <;> rfl

theorem advanceTick_divider (sl : Slice) (n : Bool) : (sl.advanceTick n).1.divider = sl.divider := by
  unfold Slice.advanceTick
  split <;> rfl

/-- A slice that runs makes a divider step, serves its phase requests, and counts a tick (42_pwm_engine R180). -/
theorem cycle_running {sl : Slice} {b : Bool} (h : ¬ (!sl.en || !sl.gate b) = true) :
    sl.cycle b =
      let x := ({ sl with prevB := b, fracAcc := sl.dividerStep.1 } : Slice).retardTick sl.dividerStep.2
      let y := x.1.advanceTick x.2
      if y.2 then y.1.countTick else (y.1, false) := by
  unfold Slice.cycle
  exact if_neg h

theorem divOk_dividerStep {sl : Slice} (h : sl.DivOk) (b : Bool) :
    ({ sl with prevB := b, fracAcc := sl.dividerStep.1 } : Slice).DivOk := by
  obtain ⟨hint, hrec, hlt⟩ := h
  have hlow := sixteen_le_div16 hint
  refine ⟨hint, hrec, ?_⟩
  show sl.dividerStep.1 < sl.div16
  unfold Slice.dividerStep
  split
  · show sl.fracAcc + 16 - sl.div16 < sl.div16
    omega
  · show sl.fracAcc + 16 < sl.div16
    omega

/-- A cycle keeps the accumulator below the divider (R183). -/
theorem divOk_cycle {sl : Slice} (h : sl.DivOk) (b : Bool) : (sl.cycle b).1.DivOk := by
  by_cases hstop : (!sl.en || !sl.gate b) = true
  · rw [cycle_stopped (by simpa using hstop)]
    exact h
  · rw [cycle_running hstop]
    refine divOk_congr ?_ (divOk_dividerStep h b)
    dsimp only
    split
    · rw [countTick_divider, advanceTick_divider, retardTick_divider]
    · rw [advanceTick_divider, retardTick_divider]

/-- A period is solved with a divider of 1 to 255 (42_pwm_engine R222). -/
theorem periodCfg_divInt (k : PwmCfg) (P : Nat) : (periodCfg k P).divInt ≠ 0 := by
  have hrange : ∀ d : Nat, BitVec.ofNat 8 (if d = 0 then 1 else min d 255) ≠ 0 := by
    intro d hz
    have hnat := congrArg BitVec.toNat hz
    simp only [BitVec.toNat_ofNat] at hnat
    split at hnat <;> simp at hnat
    omega
  exact hrange _

theorem divOk_write_pwmDiv (i : SliceId) (w : Word) : (Micro.write (.pwmDiv i) w).divOk = true ↔ w &&& 0xFF0 ≠ 0 := decide_eq_true_iff
theorem divOk_writeCfg (i : SliceId) (k : PwmCfg) : (Micro.writeCfg i k).divOk = true ↔ k.divInt ≠ 0 := decide_eq_true_iff

/-! ### The dividers: the slices of a state -/

abbrev State.SlicesOk (s : State) : Prop := ∀ i : SliceId, s.slices[i.val].DivOk

theorem slicesOk_setSlice {s : State} (h : s.SlicesOk) (i : SliceId) {x : Slice} (hx : x.DivOk) : (s.setSlice i x).SlicesOk := by
  intro j
  by_cases hj : i = j
  · subst hj; rw [setSlice_same]; exact hx
  · rw [setSlice_other s i j x hj]; exact h j

theorem slicesOk_storeReg {s : State} (h : s.SlicesOk) (r : Reg) {touched new : Word}
    (hdiv : ∀ i, r = .pwmDiv i → new &&& 0xFF0 ≠ 0) : (s.storeReg r touched new).SlicesOk := by
  have hadc := storeReg_adcOnly s r touched new
  cases r with
  | pwmCsr i => exact slicesOk_setSlice h i (h i)
  | pwmDiv i => exact slicesOk_setSlice h i (divOk_writeDiv (h i) (hdiv i rfl))
  | pwmCtr i => exact slicesOk_setSlice h i (divOk_writeCtr (h i) ..)
  | pwmCc i => exact slicesOk_setSlice h i (h i)
  | pwmTop i => exact slicesOk_setSlice h i (h i)
  | pwmEn =>
    intro i
    simp only [State.storeReg, Vector.getElem_ofFn]
    exact h i
  | rst | adcCs | adcFcs | adcDiv | adcInte | adcIntf =>
    obtain ⟨a, e⟩ := hadc rfl
    rw [e]
    exact h
  | _ => exact h

theorem slicesOk_pwmClk {s : State} (h : s.SlicesOk) : s.pwmClk.SlicesOk := by
  intro i
  have hcycle := pwmClk_slice s i
  rw [Fin.getElem_fin] at hcycle
  rw [hcycle]
  exact divOk_cycle (h i) _

/-- What a primitive's write of `PWM_DIV` brings, where it is not refused. -/
theorem ne_zero_of_not_refused {i : SliceId} {w : Word} (h : refusedWrite (.pwmDiv i) w = false) : w &&& 0xFF0 ≠ 0 := by
  simpa [refusedWrite] using h

theorem slicesOk_effect {s t : State} {c : CoreId} {m : Micro} (e : MicroEffect s c m t) (hm : m.divOk = true) (h : s.SlicesOk) :
    t.SlicesOk := by
  cases e with
  | write r w hw =>
    refine slicesOk_storeReg h r ?_
    rintro i rfl
    obtain rfl | hw := hw
    · exact (divOk_write_pwmDiv i w).1 hm
    · exact ne_zero_of_not_refused hw
  | setBits r n =>
    refine slicesOk_storeReg h r ?_
    rintro i rfl
    refine or_and_ne_zero (fun hz => ?_) n
    exact (h i).1 ((readDiv_divInt _).symm.trans ((divField_eq_zero_iff _).2 hz))
  | clrBits r n hn =>
    refine slicesOk_storeReg h r ?_
    rintro i rfl
    obtain rfl | hn := hn
    · cases hm
    · exact ne_zero_of_not_refused hn
  | cfg i k hk =>
    obtain ⟨hint, hrec, hlt⟩ := h i
    refine slicesOk_setSlice h i ⟨hint, ?_, hlt⟩
    obtain rfl | hk := hk
    · exact (divOk_writeCfg i k).1 hm
    · exact hk ▸ hrec
  | cb i hd => exact slicesOk_setSlice h i (h i)
  | _ => exact h

/-! ### The dividers: the operations in flight -/

/-- The micro-steps still to be made bring no divider of 0. -/
abbrev CodeOk (code : List Micro) : Prop := code.all Micro.divOk = true

theorem codeOk_append {a b : List Micro} (ha : CodeOk a) (hb : CodeOk b) : CodeOk (a ++ b) := by
  rw [CodeOk, List.all_append, ha, hb]; rfl

theorem codeOk_deinitBody (p : Pin) : CodeOk (deinitBody p) := rfl

theorem codeOk_programAndRecord (p : Pin) (m : Mode) : CodeOk (programAndRecord p m) := by cases m <;> rfl

/-- `SetEnabled` writes the record's divider (42_pwm_engine R214 (b)). -/
theorem codeOk_enableCode (i : SliceId) {k : PwmCfg} (hk : k.divInt ≠ 0) : CodeOk (enableCode i k) := by
  have hword : divWord k &&& 0xFF0 ≠ 0 := fun hz => hk ((divWord_divInt k).symm.trans ((divField_eq_zero_iff _).2 hz))
  rw [CodeOk, enableCode, List.all_cons, (divOk_write_pwmDiv i _).2 hword]
  rfl

/-- What a micro-step pushes, if anything, brings no divider of 0. -/
def After.divOk : After → Bool
  | .go push => push.all Micro.divOk
  | _ => true

theorem primStore_divOk (s : State) (r : Reg) (touched new refusedOn : Word) :
    (s.primStore r touched new refusedOn).2.divOk = true := by
  unfold State.primStore
  split <;> rfl

theorem pollOnce_divOk (s : State) (k : PollCond) (n : Nat) : (s.pollOnce k n).divOk = true := by
  unfold State.pollOnce
  split
  · rfl
  · split
    · rfl
    · split <;> rfl

/-- `SetMode` pushes the programs of a deinitialisation and of a programming. -/
theorem readFn_divOk (s : State) (c : CoreId) (p : Pin) (k : Mode) : (s.microStep c (.readFn p k)).2.divOk = true := by
  simp only [State.microStep]
  split
  · exact codeOk_deinitBody p
  · split
    · split
      · rfl
      · exact codeOk_append (codeOk_deinitBody p) (codeOk_programAndRecord p k)
    · exact codeOk_programAndRecord p k

/-- No micro-step pushes a divider of 0, since no record has one. -/
theorem microStep_divOk {s : State} (h : s.SlicesOk) (c : CoreId) (m : Micro) : (s.microStep c m).2.divOk = true := by
  cases m with
  | primGet r => simp only [State.microStep]; split <;> rfl
  | primSet | primClr | primWrite =>
    simp only [State.microStep]
    split
    · rfl
    · exact primStore_divOk ..
  | primRead r n v =>
    simp only [State.microStep]
    split
    · rfl
    · cases r <;> rfl
  | readFn p k => exact readFn_divOk s c p k
  | poll k n => exact pollOnce_divOk s k n
  | readCfg i =>
    obtain ⟨-, hrec, -⟩ := h i
    exact codeOk_enableCode i hrec
  | readCfgForPeriod i P =>
    have hcfg := (divOk_writeCfg i (periodCfg s.slices[i].cfg P)).2 (periodCfg_divInt _ P)
    simp only [State.microStep, After.divOk, List.all_cons, hcfg]
    rfl
  | testInit | readBack | strictTest | needCreated | pwmTest | testCreated | testGatePwm | testGateGpio | testInited | testSensor =>
    simp only [State.microStep]
    split <;> rfl
  | _ => rfl

/-- An accepted operation brings no divider of 0. -/
abbrev OpOk (op : Op) : Prop := ∀ f, op = .ok f → CodeOk f.code

theorem opOk_error (e : Status) : OpOk (.error e) := fun _ h => by cases h

theorem opOk_opOf {code : List Micro} (h : CodeOk code) (res : Word) (post : Post) : OpOk (opOf code res post) := by
  intro f hf
  injection hf with hf
  subst hf; exact h

theorem opOk_withOperand {α : Type} (v : Option α) {k : α → Op} (h : ∀ x, OpOk (k x)) : OpOk (withOperand v k) := by
  cases v with
  | none => exact opOk_error _
  | some x => exact h x

theorem codeOk_strictCheck (strict : Bool) (p : Pin) : CodeOk (strictCheck strict p) := by cases strict <;> rfl

theorem opOk_opFor (i : Instr) (s : State) (c : CoreId) : OpOk (opFor i s c) := by
  cases i with
  | nop => exact opOk_opOf rfl _ _
  | regGet | regSet | regClr | regReplace | init => exact opOk_withOperand _ fun _ => opOk_opOf rfl _ _
  | setMode p m => exact opOk_withOperand _ fun _ => opOk_withOperand _ fun _ => opOk_opOf rfl _ _
  | deinit t p | mode t p | get t p =>
    exact opOk_withOperand _ fun p => opOk_opOf (codeOk_append (codeOk_strictCheck t p) rfl) _ _
  | set t p v =>
    refine opOk_withOperand _ fun p => opOk_withOperand _ fun v => opOk_opOf (codeOk_append (codeOk_strictCheck t p) ?_) _ _
    cases v <;> rfl
  | pwm p => exact opOk_withOperand _ fun _ => opOk_opOf rfl _ _
  | adc p =>
    refine opOk_withOperand _ fun p => ?_
    split <;> exact opOk_opOf rfl _ _
  | pwmGet | setCounter | setWrap | setPeriod => exact opOk_withOperand _ fun _ => opOk_withOperand _ fun _ => opOk_opOf rfl _ _
  | pwmSet i b l => exact opOk_withOperand _ fun _ => opOk_withOperand _ fun _ => opOk_withOperand _ fun _ => opOk_opOf rfl _ _
  | counter | inc | dec | wrap => exact opOk_withOperand _ fun _ => opOk_opOf rfl _ _
  | setEnabled i e =>
    refine opOk_withOperand _ fun i => opOk_withOperand _ fun e => opOk_opOf ?_ _ _
    cases e <;> rfl
  | pwmSetInterrupt i h =>
    refine opOk_withOperand _ fun i => opOk_opOf ?_ _ _
    split
    · rfl
    · split <;> rfl
  | setInterrupt p h =>
    refine opOk_withOperand _ fun p => opOk_opOf ?_ _ _
    split
    · rfl
    · split <;> rfl
  | adcInit | adcTemp => exact opOk_opOf rfl _ _
  | adcGet | getVoltage => exact opOk_withOperand _ fun _ => opOk_opOf rfl _ _
  | getTemperature k =>
    refine opOk_withOperand _ fun k => ?_
    split
    · split
      · exact opOk_opOf rfl _ _
      · exact opOk_error _
    · exact opOk_opOf rfl _ _
  | cbReturn =>
    show OpOk (opCbReturn s c)
    unfold opCbReturn
    split
    · exact opOk_opOf rfl _ _
    · exact opOk_error _
  | cbFault =>
    show OpOk (opCbFault s c)
    unfold opCbFault
    split
    · exact opOk_opOf rfl _ _
    · exact opOk_error _

/-! ### The dividers: every step -/

/-- No operation in flight on a core brings a divider of 0. -/
abbrev CoreSt.FlightsOk (k : CoreSt) : Prop := ∀ irq : Bool, ∀ f ∈ k.flight irq, CodeOk f.code

theorem divInv_iff (s : State) : s.DivInv ↔ s.SlicesOk ∧ ∀ c : CoreId, s.cores[c.val].FlightsOk := Iff.rfl

theorem slicesOk_of_divInv {s : State} (h : s.DivInv) : s.SlicesOk := h.1
theorem flightsOk_of_divInv {s : State} (h : s.DivInv) (c : CoreId) : s.cores[c.val].FlightsOk := h.2 c

theorem divInv_setCore {s : State} (h : s.DivInv) (c : CoreId) {k : CoreSt} (hk : k.FlightsOk) : (s.setCore c k).DivInv := by
  obtain ⟨hslices, hflights⟩ := (divInv_iff s).1 h
  refine (divInv_iff _).2 ⟨hslices, fun d => ?_⟩
  by_cases hd : c = d
  · subst hd; rw [setCore_same]; exact hk
  · rw [setCore_other s c d k hd]; exact hflights d

theorem divInv_setFlight {s : State} (h : s.DivInv) (c : CoreId) (irq : Bool) {g : Option Flight} (hg : ∀ f ∈ g, CodeOk f.code) :
    (s.setFlight c irq g).DivInv := by
  have hold := flightsOk_of_divInv h c
  refine divInv_setCore h c fun j => ?_
  cases irq <;> cases j
  · exact hg
  · exact hold true
  · exact hold false
  · exact hg

theorem divInv_setResp {s : State} (h : s.DivInv) (c : CoreId) (irq : Bool) (r : Option Resp) : (s.setResp c irq r).DivInv := by
  refine divInv_setCore h c fun j => ?_
  have hsame : (s.cores[c.val].withResp irq r).flight j = s.cores[c.val].flight j := withResp_flight ..
  exact hsame ▸ flightsOk_of_divInv h c j

theorem divInv_respond {s : State} (h : s.DivInv) (c : CoreId) (irq : Bool) (st : Status) (w : Word) : (s.respond c irq st w).DivInv :=
  divInv_setResp (divInv_setFlight h c irq (by simp)) c irq _

theorem divInv_effect {s t : State} {c : CoreId} {m : Micro} (e : MicroEffect s c m t) (hm : m.divOk = true) (h : s.DivInv) :
    t.DivInv := by
  obtain ⟨hslices, hflights⟩ := (divInv_iff s).1 h
  refine (divInv_iff t).2 ⟨slicesOk_effect e hm hslices, fun d => ?_⟩
  have hsame : t.cores[d.val].FlightsOk = s.cores[d.val].FlightsOk :=
    e.core_eq d CoreSt.FlightsOk (fun _ _ => rfl) (fun _ _ => rfl) (fun _ _ => rfl) (fun _ _ => rfl) (fun _ _ _ => rfl) (fun _ _ => rfl)
  rw [hsame]
  exact hflights d

theorem divInv_advance {s : State} (h : s.DivInv) (c : CoreId) (irq : Bool) {f : Flight} (hf : CodeOk f.code) :
    (s.advance c irq f).DivInv := by
  obtain ⟨st, w, e⟩ | ⟨m, rest, hcode, hcases⟩ := advance_cases s c irq f
  · rw [e]; exact divInv_respond h ..
  · rw [CodeOk, hcode, List.all_cons, Bool.and_eq_true] at hf
    obtain ⟨hm, hrest⟩ := hf
    have ht := divInv_effect (microStep_effect s c m) hm h
    obtain ⟨st, w, e⟩ | e | ⟨g, push, e, hg, hpush⟩ := hcases <;> rw [e]
    · exact divInv_respond ht ..
    · exact divInv_setFlight ht c irq (by simp)
    · have hpushed : CodeOk push := by
        obtain rfl | hpush := hpush
        · rfl
        · have hpushOk := microStep_divOk (slicesOk_of_divInv h) c m
          rwa [hpush] at hpushOk
      refine divInv_setFlight ht c irq ?_
      rintro _ ⟨⟩
      rw [hg]
      exact codeOk_append hpushed hrest

theorem divInv_start {s : State} (h : s.DivInv) (c : CoreId) (irq : Bool) (i : Instr) (u : State) :
    (s.start c irq (opFor i u c)).DivInv := by
  obtain ⟨e, heq⟩ | ⟨f, hop, heq⟩ := start_cases s c irq (opFor i u c) <;> rw [heq]
  · exact divInv_respond h ..
  · exact divInv_advance (divInv_setResp h c irq none) c irq (opOk_opFor i u c f hop)

theorem divInv_presented {s s' : State} {c : CoreId} {cmd : Command} (hp : s.presented c = some (cmd, s')) (h : s.DivInv) :
    s'.DivInv := by
  obtain ⟨q, rfl⟩ := presented_eq hp
  refine divInv_setCore h c ?_
  split <;> exact flightsOk_of_divInv h c

theorem divInv_dispatchStep {s : State} (h : s.DivInv) (c : CoreId) (rest : List DStep) (d : DStep) :
    (s.dispatchStep c rest d).DivInv := by
  obtain ⟨_, e⟩ | ⟨r, w, hw1c, e⟩ | ⟨kind, hd, a0, a1, e⟩ | e := dispatchStep_cases s c rest d <;> rw [e]
  · exact divInv_setCore h c (flightsOk_of_divInv h c)
  · have hm : (Micro.write r w).divOk = true := by
      cases r with
      | pwmDiv i => cases hw1c
      | _ => rfl
    have hwrite : (s.writeReg r w).DivInv := divInv_effect (.write r w (.inl rfl)) (c := c) hm h
    exact divInv_setCore hwrite c (flightsOk_of_divInv hwrite c)
  · have hopen : (s.openHandler c kind hd a0 a1).DivInv := divInv_setCore h c (flightsOk_of_divInv h c)
    exact divInv_setCore hopen c (flightsOk_of_divInv hopen c)
  · exact divInv_setCore h c (flightsOk_of_divInv h c)

theorem divInv_turnBody {s : State} (h : s.DivInv) (t : Turn) : (s.turnBody t).DivInv := by
  obtain ⟨hslices, hflights⟩ := (divInv_iff s).1 h
  cases t with
  | core c =>
    obtain e | ⟨f, hf, e⟩ | ⟨d, rest, -, -, e⟩ | ⟨cmd, s', hp, e⟩ := coreTurn_cases s c
    · simp only [State.turnBody, e]; exact h
    · simp only [State.turnBody, e]
      exact divInv_advance h c _ (hflights c _ f hf)
    · simp only [State.turnBody, e]
      exact divInv_dispatchStep h c rest d
    · have hs' := divInv_presented hp h
      obtain e | ⟨i, e⟩ := e <;> simp only [State.turnBody, e]
      · exact divInv_respond hs' ..
      · exact divInv_start hs' ..
  | enter c =>
    obtain e | ⟨k, e⟩ := enterIrq_cases s c <;> simp only [State.turnBody, e]
    · exact h
    · exact divInv_setCore h c (hflights c)
  | pwmClk => exact (divInv_iff _).2 ⟨slicesOk_pwmClk hslices, hflights⟩
  | adcSeq =>
    obtain ⟨a, xs, n, e⟩ := adcSeq_frame s
    simp only [State.turnBody, e]
    exact h
  | _ => exact h

/-- Settles O58: what would bring a divider of 0 is refused, or is never in flight; and a divider step leaves the accumulator
below the divider. -/
theorem stepKeepsDividers : Obligations.StepKeepsDividers :=
  step_keeps State.DivInv (fun _ _ h => h) (fun _ _ h => h) (fun _ _ h => h) (fun _ _ _ _ hp h => divInv_presented hp h)
    (fun s c i _ _ h => divInv_start h c _ i s) (fun _ t _ h => divInv_turnBody h t) (fun _ h => h)

end Sys2Proof.Machine

/-! The main line of a core in an interrupt (O47), the edge detector's memory (O53), the turn a step takes (O4), and pending
interrupts (O45). -/

namespace Sys2Proof.Machine

/-! ### The main line of a core in an interrupt (10_state R63, 60_exceptions R327, R331) -/

/-- What the main line of a core has in flight, its last response and its commands. -/
def CoreSt.mainLine (k : CoreSt) : Option Flight × Option Resp × List Command := (k.main, k.mainResp, k.mainQ)

section
variable {s : State} {c d : CoreId} {irq : Bool} (hd : d = c → irq = true)
include hd

/-- The bookkeeping of a handler's operation, or of another core, leaves the main line of `c`. -/
theorem mainLine_setFlight (f : Option Flight) : (s.setFlight d irq f).cores[c.val].mainLine = s.cores[c.val].mainLine := by
  by_cases hdc : d = c
  · obtain rfl := hd hdc
    exact setCore_keeps s d c _ CoreSt.mainLine rfl
  · rw [setFlight_eq, setCore_other s d c _ hdc]

theorem mainLine_setResp (r : Option Resp) : (s.setResp d irq r).cores[c.val].mainLine = s.cores[c.val].mainLine := by
  by_cases hdc : d = c
  · obtain rfl := hd hdc
    exact setCore_keeps s d c _ CoreSt.mainLine rfl
  · rw [setResp_eq, setCore_other s d c _ hdc]

theorem mainLine_respond (st : Status) (w : Word) : (s.respond d irq st w).cores[c.val].mainLine = s.cores[c.val].mainLine :=
  (mainLine_setResp hd _).trans (mainLine_setFlight hd none)

theorem mainLine_advance (f : Flight) : (s.advance d irq f).cores[c.val].mainLine = s.cores[c.val].mainLine := by
  obtain ⟨st, w, e⟩ | ⟨m, rest, -, hcases⟩ := advance_cases s d irq f
  · rw [e]; exact mainLine_respond hd st w
  · have hmicro : (s.microStep d m).1.cores[c.val].mainLine = s.cores[c.val].mainLine :=
      (microStep_effect s d m).core_eq c CoreSt.mainLine (fun _ _ => rfl) (fun _ _ => rfl) (fun _ _ => rfl) (fun _ _ => rfl)
        (fun _ _ _ => rfl) (fun _ _ => rfl)
    obtain ⟨st, w, e⟩ | e | ⟨g, push, e, -, -⟩ := hcases <;> rw [e, ← hmicro]
    · exact mainLine_respond hd st w
    · exact mainLine_setFlight hd none
    · exact mainLine_setFlight hd (some g)

theorem mainLine_start (op : Op) : (s.start d irq op).cores[c.val].mainLine = s.cores[c.val].mainLine := by
  obtain ⟨e, heq⟩ | ⟨f, -, heq⟩ := start_cases s d irq op <;> rw [heq]
  · exact mainLine_respond hd e 0
  · exact (mainLine_advance hd f).trans (mainLine_setResp hd none)

end

/-- A core in an interrupt takes its commands from the handler's queue, and stays in the interrupt. -/
theorem presented_keeps {s s' : State} {c d : CoreId} {cmd : Command} (hd : d = c → s.inIrqCtx d = true)
    (hp : s.presented d = some (cmd, s')) :
    s'.cores[c.val].mainLine = s.cores[c.val].mainLine ∧ s'.inIrqCtx d = s.inIrqCtx d := by
  obtain ⟨q, rfl⟩ := presented_eq hp
  constructor
  · by_cases hdc : d = c
    · rw [hd hdc]
      exact setCore_keeps s d c _ CoreSt.mainLine rfl
    · rw [setCore_other s d c _ hdc]
  · refine congrArg Option.isSome (setCore_keeps s d d _ CoreSt.inIrq ?_)
    split <;> rfl

theorem mainLine_dispatchStep (s : State) (c d : CoreId) (rest : List DStep) (x : DStep) :
    (s.dispatchStep d rest x).cores[c.val].mainLine = s.cores[c.val].mainLine := by
  obtain ⟨_, e⟩ | ⟨r, w, -, e⟩ | ⟨kind, h, a0, a1, e⟩ | e := dispatchStep_cases s d rest x <;> rw [e]
  · exact setCore_keeps s d c _ CoreSt.mainLine rfl
  · calc ((s.writeReg r w).setDisp d rest).cores[c.val].mainLine
      _ = (s.writeReg r w).cores[c.val].mainLine := setCore_keeps _ d c _ CoreSt.mainLine rfl
      _ = s.cores[c.val].mainLine := storeReg_core s c r _ w CoreSt.mainLine (fun _ _ => rfl) (fun _ _ => rfl)
  · calc ((s.openHandler d kind h a0 a1).setDisp d rest).cores[c.val].mainLine
      _ = (s.openHandler d kind h a0 a1).cores[c.val].mainLine := setCore_keeps _ d c _ CoreSt.mainLine rfl
      _ = s.cores[c.val].mainLine := setCore_keeps s d c _ CoreSt.mainLine rfl
  · exact setCore_keeps s d c _ CoreSt.mainLine rfl

theorem mainLine_coreTurn {s : State} {c : CoreId} (hc : s.inIrqCtx c = true) (d : CoreId) :
    (s.coreTurn d).cores[c.val].mainLine = s.cores[c.val].mainLine := by
  have hd : d = c → s.inIrqCtx d = true := fun e => e ▸ hc
  obtain e | ⟨f, -, e⟩ | ⟨x, rest, -, -, e⟩ | ⟨cmd, s', hp, hcases⟩ := coreTurn_cases s d
  · rw [e]
  · rw [e]; exact mainLine_advance hd f
  · rw [e]; exact mainLine_dispatchStep s c d rest x
  · obtain ⟨hline, hctx⟩ := presented_keeps hd hp
    have hd' : d = c → s'.inIrqCtx d = true := fun e => hctx.trans (hd e)
    rw [← hline]
    obtain e | ⟨i, e⟩ := hcases <;> rw [e]
    · exact mainLine_respond hd' _ 0
    · exact mainLine_start hd' _

/-- Settles O47: the turns of a core in an interrupt are its handler's and its dispatch's, and no other agent reaches a core's
main line. -/
theorem mainLineWaits : Obligations.MainLineWaits := by
  intro s c t hirq
  have hctx : s.inIrqCtx c = true := Option.isSome_iff_ne_none.2 hirq
  have hbody : (s.turnBody t).cores[c.val].mainLine = s.cores[c.val].mainLine := by
    cases t with
    | core d => exact mainLine_coreTurn hctx d
    | enter d =>
      obtain e | ⟨k, e⟩ := enterIrq_cases s d <;> simp only [State.turnBody, e]
      exact setCore_keeps s d c _ CoreSt.mainLine rfl
    | _ => rw [turnBody_cores s _ rfl]
  have hatomic : (s.atomic t).cores[c.val].mainLine = s.cores[c.val].mainLine := by
    unfold State.atomic
    split
    · rfl
    · exact hbody
  simpa [CoreSt.mainLine] using hatomic

/-! ### The edge detector's memory after a step (10_state R65, 44_irq_router R272) -/

/-- An atomic step ends with the edge detector. -/
theorem settled_atomic {s : State} (hf : s.fatal = false) (t : Turn) : (s.atomic t).Settled := by
  unfold State.atomic
  rw [if_neg (by simp [hf])]
  exact settled_edgeDetect _

/-- Recorded turns taken from a settled state leave it settled, whatever they do. -/
theorem settled_drive (c : CoreId) (irq : Bool) : ∀ (ts : List Turn) (s : State), s.Settled → (s.drive c irq ts).Settled := by
  intro ts
  induction ts with
  | nil => intro s h; exact h
  | cons t ts ih =>
    intro s h
    rw [State.drive]
    split
    · exact h
    · rename_i hgo
      have hf : s.fatal = false := by
        cases hf : s.fatal
        · rfl
        · simp [hf] at hgo
      exact ih _ (settled_atomic (s := { s with turns := ts }) hf t)

theorem settled_issue {s t : State} {op : Op} (h : s.issue op = .next t) : t.Settled := by
  unfold State.issue at h
  split at h
  · cases h
  · split at h
    · cases h
    · injection h with h
      rw [← h]
      exact settled_drive _ _ _ _ (settled_edgeDetect _)

theorem nextTurn_fatal (s : State) : s.nextTurn.2.fatal = s.fatal := by
  unfold State.nextTurn
  split <;> rfl

/-- Settles O53: a step is an atomic step, or an acceptance and the atomic steps that carry it on, each ending with the edge
detector. -/
theorem stepSettles : Obligations.StepSettles := by
  intro s t h
  unfold step at h
  split at h
  · cases h
  · rename_i hf
    split at h
    · rename_i i s' _
      rw [exec_issue] at h
      exact settled_issue h
    · injection h with h
      rw [← h]
      exact settled_atomic ((nextTurn_fatal s).trans (by simpa using hf)) _

/-! ### The turn a step takes (10_state R21, 20_memory R88) -/

theorem nextTurn_recorded {s : State} {t : Turn} {ts : List Turn} (h : s.turns = t :: ts) : s.nextTurn = (t, s.withTurns ts) := by
  unfold State.nextTurn
  rw [h]
  rfl

/-- A presented command that decodes is accepted, with its core on the interface. -/
theorem accepts_of_presented {s s' : State} {c : CoreId} {cmd : Command} {i : Instr} (hp : s.presented c = some (cmd, s'))
    (hdec : decode cmd = .ok i) : s.accepts (.core c) = some (i, { s' with sel := c }) := by
  simp only [State.accepts, hp, hdec]

/-- The step of a recorded turn is `exec` of what it accepts, or the atomic step of its agent. -/
theorem step_recorded {s : State} {t : Turn} {ts : List Turn} (hf : s.fatal = false) (h : s.turns = t :: ts) :
    (∀ i s', (s.withTurns ts).accepts t = some (i, s') → step s = exec i s') ∧
    ((s.withTurns ts).accepts t = none → step s = .next ((s.withTurns ts).atomic t)) := by
  unfold step
  rw [if_neg (by simp [hf]), nextTurn_recorded h]
  constructor
  · intro i s' ha
    rw [ha]
  · intro ha
    rw [ha]

/-- Settles O4. -/
theorem stepRunsDecoded : Obligations.StepRunsDecoded := by
  intro s t ts hf hturns
  obtain ⟨haccept, hnone⟩ := step_recorded hf hturns
  refine ⟨?_, hnone⟩
  rintro c cmd s' i rfl hp hdec
  exact haccept i _ (accepts_of_presented hp hdec)

/-! ### Lines and pending interrupts (10_state R39, R60, R61, 44_irq_router R276) -/

/-- The GPIO line is 1 exactly when one of the four registers is not 0. -/
theorem gpioLine_iff (s : State) (c : CoreId) : s.gpioLine c = true ↔ ∃ b : BankReg, s.ints c b ≠ 0 := by
  simp only [State.gpioLine, Bool.or_eq_true, decide_eq_true_eq]
  constructor
  · rintro (((h | h) | h) | h)
    · exact ⟨0, h⟩
    · exact ⟨1, h⟩
    · exact ⟨2, h⟩
    · exact ⟨3, h⟩
  · rintro ⟨b, h⟩
    match b with
    | 0 => exact .inl (.inl (.inl h))
    | 1 => exact .inl (.inl (.inr h))
    | 2 => exact .inl (.inr h)
    | 3 => exact .inr h

theorem pwmLine_iff (s : State) : s.pwmLine = true ↔ s.pwmInts ≠ 0 := decide_eq_true_iff

/-- Settles O45. -/
theorem pendingRules : Obligations.PendingRules := fun s c =>
  ⟨fun _ => rfl, rfl, gpioLine_iff s c, pwmLine_iff s, by rw [State.gpioPending, Bool.and_eq_true],
    by rw [State.pwmPending, Bool.and_eq_true]⟩

end Sys2Proof.Machine

/-! Primitives on an ADC register before reset-done (O13), and what a write of each register does (O14). -/

namespace Sys2Proof.Machine

/-! ### Stuck primitives (20_memory R96, 00_scope R18) -/

/-- The first micro-step of a primitive on a register it may not access: nothing happens, and the operation is stuck. -/
theorem microStep_inaccessible {s : State} {r : Reg} (h : s.inaccessible r = true) (c : CoreId) (m v : Word) :
    ∀ k ∈ [Micro.primGet r, .primSet r m, .primClr r m, .primRead r m v], s.microStep c k = (s, .go [.stuck]) := by
  simp [State.microStep, h]

/-- A primitive on an address that names a register is one micro-step on that register. -/
theorem opFor_primitive {s : State} {a : Word} {r : Reg} (h : s.regOf a = some r) (c : CoreId) (m v : Word) :
    ∀ i ∈ [Instr.regGet a, .regSet a m, .regClr a m, .regReplace a m v],
      ∃ k ∈ [Micro.primGet r, .primSet r m, .primClr r m, .primRead r m v], opFor i s c = .ok ⟨[k], 0, .plain⟩ := by
  simp [opFor, opRegGet, opRegSet, opRegClr, opRegReplace, h, withOperand, opOf]

theorem dress_nil_of_taken {s : State} {n : Nat} (h : s.turns.length = n) (c : CoreId) (irq : Bool) (f : Option Flight)
    (r : Option Resp) : s.dress c irq f r [] = ((s.taken n).setFlight c irq f).setResp c irq r := by
  have hnil : s.taken n = s.withTurns [] := by rw [State.taken, ← h, List.drop_length]; rfl
  rw [hnil, setFlight_eq, setResp_eq, setCore_setCore, Fin.getElem_fin, Fin.getElem_fin, setCore_same]
  rfl

/-- An operation whose first micro-step leaves it stuck is still in flight after any number of its own turns. -/
theorem issue_stuck {s : State} {n : Nat} {k : Micro} (hr : s.Ready) (hs : s.Settled)
    (hturns : s.turns = List.replicate n (.core s.sel)) (hk : s.microStep s.sel k = (s, .go [.stuck])) :
    s.issue (.ok ⟨[k], 0, .plain⟩)
      = .next (((s.taken n).setFlight s.sel s.ctx (some ⟨[.stuck], 0, .plain⟩)).setResp s.sel s.ctx none) := by
  have ⟨hf, _, _⟩ := hr
  have hfirst : microRun s s.sel ⟨[k], 0, .plain⟩ = (s, .flies ⟨[.stuck], 0, .plain⟩) := by
    simp [microRun, hk, standOf]
  rw [issue_flies s _ s _ hr hfirst, edgeDetect_of_settled s hs, hturns, drive_stuck s.sel s.ctx n s hf hs rfl,
    dress_nil_of_taken (by rw [hturns, List.length_replicate])]

/-- Settles O13: every primitive begins with one access, which leaves it stuck. -/
theorem primitivesStick : Obligations.PrimitivesStick := by
  intro s a m v r n hr hs hturns hreg hinacc i hi
  obtain ⟨k, hk, hop⟩ := opFor_primitive hreg s.sel m v i hi
  rw [exec_issue, hop]
  exact issue_stuck hr hs hturns (microStep_inaccessible hinacc s.sel m v k hk)

/-! ### What a write of a register does to each part of the state (20_memory R86, R100) -/

/-- What the write of `r` makes of slice `j`. -/
def Slice.stored (sl : Slice) (j : SliceId) (r : Reg) (touched new : Word) : Slice :=
  match r with
  | .pwmCsr i => if i = j then sl.writeCsr new else sl
  | .pwmDiv i => if i = j then sl.writeDiv touched new else sl
  | .pwmCtr i => if i = j then sl.writeCtr touched new else sl
  | .pwmCc i => if i = j then { sl with cc := new } else sl
  | .pwmTop i => if i = j then { sl with top := new.extractLsb' 0 16 } else sl
  | .pwmEn => sl.writeEn (new.getLsbD j)
  | _ => sl

theorem setSlice_getElem (s : State) (i j : SliceId) (x : Slice) :
    (s.setSlice i x).slices[j.val] = if i = j then x else s.slices[j.val] := by
  split
  · rename_i h; subst h; exact setSlice_same s i x
  · rename_i h; exact setSlice_other s i j x h

theorem storeReg_slice (s : State) (r : Reg) (touched new : Word) (j : SliceId) :
    (s.storeReg r touched new).slices[j.val] = s.slices[j.val].stored j r touched new := by
  have hslice : ∀ (i : SliceId) (g : Slice → Slice),
      (s.setSlice i (g s.slices[i])).slices[j.val] = if i = j then g s.slices[j.val] else s.slices[j.val] := by
    intro i g
    rw [setSlice_getElem]
    split
    · rename_i h; subst h; rfl
    · rfl
  have hadc := storeReg_adcOnly s r touched new
  cases r with
  | pwmCsr i => exact hslice i (·.writeCsr new)
  | pwmDiv i => exact hslice i (·.writeDiv touched new)
  | pwmCtr i => exact hslice i (·.writeCtr touched new)
  | pwmCc i => exact hslice i ({ · with cc := new })
  | pwmTop i => exact hslice i ({ · with top := new.extractLsb' 0 16 })
  | pwmEn => simp [State.storeReg, Slice.stored]
  | rst | adcCs | adcFcs | adcDiv | adcInte | adcIntf =>
    obtain ⟨a, e⟩ := hadc rfl
    rw [e]
    rfl
  | _ => rfl

/-- No write reaches a slice's record or its handler; only its own `PWM_CC` writes its compare levels, and only its own `PWM_TOP`
its top. -/
theorem stored_fields (sl : Slice) (j : SliceId) (r : Reg) (touched new : Word) :
    (sl.stored j r touched new).cfg = sl.cfg ∧ (sl.stored j r touched new).cb = sl.cb ∧
    (sl.stored j r touched new).cc = (if r = .pwmCc j then new else sl.cc) ∧
    (sl.stored j r touched new).top = (if r = .pwmTop j then new.extractLsb' 0 16 else sl.top) := by
  cases r with
  | pwmDiv i | pwmCtr i =>
    simp only [Slice.stored, Slice.writeDiv, Slice.writeCtr]
    split
    · split <;> exact ⟨rfl, rfl, rfl, rfl⟩
    · exact ⟨rfl, rfl, rfl, rfl⟩
  | pwmCsr i | pwmCc i | pwmTop i =>
    simp only [Slice.stored, Reg.pwmCc.injEq, Reg.pwmTop.injEq, reduceCtorEq, if_false]
    split <;> exact ⟨rfl, rfl, rfl, rfl⟩
  | _ => exact ⟨rfl, rfl, rfl, rfl⟩

/-- What the write of `r` makes of core `c`: its own enable and force banks store the bits that exist (10_state R58, R59). -/
def CoreSt.stored (k : CoreSt) (c : CoreId) (r : Reg) (new : Word) : CoreSt :=
  match r with
  | .ioInte d b => if d = c then { k with inte := k.inte.set b (new &&& bankMask b) } else k
  | .ioIntf d b => if d = c then { k with intf := k.intf.set b (new &&& bankMask b) } else k
  | _ => k

theorem storeReg_coreSt (s : State) (r : Reg) (touched new : Word) (c : CoreId) :
    (s.storeReg r touched new).cores[c.val] = s.cores[c.val].stored c r new := by
  have hcore : ∀ (d : CoreId) (g : CoreSt → CoreSt),
      (s.setCore d (g s.cores[d])).cores[c.val] = if d = c then g s.cores[c.val] else s.cores[c.val] := by
    intro d g
    split
    · rename_i h; subst h; exact setCore_same s d _
    · rename_i h; exact setCore_other s d c _ h
  have hadc := storeReg_adcOnly s r touched new
  cases r with
  | ioInte d b => exact hcore d fun k => { k with inte := k.inte.set b (new &&& bankMask b) }
  | ioIntf d b => exact hcore d fun k => { k with intf := k.intf.set b (new &&& bankMask b) }
  | rst | adcCs | adcFcs | adcDiv | adcInte | adcIntf =>
    obtain ⟨a, e⟩ := hadc rfl
    rw [e]
    rfl
  | _ => rfl

theorem getElem_set_ite {α : Type} {n : Nat} (v : Vector α n) (i j : Fin n) (x : α) :
    (v.set i x)[j.val] = if i = j then x else v[j.val] := by
  rw [Vector.getElem_set]
  simp only [Fin.ext_iff]

theorem stored_inte_intf (k : CoreSt) (c : CoreId) (r : Reg) (new : Word) (b : BankReg) :
    (k.stored c r new).inte[b.val] = (if r = .ioInte c b then new &&& bankMask b else k.inte[b.val]) ∧
    (k.stored c r new).intf[b.val] = (if r = .ioIntf c b then new &&& bankMask b else k.intf[b.val]) := by
  cases r with
  | ioInte d e | ioIntf d e =>
    simp only [CoreSt.stored, Reg.ioInte.injEq, Reg.ioIntf.injEq, reduceCtorEq, if_false]
    by_cases hd : d = c
    · by_cases he : e = b
      · subst hd he; simp
      · simp [hd, he, getElem_set_ite]
    · simp [hd]
  | _ => exact ⟨rfl, rfl⟩

theorem storeReg_funcsel_pad (s : State) (r : Reg) (touched new : Word) (p : Pin) :
    (s.storeReg r touched new).funcsel[p.val] = (if r = .ioCtrl p then new.extractLsb' 0 5 else s.funcsel[p.val]) ∧
    (s.storeReg r touched new).pad[p.val] = (if r = .pad p then new.extractLsb' 0 8 else s.pad[p.val]) := by
  have hadc := storeReg_adcOnly s r touched new
  cases r with
  | ioCtrl q | pad q =>
    simp only [State.storeReg, getElem_set_ite, Reg.ioCtrl.injEq, Reg.pad.injEq, reduceCtorEq, if_false, and_self]
  | rst | adcCs | adcFcs | adcDiv | adcInte | adcIntf =>
    obtain ⟨a, e⟩ := hadc rfl
    rw [e]
    exact ⟨rfl, rfl⟩
  | _ => exact ⟨rfl, rfl⟩

/-- The plain registers that are one word for the whole block. -/
theorem storeReg_sio_pwmBanks (s : State) (r : Reg) (touched new : Word) :
    (s.storeReg r touched new).sioOut = (if r = .sioOut then new.extractLsb' 0 30 else s.sioOut) ∧
    (s.storeReg r touched new).sioOe = (if r = .sioOe then new.extractLsb' 0 30 else s.sioOe) ∧
    (s.storeReg r touched new).pwmInte = (if r = .pwmInte then new.extractLsb' 0 8 else s.pwmInte) ∧
    (s.storeReg r touched new).pwmIntf = (if r = .pwmIntf then new.extractLsb' 0 8 else s.pwmIntf) := by
  have hadc := storeReg_adcOnly s r touched new
  cases r with
  | rst | adcCs | adcFcs | adcDiv | adcInte | adcIntf =>
    obtain ⟨a, e⟩ := hadc rfl
    rw [e]
    exact ⟨rfl, rfl, rfl, rfl⟩
  | _ => exact ⟨rfl, rfl, rfl, rfl⟩

/-! ### Plain registers read back, and the tables (20_memory R80, R81, R85) -/

/-- The low `n` bits of a word, read back in 32 bits. -/
theorem setWidth_low (w : Word) (n : Nat) : (w.extractLsb' 0 n).setWidth 32 = w &&& (BitVec.allOnes n).setWidth 32 := by
  apply BitVec.eq_of_getLsbD_eq
  intro i hi
  simp [hi, Bool.and_comm]

/-- What a plain register reads after the write of any register: a write of itself, cut to its width, else what it read before. -/
theorem readReg_storeReg_plain {q : Reg} {m : Word} (hq : plainMaskOf q = some m) (s : State) (r : Reg) (touched new : Word) :
    (s.storeReg r touched new).readReg q = if r = q then new &&& m else s.readReg q := by
  have hlow : ∀ {n : Nat} {stored old : BitVec n}, stored = (if r = q then new.extractLsb' 0 n else old) →
      (BitVec.allOnes n).setWidth 32 = m → stored.setWidth 32 = if r = q then new &&& m else old.setWidth 32 := by
    rintro n _ old rfl rfl
    rw [apply_ite (BitVec.setWidth 32), setWidth_low]
  obtain ⟨hout, hoe, hpinte, hpintf⟩ := storeReg_sio_pwmBanks s r touched new
  cases q with
  | ioCtrl p => cases hq; exact hlow (storeReg_funcsel_pad s r touched new p).1 rfl
  | pad p => cases hq; exact hlow (storeReg_funcsel_pad s r touched new p).2 rfl
  | sioOut => cases hq; exact hlow hout rfl
  | sioOe => cases hq; exact hlow hoe rfl
  | pwmInte => cases hq; exact hlow hpinte rfl
  | pwmIntf => cases hq; exact hlow hpintf rfl
  | pwmTop i =>
    cases hq
    obtain ⟨-, -, -, htop⟩ := stored_fields s.slices[i.val] i r touched new
    rw [← storeReg_slice] at htop
    exact hlow htop rfl
  | pwmCc i =>
    cases hq
    obtain ⟨-, -, hcc, -⟩ := stored_fields s.slices[i.val] i r touched new
    rw [← storeReg_slice] at hcc
    rw [show new &&& 0xFFFFFFFF = new from BitVec.and_allOnes]
    exact hcc
  | ioInte c b =>
    cases hq
    have hinte := (stored_inte_intf s.cores[c.val] c r new b).1
    rwa [← storeReg_coreSt (touched := touched)] at hinte
  | ioIntf c b =>
    cases hq
    have hintf := (stored_inte_intf s.cores[c.val] c r new b).2
    rwa [← storeReg_coreSt (touched := touched)] at hintf
  | _ => cases hq

/-- The tables that are no part of a slice or of a core. -/
theorem storeReg_flagTables (s : State) (r : Reg) (touched new : Word) :
    (s.storeReg r touched new).pinInit = s.pinInit ∧ (s.storeReg r touched new).adcInited = s.adcInited ∧
      (s.storeReg r touched new).adcCreated = s.adcCreated := by
  have hadc := storeReg_adcOnly s r touched new
  cases r with
  | rst | adcCs | adcFcs | adcDiv | adcInte | adcIntf =>
    obtain ⟨a, e⟩ := hadc rfl
    rw [e]
    exact ⟨rfl, rfl, rfl⟩
  | _ => exact ⟨rfl, rfl, rfl⟩

theorem storeReg_tables (s : State) (r : Reg) (touched new : Word) : (s.storeReg r touched new).tables = s.tables := by
  have hslices : ∀ {α : Type} (g : Slice → α), (∀ j : SliceId, g (s.slices[j.val].stored j r touched new) = g s.slices[j.val]) →
      (s.storeReg r touched new).slices.map g = s.slices.map g := by
    intro α g h
    ext j hj
    rw [Vector.getElem_map, Vector.getElem_map, storeReg_slice s r touched new ⟨j, hj⟩]
    exact h ⟨j, hj⟩
  have hcores : ∀ {α : Type} (g : CoreSt → α), (∀ k v, g { k with inte := v } = g k) → (∀ k v, g { k with intf := v } = g k) →
      (s.storeReg r touched new).cores.map g = s.cores.map g := by
    intro α g he hf
    ext d hd
    rw [Vector.getElem_map, Vector.getElem_map]
    exact storeReg_core s ⟨d, hd⟩ r touched new g he hf
  obtain ⟨hfn, hpull⟩ := storeReg_pinFn_pinPull s r touched new
  obtain ⟨hinit, hinited, hcreated⟩ := storeReg_flagTables s r touched new
  simp only [State.tables, hfn, hpull, hinit, hinited, hcreated, hslices Slice.cfg fun _ => (stored_fields ..).1,
    hslices Slice.cb fun _ => (stored_fields ..).2.1, hcores CoreSt.gpioCb (fun _ _ => rfl) fun _ _ => rfl,
    hcores CoreSt.gpioEdges (fun _ _ => rfl) fun _ _ => rfl]

/-! ### The registers of a slice, and `PWM_EN` (20_memory R86, 10_state R38) -/

/-- The fields of the word are stored, and a posted phase request stays (20_memory R86 (c)). -/
theorem writeCsr_eq (sl : Slice) (w : Word) : sl.writeCsr w = { sl with csr := w.extractLsb' 0 8 ||| (sl.csr &&& 0xC0) } := by
  have hbits : ∀ x y : BitVec 8, (x &&& 0x3F) ||| ((y ||| x) &&& 0xC0) = x ||| (y &&& 0xC0) := by
    intro x y
    have hx : x &&& 0x3F ||| x &&& 0xC0 = x := by
      rw [← BitVec.and_or_distrib_left]
      exact BitVec.and_allOnes
    calc (x &&& 0x3F) ||| ((y ||| x) &&& 0xC0)
      _ = (x &&& 0x3F ||| x &&& 0xC0) ||| y &&& 0xC0 := by rw [BitVec.and_or_distrib_right, BitVec.or_comm (y &&& 0xC0), BitVec.or_assoc]
      _ = x ||| (y &&& 0xC0) := by rw [hx]
  rw [Slice.writeCsr, hbits]

theorem writeCsr_en (sl : Slice) (w : Word) : (sl.writeCsr w).en = w.getLsbD 0 := by
  simp [writeCsr_eq, Slice.en]

theorem writeEn_eq (sl : Slice) (v : Bool) : sl.writeEn v = { sl with csr := (sl.csr &&& 0xFE) ||| if v then 1 else 0 } := by
  cases v <;> rfl

theorem writeEn_en (sl : Slice) (v : Bool) : (sl.writeEn v).en = v := by
  cases v <;> simp [writeEn_eq, Slice.en]

theorem readReg_pwmEn_getLsbD (s : State) (j : SliceId) : (s.readReg .pwmEn).getLsbD j.val = s.slices[j.val].en := by
  rw [State.readReg, BitVec.getLsbD_setWidth, State.pwmEn, packBits_getLsbD]
  simp [show j.val < 32 by omega]

/-- `PWM_EN` has no bit above those of the slices. -/
theorem readReg_pwmEn_high (s : State) {i : Nat} (h : 8 ≤ i) : (s.readReg .pwmEn).getLsbD i = false := by
  rw [State.readReg, BitVec.getLsbD_setWidth, BitVec.getLsbD_of_ge _ i h, Bool.and_false]

/-- The `EN` bits after a write of one slice's `PWM_CSR`. -/
theorem pwmEn_after_writeCsr (s : State) (i j : SliceId) (w : Word) :
    ((s.writeReg (.pwmCsr i) w).readReg .pwmEn).getLsbD j.val = if j = i then w.getLsbD 0 else (s.readReg .pwmEn).getLsbD j.val := by
  rw [readReg_pwmEn_getLsbD, readReg_pwmEn_getLsbD, State.writeReg, storeReg_slice, Slice.stored]
  simp only [eq_comm (a := i)]
  split
  · exact writeCsr_en ..
  · rfl

/-- `PWM_EN` reads back the bit of each slice. -/
theorem readReg_writeReg_pwmEn (s : State) (w : Word) : (s.writeReg .pwmEn w).readReg .pwmEn = w &&& 0xFF := by
  apply BitVec.eq_of_getLsbD_eq
  intro i hi
  have hmask : w &&& 0xFF = (w.extractLsb' 0 8).setWidth 32 := (setWidth_low w 8).symm
  by_cases hslice : i < 8
  · have hread := readReg_pwmEn_getLsbD (s.writeReg .pwmEn w) ⟨i, hslice⟩
    rw [State.writeReg, storeReg_slice, Slice.stored, writeEn_en] at hread
    rw [State.writeReg, hread, hmask]
    simp [hi, hslice]
  · rw [readReg_pwmEn_high _ (by omega), hmask]
    simp [hslice]

/-! ### The unused registers of the ADC and the read-only registers (45_register_primitives R407, R408) -/

/-- A register that stores nothing ignores the write. -/
theorem storeReg_readOnly (s : State) (touched new : Word) {r : Reg}
    (h : r ∈ [Reg.sioIn, .pwmInts, .adcResult, .adcFifo, .adcIntr, .adcInts, .rstDone] ∨ ∃ c b, r = .ioInts c b) :
    s.storeReg r touched new = s := by
  obtain h | ⟨c, b, rfl⟩ := h
  · simp only [List.mem_cons, List.not_mem_nil, or_false] at h
    obtain rfl | rfl | rfl | rfl | rfl | rfl | rfl := h <;> rfl
  · rfl

/-- Out of reset the four unused registers store the whole word and nothing else changes. -/
theorem writeReg_adcUnused {s : State} (h : s.adc.rst = false) (w : Word) :
    s.writeReg .adcFcs w = s.setAdc { s.adc with fcs := w } ∧ s.writeReg .adcDiv w = s.setAdc { s.adc with pace := w } ∧
    s.writeReg .adcInte w = s.setAdc { s.adc with inte := w } ∧ s.writeReg .adcIntf w = s.setAdc { s.adc with intf := w } := by
  simp [State.writeReg, State.storeReg, h]

/-- Settles O14: each clause is one of the rules above. -/
theorem registerWrites : Obligations.RegisterWrites := by
  intro s t w
  refine ⟨fun r => storeReg_tables s r t w, ?_, ?_, fun i => ⟨?_, rfl, rfl, fun j => pwmEn_after_writeCsr s i j w, ?_⟩,
    readReg_writeReg_pwmEn s w, rfl, ?_, fun r => storeReg_readOnly s t w, ?_⟩
  · intro r m hm
    rw [readReg_storeReg_plain hm, if_pos rfl]
  · intro r q hq hne
    obtain ⟨m, hm⟩ := Option.ne_none_iff_exists'.1 hq
    rw [readReg_storeReg_plain hm, if_neg (Ne.symm hne)]
  · exact congrArg (s.setSlice i) (writeCsr_eq ..)
  · exact (storeReg_slice s .pwmEn _ w i).trans (writeEn_eq ..)
  · intro hrst
    obtain ⟨hfcs, hdiv, hinte, hintf⟩ := writeReg_adcUnused hrst w
    exact ⟨hfcs, by rw [hfcs]; rfl, hdiv, by rw [hdiv]; rfl, hinte, by rw [hinte]; rfl, hintf, by rw [hintf]; rfl⟩
  · intro r hr
    simp only [List.mem_cons, List.not_mem_nil, or_false] at hr
    obtain rfl | rfl | rfl := hr <;> rfl

end Sys2Proof.Machine

/-! The decoder inverts the encoder (O1), the headers it calls legal (O2), and commands that end at their decoding or at their
operand checks (O3, O5, O7, O8, O22). -/

namespace Sys2Proof.Machine

/-! ### The fields of an encoded command (30_encoding R110) -/

section
variable (op : Byte) (strict : Bool) (t a : Byte) (x0 x1 x2 : Word)

@[simp] theorem op_of_header : (Command.mk (header op strict t a) x0 x1 x2).op = op := header_op ..
@[simp] theorem strict_of_header : (Command.mk (header op strict t a) x0 x1 x2).strict = strict := header_strict ..
@[simp] theorem t_of_header : (Command.mk (header op strict t a) x0 x1 x2).t = t := header_t ..
@[simp] theorem a_of_header : (Command.mk (header op strict t a) x0 x1 x2).a = a := header_a ..

end

/-! ### Decoding (30_encoding R112, R120) -/

/-- A command decodes to the operation its `OP` names, where `Z` is 0 and `S` is 1 only on an operation with a strict variant. -/
theorem decode_ok_iff (c : Command) (i : Instr) :
    decode c = .ok i ↔ c.z = 0 ∧ c.row = some i ∧ (c.strict = true → i.hasStrict = true) := by
  unfold decode
  by_cases hz : c.z = 0
  · rw [if_neg (not_not_intro hz)]
    cases hrow : c.row with
    | none => simp
    | some j =>
      by_cases hs : (c.strict && !j.hasStrict) = true
      · simp only [if_pos hs]
        obtain ⟨hset, hplain⟩ : c.strict = true ∧ j.hasStrict = false := by simpa using hs
        have hillegal : ¬ (j = i ∧ i.hasStrict = true) := by
          rintro ⟨rfl, hj⟩
          simp [hplain] at hj
        simpa [hz, hset] using hillegal
      · simp only [if_neg hs]
        have hlegal : c.strict = true → j.hasStrict = true := by simpa using hs
        constructor
        · rintro ⟨⟩
          exact ⟨hz, rfl, hlegal⟩
        · rintro ⟨-, ⟨⟩, -⟩
          rfl
  · rw [if_pos hz]
    exact ⟨nofun, fun ⟨hz', _⟩ => absurd hz' hz⟩

/-- The encoded command names its operation and holds its operands. -/
theorem row_encode (i : Instr) : (encode i).row = some i := by
  cases i <;> simp [encode, Command.row]

/-- The encoder writes legal headers only. -/
theorem encode_legal (i : Instr) : Laws.HeaderFixed.Statement i := by
  cases i with
  | nop => exact Laws.HeaderFixed.nop
  | regGet => exact Laws.HeaderFixed.regGet ..
  | regSet => exact Laws.HeaderFixed.regSet ..
  | regClr => exact Laws.HeaderFixed.regClr ..
  | regReplace => exact Laws.HeaderFixed.regReplace ..
  | init => exact Laws.HeaderFixed.init ..
  | setMode => exact Laws.HeaderFixed.setMode ..
  | deinit => exact Laws.HeaderFixed.deinit ..
  | mode => exact Laws.HeaderFixed.mode ..
  | get => exact Laws.HeaderFixed.get ..
  | set => exact Laws.HeaderFixed.set ..
  | pwm => exact Laws.HeaderFixed.pwm ..
  | adc => exact Laws.HeaderFixed.adc ..
  | pwmGet => exact Laws.HeaderFixed.pwmGet ..
  | pwmSet => exact Laws.HeaderFixed.pwmSet ..
  | counter => exact Laws.HeaderFixed.counter ..
  | setCounter => exact Laws.HeaderFixed.setCounter ..
  | inc => exact Laws.HeaderFixed.inc ..
  | dec => exact Laws.HeaderFixed.dec ..
  | setWrap => exact Laws.HeaderFixed.setWrap ..
  | wrap => exact Laws.HeaderFixed.wrap ..
  | setEnabled => exact Laws.HeaderFixed.setEnabled ..
  | pwmSetInterrupt => exact Laws.HeaderFixed.pwmSetInterrupt ..
  | setPeriod => exact Laws.HeaderFixed.setPeriod ..
  | adcInit => exact Laws.HeaderFixed.adcInit ..
  | adcTemp => exact Laws.HeaderFixed.adcTemp ..
  | adcGet => exact Laws.HeaderFixed.adcGet ..
  | getVoltage => exact Laws.HeaderFixed.getVoltage ..
  | getTemperature => exact Laws.HeaderFixed.getTemperature ..
  | setInterrupt => exact Laws.HeaderFixed.setInterrupt ..
  | cbReturn => exact Laws.HeaderFixed.cbReturn ..
  | cbFault => exact Laws.HeaderFixed.cbFault ..

/-- Settles O1: the row of the encoded header is the instruction, and the header is legal. -/
theorem decodeEncode : Obligations.DecodeEncode := fun i =>
  have ⟨hz, hstrict⟩ := encode_legal i
  (decode_ok_iff _ _).2 ⟨hz, row_encode i, hstrict⟩

/-- The codes of the operations (30_encoding R120). -/
def opcodes : List Nat :=
  [0x00, 0x01, 0x02, 0x03, 0x04, 0x10, 0x11, 0x12, 0x13, 0x14, 0x15, 0x16, 0x17, 0x20, 0x21, 0x22,
   0x23, 0x24, 0x25, 0x26, 0x27, 0x28, 0x29, 0x2A, 0x30, 0x31, 0x32, 0x33, 0x34, 0x40, 0x4E, 0x4F]

/-- Every code of R120 names an operation, which has a strict variant for four of them (R114); no other byte does. -/
theorem row_cases (c : Command) :
    (∃ i, c.row = some i ∧ c.op.toNat ∈ opcodes ∧ (i.hasStrict = true ↔ c.op.toNat ∈ [0x12, 0x13, 0x14, 0x15])) ∨
    c.row = none ∧ c.op.toNat ∉ opcodes := by
  unfold Command.row
  split
  case h_33 =>
    refine .inr ⟨rfl, fun hmem => ?_⟩
    have hcode : c.op ∈ opcodes.map (BitVec.ofNat 8) := List.mem_map.2 ⟨_, hmem, BitVec.ofNat_toNat ..⟩
    simp_all [opcodes]
  all_goals
    rename_i hop
    exact .inl ⟨_, rfl, by rw [hop]; decide, by simp [hop, Instr.hasStrict]⟩

/-- Settles O2: a command decodes where its row is there and its `S` bit allowed. -/
theorem legalHeaders : Obligations.LegalHeaders := by
  intro c
  change _ ↔ c.z = 0 ∧ c.op.toNat ∈ opcodes ∧ (c.strict = true → c.op.toNat ∈ [0x12, 0x13, 0x14, 0x15])
  simp only [decode_ok_iff]
  obtain ⟨i, hrow, hop, hstrict⟩ | ⟨hrow, hop⟩ := row_cases c
  · simp [hrow, hop, ← hstrict]
  · simp [hrow, hop]

/-- Settles O3: each word is the one the encoder writes. -/
theorem exampleWordsDecode : Obligations.ExampleWordsDecode := by
  have hwords : ∀ {c : Command} {i : Instr}, encode i = c → decode c = .ok i := fun h => h ▸ decodeEncode _
  exact ⟨hwords (by decide), hwords (by decide), hwords (by decide), hwords (by decide), hwords (by decide), hwords (by decide)⟩

/-! ### Illegal commands (30_encoding R112) -/

/-- A core that presents a command has no operation in flight and no dispatch that runs. -/
theorem not_busy_of_presented {s s' : State} {c : CoreId} {cmd : Command} (hp : s.presented c = some (cmd, s')) :
    s.flight c (s.inIrqCtx c) = none ∧ (s.inIrqCtx c && decide (s.cores[c].cbDepth = 0)) = false := by
  unfold State.presented at hp
  split at hp
  · cases hp
  · rename_i hidle
    refine ⟨by simpa using hidle, ?_⟩
    split at hp
    · split at hp
      · cases hp
      · rename_i hopen
        rw [decide_eq_false hopen, Bool.and_false]
    · rename_i hmain
      simp [hmain]

/-- The turn of a core that presents an illegal command ends it. -/
theorem coreTurn_illegal {s s' : State} {c : CoreId} {cmd : Command} {e : Illegal} (hp : s.presented c = some (cmd, s'))
    (hdec : decode cmd = .error e) : s.coreTurn c = s'.raise c (s'.inIrqCtx c) .badParameter := by
  obtain ⟨hidle, hquiet⟩ := not_busy_of_presented hp
  simp only [State.coreTurn, hidle, hquiet, hp, hdec, Bool.false_eq_true, if_false]

/-- Taking a command out of a queue and answering it moves no pin. -/
theorem settled_refused {s s' : State} {c : CoreId} {cmd : Command} (hs : s.Settled) (hp : s.presented c = some (cmd, s'))
    (irq : Bool) (st : Status) (w : Word) : (s'.respond c irq st w).Settled := by
  obtain ⟨q, rfl⟩ := presented_eq hp
  exact hs

/-- Settles O5: the turn is an atomic step, and the edge detector finds nothing moved. -/
theorem illegalCommandRefused : Obligations.IllegalCommandRefused := by
  intro s c ts cmd s' e hf hs hturns hp hdec
  have haccept : (s.withTurns ts).accepts (.core c) = none := by simp only [State.accepts, hp, hdec]
  have hturn : (s.withTurns ts).atomic (.core c) = (s'.raise c (s'.inIrqCtx c) .badParameter).edgeDetect := by
    have hlive : ¬ (s.withTurns ts).fatal = true := fun hfatal => Bool.false_ne_true (hf.symm.trans hfatal)
    rw [State.atomic, if_neg hlive, State.turnBody, coreTurn_illegal hp hdec]
  rw [(step_recorded hf hturns).2 haccept, hturn]
  have hsettled : (s.withTurns ts).Settled := hs
  exact congrArg Host.Outcome.next (edgeDetect_of_settled _ (settled_refused hsettled hp ..))

/-! ### Operands out of range (30_encoding R113) -/

theorem pinOf_isSome (t : Byte) : (pinOf t).isSome = pinOk t := by
  unfold pinOf pinOk
  split <;> simp [*]

theorem sliceOf_isSome (t : Byte) : (sliceOf t).isSome = sliceOk t := by
  unfold sliceOf sliceOk
  split <;> simp [*]

theorem chOf_isSome (t : Byte) : (chOf t).isSome = chOk t := by
  unfold chOf chOk
  split <;> simp [*]

theorem boolOf_isSome (a : Byte) : (boolOf a).isSome = boolOk a := by
  unfold boolOf boolOk
  split <;> simp [*]

theorem halfOf_isSome (w : Word) : (halfOf w).isSome = halfOk w := by
  unfold halfOf halfOk
  split <;> simp [*]

theorem periodOf_isSome (w : Word) : (periodOf w).isSome = periodOk w := by
  unfold periodOf periodOk
  split <;> simp_all

theorem modeOf_isSome (a : Byte) : (modeOf a).isSome = modeOk a := by
  unfold modeOf modeOk
  split
  case h_10 =>
    simp only [imp_false] at *
    exact (decide_eq_false (by omega)).symm
  all_goals simp [*]

theorem regOf_of_not_addrOk (s : State) {a : Word} (h : addrOk a = false) : s.regOf a = none := by
  unfold State.regOf
  exact if_neg (by simpa [addrOk] using h)

section
variable {α : Type} {v : Option α} {k : α → Op} {ok rest : Bool}

/-- An operand out of range refuses the operation. -/
theorem refuse_operand (hv : v.isSome = ok) (h : ok = false) : withOperand v k = .error .badParameter := by
  subst hv
  rw [Option.isSome_eq_false_iff, Option.isNone_iff_eq_none] at h
  rw [h]
  rfl

/-- So does one after it. -/
theorem refuse_operands (hv : v.isSome = ok) (hk : rest = false → ∀ x, k x = .error .badParameter) (h : (ok && rest) = false) :
    withOperand v k = .error .badParameter := by
  obtain h | h := Bool.and_eq_false_iff.1 h
  · exact refuse_operand hv h
  · cases v with
    | none => rfl
    | some x => exact hk h x

end

/-- The operation of a command with an operand out of range is its refusal. -/
theorem opFor_of_not_wellFormed (s : State) (c : CoreId) {i : Instr} (h : i.wellFormed = false) :
    opFor i s c = .error .badParameter := by
  cases i with
  | nop | adcInit | adcTemp | cbReturn | cbFault => cases h
  | regGet a | regSet a m | regClr a m | regReplace a m v =>
    have hreg := regOf_of_not_addrOk s h
    exact refuse_operand (by rw [hreg]; rfl) rfl
  | init p | deinit t p | mode t p | get t p | pwm p | adc p | setInterrupt p hd => exact refuse_operand (pinOf_isSome p) h
  | setMode p m => exact refuse_operands (pinOf_isSome p) (fun hm _ => refuse_operand (modeOf_isSome m) hm) h
  | set t p v => exact refuse_operands (pinOf_isSome p) (fun hv _ => refuse_operand (boolOf_isSome v) hv) h
  | counter i | inc i | dec i | wrap i | pwmSetInterrupt i hd => exact refuse_operand (sliceOf_isSome i) h
  | pwmGet i b | setEnabled i b => exact refuse_operands (sliceOf_isSome i) (fun hb _ => refuse_operand (boolOf_isSome b) hb) h
  | setCounter i w | setWrap i w =>
    exact refuse_operands (sliceOf_isSome i) (fun hw _ => refuse_operand (halfOf_isSome w) hw) h
  | setPeriod i P => exact refuse_operands (sliceOf_isSome i) (fun hP _ => refuse_operand (periodOf_isSome P) hP) h
  | pwmSet i b w =>
    refine refuse_operands (rest := boolOk b && halfOk w) (sliceOf_isSome i) (fun hrest _ => ?_) ((Bool.and_assoc ..).symm.trans h)
    exact refuse_operands (boolOf_isSome b) (fun hw _ => refuse_operand (halfOf_isSome w) hw) hrest
  | adcGet k | getVoltage k vref | getTemperature k => exact refuse_operand (chOf_isSome k) h

/-- Settles O7. -/
theorem outOfRangeRefused : Obligations.OutOfRangeRefused := by
  intro s i hr hs hi
  rw [exec_issue, opFor_of_not_wellFormed s s.sel hi]
  exact issue_err hr hs .badParameter

/-! ### `Nop` (30_encoding R121) -/

/-- An operation without micro-steps answers at once. -/
theorem issue_empty {s : State} (hr : s.Ready) (hs : s.Settled) (res : Word) :
    s.issue (.ok ⟨[], res, .plain⟩) = .next (s.answer .ok res) := by
  have hrun : runOp s.sel [.core s.sel] s ⟨[], res, .plain⟩ = some (s, some ⟨.ok, res⟩) := by
    simp [runOp, microRun, finishResp, edgeDetect_of_settled s hs]
  exact issue_answer s _ [] s .ok res hr rfl hrun

/-- The all-zero header is `Nop`, whatever the operand words. -/
theorem decode_zero_header (x0 x1 x2 : Word) : decode ⟨0, x0, x1, x2⟩ = .ok .nop := by
  have hword : (0 : Word) = header 0x00 false 0 0 := by decide
  rw [hword, decode_ok_iff]
  exact ⟨header_z .., by simp [Command.row], by simp⟩

/-- Settles O8. -/
theorem nopCompletes : Obligations.NopCompletes :=
  ⟨decode_zero_header, fun _ hr hs => issue_empty hr hs 0⟩

/-! ### Use before initialisation (30_encoding R114, 43_adc_sequencer R252, R262) -/

/-- An operation whose first micro-step is an error that changes nothing. -/
theorem issue_raised {s : State} {m : Micro} {rest : List Micro} {res : Word} {post : Post} {e : Status} (hr : s.Ready) (hs : s.Settled)
    (h : s.microStep s.sel m = (s, .raise e)) : s.issue (.ok ⟨m :: rest, res, post⟩) = .next (s.answer e 0) := by
  have hrun : Runs s.sel 1 s (m :: rest) res post s (some ⟨e, 0⟩) := by
    have hraise := runs_raise (rest := rest) (res := res) (post := post) h
    rwa [edgeDetect_of_settled s hs] at hraise
  exact issue_runs (n := 0) hr rfl hrun

/-- A strict variant begins with the test of `pin_init`. -/
theorem opFor_strict {pin level : Byte} {p : Pin} {v : Bool} (hp : pinOf pin = some p) (hv : boolOf level = some v) (s : State)
    (c : CoreId) {i : Instr} (hi : i ∈ [Instr.deinit true pin, .mode true pin, .get true pin, .set true pin level]) :
    ∃ rest, opFor i s c = .ok ⟨.strictTest p :: rest, 0, .plain⟩ := by
  simp only [List.mem_cons, List.not_mem_nil, or_false] at hi
  obtain rfl | rfl | rfl | rfl := hi
  · exact ⟨_, by rw [opFor, opDeinit, hp]; rfl⟩
  · exact ⟨_, by rw [opFor, opMode, hp]; rfl⟩
  · exact ⟨_, by rw [opFor, opGet, hp]; rfl⟩
  · exact ⟨_, by rw [opFor, opSet, hp, hv]; rfl⟩

/-- Settles O22: the first micro-step of each is the test that fails. -/
theorem notInitialisedRefused : Obligations.NotInitialisedRefused := by
  intro s hr hs
  constructor
  · intro pin level p v hp hv hinit i hi
    obtain ⟨rest, hop⟩ := opFor_strict hp hv s s.sel hi
    rw [exec_issue, hop]
    exact issue_raised hr hs (by simp [State.microStep, hinit])
  · intro chan vref ch hch hcreated
    have htest : s.microStep s.sel (.needCreated ch) = (s, .raise .notInitialised) := by simp [State.microStep, hcreated]
    refine ⟨?_, ?_, ?_⟩
    · rw [exec_issue, opFor, opAdcGet, hch]
      exact issue_raised hr hs htest
    · rw [exec_issue, opFor, opGetVoltage, hch]
      exact issue_raised hr hs htest
    · rintro rfl
      rw [exec_issue, opFor, opGetTemperature, hch]
      exact issue_raised hr hs htest

end Sys2Proof.Machine

/-! Rounding to binary32 (O40). The words of the finite numbers; the nearest whole number of units, the even one on a tie; and
the number `roundF32` delivers: `m × 2^e` is `t` units of `2^q`, it is rounded to `n` of them, and no finite number is nearer. -/

namespace Sys2Proof.Machine

/-- `(−1)^neg`. -/
def sgn (neg : Bool) : ℚ := if neg then -1 else 1

theorem abs_sgn_mul (neg : Bool) (x : ℚ) : |sgn neg * x| = |x| := by
  cases neg <;> simp [sgn]

theorem abs_sgn_mul_sub (neg : Bool) (x y : ℚ) : |sgn neg * x - sgn neg * y| = |x - y| := by
  rw [← mul_sub, abs_sgn_mul]

/-! ### The words of finite numbers (30_encoding R119) -/

theorem f32Sign_getLsbD (neg : Bool) (i : Nat) : (f32Sign neg).getLsbD i = (neg && decide (i = 31)) := by
  cases neg with
  | false => simp [f32Sign]
  | true =>
    show (BitVec.twoPow 32 31).getLsbD i = _
    rw [BitVec.getLsbD_twoPow]
    simp [eq_comm]

/-- The word with a sign and the magnitude `bits`. -/
def f32Word (neg : Bool) (bits : Nat) : Word := f32Sign neg ||| BitVec.ofNat 32 bits

theorem f32Word_sign (neg : Bool) {bits : Nat} (h : bits < 2 ^ 31) : (f32Word neg bits).getLsbD 31 = neg := by
  rw [f32Word, BitVec.getLsbD_or, f32Sign_getLsbD, BitVec.getLsbD_ofNat, Nat.testBit_lt_two_pow h]
  simp

theorem f32Word_low (neg : Bool) {bits : Nat} (h : bits % 2 = 0) : (f32Word neg bits).getLsbD 0 = false := by
  rw [f32Word, BitVec.getLsbD_or, f32Sign_getLsbD, BitVec.getLsbD_ofNat, Nat.testBit_zero]
  simp [h]

/-- A field below the sign bit is the field of the magnitude. -/
theorem f32Word_field (neg : Bool) {bits : Nat} (h : bits < 2 ^ 31) {start len : Nat} (hfield : start + len ≤ 31) :
    ((f32Word neg bits).extractLsb' start len).toNat = bits / 2 ^ start % 2 ^ len := by
  have hsign : (f32Sign neg).extractLsb' start len = 0#len := by
    apply BitVec.eq_of_getLsbD_eq
    intro i hi
    rw [BitVec.getLsbD_extractLsb', f32Sign_getLsbD, decide_eq_false (show start + i ≠ 31 by omega)]
    simp
  rw [f32Word, BitVec.extractLsb'_or, hsign, BitVec.zero_or, BitVec.extractLsb'_toNat, BitVec.toNat_ofNat,
    Nat.mod_eq_of_lt (show bits < 2 ^ 32 by omega), Nat.shiftRight_eq_div_pow]

/-- A magnitude below that of the infinities writes a finite number. -/
theorem f32Of_f32Word (neg : Bool) {bits : Nat} (h : bits < 0x7F800000) :
    f32Of (f32Word neg bits) =
      if bits / 2 ^ 23 = 0 then .fin neg (bits % 2 ^ 23) (-149)
      else .fin neg (bits % 2 ^ 23 + 2 ^ 23) ((bits / 2 ^ 23 : Nat) - 150) := by
  have hlt : bits < 2 ^ 31 := by omega
  have hex := f32Word_field neg hlt (start := 23) (len := 8) (by decide)
  have hfr := f32Word_field neg hlt (start := 0) (len := 23) (by decide)
  rw [Nat.mod_eq_of_lt (by omega)] at hex
  rw [pow_zero, Nat.div_one] at hfr
  simp only [f32Of, hex, hfr, f32Word_sign neg hlt]
  rw [if_neg (by omega)]

theorem f32Value_of_fin {w : Word} {neg : Bool} {k : Nat} {f : Int} (h : f32Of w = .fin neg k f) :
    f32Value w = some (sgn neg * (k * 2 ^ f)) := by
  simp only [f32Value, h, sgn, mul_assoc]

/-- A finite number is fewer than `2^24` units of a power of 2 that is at least `2^-149`. -/
theorem f32Value_cases {u : Word} {y : ℚ} (h : f32Value u = some y) :
    ∃ (neg : Bool) (k : Nat) (f : Int), y = sgn neg * (k * 2 ^ f) ∧ k < 2 ^ 24 ∧ -149 ≤ f := by
  have hfr := ((u.extractLsb' 0 23)).isLt
  cases hu : f32Of u with
  | nan | inf => simp [f32Value, hu] at h
  | fin neg k f =>
    rw [f32Value_of_fin hu] at h
    injection h with h
    refine ⟨neg, k, f, h.symm, ?_⟩
    unfold f32Of at hu
    dsimp only at hu
    split at hu
    · split at hu <;> cases hu
    · split at hu
      · injection hu with _ hk hf
        omega
      · injection hu with _ hk hf
        omega

/-- In units of `2^q` a finite number is a whole number, or is below the normal numbers that have this unit. -/
theorem f32Value_in_units {u : Word} {y : ℚ} (h : f32Value u = some y) (neg : Bool) (q : Int) (hq : -149 ≤ q) :
    (∃ j : Int, y = sgn neg * (j * 2 ^ q)) ∨ (-149 < q ∧ |y| < 2 ^ 23 * 2 ^ q) := by
  obtain ⟨neg', k, f, rfl, hk, hf⟩ := f32Value_cases h
  by_cases hqf : q ≤ f
  · left
    obtain ⟨d, rfl⟩ : ∃ d : Nat, f = d + q := ⟨(f - q).toNat, by omega⟩
    refine ⟨if neg = neg' then k * 2 ^ d else -(k * 2 ^ d), ?_⟩
    rw [zpow_add₀ two_ne_zero, zpow_natCast]
    cases neg <;> cases neg' <;> simp [sgn, mul_assoc]
  · right
    refine ⟨by omega, ?_⟩
    rw [abs_sgn_mul, abs_of_nonneg (by positivity)]
    have hk' : (k : ℚ) < 2 ^ 24 := by exact_mod_cast hk
    calc (k : ℚ) * 2 ^ f
      _ < 2 ^ 24 * 2 ^ f := by gcongr
      _ ≤ 2 ^ 24 * 2 ^ (q - 1) := by gcongr <;> [norm_num; omega]
      _ = 2 ^ 23 * 2 ^ q := by rw [zpow_sub_one₀ two_ne_zero]; ring

/-! ### The nearest whole number -/

/-- `n` is the whole number nearest to `t`, the even one where two are equally near. -/
def NearestEven (t : ℚ) (n : Nat) : Prop := |t - n| ≤ 1 / 2 ∧ (|t - n| = 1 / 2 → n % 2 = 0)

theorem nearestEven_self (n : Nat) : NearestEven n n := by simp [NearestEven]

theorem nearestEven_of_abs_lt {t : ℚ} {n : Nat} (h : |t - n| < 1 / 2) : NearestEven t n := ⟨h.le, fun htie => absurd htie h.ne⟩

/-- The remainder `u` decides: below a half, a tie, or above it. -/
theorem nearestEven_roundShift (m k : Nat) : NearestEven (m / 2 ^ k) (roundShift m k) := by
  have hpos : (0 : ℚ) < 2 ^ k := by positivity
  obtain ⟨u, hu⟩ : ∃ u : ℚ, ((m % 2 ^ k : Nat) : ℚ) = u * 2 ^ k := ⟨_, (div_mul_cancel₀ _ hpos.ne').symm⟩
  have hsplit : (m : ℚ) / 2 ^ k = (m / 2 ^ k : Nat) + u := by
    rw [div_eq_iff hpos.ne', add_mul, ← hu]
    exact_mod_cast (Nat.div_add_mod' m (2 ^ k)).symm
  have hnonneg : 0 ≤ u := nonneg_of_mul_nonneg_left (hu ▸ Nat.cast_nonneg _) hpos
  have hless : u < 1 := by
    have hcast : ((m % 2 ^ k : Nat) : ℚ) < 2 ^ k := by exact_mod_cast Nat.mod_lt m (Nat.two_pow_pos k)
    exact lt_of_mul_lt_mul_right (by linarith) hpos.le
  rw [hsplit]
  obtain hbelow | htie | habove := lt_trichotomy (2 * (m % 2 ^ k)) (2 ^ k)
  · have hround : roundShift m k = m / 2 ^ k := if_neg (by omega)
    have hcast : 2 * ((m % 2 ^ k : Nat) : ℚ) < 2 ^ k := by exact_mod_cast hbelow
    have hhalf : u < 1 / 2 := lt_of_mul_lt_mul_right (by linarith) hpos.le
    rw [hround]
    refine nearestEven_of_abs_lt ?_
    rwa [add_sub_cancel_left, abs_of_nonneg hnonneg]
  · have hcast : 2 * ((m % 2 ^ k : Nat) : ℚ) = 2 ^ k := by exact_mod_cast htie
    obtain rfl : u = 1 / 2 := mul_right_cancel₀ hpos.ne' (by linarith)
    by_cases hodd : m / 2 ^ k % 2 = 1
    · have hround : roundShift m k = m / 2 ^ k + 1 := if_pos (.inr ⟨htie, hodd⟩)
      rw [hround]
      refine ⟨?_, fun _ => by omega⟩
      push_cast
      norm_num
    · have hround : roundShift m k = m / 2 ^ k := if_neg (by omega)
      rw [hround]
      refine ⟨?_, fun _ => by omega⟩
      norm_num
  · have hround : roundShift m k = m / 2 ^ k + 1 := if_pos (.inl habove)
    have hcast : (2 : ℚ) ^ k < 2 * (m % 2 ^ k : Nat) := by exact_mod_cast habove
    have hhalf : 1 / 2 < u := lt_of_mul_lt_mul_right (by linarith) hpos.le
    rw [hround]
    refine nearestEven_of_abs_lt ?_
    push_cast
    rw [add_sub_add_left_eq_sub, abs_lt]
    constructor <;> linarith

section
variable {t : ℚ} {n : Nat} (h : NearestEven t n)
include h

theorem le_add_half : t ≤ n + 1 / 2 := by
  obtain ⟨hhalf, -⟩ := h
  linarith [(abs_le.1 hhalf).2]

theorem sub_half_le : n - 1 / 2 ≤ t := by
  obtain ⟨hhalf, -⟩ := h
  linarith [(abs_le.1 hhalf).1]

theorem le_of_le_nearest {k : Nat} (hk : (k : ℚ) ≤ t) : k ≤ n := by
  have hupper := le_add_half h
  by_contra hlt
  have hsucc : ((n + 1 : Nat) : ℚ) ≤ k := by exact_mod_cast not_le.1 hlt
  push_cast at hsucc
  linarith

theorem nearest_le_of_lt {k : Nat} (hk : t < k) : n ≤ k := by
  have hlower := sub_half_le h
  by_contra hlt
  have hsucc : ((k + 1 : Nat) : ℚ) ≤ n := by exact_mod_cast not_le.1 hlt
  push_cast at hsucc
  linarith

/-- No other whole number is nearer, and only an odd one is as near. -/
theorem nearest_among_whole (j : Int) : |t - n| < |t - j| ∨ j = n ∨ (|t - n| = |t - j| ∧ n % 2 = 0) := by
  obtain ⟨hhalf, heven⟩ := h
  by_cases hj : j = n
  · exact .inr (.inl hj)
  · have hdist : (1 : ℚ) ≤ |(n : ℚ) - j| := by
      have hint : 1 ≤ |(n : Int) - j| := Int.one_le_abs (by omega)
      exact_mod_cast hint
    have htri : |(n : ℚ) - j| ≤ |t - n| + |t - j| := by
      rw [abs_sub_comm t n]
      exact abs_sub_le ..
    obtain hlt | heq := hhalf.lt_or_eq
    · left; linarith
    · obtain hlt | hle := lt_or_ge |t - n| |t - j|
      · exact .inl hlt
      · exact .inr (.inr ⟨by linarith, heven heq⟩)

theorem abs_sub_nearest_le (j : Int) : |t - n| ≤ |t - j| := by
  obtain hlt | rfl | ⟨heq, -⟩ := nearest_among_whole h j
  · exact hlt.le
  · exact le_rfl
  · exact heq.le

/-- A number is rounded to an even whole number or beyond it from half a unit below it on. -/
theorem nearest_lt_iff {k : Nat} (hk : k % 2 = 0) : n < k ↔ t < k - 1 / 2 := by
  have hupper := le_add_half h
  have hlower := sub_half_le h
  obtain ⟨-, heven⟩ := h
  constructor
  · intro hlt
    have hsucc : ((n + 1 : Nat) : ℚ) ≤ k := by exact_mod_cast hlt
    push_cast at hsucc
    refine lt_of_le_of_ne (by linarith) fun htie => ?_
    have hpred : (n : ℚ) + 1 = k := by linarith
    have hodd : n + 1 = k := by exact_mod_cast hpred
    have hhalf : t - n = 1 / 2 := by linarith
    have := heven (by rw [hhalf, abs_of_pos one_half_pos])
    omega
  · intro hlt
    have hcast : (n : ℚ) < k := by linarith
    exact_mod_cast hcast

end

/-! ### What `roundF32` delivers -/

/-- The power of 2 of the last place kept. -/
def quantum (m : Nat) (e : Int) : Int := max (Nat.log2 m + e - 23) (-149)

/-- `m × 2^e` in units of the last place. -/
def inUnits (m : Nat) (e : Int) : ℚ := m * 2 ^ (e - quantum m e)

/-- The number of units it is rounded to. -/
def roundedUnits (m : Nat) (e : Int) : Nat :=
  if quantum m e ≤ e then m * 2 ^ (e - quantum m e).toNat else roundShift m (quantum m e - e).toNat

/-- The magnitude written for `n` units of `2^q`. -/
def magnitude (q : Int) (n : Nat) : Nat := (q + 149).toNat * 2 ^ 23 + n

theorem roundF32_zero (neg : Bool) (e : Int) : roundF32 neg 0 e = f32Sign neg := by simp [roundF32]

theorem roundF32_of_ne_zero (neg : Bool) {m : Nat} (e : Int) (hm : m ≠ 0) :
    roundF32 neg m e =
      if 0x7F800000 ≤ magnitude (quantum m e) (roundedUnits m e) then f32Inf neg
      else f32Word neg (magnitude (quantum m e) (roundedUnits m e)) := by
  simp only [roundF32, if_neg hm, magnitude, quantum, roundedUnits, f32Word]
  congr 1

theorem inUnits_mul (m : Nat) (e : Int) : inUnits m e * 2 ^ quantum m e = m * 2 ^ e := by
  rw [inUnits, mul_assoc, ← zpow_add₀ two_ne_zero, sub_add_cancel]

/-- `n` units of `2^q` are a number rounded to binary32, `t` of them: the nearest whole number of units, 24 bits long, or
shorter where the unit is the smallest. -/
structure Rounded (t : ℚ) (q : Int) (n : Nat) : Prop where
  nearest : NearestEven t n
  lt : t < 2 ^ 24
  least : -149 ≤ q
  normal : -149 < q → 2 ^ 23 ≤ t

theorem rounded_roundF32 {m : Nat} (e : Int) (hm : m ≠ 0) : Rounded (inUnits m e) (quantum m e) (roundedUnits m e) where
  nearest := by
    unfold inUnits roundedUnits
    split
    · obtain ⟨d, hd⟩ : ∃ d : Nat, e - quantum m e = d := ⟨(e - quantum m e).toNat, by omega⟩
      rw [hd, Int.toNat_natCast, zpow_natCast]
      exact_mod_cast nearestEven_self (m * 2 ^ d)
    · obtain ⟨d, hd⟩ : ∃ d : Nat, quantum m e - e = d := ⟨(quantum m e - e).toNat, by omega⟩
      rw [← neg_sub, hd, Int.toNat_natCast, zpow_neg, zpow_natCast, ← div_eq_mul_inv]
      exact nearestEven_roundShift m d
  lt := by
    have hlog : (m : ℚ) < 2 ^ (m.log2 + 1) := by exact_mod_cast Nat.lt_log2_self
    have hexp : e - quantum m e ≤ 23 - m.log2 := by unfold quantum; omega
    calc inUnits m e
      _ < 2 ^ (m.log2 + 1) * 2 ^ (e - quantum m e) := by unfold inUnits; gcongr
      _ ≤ 2 ^ (m.log2 + 1) * 2 ^ ((23 : Int) - m.log2) := by gcongr; norm_num
      _ = 2 ^ 24 := by
        rw [← zpow_natCast, ← zpow_add₀ two_ne_zero, show ((m.log2 + 1 : Nat) : Int) + (23 - m.log2) = (24 : Nat) by omega, zpow_natCast]
  least := le_max_right ..
  normal h := by
    have hlog : (2 : ℚ) ^ m.log2 ≤ m := by exact_mod_cast Nat.log2_self_le hm
    have hexp : e - quantum m e = 23 - m.log2 := by unfold quantum at *; omega
    calc (2 : ℚ) ^ 23
      _ = 2 ^ m.log2 * 2 ^ ((23 : Int) - m.log2) := by
        rw [← zpow_natCast 2 m.log2, ← zpow_add₀ two_ne_zero, show (m.log2 : Int) + (23 - m.log2) = (23 : Nat) by omega, zpow_natCast]
      _ ≤ inUnits m e := by unfold inUnits; rw [hexp]; gcongr

namespace Rounded
variable {t : ℚ} {q : Int} {n : Nat} (h : Rounded t q n)
include h

theorem units_le : n ≤ 2 ^ 24 := nearest_le_of_lt h.nearest (by exact_mod_cast h.lt)

theorem le_units (hq : -149 < q) : 2 ^ 23 ≤ n := le_of_le_nearest h.nearest (by exact_mod_cast h.normal hq)

/-- A carry out of the 24 bits runs into the exponent field, which is its right value. -/
theorem f32Of_magnitude (neg : Bool) (hfin : magnitude q n < 0x7F800000) :
    ∃ k f, f32Of (f32Word neg (magnitude q n)) = .fin neg k f ∧ (k : ℚ) * 2 ^ f = n * 2 ^ q := by
  have hle := h.units_le
  have hleast := h.least
  have hnormal := h.le_units
  rw [f32Of_f32Word neg hfin]
  obtain ⟨d, rfl⟩ : ∃ d : Nat, q = d - 149 := ⟨(q + 149).toNat, by omega⟩
  have hbits : magnitude ((d : Int) - 149) n = d * 2 ^ 23 + n := by simp [magnitude]
  rw [hbits] at hfin ⊢
  obtain hsub | hfull | rfl : n < 2 ^ 23 ∨ (2 ^ 23 ≤ n ∧ n < 2 ^ 24) ∨ n = 2 ^ 24 := by omega
  · obtain rfl : d = 0 := by omega
    rw [if_pos (by omega), show (0 * 2 ^ 23 + n) % 2 ^ 23 = n by omega]
    exact ⟨_, _, rfl, by simp⟩
  · rw [if_neg (by omega), show (d * 2 ^ 23 + n) % 2 ^ 23 + 2 ^ 23 = n by omega,
      show (((d * 2 ^ 23 + n) / 2 ^ 23 : Nat) : Int) - 150 = d - 149 by omega]
    exact ⟨_, _, rfl, rfl⟩
  · rw [if_neg (by omega), show (d * 2 ^ 23 + 2 ^ 24) % 2 ^ 23 + 2 ^ 23 = 2 ^ 23 by omega,
      show (((d * 2 ^ 23 + 2 ^ 24) / 2 ^ 23 : Nat) : Int) - 150 = d - 149 + 1 by omega]
    refine ⟨_, _, rfl, ?_⟩
    rw [zpow_add_one₀ two_ne_zero]
    push_cast
    ring

/-- The magnitude is that of a finite number exactly below the limit of the range. -/
theorem magnitude_lt_iff : magnitude q n < 0x7F800000 ↔ t * 2 ^ q < f32Limit := by
  have hle := h.units_le
  have hbits : magnitude q n = (q + 149).toNat * 2 ^ 23 + n := rfl
  have hlt := h.lt
  obtain hq | rfl | hq := lt_trichotomy q 104
  · refine iff_of_true (by omega) ?_
    calc t * 2 ^ q
      _ < 2 ^ 24 * 2 ^ q := by gcongr
      _ ≤ 2 ^ 24 * 2 ^ (103 : Int) := by gcongr <;> [norm_num; omega]
      _ < f32Limit := by norm_num [f32Limit]
  · calc magnitude 104 n < 0x7F800000
      _ ↔ n < 2 ^ 24 := by rw [hbits]; omega
      _ ↔ t < 2 ^ 24 - 1 / 2 := by exact_mod_cast nearest_lt_iff h.nearest (k := 2 ^ 24) (by decide)
      _ ↔ t * 2 ^ (104 : Int) < f32Limit := by
        rw [← lt_div_iff₀ (by positivity)]
        norm_num [f32Limit]
  · have hunits := h.le_units (by omega)
    have hnormal := h.normal (by omega)
    refine iff_of_false (by omega) (not_lt.2 ?_)
    calc f32Limit
      _ ≤ 2 ^ 23 * 2 ^ (105 : Int) := by norm_num [f32Limit]
      _ ≤ 2 ^ 23 * 2 ^ q := by gcongr <;> [norm_num; omega]
      _ ≤ t * 2 ^ q := by gcongr

/-- No finite number is nearer. -/
theorem roundsTo (neg : Bool) (hfin : magnitude q n < 0x7F800000) :
    RoundsTo (sgn neg * (t * 2 ^ q)) (f32Word neg (magnitude q n)) := by
  obtain ⟨k, f, hof, hvalue⟩ := h.f32Of_magnitude neg hfin
  have hunit : (0 : ℚ) < 2 ^ q := by positivity
  have herror : ∀ z : ℚ, |sgn neg * (t * 2 ^ q) - sgn neg * (z * 2 ^ q)| = |t - z| * 2 ^ q := by
    intro z
    rw [abs_sgn_mul_sub, ← sub_mul, abs_mul, abs_of_pos hunit]
  refine ⟨sgn neg * (n * 2 ^ q), by rw [f32Value_of_fin hof, hvalue], fun u y hu => ?_⟩
  obtain ⟨j, rfl⟩ | ⟨hq, hy⟩ := f32Value_in_units hu neg q h.least
  · rw [herror, herror]
    obtain hlt | rfl | ⟨heq, heven⟩ := nearest_among_whole h.nearest j
    · exact .inl (mul_lt_mul_of_pos_right hlt hunit)
    · exact .inr (.inl rfl)
    · refine .inr (.inr ⟨by rw [heq], f32Word_low neg ?_⟩)
      unfold magnitude
      omega
  · left
    have hnormal := h.normal hq
    have hgrid : |t - n| ≤ t - 2 ^ 23 := by
      have hle := abs_sub_nearest_le h.nearest (2 ^ 23)
      rwa [Int.cast_pow, Int.cast_ofNat, abs_of_nonneg (sub_nonneg.2 hnormal)] at hle
    have hnonneg : 0 ≤ t * 2 ^ q := mul_nonneg (le_trans (by positivity) hnormal) hunit.le
    calc |sgn neg * (t * 2 ^ q) - sgn neg * (n * 2 ^ q)|
      _ = |t - n| * 2 ^ q := herror n
      _ ≤ (t - 2 ^ 23) * 2 ^ q := by gcongr
      _ < t * 2 ^ q - |y| := by linarith
      _ = |sgn neg * (t * 2 ^ q)| - |y| := by rw [abs_sgn_mul, abs_of_nonneg hnonneg]
      _ ≤ |sgn neg * (t * 2 ^ q) - y| := abs_sub_abs_le_abs_sub ..

end Rounded

/-! ### Rounding (43_adc_sequencer R260) -/

theorem f32Of_f32Sign (neg : Bool) : f32Of (f32Sign neg) = .fin neg 0 (-149) := by cases neg <;> decide

theorem roundF32_sign (neg : Bool) (m : Nat) (e : Int) : (roundF32 neg m e).getLsbD 31 = neg := by
  by_cases hm : m = 0
  · subst hm
    rw [roundF32_zero, f32Sign_getLsbD]
    simp
  · rw [roundF32_of_ne_zero neg e hm]
    split
    · cases neg <;> decide
    · exact f32Word_sign neg (by omega)

/-- Of numbers that are not 0: finite words are written exactly below the limit of the range. -/
theorem roundF32_eq (neg : Bool) {m : Nat} (e : Int) (hm : m ≠ 0) :
    roundF32 neg m e = if m * 2 ^ e < f32Limit then f32Word neg (magnitude (quantum m e) (roundedUnits m e)) else f32Inf neg := by
  have hlimit := (rounded_roundF32 e hm).magnitude_lt_iff
  rw [inUnits_mul] at hlimit
  rw [roundF32_of_ne_zero neg e hm]
  simp only [← hlimit, ← not_lt, ite_not]

theorem roundF32_roundsTo (neg : Bool) (m : Nat) (e : Int) (h : m * 2 ^ e < f32Limit) :
    RoundsTo (sgn neg * (m * 2 ^ e)) (roundF32 neg m e) := by
  by_cases hm : m = 0
  · subst hm
    refine ⟨0, by rw [roundF32_zero, f32Value_of_fin (f32Of_f32Sign neg)]; simp, fun u y _ => ?_⟩
    by_cases hy : y = 0
    · exact .inr (.inl hy)
    · simp [hy]
  · have hround := rounded_roundF32 e hm
    have hfin := hround.magnitude_lt_iff
    rw [inUnits_mul] at hfin
    rw [roundF32_eq neg e hm, if_pos h, ← inUnits_mul]
    exact hround.roundsTo neg (hfin.2 h)

theorem roundF32_overflow (neg : Bool) (m : Nat) (e : Int) (h : f32Limit ≤ m * 2 ^ e) : roundF32 neg m e = f32Inf neg := by
  have hm : m ≠ 0 := by
    rintro rfl
    norm_num [f32Limit] at h
  rw [roundF32_eq neg e hm, if_neg (not_lt.2 h)]

/-- At most 24 bits are kept as they are. -/
theorem roundedUnits_short {m : Nat} {e : Int} (hm : m ≠ 0) (h : m < 2 ^ 24) (he : -149 ≤ e) : (roundedUnits m e : ℚ) = inUnits m e := by
  have hlog : m.log2 < 24 := (Nat.log2_lt hm).2 h
  have hle : quantum m e ≤ e := by unfold quantum; omega
  obtain ⟨d, hd⟩ : ∃ d : Nat, e - quantum m e = d := ⟨(e - quantum m e).toNat, by omega⟩
  rw [roundedUnits, if_pos hle, inUnits, hd, Int.toNat_natCast, zpow_natCast]
  push_cast
  rfl

theorem roundF32_short (neg : Bool) {m : Nat} {e : Int} (h : m < 2 ^ 24) (hlow : -149 ≤ e) (hhigh : e ≤ 104) :
    ∃ n f, f32Of (roundF32 neg m e) = .fin neg n f ∧ (n : ℚ) * 2 ^ f = m * 2 ^ e := by
  by_cases hm : m = 0
  · subst hm
    exact ⟨0, -149, by rw [roundF32_zero, f32Of_f32Sign], by simp⟩
  · have hbound : (m : ℚ) * 2 ^ e < f32Limit := by
      have hcast : (m : ℚ) ≤ 2 ^ 24 - 1 := by
        have hsucc : ((m + 1 : Nat) : ℚ) ≤ (2 ^ 24 : Nat) := by exact_mod_cast h
        push_cast at hsucc
        linarith
      calc (m : ℚ) * 2 ^ e
        _ ≤ (2 ^ 24 - 1) * 2 ^ (104 : Int) := by gcongr; norm_num
        _ < f32Limit := by norm_num [f32Limit]
    have hround := rounded_roundF32 e hm
    have hfin := hround.magnitude_lt_iff
    rw [inUnits_mul] at hfin
    obtain ⟨n, f, hof, hvalue⟩ := hround.f32Of_magnitude neg (hfin.2 hbound)
    exact ⟨n, f, by rw [roundF32_eq neg e hm, if_pos hbound, hof], by rw [hvalue, roundedUnits_short hm h hlow, inUnits_mul]⟩

/-- A raw result is a number of 12 bits. -/
theorem f32Value_f32OfNat {m : Nat} (h : m < 2 ^ 24) : f32Value (f32OfNat m) = some (m : ℚ) := by
  obtain ⟨n, f, hof, hvalue⟩ := roundF32_short false (e := 0) h (by decide) (by decide)
  rw [f32OfNat, f32Value_of_fin hof, hvalue]
  simp [sgn]

/-- Settles O40. -/
theorem roundingIsExactOnShortNumbers : Obligations.RoundingIsExactOnShortNumbers := by
  intro neg m e x
  have hx : x = sgn neg * (m * 2 ^ e) := mul_assoc ..
  have habs : |x| = m * 2 ^ e := by rw [hx, abs_sgn_mul, abs_of_nonneg (by positivity)]
  rw [habs]
  exact ⟨roundF32_sign neg m e, fun h => hx ▸ roundF32_roundsTo neg m e h, roundF32_overflow neg m e,
    roundF32_short neg, fun h => f32Value_f32OfNat (by omega)⟩

end Sys2Proof.Machine

/-! The arbiter's one-time flags and the parameters, which no step takes back (O59). -/

namespace Sys2Proof.Machine

/-! ### What is never taken back (41_gpio_arbiter R144, 10_state R46, 00_scope R15) -/

/-- What `s` says is initialised, `t` says so too, and `t` has the parameters of `s`. -/
abbrev State.KeptIn (s t : State) : Prop :=
  (∀ p : Pin, s.pinInit[p] = true → t.pinInit[p] = true) ∧ (s.adcInited = true → t.adcInited = true) ∧
  (∀ ch : AdcCh, s.adcCreated[ch] = true → t.adcCreated[ch] = true) ∧ t.params = s.params

theorem keptIn_refl (s : State) : s.KeptIn s := ⟨fun _ h => h, fun h => h, fun _ h => h, rfl⟩

theorem keptIn_trans {s t u : State} (h : s.KeptIn t) (k : t.KeptIn u) : s.KeptIn u := by
  obtain ⟨hinit, hinited, hcreated, hparams⟩ := h
  obtain ⟨kinit, kinited, kcreated, kparams⟩ := k
  exact ⟨fun p hp => kinit p (hinit p hp), fun hi => kinited (hinited hi), fun ch hc => kcreated ch (hcreated ch hc),
    kparams.trans hparams⟩

/-- Setting a flag clears no other. -/
theorem flag_set_true {n : Nat} (v : Vector Bool n) (i j : Fin n) (h : v[j] = true) : (v.set i true)[j] = true := by
  rw [Fin.getElem_fin, getElem_set_ite]
  split
  · rfl
  · exact h

theorem storeReg_params (s : State) (r : Reg) (touched new : Word) : (s.storeReg r touched new).params = s.params := by
  have hadc := storeReg_adcOnly s r touched new
  cases r with
  | rst | adcCs | adcFcs | adcDiv | adcInte | adcIntf =>
    obtain ⟨a, e⟩ := hadc rfl
    rw [e]
    rfl
  | _ => rfl

/-- A register write reaches no flag and no parameter (20_memory R80 (2)). -/
theorem keptIn_storeReg (s : State) (r : Reg) (touched new : Word) : s.KeptIn (s.storeReg r touched new) := by
  obtain ⟨hinit, hinited, hcreated⟩ := storeReg_flagTables s r touched new
  rw [State.KeptIn, hinit, hinited, hcreated, storeReg_params]
  exact keptIn_refl s

/-- A micro-step sets a flag or leaves them all. -/
theorem keptIn_effect {s t : State} {c : CoreId} {m : Micro} (e : MicroEffect s c m t) : s.KeptIn t := by
  cases e with
  | write r w => exact keptIn_storeReg s r _ w
  | setBits r n => exact keptIn_storeReg s r n _
  | clrBits r n => exact keptIn_storeReg s r n _
  | pinInit p => exact ⟨fun q => flag_set_true s.pinInit p q, fun h => h, fun _ h => h, rfl⟩
  | created ch => exact ⟨fun _ h => h, fun h => h, fun k => flag_set_true s.adcCreated ch k, rfl⟩
  | inited => exact ⟨fun _ h => h, fun _ => rfl, fun _ h => h, rfl⟩
  | _ => exact keptIn_refl s

theorem keptIn_dispatchStep (s : State) (c : CoreId) (rest : List DStep) (d : DStep) : s.KeptIn (s.dispatchStep c rest d) := by
  obtain ⟨_, e⟩ | ⟨r, w, -, e⟩ | ⟨_, _, _, _, e⟩ | e := dispatchStep_cases s c rest d <;> rw [e]
  · exact keptIn_refl s
  · exact keptIn_storeReg s r _ w
  · exact keptIn_refl s
  · exact keptIn_refl s

theorem keptIn_otherTurn (s : State) (t : Turn) (hc : ∀ c, t ≠ .core c) : s.KeptIn (s.turnBody t) := by
  cases t with
  | core c => exact absurd rfl (hc c)
  | enter c => obtain e | ⟨k, e⟩ := enterIrq_cases s c <;> simp only [State.turnBody, e] <;> exact keptIn_refl s
  | adcSeq =>
    obtain ⟨a, xs, n, e⟩ := adcSeq_frame s
    simp only [State.turnBody, e]
    exact keptIn_refl s
  | _ => exact keptIn_refl s

/-- Settles O59: "kept since the state `s`" is an invariant of every step. -/
theorem stepForgetsNothing : Obligations.StepForgetsNothing := fun s t he =>
  step_keeps_view (fun _ => ()) (fun _ _ _ _ _ _ _ => rfl) s.KeptIn (fun _ _ _ _ h => h) (fun _ _ _ h => h) (fun _ _ h => h)
    (fun _ _ _ _ e h => keptIn_trans h (keptIn_effect e))
    (fun u c d rest _ _ h => keptIn_trans h (keptIn_dispatchStep u c rest d))
    (fun u t hc h => keptIn_trans h (keptIn_otherTurn u t hc)) (fun _ h => h) s t (keptIn_refl s) he

end Sys2Proof.Machine

/-! The operations of the GPIO arbiter that program a pin, run undisturbed: `Init`, `SetMode`, `Deinit`, `Pwm`, `Adc`
(O16, O17, O18, O19, O23, O24). -/

namespace Sys2Proof.Machine

/-! ### From a run to an answer -/

/-- An operation that runs undisturbed to a state it reaches from `s` answers there. -/
theorem issue_reaches {pins : Pin → Bool} {s w u : State} {code : List Micro} {res v : Word} {post : Post} {st : Status}
    {n : Nat} (hr : s.Ready) (ha : s.Alone n) (hrun : Runs s.sel (n + 1) s code res post u (some ⟨st, v⟩))
    (hreach : Reaches pins s w u) :
    ∃ t, s.issue (.ok ⟨code, res, post⟩) = .next t ∧ Reaches pins s ((w.withTurns (s.turns.drop n)).answer st v) t :=
  ⟨_, issue_runs hr ha hrun, reaches_answer hreach st v⟩

theorem withOperand_some {α : Type} {v : Option α} {x : α} (h : v = some x) (k : α → Op) : withOperand v k = k x := by
  rw [h]; rfl

/-! ### The one-time initialisation (41_gpio_arbiter R142, R143) -/

/-- The state after the test of `pin_init[p]` and what it pushes. -/
abbrev State.afterInit (s : State) (p : Pin) : State := if s.pinInit[p] then s else lowLevelState s p

theorem afterInit_settled {s : State} (hs : s.Settled) (p : Pin) : (s.afterInit p).Settled := by
  obtain ⟨-, hsettled, -⟩ := init_reaches hs p
  exact hsettled

/-- `Init`: the test, and the initialisation where it has not been made. -/
theorem runs_testInit_last {s : State} (hs : s.Settled) (p : Pin) (c : CoreId) (res : Word) (post : Post) :
    Runs c (s.initSteps p + 1) s [.testInit p] res post (s.afterInit p) (some (finishResp res post)) := by
  unfold State.initSteps State.afterInit
  by_cases hi : s.pinInit[p]
  · rw [if_pos hi, if_pos hi]
    exact sruns_last hs (by simp only [State.microStep, if_pos hi])
  · rw [if_neg hi, if_neg hi]
    exact sruns_go hs (push := lowLevelInit p) (by simp only [State.microStep, if_neg hi]) (by simp [lowLevelInit])
      runs_lowLevel_last

/-- Settles O16. -/
theorem initCompletes : Obligations.InitCompletes := by
  intro s pin p hr hs hp ha
  rw [exec_issue, opFor, opInit, withOperand_some hp, taken_initialised]
  exact issue_reaches hr ha (runs_testInit_last hs p s.sel 0 .plain) (init_reaches hs p)

/-! ### `SetMode` (41_gpio_arbiter R150 to R152) -/

section
variable {s : State} {p : Pin} {m : Mode} {c : CoreId} {res : Word} {post : Post}

/-- `SetMode` of a pin that may take the mode. -/
theorem runs_setMode (hs : s.Settled) (hsw : ¬ s.SwitchRefused p m)
    (hpf : m = .output → s.params.padFault.getLsbD p.val = false) :
    Runs c (s.initSteps p + 1 + s.switchSteps p m + 1) s (setModeCode p m) res post (switchState (s.afterInit p) p m)
      (some (finishResp res post)) := by
  have hparams : (s.afterInit p).params = s.params := (init_fields s p).2
  have hswitch := runs_switch_last (c := c) (res := res) (post := post) (afterInit_settled hs p) (mt (init_refused s p m).1 hsw)
    (by rw [hparams]; exact hpf)
  rw [init_switchSteps] at hswitch
  have hrun := runs_testInit hs (List.cons_ne_nil _ _) hswitch
  rwa [← Nat.add_assoc, Nat.add_right_comm (s.initSteps p)] at hrun

/-- `SetMode` of a pin that holds another function, where the switch is refused. -/
theorem runs_setMode_refused (hs : s.Settled) (hsw : s.SwitchRefused p m) :
    Runs c (s.initSteps p + 1 + 1) s (setModeCode p m) res post (s.afterInit p) (some ⟨.duplicateValue, 0⟩) := by
  refine runs_testInit hs (List.cons_ne_nil _ _) ?_
  have hraise := runs_raise (c := c) (rest := []) (res := res) (post := post) (readFn_refused ((init_refused s p m).2 hsw))
  rwa [edgeDetect_of_settled _ (afterInit_settled hs p)] at hraise

end

theorem setMode_answer (s : State) (n : Nat) (p : Pin) (m : Mode) :
    (((s.taken n).initialised p).programmed p m).recorded p m
      = (((s.initialised p).programmed p m).recorded p m).withTurns (s.turns.drop n) := by
  rw [taken_initialised]; rfl

/-- Settles O17. -/
theorem setModeCompletes : Obligations.SetModeCompletes := by
  intro s pin mode p m hr hs hp hm hsw hpf ha
  rw [exec_issue, opFor, opSetMode, withOperand_some hp, withOperand_some hm, setMode_answer]
  exact issue_reaches hr ha (runs_setMode hs hsw hpf) (reaches_switch m (init_reaches hs p))

/-! ### `SetMode` that fails (41_gpio_arbiter R152, 60_exceptions R311) -/

/-- The pin is programmed for `Output` and its readback mismatches. -/
theorem runs_program_fault {x : State} {p : Pin} {c : CoreId} {res : Word} {post : Post}
    (hpf : x.params.padFault.getLsbD p.val = true) :
    Runs c 5 x (programAndRecord p .output) res post (programState x p .output) (some ⟨.unexpectedValue, 0⟩) := by
  have hparams : (programState x p .output).params = x.params := rfl
  have hread : (programState x p .output).microStep c (.readBack p) = (programState x p .output, .raise .unexpectedValue) := by
    simp [State.microStep, hparams, hpf]
  have hraise := runs_raise (rest := [.writeFn p .output]) (res := res) (post := post) hread
  rw [show (programState x p .output).edgeDetect = programState x p .output from edgeDetect_idem _] at hraise
  exact runs_program (List.cons_ne_nil _ _) hraise

/-- Before an `Output` is programmed: the pin is deinitialised where its function is switched. -/
def freedState (x : State) (p : Pin) : State := if x.pinFn[p] ≠ .off ∧ x.pinFn[p] ≠ .output then deinitState x p else x

/-- From the read of the entry on, `SetMode(p, Output)` of a pin with a wiring fault. -/
theorem runs_switch_fault {x : State} (hx : x.Settled) {p : Pin} {c : CoreId} {res : Word} {post : Post}
    (hsw : ¬ x.SwitchRefused p .output) (hpf : x.params.padFault.getLsbD p.val = true) :
    Runs c (x.switchSteps p .output) x [.readFn p .output] res post (programState (freedState x p) p .output)
      (some ⟨.unexpectedValue, 0⟩) := by
  have hread := readFn_go (c := c) hsw
  rw [if_neg (by decide)] at hread
  unfold State.switchSteps freedState
  by_cases hf : x.pinFn[p] ≠ .off ∧ x.pinFn[p] ≠ .output
  · rw [if_pos hf] at hread
    rw [if_pos ⟨by decide, hf⟩, if_pos rfl, if_pos hf]
    refine sruns_go hx hread (by simp [deinitBody]) ?_
    rw [List.append_nil]
    exact runs_deinit (by simp [programAndRecord]) (runs_program_fault hpf)
  · rw [if_neg hf] at hread
    rw [if_neg (fun h => hf h.2), if_pos rfl, if_neg hf]
    refine sruns_go hx hread (by simp [programAndRecord]) ?_
    rw [List.append_nil]
    exact runs_program_fault hpf

/-- Programming after a deinitialisation leaves the entry the deinitialisation left. -/
theorem programmed_after_deinit (w : State) (p : Pin) (m k : Mode) :
    ((w.programmed p k).recorded p k).programmed p m = (w.programmed p m).recorded p k := by
  simp [State.programmed, State.recorded, padAs_padAs, withPinBit_twice]

theorem reaches_fault {s w x : State} {p : Pin} (h : Reaches (· == p) s w x) :
    Reaches (· == p) s
      (if x.pinFn[p] = .off ∨ x.pinFn[p] = .output then w.programmed p .output else (w.programmed p .output).recorded p .off)
      (programState (freedState x p) p .output) := by
  unfold freedState
  by_cases hf : x.pinFn[p] = .off ∨ x.pinFn[p] = .output
  · rw [if_pos hf, if_neg (by tauto)]
    exact reaches_program _ h
  · rw [if_neg hf, if_pos (not_or.1 hf), ← programmed_after_deinit]
    exact reaches_program _ (reaches_deinit h)

/-- `SetMode(p, Output)` of a pin with a wiring fault. -/
theorem runs_setMode_fault {s : State} (hs : s.Settled) {p : Pin} {c : CoreId} {res : Word} {post : Post}
    (hsw : ¬ s.SwitchRefused p .output) (hpf : s.params.padFault.getLsbD p.val = true) :
    Runs c (s.initSteps p + s.switchSteps p .output + 1) s (setModeCode p .output) res post
      (programState (freedState (s.afterInit p) p) p .output) (some ⟨.unexpectedValue, 0⟩) := by
  have hparams : (s.afterInit p).params = s.params := (init_fields s p).2
  have hswitch := runs_switch_fault (c := c) (res := res) (post := post) (afterInit_settled hs p)
    (mt (init_refused s p .output).1 hsw) (by rw [hparams]; exact hpf)
  rw [init_switchSteps] at hswitch
  exact runs_testInit hs (List.cons_ne_nil _ _) hswitch

/-- Settles O18: the run ends at the read of the entry, or at the readback. -/
theorem setModeFails : Obligations.SetModeFails := by
  intro s pin mode p m hr hs hp hm
  rw [exec_issue, opFor, opSetMode, withOperand_some hp, withOperand_some hm]
  have hinit : Reaches (· == p) s (s.initialised p) (s.afterInit p) := init_reaches hs p
  constructor
  · intro hsw ha
    rw [taken_initialised]
    exact issue_reaches hr ha (runs_setMode_refused hs hsw) hinit
  · rintro hsw rfl hpf ha
    have hreach := reaches_fault hinit
    rw [show (s.afterInit p).pinFn = s.pinFn from (init_fields s p).1] at hreach
    obtain ⟨t, ht, hreached⟩ := issue_reaches hr ha (runs_setMode_fault hs hsw hpf) hreach
    refine ⟨t, ht, ?_⟩
    rw [taken_initialised]
    intro u
    by_cases hf : s.pinFn[p] = .off ∨ s.pinFn[p] = .output
    · rw [if_pos hf] at hreached ⊢
      exact hreached
    · rw [if_neg hf] at hreached ⊢
      exact hreached

/-! ### `Deinit` (41_gpio_arbiter R154, 30_encoding R114) -/

/-- How many turns the strict check takes (30_encoding R114). -/
abbrev strictSteps (strict : Bool) : Nat := if strict then 1 else 0

/-- The strict check of an initialised pin passes, then the rest. -/
theorem runs_strictCheck {s u : State} (hs : s.Settled) {strict : Bool} {p : Pin} (hinit : strict = true → s.pinInit[p] = true)
    {c : CoreId} {n : Nat} {rest : List Micro} {res : Word} {post : Post} {r : Option Resp} (hne : rest ≠ [])
    (k : Runs c (n + 1) s rest res post u r) :
    Runs c (strictSteps strict + n + 1) s (strictCheck strict p ++ rest) res post u r := by
  cases strict with
  | false =>
    rw [show strictSteps false + n = n from Nat.zero_add n]
    exact k
  | true =>
    rw [show strictSteps true + n = n + 1 from Nat.add_comm 1 n]
    exact sruns_go hs (push := []) (by simp only [State.microStep, if_pos (hinit rfl)]) hne k

/-- Settles O19. -/
theorem deinitCompletes : Obligations.DeinitCompletes := by
  intro s strict pin p hr hs hp hinit ha
  have hsteps : (if strict then 5 else 4) = strictSteps strict + 4 := by cases strict <;> rfl
  rw [hsteps] at ha ⊢
  rw [exec_issue, opFor, opDeinit, withOperand_some hp]
  exact issue_reaches hr ha (runs_strictCheck hs hinit (List.cons_ne_nil _ _) runs_deinit_last)
    (reaches_deinit (reaches_refl _ hs))

/-! ### `Pwm` (41_gpio_arbiter R164, 10_state R41) -/

/-- The slice and the channel of a pin in one number (R164). -/
theorem pwmOutput_number (p : Pin) :
    (BitVec.ofNat 32 (2 * (sliceOfPin p).val) ||| if chanBOfPin p then 1 else 0) = BitVec.ofNat 32 (p.val % 16) := by
  revert p; decide

/-- A pin in another mode than `Pwm` is taken there by `SetMode`. -/
theorem runs_pwmTest {s u : State} (hs : s.Settled) {p : Pin} (hfn : s.pinFn[p] ≠ .pwm) {c : CoreId} {n : Nat} {res : Word}
    {post : Post} {r : Option Resp} (k : Runs c n s (setModeCode p .pwm) res post u r) :
    Runs c (n + 1) s [.pwmTest p] res post u r :=
  sruns_go hs (push := setModeCode p .pwm) (by simp only [State.microStep, if_pos hfn]) (by simp [setModeCode]) k

/-- Settles O23. -/
theorem pwmCompletes : Obligations.PwmCompletes := by
  intro s pin p hr hs hp
  rw [exec_issue, opFor, opPwm, withOperand_some hp, pwmOutput_number]
  refine ⟨fun hfn => ?_, fun hfn hsw ha => ?_, fun hsw ha => ?_⟩
  · have htest : microRun s s.sel ⟨[.pwmTest p], BitVec.ofNat 32 (p.val % 16), .plain⟩
        = (s, .done (some ⟨.ok, BitVec.ofNat 32 (p.val % 16)⟩)) := by
      simp [microRun, State.microStep, hfn, standOf, finishResp]
    rw [opOf, issue_one s _ _ _ s .ok _ hr htest rfl, settled_answer hs]
  · have hsteps : 1 + s.initSteps p + 1 + s.switchSteps p .pwm = s.initSteps p + 1 + s.switchSteps p .pwm + 1 := by omega
    rw [hsteps] at ha ⊢
    rw [setMode_answer]
    exact issue_reaches hr ha (runs_pwmTest hs hfn (runs_setMode hs hsw nofun)) (reaches_switch .pwm (init_reaches hs p))
  · have ⟨_, _, hfn, _⟩ := hsw
    have hsteps : 1 + s.initSteps p + 1 = s.initSteps p + 1 + 1 := by omega
    rw [hsteps] at ha ⊢
    rw [taken_initialised]
    exact issue_reaches hr ha (runs_pwmTest hs hfn (runs_setMode_refused hs hsw)) (init_reaches hs p)

/-! ### `Adc` (41_gpio_arbiter R168, 10_state R51) -/

/-- The channel `ch` is bound. -/
def State.withCreated (s : State) (ch : AdcCh) : State := { s with adcCreated := s.adcCreated.set ch true }

theorem withCreated_of_created {s : State} {ch : AdcCh} (h : s.adcCreated[ch] = true) : s.withCreated ch = s := by
  rw [State.withCreated, set_same s.adcCreated ch true h]

/-- Binding a channel moves no pin. -/
theorem reaches_created {pins : Pin → Bool} {s w x : State} (ch : AdcCh) (h : Reaches pins s w x) :
    Reaches pins s (w.withCreated ch) (x.withCreated ch) := by
  obtain ⟨hquiet, hsettled, hedges⟩ := h
  exact ⟨congrArg (·.withCreated ch) hquiet, hsettled, hedges⟩

/-- The test of the channel, and its binding where it is not bound. -/
theorem runs_testCreated {s : State} (hs : s.Settled) (ch : AdcCh) (c : CoreId) (res : Word) (post : Post) :
    Runs c (if s.adcCreated[ch] then 1 else 2) s [.testCreated ch] res post (s.withCreated ch) (some (finishResp res post)) := by
  by_cases hc : s.adcCreated[ch]
  · rw [if_pos hc, withCreated_of_created hc]
    exact sruns_last hs (by simp only [State.microStep, if_pos hc])
  · have hset : (s.withCreated ch).Settled := hs
    rw [if_neg hc]
    exact sruns_go hs (push := [.setCreated ch]) (by simp only [State.microStep, if_neg hc]) (by simp) (sruns_last hset rfl)

theorem adcChan_some {p : Pin} {ch : AdcCh} (h : adcChan p = some ch) : ch.val = p.val - 26 := by
  unfold adcChan at h
  split at h
  · injection h with h; rw [← h]
  · cases h

theorem adcChan_none {p : Pin} (h : p.val < 26) : adcChan p = none := dif_neg (by omega)

/-- The initialisation of the ADC moves no pin. -/
theorem reaches_adcReady (pins : Pin → Bool) {s : State} (hs : s.Settled) : Reaches pins s s.adcReady s.adcReady := by
  have hedges : s.adcReady.ioIntr = s.ioIntr := by
    unfold State.adcReady; split <;> rfl
  exact ⟨rfl, adcReady_settled hs, edgesAddedOnly_of_ioIntr (edgesAddedOnly_refl pins s) hedges⟩

/-- `Adc` of a pin with a channel, once the ADC is initialised: `Deinit`, then the binding. -/
theorem runs_bindChannel {x : State} (p : Pin) (ch : AdcCh) (c : CoreId) (res : Word) (post : Post) :
    Runs c (if x.adcCreated[ch] then 6 else 7) x (deinitBody p ++ [.testCreated ch]) res post ((deinitState x p).withCreated ch)
      (some (finishResp res post)) := by
  have hcreated : (deinitState x p).adcCreated = x.adcCreated := rfl
  have htest := runs_testCreated (s := deinitState x p) (settled_edgeDetect _) ch c res post
  rw [hcreated] at htest
  have hsteps : (if x.adcCreated[ch] then 1 else 2) + 5 = if x.adcCreated[ch] then 6 else 7 := by split <;> rfl
  rw [← hsteps]
  exact runs_deinit (List.cons_ne_nil _ _) htest

/-- Settles O24. -/
theorem adcCompletes : Obligations.AdcCompletes := by
  intro s pin p hr hs hreset hready hp
  rw [exec_issue, opFor, opAdc, withOperand_some hp]
  constructor
  · intro ch hch n hturns
    have hbind := runs_bindChannel (x := s.adcReady) p ch s.sel (BitVec.ofNat 32 ch.val) .plain
    rw [adcReady_created] at hbind
    have hrun := (runOp_init hs hreset hready (List.replicate n (.core s.sel)) _ (by simp)
      (BitVec.ofNat 32 ch.val) .plain).trans hbind
    have hanswer := issue_answer s _ _ _ .ok _ hr hturns hrun
    rw [List.length_append, List.length_replicate] at hanswer
    refine ⟨_, by rw [hch]; exact hanswer, ?_⟩
    have hreach := reaches_created ch (reaches_deinit (reaches_adcReady (· == p) hs))
    rw [taken_adcReady, ← adcChan_some hch]
    exact reaches_answer hreach .ok (BitVec.ofNat 32 ch.val)
  · intro hlt hturns
    have hrun := runOp_init_last hs hreset hready 0 .badParameter
    rw [adcChan_none hlt, taken_adcReady]
    exact issue_answer s _ _ _ .badParameter 0 hr hturns hrun

end Sys2Proof.Machine

/-! Undisturbed reads and writes of a pin: `Mode`, `Get` and `Set`, and the level of a pin (O20, O21, O52). -/

namespace Sys2Proof.Machine

/-! ### One micro-step after the strict check (41_gpio_arbiter R156 to R160, 30_encoding R114) -/

section
variable {s : State} {strict : Bool} {p : Pin} {m : Micro}

/-- An operation of one read after the strict check. -/
theorem issue_strict_read (hr : s.Ready) (hs : s.Settled) (hinit : strict = true → s.pinInit[p] = true)
    (ha : s.Alone (strictSteps strict)) {v : Word} (h : s.microStep s.sel m = (s, .yield v)) :
    s.issue (.ok ⟨strictCheck strict p ++ [m], 0, .plain⟩) = .next ((s.taken (strictSteps strict)).answer .ok v) := by
  have hread := runs_yield (res := 0) (post := .plain) h
  rw [edgeDetect_of_settled s hs] at hread
  exact issue_runs hr ha (runs_strictCheck hs hinit (List.cons_ne_nil _ _) hread)

/-- An operation of one write after the strict check. -/
theorem issue_strict_write (hr : s.Ready) (hs : s.Settled) (hinit : strict = true → s.pinInit[p] = true)
    (ha : s.Alone (strictSteps strict)) {s' : State} (h : s.microStep s.sel m = (s', .go []))
    (hturns : s'.turns = s.turns) :
    s.issue (.ok ⟨strictCheck strict p ++ [m], 0, .plain⟩) = .next ((s'.taken (strictSteps strict)).answer .ok 0).edgeDetect := by
  rw [← answer_edge_taken s s' _ .ok 0 hturns]
  exact issue_runs hr ha (runs_strictCheck hs hinit (List.cons_ne_nil _ _) (runs_last h))

end

theorem ofBool_word (b : Bool) : (BitVec.ofBool b).setWidth 32 = if b then (1 : Word) else 0 := by cases b <;> rfl

theorem exec_mode {s : State} {strict : Bool} {pin : Byte} {p : Pin} (hr : s.Ready) (hs : s.Settled) (hp : pinOf pin = some p)
    (hinit : strict = true → s.pinInit[p] = true) (ha : s.Alone (strictSteps strict)) :
    exec (.mode strict pin) s = .next ((s.taken (strictSteps strict)).answer .ok (modeNumber s.pinFn[p])) := by
  rw [exec_issue, opFor, opMode, withOperand_some hp]
  exact issue_strict_read hr hs hinit ha rfl

theorem exec_get {s : State} {strict : Bool} {pin : Byte} {p : Pin} (hr : s.Ready) (hs : s.Settled) (hp : pinOf pin = some p)
    (hinit : strict = true → s.pinInit[p] = true) (ha : s.Alone (strictSteps strict)) :
    exec (.get strict pin) s = .next ((s.taken (strictSteps strict)).answer .ok (if s.pinIn p then 1 else 0)) := by
  rw [exec_issue, opFor, opGet, withOperand_some hp, ← ofBool_word]
  exact issue_strict_read hr hs hinit ha rfl

/-! ### The level of a pin (10_state R27, R28, R42) -/

/-- The comparator that reaches a pin: the even pins are channel A's, the odd ones channel B's (R41, R42). -/
def State.comparator (s : State) (p : Pin) : Bool :=
  let sl := s.slices[sliceOfPin p.val]
  if p.val % 2 = 0 then decide (sl.ctr.toNat < (sl.cc.extractLsb' 0 16).toNat) ^^ sl.csr.getLsbD 2
  else decide (sl.ctr.toNat < (sl.cc.extractLsb' 16 16).toNat) ^^ sl.csr.getLsbD 3

/-- The level from outside a pin, `undriven` where nothing drives it (R28 (d)). -/
def State.outside (s : State) (p : Pin) (undriven : Bool) : Bool :=
  match s.env.ext[p] with
  | .low => false
  | .high => true
  | .z => undriven

/-- The level of a pin that nothing drives: that of its only pull, or the floating level (R28 (d), R30). -/
def State.pulled (s : State) (p : Pin) : Bool :=
  match s.pad[p].getLsbD 3, s.pad[p].getLsbD 2 with
  | true, false => true
  | false, true => false
  | _, _ => s.env.float.getLsbD p.val

theorem slice_out_eq (s : State) (p : Pin) : s.slices[sliceOfPin p.val].out (chanBOfPin p.val) = s.comparator p := by
  obtain heven | hodd := Nat.mod_two_eq_zero_or_one p.val
  · simp [State.comparator, chanBOfPin, Slice.out, Slice.level, Slice.aInv, heven, BitVec.lt_def]
  · simp [State.comparator, chanBOfPin, Slice.out, Slice.level, Slice.bInv, hodd, BitVec.lt_def]

theorem undriven_eq (s : State) (p : Pin) : s.undriven p = s.outside p (s.pulled p) := by
  unfold State.undriven State.outside State.pulled padPue padPde
  cases s.env.ext[p] <;> cases s.pad[p].getLsbD 3 <;> cases s.pad[p].getLsbD 2 <;> rfl

/-- The level of a pin, by what `FUNCSEL` connects (R27, R28). -/
theorem pinIn_eq (s : State) (p : Pin) :
    s.pinIn p = (s.pad[p].getLsbD 6 &&
      if s.funcsel[p] = 5 ∧ s.sioOe.getLsbD p.val = true then s.sioOut.getLsbD p.val
      else if s.funcsel[p] = 4 then s.comparator p
      else if s.funcsel[p] = 1 ∨ s.funcsel[p] = 2 ∨ s.funcsel[p] = 3 then s.env.periph.getLsbD p.val
      else s.outside p (s.pulled p)) := by
  rw [State.pinIn, padIe, State.padLevel, slice_out_eq, undriven_eq]
  congr 1
  simp only [fSio, fPwm, fUart, fI2c, fSpi]
  by_cases hsio : s.funcsel[p] = 5
  · simp [hsio]
  · have hperiph : (s.funcsel[p] = 2 ∨ s.funcsel[p] = 3 ∨ s.funcsel[p] = 1) ↔
        (s.funcsel[p] = 1 ∨ s.funcsel[p] = 2 ∨ s.funcsel[p] = 3) := by tauto
    simp only [hsio, false_and, if_false, hperiph]

/-- The hardware of a pin is `HW(m)`, field by field (R31). -/
theorem hardware_of_programmed {s : State} {p : Pin} {m : Mode} (h : s.programmed p m = s) :
    s.funcsel[p] = hwFuncsel m ∧ s.sioOe.getLsbD p.val = hwOe m ∧ s.pad[p] = padAs m s.pad[p] := by
  have hfuncsel := congrArg (·.funcsel[p]) h
  have hoe := congrArg (·.sioOe.getLsbD p.val) h
  have hpad := congrArg (·.pad[p]) h
  simp only [State.programmed, Fin.getElem_fin, Vector.getElem_set_self, withPinBit_getLsbD _ _ _ _ p.isLt, if_true] at *
  exact ⟨hfuncsel.symm, hoe.symm, hpad.symm⟩

/-- The fields of a pad register that `HW(m)` sets. -/
theorem padAs_fields (m : Mode) (v : Byte) :
    (padAs m v).getLsbD 6 = hwIe m ∧ (padAs m v).getLsbD 3 = hwPue m ∧ (padAs m v).getLsbD 2 = hwPde m := by
  revert v; cases m <;> decide +kernel

/-- The level of a pin in a mode, as 41_gpio_arbiter R158 lists it. -/
def State.levelIn (s : State) (p : Pin) (m : Mode) : Bool :=
  match m with
  | .output => s.sioOut.getLsbD p.val
  | .input => s.outside p (s.env.float.getLsbD p.val)
  | .inputPulldown => s.outside p false
  | .inputPullup => s.outside p true
  | .pwm => s.comparator p
  | .uart | .i2c | .spi => s.env.periph.getLsbD p.val
  | .off => false

/-- The level of a pin whose hardware is that of a mode (R31). -/
theorem pinIn_of_programmed {s : State} {p : Pin} {m : Mode} (h : s.programmed p m = s) : s.pinIn p = s.levelIn p m := by
  obtain ⟨hfuncsel, hoe, hpad⟩ := hardware_of_programmed h
  obtain ⟨hie, hpue, hpde⟩ := padAs_fields m s.pad[p]
  rw [← hpad] at hie hpue hpde
  have hpulled : s.pulled p = match hwPue m, hwPde m with
      | true, false => true
      | false, true => false
      | _, _ => s.env.float.getLsbD p.val := by rw [State.pulled, hpue, hpde]
  rw [pinIn_eq, hfuncsel, hoe, hie, hpulled]
  cases m <;> rfl

/-- Settles O20: `Get` reads `pin_in(p)`, which is the level spelled out. -/
theorem modeGetComplete : Obligations.ModeGetComplete := by
  intro s strict pin p hr hs hp hinit ha sl comparator outside pulled get
  have hget : get (s.pinIn p) := exec_get hr hs hp hinit ha
  refine ⟨exec_mode hr hs hp hinit ha, hget, ?_, fun m hm => ?_⟩
  · rw [pinIn_eq] at hget
    exact hget
  · rw [pinIn_of_programmed hm] at hget
    exact hget

/-! ### `Set` (41_gpio_arbiter R160, R170) -/

theorem exec_set {s : State} {strict : Bool} {pin level : Byte} {p : Pin} {v : Bool} (hr : s.Ready) (hs : s.Settled)
    (hp : pinOf pin = some p) (hv : boolOf level = some v) (hinit : strict = true → s.pinInit[p] = true)
    (ha : s.Alone (strictSteps strict)) :
    exec (.set strict pin level) s = .next (((s.withOut p v).taken (strictSteps strict)).answer .ok 0).edgeDetect := by
  have hwrite : s.microStep s.sel (if v then .setBits .sioOut (bitAt p) else .clrBits .sioOut (bitAt p))
      = (s.withOut p v, .go []) := by
    cases v <;> simp [State.microStep, setBits_out, clrBits_out]
  rw [exec_issue, opFor, opSet, withOperand_some hp, withOperand_some hv]
  exact issue_strict_write hr hs hinit ha hwrite rfl

/-- Settles O21. -/
theorem setCompletes : Obligations.SetCompletes :=
  fun _ _ _ _ _ _ hr hs hp hv hinit ha => exec_set hr hs hp hv hinit ha

/-- The core that issued, after the answer. -/
theorem answer_core (s : State) (st : Status) (w : Word) :
    (s.answer st w).cores[(s.answer st w).sel] = (s.cores[s.sel].withFlight s.ctx none).withResp s.ctx (some ⟨st, w⟩) := by
  change (s.respond s.sel s.ctx st w).cores[s.sel.val] = _
  simp [State.respond, setFlight_eq, setResp_eq]

/-- An answer keeps the context of the issuing agent. -/
theorem answer_ctx (s : State) (st : Status) (w : Word) : (s.answer st w).ctx = s.ctx := by
  rw [State.ctx, State.inIrqCtx, answer_core, withResp_inIrq, withFlight_inIrq]
  rfl

theorem lastResp_answer (s : State) (st : Status) (w : Word) : (s.answer st w).lastResp = some ⟨st, w⟩ := by
  rw [State.lastResp, answer_ctx, answer_core]
  cases s.ctx <;> rfl

/-- An agent that has been answered may present the next command. -/
theorem ready_answer {s : State} (hr : s.Ready) (st : Status) (w : Word) : (s.answer st w).Ready := by
  obtain ⟨hf, -, hopen⟩ := hr
  refine ⟨hf, ?_, ?_⟩
  · rw [answer_ctx, flight_eq, answer_core, withResp_flight, withFlight_flight]
  · rw [answer_ctx, answer_core, withResp_cbDepth, withFlight_cbDepth]
    exact hopen

/-- An output whose buffers are on has the level of its latch (10_state R27, R28). -/
theorem pinIn_output {s : State} {p : Pin} (hfn : s.funcsel[p] = hwFuncsel .output) (hoe : s.sioOe.getLsbD p.val = true)
    (hie : padIe s.pad[p] = true) : s.pinIn p = s.sioOut.getLsbD p.val := by
  have hconnected : s.funcsel[p] = 5 ∧ s.sioOe.getLsbD p.val = true := ⟨hfn, hoe⟩
  rw [pinIn_eq, if_pos hconnected, show s.pad[p].getLsbD 6 = true from hie, Bool.true_and]

/-- Settles O52: `Set` leaves the latch at `v`, and `Get` reads the latch. -/
theorem setGetRoundTrip : Obligations.SetGetRoundTrip := by
  intro s pin level p v hr hs hp hv hfn hoe hie
  let t := ((s.withOut p v).answer .ok 0).edgeDetect
  have hset : exec (.set false pin level) s = .next t := exec_set hr hs hp hv nofun rfl
  have hresp : t.lastResp = some ⟨.ok, 0⟩ := lastResp_answer (s.withOut p v) .ok 0
  have hready : t.Ready := ready_answer (s := s.withOut p v) hr .ok 0
  have hlevel : t.pinIn p = v := by
    have hlatch : t.pinIn p = (withPinBit s.sioOut p v).getLsbD p.val := pinIn_output (s := t) hfn hoe hie
    rw [hlatch, withPinBit_getLsbD _ _ _ _ p.isLt, if_pos rfl]
  have hget : exec (.get false pin) t = .next (t.answer .ok (if t.pinIn p then 1 else 0)) :=
    exec_get hready (settled_edgeDetect _) hp nofun rfl
  rw [hlevel] at hget
  exact ⟨t, _, hset, hresp, hget, lastResp_answer t .ok _⟩

end Sys2Proof.Machine

/-! The PWM operations of a read or a write, run undisturbed: `PwmGet`, `Counter`, `Wrap`, `PwmSet`, `SetCounter`, `SetWrap` and
`SetPeriod` (O25, O26). -/

namespace Sys2Proof.Machine

/-! ### What a write of a slice's registers does (20_memory R86) -/

/-- The low bits of a register's word are the register. -/
theorem low_setWidth {n : Nat} (hn : n ≤ 32) (v : BitVec n) : (v.setWidth 32).extractLsb' 0 n = v := by
  apply BitVec.eq_of_getLsbD_eq
  intro j hj
  simp [hj, show j < 32 by omega]

theorem writeReg_pwmCtr (s : State) (i : SliceId) (v : BitVec 16) :
    s.writeReg (.pwmCtr i) (v.setWidth 32) = s.setSlice i { s.slices[i] with ctr := v, dirDown := false } := by
  have hv := low_setWidth (by omega) v
  show s.setSlice i { s.slices[i] with ctr := (v.setWidth 32).extractLsb' 0 16, dirDown := false } = _
  rw [hv]

/-! ### Reads (42_pwm_engine R196, R200, R212) -/

/-- Settles O25: each is one read. -/
theorem pwmReadsComplete : Obligations.PwmReadsComplete := by
  intro s slice chan i b hr hs hi hb
  refine ⟨?_, ?_, ?_⟩
  · rw [exec_issue, opFor, opPwmGet, withOperand_some hi, withOperand_some hb]
    exact issue_read hr hs (.readLevel i b) _ rfl
  · rw [exec_issue, opFor, opCounter, withOperand_some hi]
    exact issue_read hr hs (.readCounter i) _ rfl
  · rw [exec_issue, opFor, opWrap, withOperand_some hi]
    exact issue_read hr hs (.readWrapRec i) _ rfl

/-! ### Writes (42_pwm_engine R198, R202, R210, R220) -/

/-- A record is no register: a change of it moves no pin. -/
theorem setSlice_cfg_settled {s : State} (hs : s.Settled) (i : SliceId) (k : PwmCfg) :
    (s.setSlice i { s.slices[i] with cfg := k }).Settled := setSlice_settled hs i _ fun _ => rfl

/-- Settles O26: each is one write, after a read in `PwmSet` and `SetPeriod`. -/
theorem pwmWritesComplete : Obligations.PwmWritesComplete := by
  intro s slice w i hr hs hi
  refine ⟨?_, ?_, ?_⟩
  · intro chan b v hb hv ha
    rw [exec_issue, opFor, opPwmSet, withOperand_some hi, withOperand_some hb, withOperand_some hv]
    exact issue_two hr hs ha (.readLevelToSet i b v) _ rfl rfl rfl
  · intro v hv
    constructor
    · rw [exec_issue, opFor, opSetCounter, withOperand_some hi, withOperand_some hv]
      exact issue_go hr _ (congrArg (·, After.go []) (writeReg_pwmCtr s i v)) rfl
    · rw [exec_issue, opFor, opSetWrap, withOperand_some hi, withOperand_some hv]
      refine (issue_go hr (.setWrapRec i v) rfl rfl).trans ?_
      rw [settled_answer (setSlice_cfg_settled hs i _)]
  · intro P hP ha
    rw [exec_issue, opFor, opSetPeriod, withOperand_some hi, withOperand_some hP]
    refine (issue_two hr hs ha (.readCfgForPeriod i P) _ rfl rfl rfl).trans ?_
    have hsettled := setSlice_cfg_settled hs i (periodCfg s.slices[i].cfg P)
    exact congrArg Host.Outcome.next (settled_answer (s := (s.setSlice i _).taken 1) hsettled .ok 0)

end Sys2Proof.Machine

/-! One step of the PWM clock: the cycle of a slice, case by case, and one count (O33). -/

namespace Sys2Proof.Machine

/-! ### One cycle of a slice that runs (42_pwm_engine R180 to R189) -/

/-- The gating condition of each mode (R182). -/
theorem gate_iff (sl : Slice) (b : Bool) :
    sl.gate b = true ↔ sl.divmode = 0 ∨ (sl.divmode = 1 ∧ b = true) ∨ (sl.divmode = 2 ∧ b = true ∧ sl.prevB = false) ∨
      (sl.divmode = 3 ∧ b = false ∧ sl.prevB = true) := by
  have hmodes : ∀ d : BitVec 2, d = 0 ∨ d = 1 ∨ d = 2 ∨ d = 3 := by decide
  unfold Slice.gate
  obtain h | h | h | h := hmodes sl.divmode <;> rw [h] <;> simp

@[simp] theorem retardTick_false (sl : Slice) : sl.retardTick false = (sl, false) := by simp [Slice.retardTick]
@[simp] theorem advanceTick_true (sl : Slice) : sl.advanceTick true = (sl, true) := by simp [Slice.advanceTick]

theorem retardTick_idle {sl : Slice} (h : sl.phRet = false) (n : Bool) : sl.retardTick n = (sl, n) := by
  simp [Slice.retardTick, h]
theorem advanceTick_idle {sl : Slice} (h : sl.phAdv = false) (n : Bool) : sl.advanceTick n = (sl, n) := by
  simp [Slice.advanceTick, h]
theorem retardTick_posted {sl : Slice} (h : sl.phRet = true) : sl.retardTick true = ({ sl with csr := sl.csr &&& 0xBF }, false) := by
  simp [Slice.retardTick, h]
theorem advanceTick_posted {sl : Slice} (h : sl.phAdv = true) : sl.advanceTick false = ({ sl with csr := sl.csr &&& 0x7F }, true) := by
  simp [Slice.advanceTick, h]

/-- A retard served leaves a posted advance. -/
theorem phAdv_retarded (sl : Slice) : ({ sl with csr := sl.csr &&& 0xBF } : Slice).phAdv = sl.phAdv := by
  simp [Slice.phAdv]

/-- A slice whose divider has made its step, in a cycle with the gating input `b`. -/
def Slice.divided (sl : Slice) (b : Bool) : Slice := { sl with prevB := b, fracAcc := sl.dividerStep.1 }

section
variable {sl : Slice} {b : Bool} (hen : sl.en = true) (hgate : sl.gate b = true)
include hen hgate

theorem cycle_of_running :
    sl.cycle b =
      let x := (sl.divided b).retardTick sl.dividerStep.2
      let y := x.1.advanceTick x.2
      if y.2 then y.1.countTick else (y.1, false) :=
  cycle_running (by simp [hen, hgate])

/-- A tick that no retard swallows is counted (R183). -/
theorem cycle_tick (htick : sl.dividerStep.2 = true) (hret : sl.phRet = false) : sl.cycle b = (sl.divided b).countTick := by
  rw [cycle_of_running hen hgate, htick, retardTick_idle (sl := sl.divided b) hret]
  simp

/-- A cycle without a tick in which no advance is posted counts nothing. -/
theorem cycle_idle (htick : sl.dividerStep.2 = false) (hadv : sl.phAdv = false) : sl.cycle b = (sl.divided b, false) := by
  rw [cycle_of_running hen hgate, htick]
  simp [advanceTick_idle (sl := sl.divided b) hadv]

/-- An advance gives a cycle without a tick one (R188). -/
theorem cycle_advanced (htick : sl.dividerStep.2 = false) (hadv : sl.phAdv = true) :
    sl.cycle b = ({ sl.divided b with csr := sl.csr &&& 0x7F } : Slice).countTick := by
  rw [cycle_of_running hen hgate, htick, retardTick_false]
  dsimp only
  rw [advanceTick_posted (sl := sl.divided b) hadv]
  rfl

/-- A retard swallows the tick (R189). -/
theorem cycle_retarded (htick : sl.dividerStep.2 = true) (hret : sl.phRet = true) (hadv : sl.phAdv = false) :
    sl.cycle b = ({ sl.divided b with csr := sl.csr &&& 0xBF }, false) := by
  have hleft := (phAdv_retarded (sl.divided b)).trans hadv
  rw [cycle_of_running hen hgate, htick, retardTick_posted (sl := sl.divided b) hret]
  dsimp only
  rw [advanceTick_idle hleft]
  rfl

/-- Both posted in a cycle with a tick: the retard swallows it and the advance gives it back (R188, R189). -/
theorem cycle_both (htick : sl.dividerStep.2 = true) (hret : sl.phRet = true) (hadv : sl.phAdv = true) :
    sl.cycle b = ({ sl.divided b with csr := sl.csr &&& 0x3F } : Slice).countTick := by
  have hleft := (phAdv_retarded (sl.divided b)).trans hadv
  have hbits : (sl.csr &&& 0xBF) &&& 0x7F = sl.csr &&& 0x3F := by rw [BitVec.and_assoc]; rfl
  rw [cycle_of_running hen hgate, htick, retardTick_posted (sl := sl.divided b) hret]
  dsimp only
  rw [advanceTick_posted hleft, if_pos rfl, ← hbits]
  rfl

end

/-! ### One count (42_pwm_engine R184, R185) -/

section
variable {sl : Slice}

theorem countTick_free (h : sl.phCorrect = false) :
    sl.countTick = ({ sl with dirDown := false, ctr := if sl.ctr = sl.top then 0 else sl.ctr + 1 }, decide (sl.ctr = sl.top)) := by
  by_cases htop : sl.ctr = sl.top <;> simp [Slice.countTick, h, htop]

theorem countTick_up (h : sl.phCorrect = true) (hdir : sl.dirDown = false) :
    sl.countTick = (if sl.ctr = sl.top then { sl with dirDown := true } else { sl with ctr := sl.ctr + 1 }, false) := by
  by_cases htop : sl.ctr = sl.top <;> simp [Slice.countTick, h, hdir, htop]

theorem countTick_down (h : sl.phCorrect = true) (hdir : sl.dirDown = true) :
    sl.countTick = (if sl.ctr = 0 then { sl with dirDown := false } else { sl with ctr := sl.ctr - 1 }, decide (sl.ctr = 0)) := by
  by_cases hzero : sl.ctr = 0
  · simp [Slice.countTick, h, hdir, hzero]
  · rw [if_neg hzero, decide_eq_false hzero]
    simp [Slice.countTick, h, hdir, BitVec.ofNat_eq_ofNat ▸ hzero]

end

theorem ofNat_succ_mod (x : BitVec 16) : BitVec.ofNat 16 ((x.toNat + 1) % 65536) = x + 1 := by
  apply BitVec.eq_of_toNat_eq
  simp

theorem ofNat_pred {x : BitVec 16} (h : x ≠ 0) : BitVec.ofNat 16 (x.toNat - 1) = x - 1 := by
  apply BitVec.eq_of_toNat_eq
  bv_omega

/-- A divider step: 16 more in the accumulator, less the divider where that makes a tick (R183). -/
theorem dividerStep_eq (sl : Slice) :
    sl.dividerStep = (if sl.div16 ≤ sl.fracAcc + 16 then sl.fracAcc + 16 - sl.div16 else sl.fracAcc + 16,
      decide (sl.div16 ≤ sl.fracAcc + 16)) := by
  by_cases h : sl.div16 ≤ sl.fracAcc + 16 <;> simp [Slice.dividerStep, h]

/-- Settles O33: the three cases of a count, and the five of a cycle that runs. -/
theorem phaseRequestsServed : Obligations.PhaseRequestsServed := by
  unfold Obligations.PhaseRequestsServed
  intro count
  have hcount : ∀ x : Slice, x.countTick = count x := by
    intro x
    cases hph : x.phCorrect with
    | false =>
      have hctr : BitVec.ofNat 16 (if x.ctr = x.top then 0 else (x.ctr.toNat + 1) % 65536) = if x.ctr = x.top then 0 else x.ctr + 1 := by
        split
        · rfl
        · exact ofNat_succ_mod _
      refine (countTick_free hph).trans (.trans ?_ (if_pos hph).symm)
      rw [hctr]
    | true =>
      have hcsr : ¬ x.csr.getLsbD 1 = false := by rw [Bool.not_eq_false]; exact hph
      refine .trans ?_ (if_neg hcsr).symm
      cases hdir : x.dirDown with
      | false =>
        refine (countTick_up hph hdir).trans (.trans ?_ (if_pos rfl).symm)
        rw [ofNat_succ_mod, hdir]
      | true =>
        refine (countTick_down hph hdir).trans (.trans ?_ (if_neg (by simp)).symm)
        by_cases hzero : x.ctr = 0
        · rw [if_pos hzero, if_pos hzero]
        · rw [if_neg hzero, if_neg hzero, ofNat_pred hzero, hdir]
  refine ⟨hcount, fun s => ⟨pwmClk_frame s, fun i => ?_⟩⟩
  intro sl b tick moved gateOpen becomes
  have hbecomes : ∀ x, sl.cycle b = x → becomes x := by
    rintro _ rfl
    exact ⟨pwmClk_slice s i, pwmClk_intr s i⟩
  have hgate : sl.gate b = true ↔ gateOpen := gate_iff sl b
  constructor
  · intro hstop
    refine hbecomes _ (cycle_stopped (hstop.imp_right fun h => ?_))
    rw [← Bool.not_eq_true, hgate]
    exact h
  · intro hen hopen
    have hg := hgate.2 hopen
    have hmoved : sl.divided b = moved := by rw [Slice.divided, dividerStep_eq]
    have htick : sl.dividerStep.2 = tick := by rw [dividerStep_eq]
    rw [← hmoved]
    refine hbecomes _ ?_
    cases ht : tick with
    | true =>
      cases hret : sl.phRet with
      | false => exact (cycle_tick hen hg (htick.trans ht) hret).trans (hcount _)
      | true =>
        cases hadv : sl.phAdv with
        | false => exact cycle_retarded hen hg (htick.trans ht) hret hadv
        | true => exact (cycle_both hen hg (htick.trans ht) hret hadv).trans (hcount _)
    | false =>
      cases hadv : sl.phAdv with
      | true => exact (cycle_advanced hen hg (htick.trans ht) hadv).trans (hcount _)
      | false => exact cycle_idle hen hg (htick.trans ht) hadv

end Sys2Proof.Machine

/-! `Inc` and `Dec`: a request that a cycle serves (O27), and one on a disabled slice (O28). -/

namespace Sys2Proof.Machine

/-! ### Phase requests (42_pwm_engine R206 to R208) -/

theorem or_or_and_self {w : Nat} (x y m : BitVec w) : x ||| y ||| (x &&& m) = x ||| y := by
  apply BitVec.eq_of_getLsbD_eq
  intro j _
  simp only [BitVec.getLsbD_or, BitVec.getLsbD_and]
  cases x.getLsbD j <;> simp

theorem or_and_of_disjoint {w : Nat} (x : BitVec w) {y m : BitVec w} (h : y &&& m = 0#w) : (x ||| y) &&& m = x &&& m := by
  rw [BitVec.and_or_distrib_right, h, BitVec.or_zero]

theorem low_or_setWidth (x y : BitVec 8) : (x.setWidth 32 ||| y.setWidth 32).extractLsb' 0 8 = x ||| y := by
  rw [BitVec.extractLsb'_or, low_setWidth (by omega), low_setWidth (by omega)]

/-- A set of bits of a slice's `PWM_CSR` (20_memory R86 (c)). -/
theorem setBits_pwmCsr (s : State) (i : SliceId) (m : BitVec 8) :
    s.setBits (.pwmCsr i) (m.setWidth 32) = s.setSlice i { s.slices[i] with csr := s.slices[i].csr ||| m } := by
  show s.setSlice i (s.slices[i].writeCsr (s.slices[i].csr.setWidth 32 ||| m.setWidth 32)) = _
  rw [writeCsr_eq, low_or_setWidth, or_or_and_self]

/-- The bit of a request in `PWM_CSR`: `PH_RET`, or `PH_ADV` (10_state R33). -/
def phaseBit (retard : Bool) : BitVec 8 := if retard then 0x40 else 0x80
/-- What `Dec`, or `Inc`, polls for. -/
def phaseClear (retard : Bool) (i : SliceId) : PollCond := if retard then .phRetClear i else .phAdvClear i
/-- `Dec`, or `Inc`: the request is posted, then polled for. -/
def phaseCode (retard : Bool) (i : SliceId) : List Micro :=
  [.setBits (.pwmCsr i) ((phaseBit retard).setWidth 32), .poll (phaseClear retard i) 0]
/-- Whether the request is posted. -/
def Slice.requested (sl : Slice) (retard : Bool) : Bool := if retard then sl.phRet else sl.phAdv
/-- A slice with the request posted. -/
def Slice.request (sl : Slice) (retard : Bool) : Slice := { sl with csr := sl.csr ||| phaseBit retard }
/-- The state with the request of slice `i` posted. -/
abbrev State.request (s : State) (i : SliceId) (retard : Bool) : State := s.setSlice i (s.slices[i].request retard)

theorem opInc_eq {slice : Byte} {i : SliceId} (hi : sliceOf slice = some i) : opInc slice = .ok ⟨phaseCode false i, 0, .plain⟩ :=
  withOperand_some hi _
theorem opDec_eq {slice : Byte} {i : SliceId} (hi : sliceOf slice = some i) : opDec slice = .ok ⟨phaseCode true i, 0, .plain⟩ :=
  withOperand_some hi _

theorem pollHolds_phaseClear (s : State) (i : SliceId) (retard : Bool) :
    s.pollHolds (phaseClear retard i) = !s.slices[i].requested retard := by cases retard <;> rfl

theorem requested_request (sl : Slice) (retard : Bool) : (sl.request retard).requested retard = true := by
  cases retard <;> simp [Slice.request, Slice.requested, phaseBit, Slice.phRet, Slice.phAdv]

theorem request_en (sl : Slice) (retard : Bool) : (sl.request retard).en = sl.en := by
  cases retard <;> simp [Slice.request, phaseBit, Slice.en]

theorem request_divmode (sl : Slice) (retard : Bool) : (sl.request retard).divmode = sl.divmode := by
  have hfield : ∀ x y : BitVec 8, y.extractLsb' 4 2 = 0#2 → (x ||| y).extractLsb' 4 2 = x.extractLsb' 4 2 := by
    intro x y h
    rw [BitVec.extractLsb'_or, h, BitVec.or_zero]
  cases retard <;> exact hfield _ _ rfl

theorem request_out (sl : Slice) (retard chanB : Bool) : (sl.request retard).out chanB = sl.out chanB := by
  cases retard <;> cases chanB <;> simp [Slice.request, phaseBit, Slice.out, Slice.aInv, Slice.bInv, Slice.level]

/-- A request moves no pin. -/
theorem request_settled {s : State} (hs : s.Settled) (i : SliceId) (retard : Bool) : (s.request i retard).Settled :=
  setSlice_settled hs i _ (request_out _ retard)

theorem microStep_request (s : State) (c : CoreId) (i : SliceId) (retard : Bool) :
    s.microStep c (.setBits (.pwmCsr i) ((phaseBit retard).setWidth 32)) = (s.request i retard, .go []) :=
  congrArg (·, After.go []) (setBits_pwmCsr s i (phaseBit retard))

/-- The request is posted, and the turns after it are the polls'. -/
theorem runOp_request {s : State} (hs : s.Settled) (c : CoreId) (i : SliceId) (retard : Bool) (ts : List Turn) :
    runOp c (.core c :: ts) s ⟨phaseCode retard i, 0, .plain⟩
      = runOp c ts (s.request i retard) ⟨[.poll (phaseClear retard i) 0], 0, .plain⟩ := by
  rw [phaseCode, runOp_go (microStep_request s c i retard) (List.cons_ne_nil _ _), edgeDetect_of_settled _ (request_settled hs i retard)]
  rfl

/-! ### A request that a cycle serves (42_pwm_engine R188, R189) -/

theorem countTick_csr (sl : Slice) : sl.countTick.1.csr = sl.csr := by
  unfold Slice.countTick
  split
  · split <;> rfl
  · split <;> split <;> rfl

/-- Where a cycle between the request and the first poll clears it, the operation ends at that poll. -/
theorem issue_served {s : State} (hr : s.Ready) (hs : s.Settled) {i : SliceId} {retard : Bool}
    (ht : s.NextTurns [.pwmClk, .core s.sel]) (hserved : (s.request i retard).pwmClk.slices[i].requested retard = false) :
    s.issue (.ok ⟨phaseCode retard i, 0, .plain⟩)
      = .next (((s.taken 2).request i retard).pwmClk.answer .ok 0).edgeDetect := by
  have hpoll : ∀ c, (s.request i retard).pwmClk.edgeDetect.microStep c (.poll (phaseClear retard i) 0)
      = ((s.request i retard).pwmClk.edgeDetect, .go []) := by
    intro c
    have hholds : (s.request i retard).pwmClk.edgeDetect.pollHolds (phaseClear retard i) = true := by
      rw [pollHolds_phaseClear, edgeDetect_slices, hserved]
      rfl
    rw [State.microStep, State.pollOnce, if_pos hholds]
  have hrun : runOp s.sel [.core s.sel, .pwmClk, .core s.sel] s ⟨phaseCode retard i, 0, .plain⟩
      = some ((s.request i retard).pwmClk.edgeDetect, some ⟨.ok, 0⟩) := by
    rw [runOp_request hs, runOp_other _ rfl]
    have hlast := runOp_last (res := 0) (post := .plain) (hpoll s.sel)
    rwa [edgeDetect_of_settled _ (settled_edgeDetect _)] at hlast
  refine (issue_answer s _ _ _ .ok 0 hr ht hrun).trans (congrArg Host.Outcome.next ?_)
  exact answer_edge_taken s (s.request i retard).pwmClk 2 .ok 0 rfl

/-- An enabled, free-running slice with an advance posted, in a cycle without a tick, makes one count more (R188). -/
theorem cycle_request_advance {sl : Slice} (hen : sl.en = true) (hfree : sl.divmode = 0) (htick : sl.fracAcc + 16 < sl.div16) (b : Bool) :
    ((sl.request false).cycle b).1
      = ({ sl with prevB := b, fracAcc := sl.fracAcc + 16, csr := sl.csr &&& 0x7F } : Slice).countTick.1 := by
  have hgate : (sl.request false).gate b = true := (gate_iff _ b).2 (.inl ((request_divmode sl false).trans hfree))
  have hstep : (sl.request false).dividerStep = (sl.fracAcc + 16, false) := if_neg (Nat.not_le.2 htick)
  rw [cycle_advanced ((request_en sl false).trans hen) hgate (congrArg Prod.snd hstep) (requested_request sl false), Slice.divided, hstep]
  have hcsr : (sl.request false).csr &&& 0x7F = sl.csr &&& 0x7F := or_and_of_disjoint sl.csr rfl
  rw [hcsr]
  rfl

/-- An enabled, free-running slice with a retard and no advance posted, in a cycle with a tick, makes no count (R189). -/
theorem cycle_request_retard {sl : Slice} (hen : sl.en = true) (hfree : sl.divmode = 0) (htick : sl.div16 ≤ sl.fracAcc + 16)
    (hadv : sl.phAdv = false) (b : Bool) :
    ((sl.request true).cycle b).1
      = { sl with prevB := b, fracAcc := sl.fracAcc + 16 - sl.div16, csr := sl.csr &&& 0xBF } := by
  have hgate : (sl.request true).gate b = true := (gate_iff _ b).2 (.inl ((request_divmode sl true).trans hfree))
  have hstep : (sl.request true).dividerStep = (sl.fracAcc + 16 - sl.div16, true) := if_pos htick
  have hadv' : (sl.request true).phAdv = false := by
    rw [← hadv]
    simp [Slice.request, phaseBit, Slice.phAdv]
  rw [cycle_retarded ((request_en sl true).trans hen) hgate (congrArg Prod.snd hstep) (requested_request sl true) hadv',
    Slice.divided, hstep]
  have hcsr : (sl.request true).csr &&& 0xBF = sl.csr &&& 0xBF := or_and_of_disjoint sl.csr rfl
  rw [hcsr]
  rfl

theorem request_pwmClk_slice (s : State) (i : SliceId) (retard : Bool) :
    (s.request i retard).pwmClk.slices[i] = ((s.slices[i].request retard).cycle (s.env.bIn.getLsbD i.val)).1 := by
  rw [pwmClk_slice, Fin.getElem_fin, setSlice_same]
  rfl

/-- Settles O27: the cycle serves the request, and the poll after it finds it clear. -/
theorem incDecComplete : Obligations.IncDecComplete := by
  intro s slice i hr hs hi hen hfree ht
  constructor
  · intro htick u
    have hslice : (s.request i false).pwmClk.slices[i] = _ :=
      (request_pwmClk_slice s i false).trans (cycle_request_advance hen hfree htick _)
    refine ⟨?_, hslice⟩
    rw [exec_issue, opFor, opInc_eq hi]
    refine issue_served hr hs ht ?_
    rw [hslice, Slice.requested, if_neg (by simp), Slice.phAdv, countTick_csr]
    simp
  · intro htick hadv u
    have hslice : (s.request i true).pwmClk.slices[i] = _ :=
      (request_pwmClk_slice s i true).trans (cycle_request_retard hen hfree htick hadv _)
    refine ⟨?_, hslice⟩
    rw [exec_issue, opFor, opDec_eq hi]
    refine issue_served hr hs ht ?_
    rw [hslice, Slice.requested, if_pos rfl, Slice.phRet]
    simp

/-! ### A request on a disabled slice (42_pwm_engine R207, 60_exceptions R316) -/

section
variable {s : State} {i : SliceId}

/-- Cycles leave the request of a disabled slice posted. -/
theorem request_clocked (hdis : s.slices[i].en = false) (retard : Bool) (n : Nat) :
    ∃ pb, ((s.request i retard).clocked n).slices[i] = { s.slices[i].request retard with prevB := pb } := by
  have hsame : (s.request i retard).slices[i] = s.slices[i].request retard := setSlice_same s i _
  have h := clocked_disabled (s.request i retard) i (by rw [hsame, request_en, hdis]) n
  rwa [hsame] at h

theorem request_never_clear (hdis : s.slices[i].en = false) (retard : Bool) (n : Nat) :
    ((s.request i retard).clocked n).pollHolds (phaseClear retard i) = false := by
  obtain ⟨pb, h⟩ := request_clocked hdis retard n
  have hposted : ({ s.slices[i].request retard with prevB := pb } : Slice).requested retard = true := requested_request s.slices[i] retard
  rw [pollHolds_phaseClear, h, hposted]
  rfl

variable {ts rest : List Turn} (hr : s.Ready) (hs : s.Settled) (hdis : s.slices[i].en = false)
  (hmix : ∀ t ∈ ts, t = .core s.sel ∨ t = .pwmClk) (hturns : s.turns = ts ++ rest)
include hr hs hdis hmix hturns

/-- With a budget the polls end with `Timeout`. -/
theorem issue_request_timeout (retard : Bool) (hb : s.params.pollBudget = some (ts.count (.core s.sel)))
    (hlast : ts.getLast? = some (.core s.sel)) :
    s.issue (.ok ⟨phaseCode retard i, 0, .plain⟩)
      = .next ((((s.request i retard).clocked (ts.count .pwmClk)).taken ts.length).answer .timeout 0) := by
  have hnext : s.NextTurns ts := by rw [State.NextTurns, hturns, List.take_left]
  have hpolls := runOp_polls ts (s.request i retard) 0 (request_settled hs i retard) (request_never_clear hdis retard) hb hmix hlast
    (Nat.zero_add _)
  refine (issue_answer s _ ts _ .timeout 0 hr hnext ((runOp_request hs s.sel i retard ts).trans hpolls)).trans ?_
  rw [State.taken, clocked_turns]
  rfl

/-- Without a budget the polls go on. -/
theorem issue_request_flies (retard : Bool) (hb : s.params.pollBudget = none) (hrest : rest = []) :
    s.issue (.ok ⟨phaseCode retard i, 0, .plain⟩)
      = .next (((((s.request i retard).clocked (ts.count .pwmClk)).taken ts.length).setFlight s.sel s.ctx
          (some ⟨[.poll (phaseClear retard i) (ts.count (.core s.sel))], 0, .plain⟩)).setResp s.sel s.ctx none) := by
  have hall : s.turns = ts := by rw [hturns, hrest, List.append_nil]
  have hrun : microRun s s.sel ⟨phaseCode retard i, 0, .plain⟩
      = (s.request i retard, .flies ⟨[.poll (phaseClear retard i) 0], 0, .plain⟩) := by
    simp [phaseCode, microRun, microStep_request, standOf]
  have ⟨hf, _, _⟩ := hr
  rw [issue_flies s _ _ _ hr hrun, edgeDetect_of_settled _ (request_settled hs i retard), hall,
    drive_polls s.ctx ts (s.request i retard) 0 hf (request_settled hs i retard) rfl (request_never_clear hdis retard) hb hmix,
    Nat.zero_add, dress_nil_of_taken (n := ts.length) (by rw [clocked_turns]; exact congrArg List.length hall)]

end

/-- Settles O28: no cycle clears the request, so every poll fails. -/
theorem incDecOnDisabledSlice : Obligations.IncDecOnDisabledSlice := by
  intro s slice i ts rest hr hs hi hdis hmix hturns posted
  refine ⟨?_, ?_, ?_⟩
  · have hbit : ∀ retard, ∃ pb, (posted (phaseBit retard)).slices[i] = { s.slices[i].request retard with prevB := pb } :=
      fun retard => request_clocked hdis retard _
    intro bit hmem
    simp only [List.mem_cons, List.not_mem_nil, or_false] at hmem
    obtain rfl | rfl := hmem
    · exact hbit false
    · exact hbit true
  · rintro B hb - rfl hlast
    constructor
    · rw [exec_issue, opFor, opInc_eq hi]
      exact issue_request_timeout hr hs hdis hmix hturns false hb hlast
    · rw [exec_issue, opFor, opDec_eq hi]
      exact issue_request_timeout hr hs hdis hmix hturns true hb hlast
  · intro hb hrest
    constructor
    · rw [exec_issue, opFor, opInc_eq hi]
      exact issue_request_flies hr hs hdis hmix hturns false hb hrest
    · rw [exec_issue, opFor, opDec_eq hi]
      exact issue_request_flies hr hs hdis hmix hturns true hb hrest

end Sys2Proof.Machine

/-! `SetEnabled` and `PwmSetInterrupt`, run undisturbed (O29, O30). -/

namespace Sys2Proof.Machine

/-! ### A run of writes to one slice -/

/-- `x` is `s` with slice `i` become `sl`, but for edges of the slice's pins. -/
abbrev ReachesSlice (s : State) (i : SliceId) (sl : Slice) (x : State) : Prop := Reaches (pinsOfSlice i) s (s.setSlice i sl) x

section
variable {s x : State} {i : SliceId} {sl sl' last : Slice} {c : CoreId} {n : Nat} {m k : Micro} {rest : List Micro} {r : Option Resp}

theorem reachesSlice_refl (hs : s.Settled) : ReachesSlice s i s.slices[i] s := by
  have hself : s.setSlice i s.slices[i] = s := by simp [State.setSlice]
  rw [ReachesSlice, hself]
  exact reaches_refl _ hs

theorem slice_of_reachesSlice (h : ReachesSlice s i sl x) : x.slices[i] = sl := by
  obtain ⟨hquiet, -, -⟩ := h
  have hslices : x.slices = s.slices.set i sl := congrArg State.slices hquiet
  rw [hslices]
  simp

/-- One more write to the slice. -/
theorem reachesSlice_write (h : ReachesSlice s i sl x) (sl' : Slice) : ReachesSlice s i sl' (x.setSlice i sl').edgeDetect := by
  have hnext := reaches_slice sl' h
  rwa [setSlice_setSlice] at hnext

/-- The operation runs to its end from `x` in `n` micro-steps, and leaves `s` with slice `i` become `last`. -/
def RunsToSlice (s : State) (i : SliceId) (c : CoreId) (n : Nat) (x : State) (code : List Micro) (last : Slice) : Prop :=
  ∃ u, Runs c n x code 0 .plain u (some ⟨.ok, 0⟩) ∧ ReachesSlice s i last u

theorem runsToSlice_write (h : ReachesSlice s i sl x) (hm : x.microStep c m = (x.setSlice i sl', .go [])) (hne : rest ≠ [])
    (hrest : ∀ y, ReachesSlice s i sl' y → RunsToSlice s i c n y rest last) : RunsToSlice s i c (n + 1) x (m :: rest) last := by
  obtain ⟨u, hrun, hu⟩ := hrest _ (reachesSlice_write h sl')
  exact ⟨u, runs_go hm hne hrun, hu⟩

theorem runsToSlice_last (h : ReachesSlice s i sl x) (hm : x.microStep c m = (x.setSlice i sl', .go [])) :
    RunsToSlice s i c 1 x [m] sl' :=
  ⟨_, runs_last hm, reachesSlice_write h sl'⟩

/-- A read that decides what is done next. -/
theorem runsToSlice_read (h : ReachesSlice s i sl x) {push : List Micro} (hm : x.microStep c m = (x, .go push)) (hne : push ++ rest ≠ [])
    (hrest : RunsToSlice s i c n x (push ++ rest) last) : RunsToSlice s i c (n + 1) x (m :: rest) last := by
  obtain ⟨-, hsettled, -⟩ := h
  obtain ⟨u, hrun, hu⟩ := hrest
  exact ⟨u, sruns_go hsettled hm hne hrun, hu⟩

end

/-! ### `SetEnabled` (42_pwm_engine R214) -/

/-- The bits of a record in `PWM_CSR`: `PH_CORRECT`, `A_INV`, `B_INV`, `DIVMODE` (10_state R33). -/
def csrFields (k : PwmCfg) : BitVec 8 :=
  (if k.phCorrect then 0x02#8 else 0#8) ||| (if k.invA then 0x04#8 else 0#8) ||| (if k.invB then 0x08#8 else 0#8)
    ||| (k.divmode.setWidth 8 <<< 4)

/-- The word of R214 (e): the record's bits, and `EN` and the phase requests as read. -/
theorem low_csrWord (k : PwmCfg) (csr : BitVec 8) :
    (csrWord k (csr.setWidth 32)).extractLsb' 0 8 = (csr &&& 0xC1#8) ||| csrFields k := by
  have hmode : ∀ d : BitVec 2, (d.setWidth 32 <<< 4).extractLsb' 0 8 = d.setWidth 8 <<< 4 := by decide
  simp only [csrWord, csrFields, BitVec.extractLsb'_or, BitVec.extractLsb'_and, low_setWidth (n := 8) (by omega), hmode,
    BitVec.or_assoc]
  cases k.phCorrect <;> cases k.invA <;> cases k.invB <;> rfl

theorem started_csr (sl : Slice) : sl.started.csr = (sl.csr &&& 0xC0#8) ||| 0x01#8 ||| csrFields sl.cfg := by
  simp only [Slice.started, csrFields, BitVec.or_assoc]
  cases sl.cfg.phCorrect <;> cases sl.cfg.invA <;> cases sl.cfg.invB <;> rfl

/-- The write of R214 (e) and the set of `EN` of (g) give `Slice.started`'s register. -/
theorem csr_enabled (sl : Slice) :
    ((sl.csr &&& 0xC1#8) ||| csrFields sl.cfg) ||| (sl.csr &&& 0xC0#8) ||| 0x01#8 = sl.started.csr := by
  have hsplit : sl.csr &&& 0xC1#8 = (sl.csr &&& 0xC0#8) ||| (sl.csr &&& 0x01#8) := by
    rw [← BitVec.and_or_distrib_left]
    rfl
  have habsorb : ∀ a b f : BitVec 8, ((a ||| (sl.csr &&& b)) ||| f) ||| a ||| b = a ||| b ||| f := by
    intro a b f
    apply BitVec.eq_of_getLsbD_eq
    intro j _
    simp only [BitVec.getLsbD_or, BitVec.getLsbD_and]
    cases a.getLsbD j <;> cases b.getLsbD j <;> simp
  rw [hsplit, habsorb, started_csr]

section
variable {x : State} {i : SliceId} {sl : Slice} (h : x.slices[i] = sl) (c : CoreId) (k : PwmCfg)
include h

theorem microStep_write_pwmDiv :
    x.microStep c (.write (.pwmDiv i) (divWord k)) = (x.setSlice i { sl with div := k.divInt ++ k.divFrac, fracAcc := 0 }, .go []) := by
  have hlow : (divWord k).extractLsb' 0 12 = k.divInt ++ k.divFrac := low_setWidth (n := 12) (by omega) _
  rw [← hlow, ← h]
  rfl

theorem microStep_write_pwmTop (w : BitVec 16) :
    x.microStep c (.write (.pwmTop i) (w.setWidth 32)) = (x.setSlice i { sl with top := w }, .go []) := by
  have hlow : (w.setWidth 32).extractLsb' 0 16 = w := low_setWidth (by omega) w
  conv_rhs => rw [← hlow, ← h]
  rfl

theorem microStep_write_pwmCsr :
    x.microStep c (.write (.pwmCsr i) (csrWord k (x.readReg (.pwmCsr i))))
      = (x.setSlice i { sl with csr := ((sl.csr &&& 0xC1#8) ||| csrFields k) ||| (sl.csr &&& 0xC0#8) }, .go []) := by
  show (x.setSlice i (x.slices[i].writeCsr (csrWord k (x.slices[i].csr.setWidth 32))), After.go []) = _
  rw [writeCsr_eq, low_csrWord, h]
  rfl

theorem microStep_zero_pwmCtr :
    x.microStep c (.write (.pwmCtr i) 0) = (x.setSlice i { sl with ctr := 0, dirDown := false }, .go []) := by
  rw [← h]
  rfl

theorem microStep_enable :
    x.microStep c (.setBits (.pwmCsr i) 0x01) = (x.setSlice i { sl with csr := sl.csr ||| 0x01 }, .go []) := by
  rw [← h]
  exact congrArg (·, After.go []) (setBits_pwmCsr x i 0x01)

theorem microStep_disable :
    x.microStep c (.clrBits (.pwmCsr i) 0x01) = (x.setSlice i { sl with csr := sl.csr &&& 0xFE }, .go []) := by
  have hlow : (sl.csr.setWidth 32 &&& ~~~0x01#32).extractLsb' 0 8 = sl.csr &&& 0xFE := by
    rw [BitVec.extractLsb'_and, low_setWidth (by omega)]
    rfl
  have hkept : sl.csr &&& 0xFE ||| sl.csr &&& 0xC0 = sl.csr &&& 0xFE := by
    rw [← BitVec.and_or_distrib_left]
    rfl
  show (x.setSlice i (x.slices[i].writeCsr (x.slices[i].csr.setWidth 32 &&& ~~~0x01#32)), After.go []) = _
  rw [writeCsr_eq, h, hlow, hkept]

end

/-- The six micro-steps after the read of the record take the slice to `Slice.started`. -/
theorem runsToSlice_enable {s : State} (hs : s.Settled) (i : SliceId) (c : CoreId) :
    RunsToSlice s i c 7 s [.readCfg i] s.slices[i].started := by
  have hstart := reachesSlice_refl (i := i) hs
  refine runsToSlice_read hstart rfl (List.cons_ne_nil _ _) ?_
  refine runsToSlice_write hstart (microStep_write_pwmDiv rfl c _) (List.cons_ne_nil _ _) fun _ hdiv => ?_
  refine runsToSlice_write hdiv (microStep_write_pwmTop (slice_of_reachesSlice hdiv) c _) (List.cons_ne_nil _ _) fun _ htop => ?_
  refine runsToSlice_read htop rfl (List.cons_ne_nil _ _) ?_
  refine runsToSlice_write htop (microStep_write_pwmCsr (slice_of_reachesSlice htop) c _) (List.cons_ne_nil _ _) fun _ hcsr => ?_
  refine runsToSlice_write hcsr (microStep_zero_pwmCtr (slice_of_reachesSlice hcsr) c) (List.cons_ne_nil _ _) fun _ hctr => ?_
  refine runsToSlice_last hctr ((microStep_enable (slice_of_reachesSlice hctr) c).trans ?_)
  rw [show _ ||| 0x01 = s.slices[i].started.csr from csr_enabled s.slices[i]]
  rfl

/-- Settles O29: six micro-steps after the read of the record, or one atomic clear. -/
theorem setEnabledCompletes : Obligations.SetEnabledCompletes := by
  intro s slice enable i e hr hs hi he
  rw [exec_issue, opFor, opSetEnabled, withOperand_some hi, withOperand_some he]
  constructor
  · rintro rfl ha
    obtain ⟨u, hrun, hreach⟩ := runsToSlice_enable hs i s.sel
    exact issue_reaches hr ha hrun hreach
  · rintro rfl
    refine (issue_go hr _ (microStep_disable rfl s.sel) rfl).trans (congrArg Host.Outcome.next ?_)
    refine settled_answer (setSlice_settled hs i _ fun b => ?_) .ok 0
    cases b <;> simp [Slice.out, Slice.aInv, Slice.bInv, Slice.level]

/-! ### `PwmSetInterrupt` (42_pwm_engine R228) -/

/-- A handler is no register: binding it moves no pin. -/
theorem setSlice_cb_settled {s : State} (hs : s.Settled) (i : SliceId) (h : Word) :
    (s.setSlice i { s.slices[i] with cb := h }).Settled := setSlice_settled hs i _ fun _ => rfl

theorem low_bitAt (i : SliceId) : (bitAt i.val).extractLsb' 0 8 = 1#8 <<< i.val := by
  revert i
  decide

theorem setBits_pwmInte (s : State) (i : SliceId) :
    s.setBits .pwmInte (bitAt i.val) = { s with pwmInte := s.pwmInte ||| (1#8 <<< i.val) } := by
  have hword : (s.pwmInte.setWidth 32 ||| bitAt i.val).extractLsb' 0 8 = s.pwmInte ||| (1#8 <<< i.val) := by
    rw [BitVec.extractLsb'_or, low_setWidth (by omega), low_bitAt]
  rw [← hword]
  rfl

theorem clrBits_pwmInte (s : State) (i : SliceId) :
    s.clrBits .pwmInte (bitAt i.val) = { s with pwmInte := s.pwmInte &&& ~~~(1#8 <<< i.val) } := by
  have hmask : (~~~bitAt i.val).extractLsb' 0 8 = ~~~(1#8 <<< i.val) := by
    revert i
    decide
  have hword : (s.pwmInte.setWidth 32 &&& ~~~bitAt i.val).extractLsb' 0 8 = s.pwmInte &&& ~~~(1#8 <<< i.val) := by
    rw [BitVec.extractLsb'_and, low_setWidth (by omega), hmask]
  rw [← hword]
  rfl

/-- The gate of core `c` becomes `v`. -/
abbrev State.withGate (s : State) (c : CoreId) (v : Bool) : State := s.setCore c { s.cores[c] with nvicPwm := v }

theorem withGate_self {s : State} {c : CoreId} (h : s.cores[c].nvicPwm = true) : s.withGate c true = s := by
  have hsame : { s.cores[c] with nvicPwm := true } = s.cores[c] := by rw [← h]
  rw [State.withGate, hsame]
  exact setCore_self s c

/-- Slice `i`'s handler becomes `h` and the enables `e`. -/
def State.bound (s : State) (i : SliceId) (h : Word) (e : BitVec 8) : State :=
  ({ s with pwmInte := e } : State).setSlice i { s.slices[i] with cb := h }

section
variable {s : State} (hs : s.Settled) (c : CoreId)
include hs

theorem bound_settled (i : SliceId) (h : Word) (e : BitVec 8) : (s.bound i h e).Settled :=
  setSlice_settled (s := { s with pwmInte := e }) hs i _ fun _ => rfl

/-- The gate is opened where it was not open (R228 (c), (d)). -/
theorem runs_testGate : Runs c (if s.cores[c].nvicPwm then 1 else 2) s [.testGatePwm] 0 .plain (s.withGate c true) (some ⟨.ok, 0⟩) := by
  cases hgate : s.cores[c].nvicPwm with
  | true =>
    have htest : s.microStep c .testGatePwm = (s, .go []) := congrArg (fun code => (s, After.go code)) (if_pos hgate)
    rw [withGate_self hgate]
    exact sruns_last hs htest
  | false =>
    have htest : s.microStep c .testGatePwm = (s, .go [.writeGatePwm true]) :=
      congrArg (fun code => (s, After.go code)) (if_neg (by rw [hgate]; simp))
    exact sruns_go hs htest (List.cons_ne_nil _ _) (sruns_last hs rfl)

/-- With a handler: the handler, the enable, the gate. -/
theorem runs_bind (i : SliceId) (h : Word) :
    Runs c ((if s.cores[c].nvicPwm then 2 else 3) + 1) s [.writeCb i h, .setBits .pwmInte (bitAt i.val), .testGatePwm] 0 .plain
      ((s.bound i h (s.pwmInte ||| (1#8 <<< i.val))).withGate c true) (some ⟨.ok, 0⟩) := by
  have hsteps : (if s.cores[c].nvicPwm then 2 else 3) + 1 = (if s.cores[c].nvicPwm then 1 else 2) + 1 + 1 := by
    split <;> rfl
  have henable : (s.setSlice i { s.slices[i] with cb := h }).microStep c (.setBits .pwmInte (bitAt i.val))
      = (s.bound i h (s.pwmInte ||| (1#8 <<< i.val)), .go []) :=
    congrArg (·, After.go []) (setBits_pwmInte _ i)
  have hbound := bound_settled hs i h (s.pwmInte ||| (1#8 <<< i.val))
  rw [hsteps]
  exact sruns_go (setSlice_cb_settled hs i h) rfl (List.cons_ne_nil _ _)
    (sruns_go hbound henable (List.cons_ne_nil _ _) (runs_testGate hbound c))

/-- Without one: the enable, the handler, and the gate where the parameter says so. -/
theorem runs_unbind (i : SliceId) (closes : Bool) :
    Runs c ((if closes then 2 else 1) + 1) s
      ([.clrBits .pwmInte (bitAt i.val), .writeCb i 0] ++ if closes then [.writeGatePwm false] else []) 0 .plain
      (if closes then (s.bound i 0 (s.pwmInte &&& ~~~(1#8 <<< i.val))).withGate c false
        else s.bound i 0 (s.pwmInte &&& ~~~(1#8 <<< i.val))) (some ⟨.ok, 0⟩) := by
  have hdisable : s.microStep c (.clrBits .pwmInte (bitAt i.val))
      = ({ s with pwmInte := s.pwmInte &&& ~~~(1#8 <<< i.val) }, .go []) :=
    congrArg (·, After.go []) (clrBits_pwmInte s i)
  have hdisabled : ({ s with pwmInte := s.pwmInte &&& ~~~(1#8 <<< i.val) } : State).Settled := hs
  have hbound := bound_settled hs i 0 (s.pwmInte &&& ~~~(1#8 <<< i.val))
  cases closes with
  | true =>
    exact sruns_go hdisabled hdisable (List.cons_ne_nil _ _) (sruns_go hbound rfl (List.cons_ne_nil _ _) (sruns_last hbound rfl))
  | false => exact sruns_go hdisabled hdisable (List.cons_ne_nil _ _) (sruns_last hbound rfl)

end

/-- Settles O30: no micro-step of either form moves a pin. -/
theorem pwmSetInterruptCompletes : Obligations.PwmSetInterruptCompletes := by
  intro s slice h i hr hs hi
  rw [exec_issue, opFor, opPwmSetInterrupt, withOperand_some hi]
  constructor
  · intro hh n ha
    rw [if_pos hh]
    exact issue_runs hr ha (runs_bind hs s.sel i h)
  · rintro rfl n ha
    rw [if_neg (by simp)]
    refine (issue_runs hr ha (runs_unbind hs s.sel i s.params.nilDisablesLine)).trans ?_
    cases s.params.nilDisablesLine <;> rfl

end Sys2Proof.Machine

/-! The wrap dispatch: the status read and acknowledged, the lookups, the invocations (O48). -/

namespace Sys2Proof.Machine

/-! ### One micro-step of a dispatch (60_exceptions R320, 44_irq_router R292) -/

theorem setDisp_setDisp (s : State) (c : CoreId) (x y : List DStep) : (s.setDisp c x).setDisp c y = s.setDisp c y := by
  have hcore : (s.setDisp c x).cores[c] = { s.cores[c] with disp := x } := setCore_same s c _
  rw [State.setDisp, hcore]
  exact setCore_setCore s c _ _

/-- Core `c` serves an interrupt, no handler of it is open, and its next micro-step is the dispatch's `d`. -/
structure State.Dispatching (s : State) (c : CoreId) (d : DStep) (rest : List DStep) : Prop where
  fatal : s.fatal = false
  serving : s.inIrqCtx c = true
  idle : s.cores[c].irq = none
  closed : s.cores[c].cbDepth = 0
  disp : s.cores[c].disp = d :: rest

/-- A turn of a core that dispatches is the dispatch's next micro-step. -/
theorem atomic_dispatching {s : State} {c : CoreId} {d : DStep} {rest : List DStep} (h : s.Dispatching c d rest) :
    s.atomic (.core c) = (s.dispatchStep c rest d).edgeDetect := by
  have hclosed : s.cores[c.val].cbDepth = 0 := h.closed
  have hdisp : s.cores[c.val].disp = d :: rest := h.disp
  have hflight : s.flight c true = none := h.idle
  have hturn : s.coreTurn c = s.dispatchStep c rest d := by
    simp [State.coreTurn, h.serving, hflight, hclosed, hdisp]
  rw [State.atomic, if_neg (by simp [h.fatal]), State.turnBody, hturn]

/-- After a micro-step that leaves the core in the dispatch with the code `d' :: rest'`. -/
theorem State.Dispatching.next {s t : State} {c : CoreId} {d d' : DStep} {rest rest' : List DStep} (h : s.Dispatching c d rest)
    (hfatal : t.fatal = s.fatal) (hcore : t.cores[c] = { s.cores[c] with disp := d' :: rest' }) : t.Dispatching c d' rest' where
  fatal := hfatal.trans h.fatal
  serving := by
    have hserving := h.serving
    rw [State.inIrqCtx] at hserving ⊢
    rw [hcore]; exact hserving
  idle := by rw [hcore]; exact h.idle
  closed := by rw [hcore]; exact h.closed
  disp := by rw [hcore]

/-! ### An invocation (44_irq_router R292) -/

/-- The commands of handler `h` in the next invocation (log 10). -/
def State.bodyOf (s : State) (h : Word) : List Command := (s.params.handlers.lookup h).getD (Config.handlerBody h s.cbLog.length)

/-- Core `c` has invoked the handler `h`: it is open, its commands are given, one message is emitted, and the dispatch goes on with
`rest`. -/
def State.invoked (s : State) (c : CoreId) (kind : CbKind) (h : Word) (a0 a1 : Nat) (rest : List DStep) : State :=
  { s.setCore c { s.cores[c] with cbDepth := 1, disp := rest, irqQ := s.bodyOf h } with
    cbLog := { core := c, kind := kind, h := h, a0 := a0, a1 := a1 } :: s.cbLog }

section
variable (s : State) (c : CoreId) (kind : CbKind) (h : Word) (a0 a1 : Nat) (rest : List DStep)

theorem dispatchStep_invoke : s.dispatchStep c rest (.invoke kind h a0 a1) = s.invoked c kind h a0 a1 rest := by
  have hcore : (s.openHandler c kind h a0 a1).cores[c] = { s.cores[c] with cbDepth := 1, irqQ := s.bodyOf h } := setCore_same s c _
  rw [State.dispatchStep, State.setDisp, hcore]
  exact congrArg (fun x : State => { x with cbLog := { core := c, kind := kind, h := h, a0 := a0, a1 := a1 } :: s.cbLog })
    (setCore_setCore s c _ _)

/-- What the dispatch still had to do does not matter to an invocation. -/
theorem invoked_setDisp (x : List DStep) : (s.setDisp c x).invoked c kind h a0 a1 rest = s.invoked c kind h a0 a1 rest := by
  have hcore : (s.setDisp c x).cores[c] = { s.cores[c] with disp := x } := setCore_same s c _
  rw [State.invoked, hcore]
  exact congrArg (fun x : State => { x with cbLog := { core := c, kind := kind, h := h, a0 := a0, a1 := a1 } :: s.cbLog })
    (setCore_setCore s c _ _)

theorem invoked_irqQ : (s.invoked c kind h a0 a1 rest).cores[c].irqQ = s.bodyOf h :=
  congrArg CoreSt.irqQ (setCore_same s c { s.cores[c] with cbDepth := 1, disp := rest, irqQ := s.bodyOf h })

end

/-! ### The wrap dispatch (42_pwm_engine R230, R232) -/

theorem writeReg_pwmIntr (s : State) (m : BitVec 8) : s.writeReg .pwmIntr (m.setWidth 32) = { s with pwmIntr := s.pwmIntr &&& ~~~m } := by
  have hlow := low_setWidth (n := 8) (by omega) m
  show { s with pwmIntr := s.pwmIntr &&& ~~~((m.setWidth 32).extractLsb' 0 8) } = _
  rw [hlow]

section
variable {s : State} {c : CoreId} {rest : List DStep} (hs : s.Settled)
include hs

/-- The status is read once, and exactly what was read is acknowledged (R230 (a), (b)). -/
theorem atomic_pwmMask_ack (h : s.Dispatching c .pwmMask rest) :
    (s.atomic (.core c)).atomic (.core c)
      = ({ s with pwmIntr := s.pwmIntr &&& ~~~s.pwmInts } : State).setCore c
          { s.cores[c] with disp := wrapLookups s.pwmInts ++ rest } := by
  have hread : s.atomic (.core c) = s.setDisp c (.pwmAck s.pwmInts :: (wrapLookups s.pwmInts ++ rest)) :=
    (atomic_dispatching h).trans (edgeDetect_of_settled (s.setDisp c _) hs)
  have hnext : (s.setDisp c (.pwmAck s.pwmInts :: (wrapLookups s.pwmInts ++ rest))).Dispatching c (.pwmAck s.pwmInts) _ :=
    h.next rfl (setCore_same s c _)
  have hack : (s.setDisp c (.pwmAck s.pwmInts :: (wrapLookups s.pwmInts ++ rest))).dispatchStep c (wrapLookups s.pwmInts ++ rest)
      (.pwmAck s.pwmInts) = ({ s with pwmIntr := s.pwmIntr &&& ~~~s.pwmInts } : State).setDisp c (wrapLookups s.pwmInts ++ rest) := by
    rw [State.dispatchStep, writeReg_pwmIntr]
    exact setDisp_setDisp { s with pwmIntr := s.pwmIntr &&& ~~~s.pwmInts } c _ _
  rw [hread, atomic_dispatching hnext, hack]
  exact edgeDetect_of_settled (({ s with pwmIntr := s.pwmIntr &&& ~~~s.pwmInts } : State).setDisp c _) hs

theorem atomic_pwmLookup {i : SliceId} (h : s.Dispatching c (.pwmLookup i) rest) :
    s.atomic (.core c) = s.setDisp c (if s.slices[i].cb ≠ 0 then .invoke .wrap s.slices[i].cb i.val 0 :: rest else rest) :=
  (atomic_dispatching h).trans (edgeDetect_of_settled (s.setDisp c _) hs)

end

/-- Settles O48: the mask and its acknowledgement, a lookup, and the invocation. -/
theorem wrapDispatchAcknowledges : Obligations.WrapDispatchAcknowledges := by
  intro s c hfatal hs hirq hidle hclosed
  have hdispatching : ∀ d rest, s.cores[c].disp = d :: rest → s.Dispatching c d rest := fun d rest hdisp =>
    ⟨hfatal, by rw [State.inIrqCtx, hirq]; rfl, hidle, hclosed, hdisp⟩
  constructor
  · intro hdisp
    exact atomic_pwmMask_ack hs (hdispatching _ _ hdisp)
  · intro i rest hdisp
    have hlookup := atomic_pwmLookup hs (hdispatching _ _ hdisp)
    constructor
    · intro hcb
      rw [hlookup, if_neg (by simpa using hcb)]
      rfl
    · intro hcb
      rw [if_pos hcb] at hlookup
      refine ⟨hlookup, ?_⟩
      intro t
      have ht : t = s.invoked c .wrap s.slices[i].cb i.val 0 rest := by
        have hnext : (s.atomic (.core c)).Dispatching c (.invoke .wrap s.slices[i].cb i.val 0) rest := by
          rw [hlookup]
          exact (hdispatching _ _ hdisp).next rfl (setCore_same s c _)
        have hinvoked : t = ((s.atomic (.core c)).invoked c .wrap s.slices[i].cb i.val 0 rest).edgeDetect :=
          (atomic_dispatching hnext).trans (congrArg State.edgeDetect (dispatchStep_invoke ..))
        rw [hlookup, invoked_setDisp] at hinvoked
        exact hinvoked.trans (edgeDetect_of_settled (s.invoked c .wrap s.slices[i].cb i.val 0 rest) hs)
      have hbody : t.cores[c].irqQ = s.bodyOf s.slices[i].cb := by rw [ht, invoked_irqQ]
      rw [hbody]
      refine ⟨ht, fun body hfound => ?_⟩
      rw [State.bodyOf, hfound, Option.getD_some]

end Sys2Proof.Machine

/-! The periods of a slice that runs freely: its position in a period, tick by tick and cycle by cycle (O32). -/

namespace Sys2Proof.Machine

/-! ### The position of a counter in its period (42_pwm_engine R184, R185) -/

/-- The ticks of one period: `TOP + 1`, twice that where the slice is phase-correct (R190). -/
def Slice.periodTicks (sl : Slice) : Nat := (sl.top.toNat + 1) * (if sl.phCorrect then 2 else 1)

/-- The slice `q` ticks into its period, with this accumulator and this memory of the gating input: the counter goes up to `TOP`,
and where the slice is phase-correct down again. -/
def Slice.atPos (sl : Slice) (q acc : Nat) (pb : Bool) : Slice :=
  { sl with ctr := BitVec.ofNat 16 (if q ≤ sl.top.toNat then q else 2 * sl.top.toNat + 1 - q)
            dirDown := decide (sl.top.toNat < q), fracAcc := acc, prevB := pb }

section
variable {sl : Slice} {q acc : Nat} {pb : Bool}

theorem periodTicks_free (h : sl.phCorrect = false) : sl.periodTicks = sl.top.toNat + 1 := by simp [Slice.periodTicks, h]
theorem periodTicks_phCorrect (h : sl.phCorrect = true) : sl.periodTicks = 2 * sl.top.toNat + 2 := by
  simp [Slice.periodTicks, h]
  omega

theorem atPos_up (h : q ≤ sl.top.toNat) :
    sl.atPos q acc pb = { sl with ctr := BitVec.ofNat 16 q, dirDown := false, fracAcc := acc, prevB := pb } := by
  rw [Slice.atPos, if_pos h, decide_eq_false (by omega)]

theorem atPos_down (h : sl.top.toNat < q) :
    sl.atPos q acc pb
      = { sl with ctr := BitVec.ofNat 16 (2 * sl.top.toNat + 1 - q), dirDown := true, fracAcc := acc, prevB := pb } := by
  rw [Slice.atPos, if_neg (by omega), decide_eq_true h]

theorem ofNat_eq_top_iff (h : q ≤ sl.top.toNat) : BitVec.ofNat 16 q = sl.top ↔ q = sl.top.toNat := by
  have htop := sl.top.isLt
  rw [← BitVec.toNat_inj, BitVec.toNat_ofNat, Nat.mod_eq_of_lt (by omega)]

theorem ofNat_eq_zero_iff (h : q ≤ sl.top.toNat) : BitVec.ofNat 16 q = 0 ↔ q = 0 := by
  have htop := sl.top.isLt
  rw [← BitVec.toNat_inj, BitVec.toNat_ofNat, Nat.mod_eq_of_lt (by omega)]
  rfl

/-- A free-running counter goes to 0 after `TOP` (R184). -/
theorem countTick_atPos_free (hph : sl.phCorrect = false) (hq : q ≤ sl.top.toNat) :
    (sl.atPos q acc pb).countTick = if q = sl.top.toNat then (sl.atPos 0 acc pb, true) else (sl.atPos (q + 1) acc pb, false) := by
  rw [countTick_free (sl := sl.atPos q acc pb) hph, atPos_up hq]
  dsimp only
  by_cases hend : q = sl.top.toNat
  · have htop := (ofNat_eq_top_iff hq).2 hend
    rw [if_pos htop, if_pos hend, decide_eq_true htop, atPos_up (Nat.zero_le _)]
    rfl
  · have htop := mt (ofNat_eq_top_iff hq).1 hend
    rw [if_neg htop, if_neg hend, decide_eq_false htop, atPos_up (by omega), BitVec.ofNat_add]
    rfl

/-- A phase-correct counter goes up to `TOP` and stays there for a tick (R185). -/
theorem countTick_atPos_up (hph : sl.phCorrect = true) (hq : q ≤ sl.top.toNat) :
    (sl.atPos q acc pb).countTick = (sl.atPos (q + 1) acc pb, false) := by
  rw [countTick_up (sl := sl.atPos q acc pb) hph (by rw [atPos_up hq]), atPos_up hq]
  dsimp only
  by_cases hend : q = sl.top.toNat
  · have hsame : 2 * sl.top.toNat + 1 - (q + 1) = q := by omega
    rw [if_pos ((ofNat_eq_top_iff hq).2 hend), atPos_down (by omega), hsame]
  · rw [if_neg (mt (ofNat_eq_top_iff hq).1 hend), atPos_up (by omega), BitVec.ofNat_add]
    rfl

/-- It goes down to 0 and stays there for a tick, with the event (R185). -/
theorem countTick_atPos_down (hph : sl.phCorrect = true) (hlow : sl.top.toNat < q) (hq : q ≤ 2 * sl.top.toNat + 1) :
    (sl.atPos q acc pb).countTick
      = if q = 2 * sl.top.toNat + 1 then (sl.atPos 0 acc pb, true) else (sl.atPos (q + 1) acc pb, false) := by
  have hctr : 2 * sl.top.toNat + 1 - q ≤ sl.top.toNat := by omega
  rw [countTick_down (sl := sl.atPos q acc pb) hph (by rw [atPos_down hlow]), atPos_down hlow]
  dsimp only
  by_cases hend : q = 2 * sl.top.toNat + 1
  · have hzero : 2 * sl.top.toNat + 1 - q = 0 := by omega
    rw [if_pos hend, hzero, atPos_up (Nat.zero_le _)]
    rfl
  · have hzero := mt (ofNat_eq_zero_iff hctr).1 (by omega)
    have hone : 2 * sl.top.toNat + 1 - q = 2 * sl.top.toNat + 1 - (q + 1) + 1 := by omega
    rw [if_neg hend, if_neg hzero, decide_eq_false hzero, atPos_down (by omega), hone, BitVec.ofNat_add]
    simp

/-- A count takes the slice to the next position, and raises the event at the end of the period. -/
theorem countTick_atPos (hq : q < sl.periodTicks) :
    (sl.atPos q acc pb).countTick = if q + 1 = sl.periodTicks then (sl.atPos 0 acc pb, true) else (sl.atPos (q + 1) acc pb, false) := by
  cases hph : sl.phCorrect with
  | false =>
    rw [periodTicks_free hph] at hq ⊢
    rw [countTick_atPos_free hph (by omega)]
    simp only [Nat.add_right_cancel_iff]
  | true =>
    rw [periodTicks_phCorrect hph] at hq ⊢
    by_cases hup : q ≤ sl.top.toNat
    · rw [countTick_atPos_up hph hup, if_neg (by omega)]
    · rw [countTick_atPos_down hph (by omega) (by omega)]
      have hend : q = 2 * sl.top.toNat + 1 ↔ q + 1 = 2 * sl.top.toNat + 2 := by omega
      simp only [hend]

/-- Every slice whose counter is in range is somewhere in its period. -/
theorem exists_atPos (hctr : sl.ctr ≤ sl.top) (hdir : sl.phCorrect = false → sl.dirDown = false) :
    ∃ q < sl.periodTicks, ∀ acc pb, { sl with fracAcc := acc, prevB := pb } = sl.atPos q acc pb := by
  have hle : sl.ctr.toNat ≤ sl.top.toNat := hctr
  cases hdown : sl.dirDown with
  | false =>
    refine ⟨sl.ctr.toNat, ?_, fun acc pb => ?_⟩
    · unfold Slice.periodTicks
      split <;> omega
    · rw [atPos_up hle, BitVec.ofNat_toNat, BitVec.setWidth_eq, ← hdown]
  | true =>
    have hph : sl.phCorrect = true := by
      rw [← Bool.not_eq_false]
      exact fun h => by simp [hdir h] at hdown
    refine ⟨2 * sl.top.toNat + 1 - sl.ctr.toNat, ?_, fun acc pb => ?_⟩
    · rw [periodTicks_phCorrect hph]
      omega
    · have hback : 2 * sl.top.toNat + 1 - (2 * sl.top.toNat + 1 - sl.ctr.toNat) = sl.ctr.toNat := by omega
      rw [atPos_down (by omega), hback, BitVec.ofNat_toNat, BitVec.setWidth_eq, ← hdown]

end

/-! ### A slice that runs freely (42_pwm_engine R180, R183, R190) -/

/-- The slice is enabled and free-running, no phase request is posted, and its divider is at least 1. -/
structure Slice.FreeRunning (sl : Slice) : Prop where
  enabled : sl.en = true
  ungated : sl.divmode = 0
  noAdvance : sl.phAdv = false
  noRetard : sl.phRet = false
  divider : 16 ≤ sl.div16

section
variable {sl : Slice} {q acc : Nat}

/-- A cycle: a divider step, and a count where it makes a tick. -/
theorem cycle_atPos (h : sl.FreeRunning) (pb b : Bool) (hq : q < sl.periodTicks) :
    (sl.atPos q acc pb).cycle b =
      if sl.div16 ≤ acc + 16 then
        if q + 1 = sl.periodTicks then (sl.atPos 0 (acc + 16 - sl.div16) b, true) else (sl.atPos (q + 1) (acc + 16 - sl.div16) b, false)
      else (sl.atPos q (acc + 16) b, false) := by
  have hgate : (sl.atPos q acc pb).gate b = true := (gate_iff _ b).2 (.inl h.ungated)
  by_cases htick : sl.div16 ≤ acc + 16
  · have hstep : (sl.atPos q acc pb).dividerStep = (acc + 16 - sl.div16, true) := if_pos htick
    rw [if_pos htick, cycle_tick (sl := sl.atPos q acc pb) h.enabled hgate (congrArg Prod.snd hstep) h.noRetard, Slice.divided, hstep]
    exact countTick_atPos hq
  · have hstep : (sl.atPos q acc pb).dividerStep = (acc + 16, false) := if_neg htick
    rw [if_neg htick, cycle_idle (sl := sl.atPos q acc pb) h.enabled hgate (congrArg Prod.snd hstep) h.noAdvance, Slice.divided, hstep]
    rfl

/-- Adding at most `d` to a number carries into the quotient by `d` once, or not at all. -/
theorem add_div_mod_carry {A k d : Nat} (hk : k ≤ d) (hd : 0 < d) (h : d ≤ A % d + k) :
    (A + k) / d = A / d + 1 ∧ (A + k) % d = A % d + k - d := by
  have hlt := Nat.mod_lt A hd
  have hA := Nat.div_add_mod A d
  rw [Nat.div_mod_unique hd, Nat.mul_add]
  exact ⟨by omega, by omega⟩

theorem add_div_mod_no_carry {A k d : Nat} (h : A % d + k < d) : (A + k) / d = A / d ∧ (A + k) % d = A % d + k := by
  have hA := Nat.div_add_mod A d
  rw [Nat.div_mod_unique (by omega)]
  exact ⟨by omega, h⟩

/-- After `m` cycles the divider has made `(acc + 16 m) / div16` ticks, and the position and the events count those. -/
theorem cycles_atPos (h : sl.FreeRunning) (hq : q < sl.periodTicks) (hacc : acc < sl.div16) (b : Nat → Bool) (pb : Bool) (m : Nat) :
    ∃ pb', Slice.cycles b m (sl.atPos q acc pb)
      = (sl.atPos ((q + (acc + 16 * m) / sl.div16) % sl.periodTicks) ((acc + 16 * m) % sl.div16) pb',
          (q + (acc + 16 * m) / sl.div16) / sl.periodTicks) := by
  induction m with
  | zero =>
    refine ⟨pb, ?_⟩
    simp [Slice.cycles, Nat.div_eq_of_lt hacc, Nat.mod_eq_of_lt hacc, Nat.div_eq_of_lt hq, Nat.mod_eq_of_lt hq]
  | succ m ih =>
    obtain ⟨pb', ih⟩ := ih
    refine ⟨b m, ?_⟩
    have hpos : 0 < sl.periodTicks := by omega
    have hdiv := h.divider
    have hmore : acc + 16 * (m + 1) = acc + 16 * m + 16 := by omega
    rw [Slice.cycles, ih, hmore]
    generalize acc + 16 * m = A
    dsimp only
    rw [cycle_atPos h _ _ (Nat.mod_lt _ hpos)]
    by_cases htick : sl.div16 ≤ A % sl.div16 + 16
    · obtain ⟨hquot, hrem⟩ := add_div_mod_carry hdiv (by omega) htick
      rw [if_pos htick, hquot, hrem, ← Nat.add_assoc]
      generalize q + A / sl.div16 = Q
      by_cases hend : Q % sl.periodTicks + 1 = sl.periodTicks
      · obtain ⟨hwraps, hstart⟩ := add_div_mod_carry (A := Q) (k := 1) hpos hpos hend.ge
        rw [if_pos hend, hwraps, hstart, hend, Nat.sub_self]
        rfl
      · have hlt := Nat.mod_lt Q hpos
        obtain ⟨hwraps, hnext⟩ := add_div_mod_no_carry (A := Q) (k := 1) (d := sl.periodTicks) (by omega)
        rw [if_neg hend, hwraps, hnext]
        rfl
    · obtain ⟨hquot, hrem⟩ := add_div_mod_no_carry (A := A) (k := 16) (d := sl.div16) (by omega)
      rw [if_neg htick, hquot, hrem]
      rfl

/-- `k` whole periods of ticks bring the slice back, with `k` events. -/
theorem cycles_periods (h : sl.FreeRunning) (hacc : sl.fracAcc < sl.div16) (hctr : sl.ctr ≤ sl.top)
    (hdir : sl.phCorrect = false → sl.dirDown = false) (b : Nat → Bool) {m k : Nat} (hm : 16 * m = sl.div16 * (sl.periodTicks * k)) :
    ∃ pb, Slice.cycles b m sl = ({ sl with prevB := pb }, k) := by
  obtain ⟨q, hq, hat⟩ := exists_atPos hctr hdir
  have hself : sl = sl.atPos q sl.fracAcc sl.prevB := hat sl.fracAcc sl.prevB
  have hpos : 0 < sl.div16 := by omega
  obtain ⟨pb, hrun⟩ := cycles_atPos h hq hacc b sl.prevB m
  refine ⟨pb, ?_⟩
  rw [← hself, hm, Nat.add_mul_div_left _ _ hpos, Nat.add_mul_mod_self_left, Nat.div_eq_of_lt hacc, Nat.mod_eq_of_lt hacc, Nat.zero_add,
    Nat.add_mul_div_left _ _ (by omega), Nat.add_mul_mod_self_left, Nat.div_eq_of_lt hq, Nat.mod_eq_of_lt hq, Nat.zero_add, ← hat] at hrun
  exact hrun

end

/-- Settles O32: in so many cycles the divider makes a whole number of periods of ticks. -/
theorem pwmPeriod : Obligations.PwmPeriod := by
  intro sl b hen hfree hadv hret hdiv hacc hctr hdir n
  have hrun : sl.FreeRunning := ⟨hen, hfree, hadv, hret, hdiv⟩
  have hsixteen : ∀ b : Nat → Bool, ∃ pb, Slice.cycles b (sl.div16 * n) sl = ({ sl with prevB := pb }, 16) := fun b =>
    cycles_periods hrun hacc hctr hdir b (Nat.mul_left_comm 16 _ _ |>.trans (congrArg _ (Nat.mul_comm 16 _)))
  have hone : sl.divFrac = 0 → ∀ b : Nat → Bool, ∃ pb, Slice.cycles b (sl.divInt.toNat * n) sl = ({ sl with prevB := pb }, 1) := by
    intro hfrac b
    have hwhole : sl.div16 = 16 * sl.divInt.toNat := by simp [Slice.div16, hfrac]
    refine cycles_periods hrun hacc hctr hdir b ?_
    rw [hwhole, Nat.mul_one, Nat.mul_assoc]
    rfl
  refine ⟨hsixteen b, fun hfrac => hone hfrac b, ?_⟩
  rintro s i k rfl hk
  have hevents : ∃ pb events, 0 < events ∧
      Slice.cycles (fun _ => s.env.bIn.getLsbD i.val) k s.slices[i] = ({ s.slices[i] with prevB := pb }, events) := by
    obtain rfl | ⟨hfrac, rfl⟩ := hk
    · obtain ⟨pb, h⟩ := hsixteen fun _ => s.env.bIn.getLsbD i.val
      exact ⟨pb, 16, by omega, h⟩
    · obtain ⟨pb, h⟩ := hone hfrac fun _ => s.env.bIn.getLsbD i.val
      exact ⟨pb, 1, by omega, h⟩
  obtain ⟨pb, events, hpos, h⟩ := hevents
  refine ⟨⟨pb, by rw [clocked_slice, h]⟩, ?_⟩
  rw [clocked_intr, h, decide_eq_true hpos, Bool.or_true]

end Sys2Proof.Machine

/-! The period solver's arithmetic (O31). -/

namespace Sys2Proof.Machine

/-! ### The numbers of the period solver (42_pwm_engine R220 to R225) -/

/-- Phase-correct is forced above half the range (R223). -/
def solvedPhase (c : PwmCfg) (P : Nat) : Bool := if 134184960 < P then true else c.phCorrect
/-- How often the counter takes a value in a period (R190). -/
def phaseFactor (ph : Bool) : Nat := if ph then 2 else 1
/-- The divider, in sixteenths, by which 65536 counts fit the period (R222). -/
def fittingDiv16 (ph : Bool) (P : Nat) : Nat := P * 16 / (65536 * 8 * phaseFactor ph)
/-- Whole part and sixteenths of that divider, at least 1 and below 256 (R222). -/
def wholePart (d : Nat) : Nat := if d / 16 = 0 then 1 else min (d / 16) 255
def fracPart (d : Nat) : Nat := if d / 16 = 0 then 0 else d % 16
/-- The divider solved, in sixteenths. -/
def solvedDiv16 (ph : Bool) (P : Nat) : Nat := 16 * wholePart (fittingDiv16 ph P) + fracPart (fittingDiv16 ph P)
/-- A tick of the divider solved, in sixteenths of a nanosecond: 8 ns a cycle. -/
def solvedTick (ph : Bool) (P : Nat) : Nat := 8 * solvedDiv16 ph P * phaseFactor ph

theorem periodCfg_eq (c : PwmCfg) (P : Nat) :
    periodCfg c P = { c with
      divInt := BitVec.ofNat 8 (wholePart (fittingDiv16 (solvedPhase c P) P))
      divFrac := BitVec.ofNat 4 (fracPart (fittingDiv16 (solvedPhase c P) P))
      wrap := BitVec.ofNat 16 (min (P * 16 / solvedTick (solvedPhase c P) P - 1) 65535)
      phCorrect := solvedPhase c P } := rfl

theorem solvedPhase_eq (c : PwmCfg) (P : Nat) : solvedPhase c P = (c.phCorrect || decide (134184960 < P)) := by
  unfold solvedPhase
  split <;> simp [*]

theorem phaseFactor_pos (ph : Bool) : 0 < phaseFactor ph := by cases ph <;> decide

theorem wholePart_pos (d : Nat) : 1 ≤ wholePart d := by
  unfold wholePart
  split <;> omega

theorem wholePart_lt (d : Nat) : wholePart d < 256 := by
  unfold wholePart
  split <;> omega

theorem fracPart_lt (d : Nat) : fracPart d < 16 := by
  unfold fracPart
  split <;> omega

/-- No tick is shorter than that of the divider 1. -/
theorem le_solvedTick (ph : Bool) (P : Nat) : 128 * phaseFactor ph ≤ solvedTick ph P := by
  have hwhole := wholePart_pos (fittingDiv16 ph P)
  refine Nat.mul_le_mul_right _ ?_
  unfold solvedDiv16
  omega

/-- Below 256 the two parts are the divider, or 1 where it is less. -/
theorem parts_eq {d : Nat} (h : d < 4096) : 16 * wholePart d + fracPart d = max 16 d := by
  unfold wholePart fracPart
  split <;> omega

/-- No period in range asks for a divider of 256: above half the range the record is phase-correct (R223). -/
theorem fittingDiv16_lt (c : PwmCfg) {P : Nat} (hP : P ≤ 268369920) : fittingDiv16 (solvedPhase c P) P < 4096 := by
  have hfactor : P ≤ 134184960 * phaseFactor (solvedPhase c P) := by
    by_cases hhalf : 134184960 < P
    · rw [solvedPhase, if_pos hhalf, phaseFactor, if_pos rfl]
      exact hP
    · have hpos := phaseFactor_pos (solvedPhase c P)
      omega
  have hpos := phaseFactor_pos (solvedPhase c P)
  rw [fittingDiv16, Nat.div_lt_iff_lt_mul (by omega)]
  omega

section
variable {c : PwmCfg} {P : Nat} (hP : P ≤ 268369920)
include hP

theorem solvedDiv16_eq : solvedDiv16 (solvedPhase c P) P = max 16 (fittingDiv16 (solvedPhase c P) P) :=
  parts_eq (fittingDiv16_lt c hP)

/-- With one divider step more, 65536 counts do not fit. -/
theorem lt_solvedDiv16_succ : P * 16 < 65536 * 8 * phaseFactor (solvedPhase c P) * (solvedDiv16 (solvedPhase c P) P + 1) := by
  have hpos : 0 < 65536 * 8 * phaseFactor (solvedPhase c P) := Nat.mul_pos (by decide) (phaseFactor_pos _)
  have hdiv := solvedDiv16_eq (c := c) hP
  have hle : fittingDiv16 (solvedPhase c P) P + 1 ≤ solvedDiv16 (solvedPhase c P) P + 1 := by omega
  exact (Nat.lt_mul_div_succ (P * 16) hpos).trans_le (Nat.mul_le_mul_left _ hle)

/-- A tick fits the period, but for a phase-correct record below 16 ns. -/
theorem solvedTick_le (hlow : 8 ≤ P) (hshort : c.phCorrect = false ∨ 16 ≤ P) : solvedTick (solvedPhase c P) P ≤ P * 16 := by
  have hone : 8 * 16 * phaseFactor (solvedPhase c P) ≤ P * 16 := by
    rw [solvedPhase_eq]
    obtain hfree | hlong := hshort
    · by_cases hhalf : 134184960 < P <;> simp [hfree, hhalf, phaseFactor] <;> omega
    · unfold phaseFactor
      split <;> omega
  have hfit : 8 * fittingDiv16 (solvedPhase c P) P * phaseFactor (solvedPhase c P) ≤ P * 16 := by
    have hmul := Nat.div_mul_le_self (P * 16) (65536 * 8 * phaseFactor (solvedPhase c P))
    calc 8 * fittingDiv16 (solvedPhase c P) P * phaseFactor (solvedPhase c P)
      _ ≤ 65536 * (8 * fittingDiv16 (solvedPhase c P) P * phaseFactor (solvedPhase c P)) := Nat.le_mul_of_pos_left _ (by decide)
      _ = fittingDiv16 (solvedPhase c P) P * (65536 * 8 * phaseFactor (solvedPhase c P)) := by ring
      _ ≤ P * 16 := hmul
  rw [solvedTick, solvedDiv16_eq hP]
  obtain h | h := max_choice 16 (fittingDiv16 (solvedPhase c P) P) <;> rw [h]
  · exact hone
  · exact hfit

end

/-- The wrap value counts the `n` ticks that fit, or is at its limit (R225). -/
theorem ticks_of_wrap {n w : Nat} (hw : w = min (n - 1) 65535) (hn : 1 ≤ n) : w + 1 = n ∨ (w = 65535 ∧ w + 1 ≤ n) := by omega

/-- Settles O31: the ticks that fit the request, or 65536 of them. -/
theorem setPeriodSolves : Obligations.SetPeriodSolves := by
  intro c P hlow hhigh k tick divStep
  have hdivInt : k.divInt.toNat = wholePart (fittingDiv16 (solvedPhase c P) P) := by
    rw [show k = _ from periodCfg_eq c P, BitVec.toNat_ofNat, Nat.mod_eq_of_lt (wholePart_lt _)]
  have hdivFrac : k.divFrac.toNat = fracPart (fittingDiv16 (solvedPhase c P) P) := by
    rw [show k = _ from periodCfg_eq c P, BitVec.toNat_ofNat, Nat.mod_eq_of_lt (fracPart_lt _)]
  have hwrap : k.wrap.toNat = min (P * 16 / solvedTick (solvedPhase c P) P - 1) 65535 := by
    rw [show k = _ from periodCfg_eq c P, BitVec.toNat_ofNat, Nat.mod_eq_of_lt (by omega)]
  have htick : tick = solvedTick (solvedPhase c P) P := by
    simp only [tick, hdivInt, hdivFrac]
    rfl
  have hperiod : 8 * k.period16 = tick * (k.wrap.toNat + 1) := by
    simp only [PwmCfg.period16, tick]
    ring
  refine ⟨hdivInt ▸ wholePart_pos _, solvedPhase_eq c P, rfl, rfl, rfl, ?_, ?_⟩
  · intro hshort
    have hfits : tick ≤ P * 16 := htick ▸ solvedTick_le hhigh hlow hshort
    have hpos : 0 < tick := by
      have hmin := le_solvedTick (solvedPhase c P) P
      have hfactor := phaseFactor_pos (solvedPhase c P)
      omega
    rw [← htick] at hwrap
    have hbelow : tick * (P * 16 / tick) ≤ P * 16 := Nat.mul_div_le ..
    rw [hperiod, Nat.mul_comm 16 P]
    obtain hall | ⟨hlimit, hsome⟩ := ticks_of_wrap hwrap (Nat.div_pos hfits hpos)
    · have habove := Nat.lt_mul_div_succ (P * 16) hpos
      rw [hall]
      exact ⟨hbelow, .inl habove⟩
    · refine ⟨(Nat.mul_le_mul_left tick hsome).trans hbelow, .inr ⟨hlimit, ?_⟩⟩
      have habove := lt_solvedDiv16_succ (c := c) hhigh
      have hstep : tick * (k.wrap.toNat + 1) + divStep
          = 65536 * 8 * phaseFactor (solvedPhase c P) * (solvedDiv16 (solvedPhase c P) P + 1) := by
        have hfactor : divStep = 8 * (k.wrap.toNat + 1) * phaseFactor (solvedPhase c P) := rfl
        rw [hfactor, hlimit, htick, solvedTick]
        ring
      rw [hstep]
      exact habove
  · intro hph hshort
    have hforced : solvedPhase c P = true := by rw [solvedPhase_eq, hph, Bool.true_or]
    have hlong : P * 16 < tick := by
      have hmin := le_solvedTick (solvedPhase c P) P
      rw [← htick, hforced, show phaseFactor true = 2 from rfl] at hmin
      omega
    rw [← htick, Nat.div_eq_of_lt hlong] at hwrap
    exact BitVec.eq_of_toNat_eq hwrap

end Sys2Proof.Machine

/-! The sequencer's timers and what writes of its control bits do (O37, O38, O39). -/

namespace Sys2Proof.Machine

/-! ### The timers of `AdcSeq` (43_adc_sequencer R247, R251) -/

/-- What a step of `AdcSeq` leaves of a timer: one less, and nothing where that is 0. -/
def nextLeft (left : Option Nat) : Option Nat := if left = some 1 then none else left.map (· - 1)

theorem countdown_eq {left : Option Nat} (h : left ≠ some 0) : countdown left = (nextLeft left, decide (left = some 1)) := by
  match left, h with
  | none, _ => rfl
  | some 1, _ => rfl
  | some (n + 2), _ => simp [countdown, nextLeft]

/-- A step of `AdcSeq` makes a draw exactly where a conversion ends. -/
theorem adcSeq_eq (s : State) :
    s.adcSeq = (if (countdown s.adc.convLeft).2 then s.drawn else s).setAdc
      { s.adc with
        resetLeft := (countdown s.adc.resetLeft).1, readyLeft := (countdown s.adc.readyLeft).1,
        convLeft := (countdown s.adc.convLeft).1, rstDone := s.adc.rstDone || (countdown s.adc.resetLeft).2,
        cs := if (countdown s.adc.readyLeft).2 || (countdown s.adc.convLeft).2 then s.adc.cs ||| csReady else s.adc.cs,
        result := if (countdown s.adc.convLeft).2 then s.sample s.adc.ainsel else s.adc.result } := by
  simp only [State.adcSeq]
  split <;> rfl

/-- Settles O39: the three timers, the frame, and the draw. -/
theorem adcSeqStep : Obligations.AdcSeqStep := by
  intro s hreset hready hconv t next
  have ht : t = _ := adcSeq_eq s
  simp only [countdown_eq hreset, countdown_eq hready, countdown_eq hconv, decide_eq_true_eq, ← Bool.decide_or] at ht
  refine ⟨congrArg State.adc ht, ?_, fun hgoes => ?_⟩
  · obtain ⟨a, xs, n, hframe⟩ := adcSeq_frame s
    rw [show t = _ from hframe]
  · rw [ht, if_neg hgoes]
    exact ⟨rfl, rfl⟩

/-! ### The reset controller (43_adc_sequencer R244, R245) -/

theorem writeReg_rst_release (s : State) {w : Word} (hw : w.getLsbD 0 = false) :
    s.writeReg .rst w = s.setAdc (s.adc.releaseReset s.params.resetTicks) := by
  show (if !(0xFFFFFFFF#32).getLsbD 0 then s else if w.getLsbD 0 then _ else _) = _
  rw [if_neg (by decide), if_neg (by rw [hw]; decide)]

theorem releaseReset_asserted {a : AdcBlock} (h : a.rst = true) (ticks : Nat) :
    a.releaseReset ticks = { a with rst := false, resetLeft := some ticks } := if_pos h

theorem releaseReset_released {a : AdcBlock} (h : a.rst = false) (ticks : Nat) : a.releaseReset ticks = a :=
  if_neg (by rw [h]; decide)

/-- Settles O37: both writes release the reset, and the last tick of the countdown fires. -/
theorem resetRelease : Obligations.ResetRelease := by
  intro s w hw
  rw [writeReg_rst_release s hw, clrBits_rst]
  refine ⟨fun hrst => ?_, fun hrst => ?_, fun n hn hleft => ?_⟩
  · rw [releaseReset_asserted hrst]
    exact ⟨rfl, rfl⟩
  · rw [releaseReset_released hrst]
    exact ⟨rfl, rfl⟩
  · have hnonzero : s.adc.resetLeft ≠ some 0 := by rw [hleft, ne_eq, Option.some_inj]; omega
    rw [adcSeq_eq, setAdc_adc, countdown_eq hnonzero, hleft]
    simp [nextLeft, beq_eq_decide]

/-! ### Masked writes of `ADC_CS` (43_adc_sequencer R246, R250, 20_memory R86) -/

/-- `ADC_CS` stores its fields only. -/
theorem cs_within_fields {a : AdcBlock} (h : a.Inv) : a.cs &&& (csStored ||| csReady) = a.cs := by
  obtain ⟨-, -, -, -, -, hfields⟩ := h
  apply BitVec.eq_of_getLsbD_eq
  intro i _
  rw [BitVec.getLsbD_and]
  cases hbit : a.cs.getLsbD i with
  | false => rfl
  | true => exact (and_not_eq_zero_iff _ _).1 hfields i hbit

/-- Of a set of the bits of `m`, what `ADC_CS` stores is stored. -/
theorem csWith_or {a : AdcBlock} (h : a.Inv) (m : Word) : a.csWith (a.cs ||| m) = a.cs ||| (m &&& csStored) := by
  conv => rhs; rw [← cs_within_fields h]
  apply BitVec.eq_of_getLsbD_eq
  intro i _
  simp only [AdcBlock.csWith, BitVec.getLsbD_or, BitVec.getLsbD_and]
  cases a.cs.getLsbD i <;> cases csStored.getLsbD i <;> simp

/-- `START_ONCE` stores nothing. -/
theorem start_bit {a : AdcBlock} (h : a.Inv) : a.cs.getLsbD 2 = false := by
  rw [← cs_within_fields h, BitVec.getLsbD_and]
  exact Bool.and_false _

theorem writeCs_quiet {a : AdcBlock} {p : Params} {touched new : Word} (hstart : new.getLsbD 2 = false) :
    a.writeCs p touched new = a.enableCs p touched new := by
  rw [writeCs_eq, hstart]
  rfl

section
variable {a : AdcBlock} (h : a.Inv) (p : Params)
include h

/-- `EN` set on a disabled block. -/
theorem writeCs_enable (hen : a.en = false) :
    a.writeCs p 1 (a.cs ||| 1) = { a with cs := a.cs ||| 1, readyLeft := some p.readyTicks } := by
  have hstart : (a.cs ||| 1).getLsbD 2 = false := by rw [BitVec.getLsbD_or, start_bit h]; rfl
  have hon : (a.cs ||| 1).getLsbD 0 = true := by rw [BitVec.getLsbD_or]; exact Bool.or_true _
  rw [writeCs_quiet hstart, AdcBlock.enableCs, hon, hen, csWith_or h]
  rfl

/-- `EN` cleared. -/
theorem writeCs_disable :
    a.writeCs p 1 (a.cs &&& ~~~1) = { a with cs := a.cs &&& ~~~0x101, readyLeft := none, convLeft := none } := by
  have hstart : (a.cs &&& ~~~1).getLsbD 2 = false := by rw [BitVec.getLsbD_and, start_bit h]; rfl
  have hoff : (a.cs &&& ~~~1).getLsbD 0 = false := by rw [BitVec.getLsbD_and]; exact Bool.and_false _
  have hkept : (a.cs &&& ~~~1) &&& csStored = a.cs &&& ~~~0x101 := by
    conv => rhs; rw [← cs_within_fields h]
    rw [BitVec.and_assoc, BitVec.and_assoc]
    rfl
  rw [writeCs_quiet hstart, AdcBlock.enableCs, hoff, hkept]
  rfl

/-- Bits other than `EN` and `START_ONCE` set on an enabled block. -/
theorem writeCs_or {m : Word} (hstart : m.getLsbD 2 = false) (hen : a.en = true) :
    a.writeCs p m (a.cs ||| m) = { a with cs := a.cs ||| (m &&& csStored) } := by
  have hquiet : (a.cs ||| m).getLsbD 2 = false := by rw [BitVec.getLsbD_or, start_bit h, hstart]; rfl
  have hon : (a.cs ||| m).getLsbD 0 = true := by rw [BitVec.getLsbD_or, show a.cs.getLsbD 0 = true from hen]; rfl
  rw [writeCs_quiet hquiet, AdcBlock.enableCs, hon, hen, csWith_or h]
  rfl

/-- `START_ONCE` set. -/
theorem writeCs_start_once :
    a.writeCs p 4 (a.cs ||| 4) = if a.en && a.ready then a.startConv p else a := by
  have hstart : (a.cs ||| 4).getLsbD 2 = true := by rw [BitVec.getLsbD_or]; exact Bool.or_true _
  have hon : (a.cs ||| 4).getLsbD 0 = a.en := by rw [BitVec.getLsbD_or]; exact Bool.or_false _
  have hkept : a.csWith (a.cs ||| 4) = a.cs := by
    rw [csWith_or h]
    exact BitVec.or_zero
  have hsame : a.enableCs p 4 (a.cs ||| 4) = a := by
    rw [AdcBlock.enableCs, hon, hkept]
    cases a.en <;> rfl
  rw [writeCs_eq, hstart, hsame]
  rfl

end

theorem setBits_adcCs {s : State} (hrst : s.adc.rst = false) (m : Word) :
    s.setBits .adcCs m = s.setAdc (s.adc.writeCs s.params m (s.adc.cs ||| m)) := storeReg_adcCs hrst ..

theorem clrBits_adcCs {s : State} (hrst : s.adc.rst = false) (m : Word) :
    s.clrBits .adcCs m = s.setAdc (s.adc.writeCs s.params m (s.adc.cs &&& ~~~m)) := storeReg_adcCs hrst ..

/-- Settles O38: one write of `ADC_CS` per case. -/
theorem adcControl : Obligations.AdcControl := by
  intro s h
  refine ⟨setBits_rst s, fun hrst hen => ⟨?_, ?_⟩, fun hrst => ?_, fun hrst hen => ?_⟩
  · rw [setBits_adcCs hrst, writeCs_enable h _ hen]
  · rw [setBits_adcCs hrst, writeCs_start_once h, hen]
    rfl
  · rw [clrBits_adcCs hrst, writeCs_disable h]
  · rw [setBits_adcCs hrst, writeCs_start_once h, hen]
    cases s.adc.ready <;> rfl

end Sys2Proof.Machine

/-! `ADC_init`, `AdcTemp` and the conversions, run undisturbed (O34, O35, O36). -/

namespace Sys2Proof.Machine

/-! ### Initialisation (43_adc_sequencer R242, R256) -/

/-- Settles O34: the one-time initialisation, and after it the binding of the sensor channel. -/
theorem adcInitAdcTempComplete : Obligations.AdcInitAdcTempComplete := by
  intro s hr hs hreset hready
  rw [exec_issue, exec_issue, opFor, opFor, taken_adcReady]
  constructor
  · intro hturns
    exact issue_answer s _ _ _ .ok 0 hr hturns (runOp_init_last hs hreset hready 0 .plain)
  · intro n hturns
    have hbind := runs_testCreated (adcReady_settled hs) 4 s.sel 4 .plain
    rw [adcReady_created] at hbind
    have hrun := (runOp_init hs hreset hready (List.replicate n (.core s.sel)) [.testCreated 4] (by simp) 4 .plain).trans hbind
    have hanswer := issue_answer s _ _ _ .ok 4 hr hturns hrun
    rw [List.length_append, List.length_replicate] at hanswer
    rw [taken_adcReady]
    exact hanswer

/-! ### Conversions (43_adc_sequencer R252, R258) -/

/-- Settles O35: one conversion, its result as it is or as a voltage. -/
theorem conversionsComplete : Obligations.ConversionsComplete := by
  intro s chan vref ch hr hs hticks hch hcreated hidle hturns raw u
  have hrun (post : Post) := runOp_conv (c := s.sel) hs hidle hticks ch hcreated 0 post
  have hu : u = _ := taken_converted ..
  rw [exec_issue, exec_issue, opFor, opFor, opAdcGet, opGetVoltage, withOperand_some hch, withOperand_some hch, hu]
  exact ⟨issue_answer s _ _ _ .ok raw hr hturns (hrun .plain),
    issue_answer s _ _ _ .ok (voltageOf raw vref) hr hturns (hrun (.voltage vref))⟩

/-! ### The temperature (43_adc_sequencer R262) -/

/-- The block with the temperature sensor on. -/
def AdcBlock.sensing (a : AdcBlock) : AdcBlock := { a with cs := a.cs ||| 0x02 }

theorem sensing_idle {a : AdcBlock} (h : a.Idle) : a.sensing.Idle := by
  obtain ⟨hrst, hen, hready, htimers⟩ := h
  refine ⟨hrst, ?_, ?_, htimers⟩
  · rw [AdcBlock.en] at hen
    simp [AdcBlock.sensing, AdcBlock.en, hen]
  · rw [AdcBlock.ready] at hready
    simp [AdcBlock.sensing, AdcBlock.ready, hready]

theorem sensing_of_sensor_on {a : AdcBlock} (h : a.cs.getLsbD 1 = true) : a.sensing = a := by
  have hcs : a.cs ||| 0x02 = a.cs := by
    apply BitVec.eq_of_getLsbD_eq
    intro i hi
    rw [BitVec.getLsbD_or, show (0x02 : Word) = BitVec.twoPow 32 1 from by decide, BitVec.getLsbD_twoPow]
    by_cases hbit : 1 = i
    · subst hbit
      rw [h]
      rfl
    · simp [hbit]
  rw [AdcBlock.sensing, hcs]

theorem setBits_sensor {s : State} (hidle : s.adc.Idle) (hinv : s.adc.Inv) : s.setBits .adcCs 0x02 = s.setAdc s.adc.sensing := by
  obtain ⟨hrst, hen, -⟩ := hidle
  rw [setBits_adcCs hrst, writeCs_or hinv _ (by decide) hen]
  rfl

/-- The test of the channel and of the sensor, which is turned on where it is off. -/
theorem runOp_sensor {s : State} (hs : s.Settled) (hcreated : s.adcCreated[(4 : AdcCh)] = true) (hidle : s.adc.Idle)
    (hinv : s.adc.Inv) {c : CoreId} {ts : List Turn} {rest : List Micro} (hne : rest ≠ []) {res : Word} {post : Post} :
    runOp c (.core c :: (List.replicate (if s.adc.cs.getLsbD 1 then 2 else 3) (.core c) ++ ts)) s
        ⟨.needCreated 4 :: .testSensor :: rest, res, post⟩
      = runOp c (.core c :: ts) (s.setAdc s.adc.sensing) ⟨rest, res, post⟩ := by
  rw [runOp_go (s' := s) (push := []) (by simp only [State.microStep, if_pos hcreated]) (by simp), edgeDetect_of_settled s hs]
  by_cases hon : s.adc.cs.getLsbD 1 = true
  · rw [if_pos hon, sensing_of_sensor_on hon]
    refine (runOp_go (s' := s) (push := []) (by simp only [State.microStep, if_pos hon]) hne).trans ?_
    rw [edgeDetect_of_settled s hs]
    rfl
  · rw [if_neg hon]
    refine (runOp_go (s' := s) (push := [.setBits .adcCs 0x02]) (by simp only [State.microStep, if_neg hon]) (by simp)).trans ?_
    rw [edgeDetect_of_settled s hs]
    refine (runOp_go (s' := s.setAdc s.adc.sensing) (push := [])
      (by simp only [State.microStep, setBits_sensor hidle hinv]) hne).trans ?_
    rw [setAdc_settled hs]
    rfl

/-- Settles O36: the sensor on, then a conversion; on another channel the operation has no micro-step, or its check fails. -/
theorem getTemperatureCompletes : Obligations.GetTemperatureCompletes := by
  intro s chan ch hr hs hticks hch
  rw [exec_issue, opFor, opGetTemperature, withOperand_some hch]
  constructor
  · rintro rfl hcreated hidle hinv n hturns u
    have hconv := runOp_conv (c := s.sel) (s := s.setAdc s.adc.sensing) hs (sensing_idle hidle) hticks 4 hcreated 0 .temperature
    have hrun := (runOp_sensor hs hcreated hidle hinv (by simp [adcGetCode])).trans hconv
    have hanswer := issue_answer s _ _ _ .ok _ hr hturns hrun
    rw [List.length_append, List.length_replicate] at hanswer
    have hu : u.converted 4 = _ := taken_converted (s.setAdc s.adc.sensing) (n + s.convTurns.length) 4
    rw [hu]
    exact hanswer
  · intro hother
    rw [if_pos hother]
    cases s.params.tempWrongChannel with
    | zero => exact issue_empty hr hs 0
    | error => exact issue_err hr hs .badParameter

end Sys2Proof.Machine

/-! The arithmetic of binary32 (O41). Every operation delivers its exact result rounded once; a quotient is rounded from its first
bits and one that says whether anything remains, and those lie on the same side of every half unit as the quotient itself. -/

namespace Sys2Proof.Machine

/-! ### One rounding (43_adc_sequencer R260) -/

theorem sgn_xor (s t : Bool) : sgn (s ^^ t) = sgn s * sgn t := by
  cases s <;> cases t <;> simp [sgn]

theorem sgn_div (s t : Bool) : sgn s / sgn t = sgn (s ^^ t) := by
  cases s <;> cases t <;> simp [sgn]

/-- `w` is the word for `x` rounded to a finite number. -/
def Delivers (x : ℚ) (w : Word) : Prop :=
  ∃ (neg : Bool) (t : ℚ) (q : Int) (n : Nat),
    x = sgn neg * (t * 2 ^ q) ∧ Rounded t q n ∧ magnitude q n < 0x7F800000 ∧ w = f32Word neg (magnitude q n)

theorem roundsTo_of_delivers {x : ℚ} {w : Word} (h : Delivers x w) : RoundsTo x w := by
  obtain ⟨neg, t, q, n, rfl, hround, hfin, rfl⟩ := h
  exact hround.roundsTo neg hfin

theorem delivers_zero (neg : Bool) : Delivers 0 (f32Sign neg) := by
  refine ⟨neg, 0, -149, 0, by simp, ⟨by simpa using nearestEven_self 0, by norm_num, le_rfl, by simp⟩, by decide, ?_⟩
  exact BitVec.or_zero.symm

theorem delivers_roundF32 (neg : Bool) (m : Nat) (e : Int) (h : m * 2 ^ e < f32Limit) :
    Delivers (sgn neg * (m * 2 ^ e)) (roundF32 neg m e) := by
  by_cases hm : m = 0
  · subst hm
    rw [roundF32_zero]
    simpa using delivers_zero neg
  · have hround := rounded_roundF32 e hm
    rw [← inUnits_mul] at h
    have hfin := hround.magnitude_lt_iff.2 h
    exact ⟨neg, _, _, _, by rw [inUnits_mul], hround, hfin, by rw [roundF32_of_ne_zero neg e hm, if_neg (not_le.2 hfin)]⟩

/-- A number of units in the range of normal numbers is rounded within a relative error of half a unit of the last place. -/
theorem abs_sub_units_le {t : ℚ} {q : Int} {n : Nat} (h : Rounded t q n) (hq : -149 < q) : |t - n| ≤ t / (2 ^ 24 + 1) := by
  have hnormal := h.normal hq
  obtain ⟨hhalf, -⟩ := h.nearest
  rw [le_div_iff₀ (by norm_num)]
  obtain hlow | hhigh := le_total t (2 ^ 23 + 1 / 2)
  · have hgrid := abs_sub_nearest_le h.nearest (2 ^ 23)
    rw [Int.cast_pow, Int.cast_ofNat, abs_of_nonneg (sub_nonneg.2 hnormal)] at hgrid
    linarith
  · linarith

/-- The value delivered, and its error: relative where the result is normal, half the smallest number where it is not. -/
theorem delivers_error {x : ℚ} {w : Word} (h : Delivers x w) :
    ∃ v, f32Value w = some v ∧ |v - x| ≤ max (|x| / (2 ^ 24 + 1)) (1 / 2 ^ 150) := by
  obtain ⟨neg, t, q, n, rfl, hround, hfin, rfl⟩ := h
  obtain ⟨k, f, hof, hvalue⟩ := hround.f32Of_magnitude neg hfin
  refine ⟨sgn neg * (n * 2 ^ q), by rw [f32Value_of_fin hof, hvalue], ?_⟩
  have hunit : (0 : ℚ) < 2 ^ q := by positivity
  rw [abs_sgn_mul_sub, abs_sub_comm, ← sub_mul, abs_mul, abs_sgn_mul, abs_mul, abs_of_pos hunit]
  by_cases hq : -149 < q
  · refine le_max_of_le_left ?_
    calc |t - n| * 2 ^ q
      _ ≤ t / (2 ^ 24 + 1) * 2 ^ q := by gcongr; exact abs_sub_units_le hround hq
      _ ≤ |t| / (2 ^ 24 + 1) * 2 ^ q := by gcongr; exact le_abs_self t
      _ = |t| * 2 ^ q / (2 ^ 24 + 1) := by ring
  · obtain rfl : q = -149 := by have := hround.least; omega
    refine le_max_of_le_right ?_
    obtain ⟨hhalf, -⟩ := hround.nearest
    calc |t - n| * 2 ^ (-149 : Int)
      _ ≤ 1 / 2 * 2 ^ (-149 : Int) := by gcongr
      _ = 1 / 2 ^ 150 := by norm_num

/-- 0 is a binary32 number, so nothing else is delivered for it. -/
theorem value_of_delivers_zero {w : Word} (h : Delivers 0 w) : f32Value w = some 0 := by
  obtain ⟨v, hv, hnearest⟩ := roundsTo_of_delivers h
  have hzero : f32Value (f32Sign false) = some 0 := by
    rw [f32Value_of_fin (f32Of_f32Sign false)]
    simp
  obtain hlt | heq | ⟨heq, -⟩ := hnearest _ _ hzero
  · exact absurd hlt (by simp)
  · rw [hv, ← heq]
  · rw [hv, show v = 0 by simpa using heq]

/-! ### The operands -/

theorem f32Of_of_value {w : Word} {x : ℚ} (h : f32Value w = some x) :
    ∃ neg m e, f32Of w = .fin neg m e ∧ x = sgn neg * (m * 2 ^ e) := by
  cases hw : f32Of w with
  | nan | inf => simp [f32Value, hw] at h
  | fin neg m e =>
    rw [f32Value_of_fin hw] at h
    exact ⟨neg, m, e, rfl, (Option.some_inj.1 h).symm⟩

theorem f32Of_fin_lt {w : Word} {neg : Bool} {m : Nat} {e : Int} (h : f32Of w = .fin neg m e) : m < 2 ^ 24 := by
  have hfr := (w.extractLsb' 0 23).isLt
  simp only [f32Of] at h
  split at h
  · split at h <;> cases h
  · split at h <;> (injection h; omega)

/-! ### The product and the difference -/

theorem delivers_f32Mul {a b : Word} {x y : ℚ} (ha : f32Value a = some x) (hb : f32Value b = some y) (h : |x * y| < f32Limit) :
    Delivers (x * y) (f32Mul a b) := by
  obtain ⟨s, m, e, hofa, rfl⟩ := f32Of_of_value ha
  obtain ⟨t, n, f, hofb, rfl⟩ := f32Of_of_value hb
  have hexact : sgn s * (m * 2 ^ e) * (sgn t * (n * 2 ^ f)) = sgn (s ^^ t) * ((m * n : Nat) * 2 ^ (e + f)) := by
    rw [sgn_xor, zpow_add₀ two_ne_zero]
    push_cast
    ring
  rw [hexact] at h ⊢
  rw [abs_sgn_mul, abs_of_nonneg (by positivity)] at h
  simp only [f32Mul, hofa, hofb]
  exact delivers_roundF32 _ _ _ h

theorem cast_f32Whole (neg : Bool) (m k : Nat) : (f32Whole neg m k : ℚ) = sgn neg * (m * 2 ^ k) := by
  cases neg <;> simp [f32Whole, sgn]

/-- A number in units of a smaller power of 2. -/
theorem f32Whole_mul (neg : Bool) (m : Nat) {e g : Int} (h : g ≤ e) :
    (f32Whole neg m (e - g).toNat : ℚ) * 2 ^ g = sgn neg * (m * 2 ^ e) := by
  obtain ⟨d, rfl⟩ : ∃ d : Nat, e = d + g := ⟨(e - g).toNat, by omega⟩
  rw [cast_f32Whole, add_sub_cancel_right, Int.toNat_natCast, zpow_add₀ two_ne_zero, zpow_natCast]
  ring

theorem sgn_natAbs (d : Int) : sgn (d < 0) * (d.natAbs : ℚ) = d := by
  obtain hneg | hpos := lt_or_ge d 0
  · rw [Nat.cast_natAbs, abs_of_neg hneg]
    simp [sgn, hneg]
  · rw [Nat.cast_natAbs, abs_of_nonneg hpos]
    simp [sgn, not_lt.2 hpos]

theorem delivers_f32Sub {a b : Word} {x y : ℚ} (ha : f32Value a = some x) (hb : f32Value b = some y) (h : |x - y| < f32Limit) :
    Delivers (x - y) (f32Sub a b) := by
  obtain ⟨s, m, e, hofa, rfl⟩ := f32Of_of_value ha
  obtain ⟨t, n, f, hofb, rfl⟩ := f32Of_of_value hb
  simp only [f32Sub, hofa, hofb]
  rw [← f32Whole_mul s m (min_le_left e f), ← f32Whole_mul t n (min_le_right e f), ← sub_mul, ← Int.cast_sub] at h ⊢
  generalize f32Whole s m (e - min e f).toNat - f32Whole t n (f - min e f).toNat = d at *
  split
  · rename_i hzero
    rw [hzero]
    simpa using delivers_zero _
  · rw [← sgn_natAbs, mul_assoc] at h ⊢
    rw [abs_sgn_mul, abs_of_nonneg (by positivity)] at h
    exact delivers_roundF32 _ _ _ h

/-! ### The quotient -/

/-- Two numbers lie on the same side of every half, or both on it. -/
def SameHalves (t t' : ℚ) : Prop := ∀ k : Int, ((k : ℚ) / 2 ≤ t ↔ (k : ℚ) / 2 ≤ t') ∧ (t ≤ k / 2 ↔ t' ≤ k / 2)

theorem nearestEven_iff (t : ℚ) (n : Nat) :
    NearestEven t n ↔ ((n : ℚ) - 1 / 2 ≤ t ∧ t ≤ n + 1 / 2) ∧ (t ≤ n - 1 / 2 ∨ (n : ℚ) + 1 / 2 ≤ t → n % 2 = 0) := by
  have hhalf : |t - n| ≤ 1 / 2 ↔ (n : ℚ) - 1 / 2 ≤ t ∧ t ≤ n + 1 / 2 := by
    rw [abs_le, neg_le_sub_iff_le_add, sub_le_iff_le_add', sub_le_iff_le_add]
  have htie : 1 / 2 ≤ |t - n| ↔ t ≤ n - 1 / 2 ∨ (n : ℚ) + 1 / 2 ≤ t := by
    rw [le_abs', le_sub_iff_add_le', tsub_le_iff_right, neg_add_eq_sub]
  rw [NearestEven, ← hhalf, ← htie]
  exact and_congr_right fun hle => ⟨fun h hge => h (hle.antisymm hge), fun h heq => h heq.ge⟩

/-- The halves decide how a number is rounded. -/
theorem rounded_congr {t t' : ℚ} {q : Int} {n : Nat} (hsame : SameHalves t t') (h : Rounded t q n) : Rounded t' q n where
  nearest := by
    have hnearest := (nearestEven_iff t n).1 h.nearest
    have hlow := hsame (2 * n - 1)
    have hhigh := hsame (2 * n + 1)
    rw [show ((2 * n - 1 : Int) : ℚ) / 2 = n - 1 / 2 by push_cast; ring] at hlow
    rw [show ((2 * n + 1 : Int) : ℚ) / 2 = n + 1 / 2 by push_cast; ring] at hhigh
    obtain ⟨hlow, hlow'⟩ := hlow
    obtain ⟨hhigh, hhigh'⟩ := hhigh
    rw [nearestEven_iff]
    rwa [hlow, hlow', hhigh, hhigh'] at hnearest
  lt := by
    have hbound := (hsame (2 ^ 25)).1
    have hlt := h.lt
    norm_num at hbound hlt ⊢
    by_contra hge
    linarith [hbound.2 (not_lt.1 hge)]
  least := h.least
  normal hq := by
    have hbound := (hsame (2 ^ 24)).1
    have hnormal := h.normal hq
    norm_num at hbound hnormal ⊢
    exact hbound.1 hnormal

/-- The first bits of `2 × a / n`, and 1 where anything remains. -/
def stickyQuotient (a n : Nat) : Nat := 2 * (a / n) + if a % n = 0 then 0 else 1

/-- They lie on the same side of every even number as the quotient. -/
theorem stickyQuotient_even {a n : Nat} (hn : n ≠ 0) (k : Int) :
    (2 * (k : ℚ) ≤ stickyQuotient a n ↔ 2 * (k : ℚ) ≤ 2 * (a / n)) ∧
    ((stickyQuotient a n : ℚ) ≤ 2 * k ↔ 2 * (a / n) ≤ 2 * (k : ℚ)) := by
  have hpos : (0 : ℚ) < n := by exact_mod_cast Nat.pos_of_ne_zero hn
  obtain ⟨u, hu⟩ : ∃ u : ℚ, ((a % n : Nat) : ℚ) = u * n := ⟨_, (div_mul_cancel₀ _ hpos.ne').symm⟩
  have hsplit : (a : ℚ) / n = (a / n : Nat) + u := by
    rw [div_eq_iff hpos.ne', add_mul, ← hu]
    exact_mod_cast (Nat.div_add_mod' a n).symm
  have hless : u < 1 := by
    have hcast : ((a % n : Nat) : ℚ) < n := by exact_mod_cast Nat.mod_lt a (Nat.pos_of_ne_zero hn)
    exact lt_of_mul_lt_mul_right (by linarith) hpos.le
  rw [hsplit, stickyQuotient]
  generalize a / n = b
  split
  · rename_i hexact
    obtain rfl : u = 0 := by
      rw [hexact, Nat.cast_zero] at hu
      exact (mul_eq_zero.1 hu.symm).resolve_right hpos.ne'
    simp
  · rename_i hinexact
    have hmore : 0 < u := by
      have hcast : (0 : ℚ) < (a % n : Nat) := by exact_mod_cast Nat.pos_of_ne_zero hinexact
      exact pos_of_mul_pos_left (hu ▸ hcast) hpos.le
    push_cast
    obtain hbelow | habove := le_or_gt k b
    · have hcast : (k : ℚ) ≤ b := by exact_mod_cast hbelow
      exact ⟨iff_of_true (by linarith) (by linarith), iff_of_false (by linarith) (by linarith)⟩
    · have hcast : (b : ℚ) + 1 ≤ k := by exact_mod_cast habove
      exact ⟨iff_of_false (by linarith) (by linarith), iff_of_true (by linarith) (by linarith)⟩

/-- So it does not matter for the rounding which of the two is rounded, where at least two bits go. -/
theorem sameHalves_sticky {a n : Nat} (hn : n ≠ 0) (d : Nat) :
    SameHalves (stickyQuotient a n / 2 ^ (d + 2)) (2 * (a / n) / 2 ^ (d + 2)) := by
  intro k
  have hhalf : (k : ℚ) / 2 = 2 * ((k * 2 ^ d : Int) : ℚ) / 2 ^ (d + 2) := by
    push_cast
    field_simp
    ring
  have heven := stickyQuotient_even (a := a) hn (k * 2 ^ d)
  rw [hhalf, div_le_div_iff_of_pos_right (by positivity), div_le_div_iff_of_pos_right (by positivity),
    div_le_div_iff_of_pos_right (by positivity), div_le_div_iff_of_pos_right (by positivity)]
  exact heven

theorem delivers_sticky (neg : Bool) {a n : Nat} (e : Int) (hn : n ≠ 0) (hlong : 2 ^ 25 ≤ stickyQuotient a n)
    (h : 2 * ((a : ℚ) / n) * 2 ^ e < f32Limit) :
    Delivers (sgn neg * (2 * (a / n) * 2 ^ e)) (roundF32 neg (stickyQuotient a n) e) := by
  have hm : stickyQuotient a n ≠ 0 := by omega
  have hlog : 25 ≤ (stickyQuotient a n).log2 := (Nat.le_log2 hm).2 hlong
  obtain ⟨d, hd⟩ : ∃ d : Nat, quantum (stickyQuotient a n) e = e + (d + 2 : Nat) :=
    ⟨(quantum (stickyQuotient a n) e - e - 2).toNat, by unfold quantum; omega⟩
  have hround := rounded_roundF32 e hm
  rw [inUnits, hd, show e - (e + (d + 2 : Nat)) = -(d + 2 : Nat) by ring, zpow_neg, zpow_natCast, ← div_eq_mul_inv] at hround
  have hquotient := rounded_congr (sameHalves_sticky hn d) hround
  have hvalue : 2 * ((a : ℚ) / n) / 2 ^ (d + 2) * 2 ^ (e + (d + 2 : Nat)) = 2 * (a / n) * 2 ^ e := by
    rw [zpow_add₀ two_ne_zero, zpow_natCast]
    field_simp
  rw [← hvalue] at h ⊢
  have hfin := hquotient.magnitude_lt_iff.2 h
  refine ⟨neg, _, _, _, rfl, hquotient, hfin, ?_⟩
  rw [roundF32_of_ne_zero neg e hm, hd, if_neg (not_le.2 hfin)]

theorem delivers_f32Div {a b : Word} {x y : ℚ} (ha : f32Value a = some x) (hb : f32Value b = some y) (hy : y ≠ 0)
    (h : |x / y| < f32Limit) : Delivers (x / y) (f32Div a b) := by
  obtain ⟨s, m, e, hofa, rfl⟩ := f32Of_of_value ha
  obtain ⟨t, n, f, hofb, rfl⟩ := f32Of_of_value hb
  have hn : n ≠ 0 := by
    rintro rfl
    simp at hy
  have hexact : sgn s * (m * 2 ^ e) / (sgn t * (n * 2 ^ f))
      = sgn (s ^^ t) * (2 * ((m * 2 ^ 64 : Nat) / n) * 2 ^ (e - f - 65)) := by
    have hpow : (2 : ℚ) ^ (e - f - 65) = 2 ^ e / 2 ^ f / 2 ^ 65 := by
      rw [zpow_sub₀ two_ne_zero, zpow_sub₀ two_ne_zero, zpow_ofNat]
    rw [mul_div_mul_comm, sgn_div, hpow]
    push_cast
    field_simp
    norm_num
  have hdiv : f32Div a b = roundF32 (s ^^ t) (stickyQuotient (m * 2 ^ 64) n) (e - f - 65) := by
    simp only [f32Div, hofa, hofb, if_neg hn]
    rfl
  rw [hexact] at h ⊢
  rw [abs_sgn_mul, abs_of_nonneg (by positivity)] at h
  rw [hdiv]
  obtain rfl | hm := Nat.eq_zero_or_pos m
  · rw [show stickyQuotient (0 * 2 ^ 64) n = 0 by simp [stickyQuotient], roundF32_zero]
    simpa using delivers_zero _
  · refine delivers_sticky _ _ hn ?_ h
    have hlow : 2 ^ 40 ≤ m * 2 ^ 64 / n := by
      rw [Nat.le_div_iff_mul_le (Nat.pos_of_ne_zero hn)]
      have := f32Of_fin_lt hofb
      omega
    unfold stickyQuotient
    omega

/-! ### The voltage (43_adc_sequencer R258) -/

theorem f32Value_4096 : f32Value 0x45800000 = some 4096 := by
  rw [f32Value_of_fin (show f32Of 0x45800000 = .fin false 8388608 (-11) by decide)]
  norm_num [sgn]

/-- Two roundings, with an exact power of 2 between them, where the result is a normal number. -/
theorem two_roundings {x v w : ℚ} (hnormal : 1 / 2 ^ 126 ≤ |x / 4096|) (hv : |v - x| ≤ max (|x| / (2 ^ 24 + 1)) (1 / 2 ^ 150))
    (hw : |w - v / 4096| ≤ max (|v / 4096| / (2 ^ 24 + 1)) (1 / 2 ^ 150)) : |w - x / 4096| ≤ |x / 4096| / 2 ^ 23 := by
  have hfirst : |v / 4096 - x / 4096| ≤ |x / 4096| / (2 ^ 24 + 1) := by
    rw [abs_div, abs_of_pos (by norm_num : (0 : ℚ) < 4096)] at hnormal
    rw [max_eq_left (by linarith)] at hv
    rw [← sub_div, abs_div, abs_div, abs_of_pos (by norm_num : (0 : ℚ) < 4096), div_right_comm]
    gcongr
  have hsum : |v / 4096| ≤ |v / 4096 - x / 4096| + |x / 4096| := by
    simpa using abs_add_le (v / 4096 - x / 4096) (x / 4096)
  have htotal := abs_sub_le w (v / 4096) (x / 4096)
  obtain hrel | hsmall := le_max_iff.1 hw <;> linarith

/-- 0 is exact; of a normal number the product is rounded, and then the quotient. -/
theorem voltage_bound {raw vref : Word} {y : ℚ} (hraw : raw.toNat < 4096) (hy : f32Value vref = some y)
    (hlim : |raw.toNat * y| < f32Limit) (hx : (raw.toNat * y / 4096 : ℚ) = 0 ∨ 1 / 2 ^ 126 ≤ |raw.toNat * y / 4096|) :
    ∃ v, f32Value (voltageOf raw vref) = some v ∧ |v - raw.toNat * y / 4096| ≤ |raw.toNat * y / 4096| / 2 ^ 23 := by
  have hmul := delivers_f32Mul (f32Value_f32OfNat (by omega)) hy hlim
  obtain ⟨v, hv, hverr⟩ := delivers_error hmul
  have hquotient : |v / 4096| < f32Limit := by
    have hsum := abs_add_le (v - raw.toNat * y) (raw.toNat * y)
    rw [sub_add_cancel] at hsum
    rw [abs_div, abs_of_pos (by norm_num : (0 : ℚ) < 4096)]
    have hbound : (1 : ℚ) ≤ f32Limit := by norm_num [f32Limit]
    obtain hrel | hsmall := le_max_iff.1 hverr <;> linarith
  have hdiv := delivers_f32Div hv f32Value_4096 (by norm_num) hquotient
  obtain hzero | hnormal := hx
  · have hexact : (raw.toNat * y : ℚ) = 0 := (div_eq_zero_iff.1 hzero).resolve_right (by norm_num)
    rw [hexact] at hmul
    obtain rfl : (0 : ℚ) = v := Option.some_inj.1 ((value_of_delivers_zero hmul).symm.trans hv)
    rw [zero_div] at hdiv
    exact ⟨0, value_of_delivers_zero hdiv, by simp [hzero]⟩
  · obtain ⟨w, hw, hwerr⟩ := delivers_error hdiv
    exact ⟨w, hw, two_roundings hnormal hverr hwerr⟩

/-! ### The temperature (43_adc_sequencer R262) -/

/-- The error of one rounding, absolute, from a bound of the exact result. -/
theorem delivers_within {x B : ℚ} {w : Word} (h : Delivers x w) (hx : |x| ≤ B) (hB : 1 / 2 ^ 126 ≤ B) :
    ∃ v, f32Value w = some v ∧ |v - x| ≤ B / 2 ^ 24 := by
  obtain ⟨v, hv, herror⟩ := delivers_error h
  refine ⟨v, hv, herror.trans (max_le ?_ ?_)⟩
  · gcongr
    norm_num
  · linarith

/-- The constants 3.3, 0.706, 0.001721 and 27, rounded. -/
theorem f32Value_constants :
    f32Value 0x40533333 = some (13841203 / 2 ^ 22) ∧ f32Value 0x3F34BC6A = some (11844714 / 2 ^ 24) ∧
    f32Value 0x3AE1932D = some (14783277 / 2 ^ 33) ∧ f32Value 0x41D80000 = some 27 := by
  refine ⟨?_, ?_, ?_, ?_⟩
  · rw [f32Value_of_fin (show f32Of 0x40533333 = .fin false 13841203 (-22) by decide)]
    norm_num [sgn]
  · rw [f32Value_of_fin (show f32Of 0x3F34BC6A = .fin false 11844714 (-24) by decide)]
    norm_num [sgn]
  · rw [f32Value_of_fin (show f32Of 0x3AE1932D = .fin false 14783277 (-33) by decide)]
    norm_num [sgn]
  · rw [f32Value_of_fin (show f32Of 0x41D80000 = .fin false 14155776 (-19) by decide)]
    norm_num [sgn]

/-- The voltage for the reference 3.3 is below 4, so its relative error of `2^-23` is at most `2^-21` volts. -/
theorem voltage_33_bound {raw : Word} (hraw : raw.toNat < 4096) :
    ∃ v, f32Value (voltageOf raw 0x40533333) = some v ∧ |v - (raw.toNat : ℚ) * (13841203 / 2 ^ 22) / 4096| ≤ 1 / 2 ^ 21 := by
  obtain ⟨hvref, -⟩ := f32Value_constants
  have hupper : (raw.toNat : ℚ) ≤ 4095 := by exact_mod_cast Nat.le_of_lt_succ hraw
  have hnonneg : (0 : ℚ) ≤ raw.toNat := Nat.cast_nonneg _
  have habs : |(raw.toNat : ℚ) * (13841203 / 2 ^ 22)| = (raw.toNat : ℚ) * (13841203 / 2 ^ 22) := abs_of_nonneg (by positivity)
  have habs' : |(raw.toNat : ℚ) * (13841203 / 2 ^ 22) / 4096| = (raw.toNat : ℚ) * (13841203 / 2 ^ 22) / 4096 :=
    abs_of_nonneg (by positivity)
  have hlim : |(raw.toNat : ℚ) * (13841203 / 2 ^ 22)| < f32Limit := by
    rw [habs, f32Limit]
    linarith
  have hnormal : (raw.toNat : ℚ) * (13841203 / 2 ^ 22) / 4096 = 0 ∨
      1 / 2 ^ 126 ≤ |(raw.toNat : ℚ) * (13841203 / 2 ^ 22) / 4096| := by
    obtain hzero | hpos := Nat.eq_zero_or_pos raw.toNat
    · exact .inl (by simp [hzero])
    · have hone : (1 : ℚ) ≤ raw.toNat := by exact_mod_cast hpos
      exact .inr (by rw [habs']; linarith)
  obtain ⟨v, hv, herror⟩ := voltage_bound hraw hvref hlim hnormal
  refine ⟨v, hv, herror.trans ?_⟩
  rw [habs']
  linarith

/-- The errors of the voltage, the offset, the slope and three roundings, from the bounds of what is rounded. -/
theorem temperature_bound {raw : Word} (hraw : raw.toNat < 4096) :
    ∃ v, f32Value (temperatureOf raw) = some v ∧
      |v - (27 - ((33 / 10) * raw.toNat / 4096 - 706 / 1000) / (1721 / 1000000))| ≤ 1 / 1000 := by
  obtain ⟨-, hoffset, hslope, hbase⟩ := f32Value_constants
  have hupper : (raw.toNat : ℚ) ≤ 4095 := by exact_mod_cast Nat.le_of_lt_succ hraw
  have hnonneg : (0 : ℚ) ≤ raw.toNat := Nat.cast_nonneg _
  have hlimit : (1600 : ℚ) < f32Limit := by norm_num [f32Limit]
  obtain ⟨v, hv, hverr⟩ := voltage_33_bound hraw
  obtain ⟨hvlow, hvhigh⟩ := abs_le.1 hverr
  have hdiff : |v - 11844714 / 2 ^ 24| ≤ 3 := by
    rw [abs_le]
    constructor <;> linarith
  obtain ⟨d, hd, hderr⟩ := delivers_within (delivers_f32Sub hv hoffset (by linarith)) hdiff (by norm_num)
  obtain ⟨hdlow, hdhigh⟩ := abs_le.1 hderr
  have hquot : |d / (14783277 / 2 ^ 33)| ≤ 1550 := by
    rw [abs_le]
    constructor <;> linarith
  obtain ⟨q, hq, hqerr⟩ := delivers_within (delivers_f32Div hd hslope (by norm_num) (by linarith)) hquot (by norm_num)
  obtain ⟨hqlow, hqhigh⟩ := abs_le.1 hqerr
  have hresult : |27 - q| ≤ 1550 := by
    rw [abs_le]
    constructor <;> linarith
  obtain ⟨x, hx, hxerr⟩ := delivers_within (delivers_f32Sub hbase hq (by linarith)) hresult (by norm_num)
  obtain ⟨hxlow, hxhigh⟩ := abs_le.1 hxerr
  refine ⟨x, hx, ?_⟩
  rw [abs_le]
  constructor <;> linarith

/-- Settles O41: each operation delivers its exact result; the bounds add up the errors of its roundings. -/
theorem arithmeticRoundsOnce : Obligations.ArithmeticRoundsOnce := by
  refine ⟨fun a b x y ha hb => ⟨fun h => ?_, fun hy h => ?_, fun h => ?_⟩, fun raw vref y hraw hy hlim => ?_, fun raw hraw => ?_⟩
  · exact roundsTo_of_delivers (delivers_f32Mul ha hb h)
  · exact roundsTo_of_delivers (delivers_f32Div ha hb hy h)
  · exact roundsTo_of_delivers (delivers_f32Sub ha hb h)
  · intro x hx
    exact voltage_bound hraw hy hlim hx
  · exact temperature_bound hraw

end Sys2Proof.Machine

/-! The edge detector bit by bit (O44), `CbReturn` and `CbFault` (O43), and `SetInterrupt` run undisturbed (O42). -/

namespace Sys2Proof.Machine

/-! ### What the edge detector latches (44_irq_router R272, 10_state R56) -/

/-- Bit `j` of a bank's latch: bit 3 of a pin's four is its rise, bit 2 its fall. -/
theorem edgeDetect_ioIntr_getLsbD (s : State) (b : BankReg) {j : Nat} (hj : j < 32) :
    s.edgeDetect.ioIntr[b].getLsbD j =
      (s.ioIntr[b].getLsbD j ||
        (j % 4 == 3 && pinBit (~~~s.prevIn &&& s.pinInAll) b (j / 4) || j % 4 == 2 && pinBit (s.prevIn &&& ~~~s.pinInAll) b (j / 4))) := by
  rw [Fin.getElem_fin, latch_eq]
  simp only [BitVec.getLsbD_or, spread_getLsbD, hj, decide_true, Bool.true_and, Bool.or_assoc, Fin.getElem_fin]

section
variable {b : BankReg} {i : Nat}

theorem pinBit_rose (s : State) (h : 8 * b.val + i < 30) :
    pinBit (~~~s.prevIn &&& s.pinInAll) b i = (!s.prevIn.getLsbD (8 * b.val + i) && s.pinIn ⟨8 * b.val + i, h⟩) := by
  rw [← pinInAll_getLsbD, pinBit, BitVec.getLsbD_and, BitVec.getLsbD_not, decide_eq_true h, Bool.true_and]

theorem pinBit_fell (s : State) (h : 8 * b.val + i < 30) :
    pinBit (s.prevIn &&& ~~~s.pinInAll) b i = (s.prevIn.getLsbD (8 * b.val + i) && !s.pinIn ⟨8 * b.val + i, h⟩) := by
  rw [← pinInAll_getLsbD, pinBit, BitVec.getLsbD_and, BitVec.getLsbD_not, decide_eq_true h, Bool.true_and]

theorem pinBit_of_not_exists (x : BitVec 30) (h : ¬ 8 * b.val + i < 30) : pinBit x b i = false :=
  BitVec.getLsbD_of_ge _ _ (Nat.le_of_not_lt h)

end

/-- Settles O44. -/
theorem edgeDetector : Obligations.EdgeDetector := by
  intro s
  refine ⟨quiet_edgeDetect s, edgeDetect_prevIn s, pinInAll_getLsbD s, fun b j hj => ?_⟩
  rw [edgeDetect_ioIntr_getLsbD s b hj]
  by_cases h : 8 * b.val + j / 4 < 30
  · rw [dif_pos h, pinBit_rose s h, pinBit_fell s h]
    simp only [Bool.and_assoc]
  · rw [dif_neg h, pinBit_of_not_exists _ h, pinBit_of_not_exists _ h, Bool.and_false, Bool.and_false, Bool.or_false]

/-! ### `CbReturn` and `CbFault` (44_irq_router R294, R296, 30_encoding R111) -/

theorem handlerOpen_of_ready {s : State} (hr : s.Ready) : s.handlerOpen s.sel = s.ctx := by
  obtain ⟨-, -, hopen⟩ := hr
  show (s.ctx && s.cores[s.sel].cbDepth == 1) = s.ctx
  cases hctx : s.ctx with
  | false => rfl
  | true => rw [hopen hctx]; rfl

/-- Where the agent is idle no recorded turn is taken. -/
theorem drive_idle {s : State} {c : CoreId} {irq : Bool} (h : s.flight c irq = none) (ts : List Turn) : s.drive c irq ts = s := by
  cases ts with
  | nil => rfl
  | cons t ts => rw [State.drive, if_pos (by rw [h]; simp)]

/-- The state while an idle agent has the response `r` and the recorded turns are what they were. -/
theorem dress_idle {s : State} {c : CoreId} {irq : Bool} (h : s.flight c irq = none) (r : Option Resp) :
    s.dress c irq none r s.turns = s.setResp c irq r := by
  have hself : s.cores[c].withFlight irq none = s.cores[c] := by
    rw [flight_eq] at h
    rw [← h, withFlight_self]
  rw [State.dress, hself]
  rfl

/-- An operation that halts at its first micro-step ends without a response (44_irq_router R296). -/
theorem issue_halt {s s' : State} {m : Micro} {res : Word} {post : Post} (hr : s.Ready) (h : s.microStep s.sel m = (s', .halt)) :
    s.issue (.ok ⟨[m], res, post⟩) = .next (s'.edgeDetect.dress s.sel s.ctx none none s.turns) := by
  have hrun : runOp s.sel [.core s.sel] s ⟨[m], res, post⟩ = some (s'.edgeDetect, none) := by
    simp [runOp, microRun, h]
  exact issue_run s _ [] s'.edgeDetect none hr rfl hrun

/-- In interrupt context without an open handler every command is refused (log 4). -/
theorem issue_closed {s : State} (hs : s.Settled) (hfatal : s.fatal = false) (hidle : s.flight s.sel s.ctx = none) (hctx : s.ctx = true)
    (hclosed : s.cores[s.sel].cbDepth = 0) (op : Op) : s.issue op = .next (s.answer .badParameter 0) := by
  have hrefused : (s.ctx && decide (s.cores[s.sel].cbDepth ≠ 1)) = true := by rw [hctx, hclosed]; rfl
  have hstart : s.start s.sel s.ctx op = s.answer .badParameter 0 := if_pos hrefused
  have hanswered : (s.answer .badParameter 0).flight s.sel s.ctx = none := by
    simp [flight_eq, State.answer, State.respond, setFlight_eq, setResp_eq]
  rw [State.issue, if_neg (by simp [hfatal]), if_neg (by rw [hidle]; simp), hstart, settled_answer hs]
  exact congrArg Host.Outcome.next (drive_idle hanswered _)

/-- Settles O43. -/
theorem callbacksComplete : Obligations.CallbacksComplete := by
  intro s hs
  refine ⟨fun hr hctx => ?_, fun hr hctx => ?_, fun hfatal hidle hctx hclosed i => ?_⟩
  · have hopen : s.handlerOpen s.sel = true := (handlerOpen_of_ready hr).trans hctx
    constructor
    · rw [exec_issue, opFor, opCbReturn, if_pos hopen, opOf, issue_go hr .closeHandler rfl rfl]
      exact congrArg Host.Outcome.next (settled_answer (s := s.setCore s.sel _) hs .ok 0)
    · have ⟨_, hidle, _⟩ := hr
      have hstops : ({ s with fatal := true } : State).edgeDetect = { s with fatal := true } := edgeDetect_of_settled _ hs
      rw [exec_issue, opFor, opCbFault, if_pos hopen, opOf, issue_halt hr rfl, hstops]
      refine congrArg Host.Outcome.next ((dress_idle (s := { s with fatal := true }) hidle none).trans ?_)
      rw [hctx]
  · have hclosed : ¬ s.handlerOpen s.sel = true := by rw [handlerOpen_of_ready hr, hctx]; exact Bool.false_ne_true
    rw [exec_issue, opFor, opCbReturn, if_neg hclosed, exec_issue, opFor, opCbFault, if_neg hclosed]
    exact ⟨issue_err hr hs .badParameter, issue_err hr hs .badParameter⟩
  · rw [exec_issue]
    exact issue_closed hs hfatal hidle hctx hclosed _

/-! ### `SetInterrupt` (44_irq_router R280, R284) -/

/-- A further update of core `c`. -/
theorem setCore_update (s : State) (c : CoreId) (k : CoreSt) (u : CoreSt → CoreSt) :
    (s.setCore c k).setCore c (u (s.setCore c k).cores[c]) = s.setCore c (u k) := by
  rw [Fin.getElem_fin, setCore_same, setCore_setCore]

/-- The bits of pin `p` are enabled in its bank (R280 (b)). -/
def CoreSt.enable (p : Pin) (k : CoreSt) : CoreSt :=
  { k with inte := k.inte.set (bankOf p) ((k.inte[bankOf p] ||| edgesOf p) &&& bankMask (bankOf p)) }
/-- They are disabled (R284 (b)). -/
def CoreSt.disable (p : Pin) (k : CoreSt) : CoreSt :=
  { k with inte := k.inte.set (bankOf p) (k.inte[bankOf p] &&& ~~~edgesOf p &&& bankMask (bankOf p)) }
/-- Pin `p`'s handler becomes `h`, on the edges `e` (R280 (c), R284 (c)). -/
def CoreSt.bind (p : Pin) (h : Word) (e : BitVec 2) (k : CoreSt) : CoreSt :=
  { k with gpioCb := k.gpioCb.set p h, gpioEdges := k.gpioEdges.set p e }

/-- The latched bits `w` of bank `b` are acknowledged (R280 (a), R288). -/
def State.acked (s : State) (b : BankReg) (w : Word) : State := { s with ioIntr := s.ioIntr.set b (s.ioIntr[b] &&& ~~~w) }

section
variable {s : State} (hs : s.Settled) (c : CoreId) (p : Pin) (k : CoreSt)

theorem microStep_enableEdges :
    (s.setCore c k).microStep c (.setBits (.ioInte c (bankOf p)) (edgesOf p)) = (s.setCore c (k.enable p), .go []) :=
  congrArg (·, After.go []) (setCore_update s c k (CoreSt.enable p))

theorem microStep_disableEdges :
    (s.setCore c k).microStep c (.clrBits (.ioInte c (bankOf p)) (edgesOf p)) = (s.setCore c (k.disable p), .go []) :=
  congrArg (·, After.go []) (setCore_update s c k (CoreSt.disable p))

theorem microStep_bind (h : Word) (e : BitVec 2) :
    (s.setCore c k).microStep c (.bindPin p h e) = (s.setCore c (k.bind p h e), .go []) :=
  congrArg (·, After.go []) (setCore_update s c k (CoreSt.bind p h e))

include hs

/-- The gate is opened where it was not open (R280 (d), (e)). -/
theorem runs_testGpioGate :
    Runs c (if k.nvicGpio then 1 else 2) (s.setCore c k) [.testGateGpio] 0 .plain (s.setCore c { k with nvicGpio := true })
      (some ⟨.ok, 0⟩) := by
  have hsettled : (s.setCore c k).Settled := hs
  have htest : (s.setCore c k).microStep c .testGateGpio = (s.setCore c k, .go (if k.nvicGpio then [] else [.writeGateGpio true])) := by
    rw [State.microStep, Fin.getElem_fin, setCore_same]
  have hopened := setCore_update s c k (fun k => { k with nvicGpio := true })
  cases hgate : k.nvicGpio with
  | true =>
    have hsame : { k with nvicGpio := true } = k := by rw [← hgate]
    rw [hgate] at htest
    rw [hsame]
    exact sruns_last hsettled htest
  | false =>
    rw [hgate] at htest
    rw [← hopened]
    exact sruns_go hsettled htest (List.cons_ne_nil _ _) (sruns_last hsettled rfl)

/-- With a handler: the latch, the enables, the handler, the gate. -/
theorem runs_listen (h : Word) :
    Runs c ((if s.cores[c].nvicGpio then 3 else 4) + 1) s
      [.write (.ioIntr (bankOf p)) (mask4 p), .setBits (.ioInte c (bankOf p)) (edgesOf p), .bindPin p h 3, .testGateGpio] 0 .plain
      ((s.acked (bankOf p) (mask4 p)).setCore c { (s.cores[c].enable p).bind p h 3 with nvicGpio := true }) (some ⟨.ok, 0⟩) := by
  have hacked : (s.acked (bankOf p) (mask4 p)).Settled := hs
  have hset : ∀ k, ((s.acked (bankOf p) (mask4 p)).setCore c k).Settled := fun _ => hs
  have hself : (s.acked (bankOf p) (mask4 p)).setCore c s.cores[c] = s.acked (bankOf p) (mask4 p) :=
    setCore_self (s.acked (bankOf p) (mask4 p)) c
  have hsteps : (if s.cores[c].nvicGpio then 3 else 4) + 1 = (if s.cores[c].nvicGpio then 1 else 2) + 1 + 1 + 1 := by
    split <;> rfl
  have henable := microStep_enableEdges (s := s.acked (bankOf p) (mask4 p)) c p s.cores[c]
  rw [hself] at henable
  rw [hsteps]
  exact sruns_go hacked rfl (List.cons_ne_nil _ _) (sruns_go (hset _) henable (List.cons_ne_nil _ _)
    (sruns_go (hset _) (microStep_bind c p _ h 3) (List.cons_ne_nil _ _)
      (runs_testGpioGate hacked c ((s.cores[c].enable p).bind p h 3))))

/-- The enables and the handler are taken away. -/
theorem runs_unlisten :
    Runs c 2 (s.setCore c k) [.clrBits (.ioInte c (bankOf p)) (edgesOf p), .bindPin p 0 0] 0 .plain
      (s.setCore c ((k.disable p).bind p 0 0)) (some ⟨.ok, 0⟩) :=
  sruns_go (s' := s.setCore c (k.disable p)) hs (microStep_disableEdges c p k) (List.cons_ne_nil _ _)
    (sruns_last (s' := s.setCore c ((k.disable p).bind p 0 0)) hs (microStep_bind c p _ 0 0))

/-- Without one: the gate where the parameter says so, then the enables and the handler. -/
theorem runs_ignore (closes : Bool) :
    Runs c ((if closes then 2 else 1) + 1) s
      ((if closes then [.writeGateGpio false] else []) ++ [.clrBits (.ioInte c (bankOf p)) (edgesOf p), .bindPin p 0 0]) 0 .plain
      (s.setCore c { (s.cores[c].disable p).bind p 0 0 with nvicGpio := s.cores[c].nvicGpio && !closes }) (some ⟨.ok, 0⟩) := by
  cases closes with
  | true =>
    rw [Bool.not_true, Bool.and_false]
    exact sruns_go (s' := s.setCore c { s.cores[c] with nvicGpio := false }) hs rfl (List.cons_ne_nil _ _)
      (runs_unlisten hs c p { s.cores[c] with nvicGpio := false })
  | false =>
    have hrun := runs_unlisten hs c p s.cores[c]
    rw [Fin.getElem_fin, setCore_self] at hrun
    rw [Bool.not_false, Bool.and_true]
    exact hrun

end

/-- Settles O42: no micro-step of either form moves a pin. -/
theorem setInterruptCompletes : Obligations.SetInterruptCompletes := by
  intro s pin h p hr hs hp
  rw [exec_issue, opFor, opSetInterrupt, withOperand_some hp]
  constructor
  · intro hh n ha
    rw [if_pos hh]
    exact issue_runs hr ha (runs_listen hs s.sel p h)
  · rintro rfl n ha
    rw [if_neg (by simp)]
    exact issue_runs hr ha (runs_ignore hs s.sel p s.params.nilDisablesLine)

end Sys2Proof.Machine

/-! The GPIO dispatch: the order in which the events of a bank register are served (O49), and the lookup of a handler (O50). -/

namespace Sys2Proof.Machine

/-! ### The events of a bank register (44_irq_router R288, R289) -/

/-- The four event bits of pin `p` in the word `w` of its bank. -/
def pinEvent (w : Word) (p : Pin) : BitVec 4 := eventBits w (p.val % 8)

/-- The pins of bank `b`, in ascending order. -/
def pinsOfBank (b : BankReg) : List Pin := (List.finRange 30).filter (fun p => bankOf p = b)

/-- Those with an event in the word `w`. -/
def eventPins (b : BankReg) (w : Word) : List Pin := (pinsOfBank b).filter (fun p => pinEvent w p ≠ 0)

theorem mem_eventPins {b : BankReg} {w : Word} {p : Pin} : p ∈ eventPins b w ↔ bankOf p = b ∧ pinEvent w p ≠ 0 := by
  simp [eventPins, pinsOfBank, and_comm]

/-- How an event of pin `p` in the word `w` of bank `b` is served. -/
def serve (b : BankReg) (w : Word) (p : Pin) : List DStep := [.gpioAck b (w &&& mask4 p), .gpioLookup p (pinEvent w p)]

/-- The pin at place `i` of bank `b`, where it exists (10_state R54). -/
def pinAt (b : BankReg) (i : Fin 8) : Option Pin := if h : 8 * b.val + i.val < 30 then some ⟨8 * b.val + i.val, h⟩ else none

theorem pinsOfBank_eq_filterMap (b : BankReg) : pinsOfBank b = (List.finRange 8).filterMap (pinAt b) := by
  revert b
  decide

theorem getLsbD_mask4 (p : Pin) {i : Nat} (hi : i < 32) : (mask4 p).getLsbD i = decide (i / 4 = p.val % 8) := by
  have hnibble : ∀ n : Nat, n < 32 → (0xF#32).getLsbD n = decide (n < 4) := by decide
  rw [mask4, BitVec.getLsbD_shiftLeft, hnibble _ (by omega), Bool.eq_iff_iff]
  simp only [Bool.and_eq_true, Bool.not_eq_true', decide_eq_true_eq, decide_eq_false_iff_not]
  omega

theorem getLsbD_pinEvent (w : Word) (p : Pin) (i : Nat) : (pinEvent w p).getLsbD i = (decide (i < 4) && w.getLsbD (4 * (p.val % 8) + i)) :=
  BitVec.getLsbD_extractLsb' ..

/-- The acknowledgement word is what was seen of the pin's four bits. -/
theorem eventWord_eq (w : Word) (p : Pin) : (pinEvent w p).setWidth 32 <<< (4 * (p.val % 8)) = w &&& mask4 p := by
  apply BitVec.eq_of_getLsbD_eq
  intro i hi
  rw [BitVec.getLsbD_and, getLsbD_mask4 p hi, BitVec.getLsbD_shiftLeft, BitVec.getLsbD_setWidth, getLsbD_pinEvent]
  by_cases h : i / 4 = p.val % 8
  · have hback : 4 * (p.val % 8) + (i - 4 * (p.val % 8)) = i := by omega
    have hlow : i - 4 * (p.val % 8) < 4 := by omega
    have hge : ¬ i < 4 * (p.val % 8) := by omega
    simp [h, hback, hlow, hge, hi, Nat.lt_of_lt_of_le hlow]
  · have hout : ¬ (¬ i < 4 * (p.val % 8) ∧ i - 4 * (p.val % 8) < 4) := by omega
    by_cases hlt : i < 4 * (p.val % 8)
    · simp [h, hlt]
    · have hhigh : ¬ i - 4 * (p.val % 8) < 4 := fun hlow => hout ⟨hlt, hlow⟩
      simp [h, hhigh]

theorem pinEvent_eq (w : Word) (p : Pin) : pinEvent w p = (w &&& mask4 p).extractLsb' (4 * (p.val % 8)) 4 := by
  apply BitVec.eq_of_getLsbD_eq
  intro i hi
  rw [getLsbD_pinEvent, BitVec.getLsbD_extractLsb', BitVec.getLsbD_and, getLsbD_mask4 p (by omega)]
  have hplace : (4 * (p.val % 8) + i) / 4 = p.val % 8 := by omega
  rw [decide_eq_true hplace, Bool.and_true]

theorem and_mask4_eq_zero_iff (w : Word) (p : Pin) : w &&& mask4 p = 0 ↔ pinEvent w p = 0 := by
  constructor
  · intro h
    rw [pinEvent_eq, h]
    exact BitVec.extractLsb'_zero
  · intro h
    rw [← eventWord_eq, h]
    simp

/-- The dispatch serves the pins with an event one after another. -/
theorem gpioEvents_eq (b : BankReg) (w : Word) : gpioEvents b w = (eventPins b w).flatMap (serve b w) := by
  rw [eventPins, pinsOfBank_eq_filterMap, gpioEvents, List.filter_filterMap, List.filterMap_eq_flatMap_toList, List.flatMap_assoc]
  congr 1
  funext i
  by_cases h : 8 * b.val + i.val < 30
  · have hplace : (8 * b.val + i.val) % 8 = i.val := by omega
    have hword := eventWord_eq w ⟨8 * b.val + i.val, h⟩
    have hevent : eventBits w i = pinEvent w ⟨8 * b.val + i.val, h⟩ := by simp only [eventBits, pinEvent, hplace]
    simp only [hplace] at hword
    rw [dif_pos h, pinAt, dif_pos h, hevent, hword, Option.filter_some]
    by_cases hne : pinEvent w ⟨8 * b.val + i.val, h⟩ ≠ 0
    · rw [if_pos hne, if_pos (decide_eq_true hne)]
      rfl
    · rw [if_neg hne, if_neg (by simpa using hne)]
      rfl
  · rw [dif_neg h, pinAt, dif_neg h]
    rfl

theorem gpioEvents_length (b : BankReg) (w : Word) :
    (gpioEvents b w).length = 2 * (List.finRange 30).countP (fun p => decide (bankOf p = b ∧ pinEvent w p ≠ 0)) := by
  have hpins : eventPins b w = (List.finRange 30).filter (fun p => decide (bankOf p = b ∧ pinEvent w p ≠ 0)) := by
    simp only [eventPins, pinsOfBank, List.filter_filter, Bool.decide_and, Bool.and_comm]
  rw [gpioEvents_eq, List.length_flatMap, List.countP_eq_length_filter, ← hpins]
  simp [serve, Nat.mul_comm]

theorem lookup_mem_gpioEvents {b : BankReg} {w : Word} {p : Pin} {ev : BitVec 4} :
    DStep.gpioLookup p ev ∈ gpioEvents b w ↔ bankOf p = b ∧ ev = pinEvent w p ∧ ev ≠ 0 := by
  simp only [gpioEvents_eq, List.mem_flatMap, mem_eventPins, serve, List.mem_cons, List.not_mem_nil, or_false, reduceCtorEq, false_or,
    DStep.gpioLookup.injEq]
  constructor
  · rintro ⟨q, ⟨hbank, hevent⟩, rfl, rfl⟩
    exact ⟨hbank, rfl, hevent⟩
  · rintro ⟨hbank, rfl, hevent⟩
    exact ⟨p, ⟨hbank, hevent⟩, rfl, rfl⟩

theorem ack_mem_gpioEvents {b x : BankReg} {w v : Word} :
    DStep.gpioAck x v ∈ gpioEvents b w ↔ x = b ∧ v ≠ 0 ∧ ∃ p : Pin, bankOf p = b ∧ v = w &&& mask4 p := by
  simp only [gpioEvents_eq, List.mem_flatMap, mem_eventPins, serve, List.mem_cons, List.not_mem_nil, or_false, reduceCtorEq,
    DStep.gpioAck.injEq, ← and_mask4_eq_zero_iff, ne_eq]
  constructor
  · rintro ⟨p, ⟨hbank, hevent⟩, rfl, rfl⟩
    exact ⟨rfl, hevent, p, hbank, rfl⟩
  · rintro ⟨rfl, hevent, p, hbank, rfl⟩
    exact ⟨p, ⟨hbank, hevent⟩, rfl, rfl⟩

/-- The number of the pin a micro-step looks up. -/
def DStep.lookedUp : DStep → Option Nat
  | .gpioLookup p _ => some p.val
  | _ => none

theorem gpioEvents_lookedUp (b : BankReg) (w : Word) : (gpioEvents b w).filterMap DStep.lookedUp = (eventPins b w).map Fin.val := by
  rw [gpioEvents_eq, List.filterMap_flatMap]
  exact (List.map_eq_flatMap ..).symm

theorem gpioEvents_ascend (b : BankReg) (w : Word) : ((gpioEvents b w).filterMap DStep.lookedUp).Pairwise (· < ·) := by
  rw [gpioEvents_lookedUp, List.pairwise_map]
  exact ((List.pairwise_lt_finRange 30).filter _).filter _

/-- A lookup stands right behind the acknowledgement of what was seen of its pin. -/
theorem ack_before_lookup (b : BankReg) (w : Word) (pins : List Pin) {j : Nat} {p : Pin} {ev : BitVec 4}
    (h : (pins.flatMap (serve b w))[j]? = some (.gpioLookup p ev)) :
    ∃ k, j = k + 1 ∧ (pins.flatMap (serve b w))[k]? = some (.gpioAck b (w &&& mask4 p)) := by
  induction pins generalizing j with
  | nil => cases h
  | cons q qs ih =>
    rw [List.flatMap_cons] at h ⊢
    match j with
    | 0 => cases h
    | 1 =>
      cases h
      exact ⟨0, rfl, rfl⟩
    | j + 2 =>
      obtain ⟨k, rfl, hk⟩ := ih (j := j) h
      exact ⟨k + 2, rfl, hk⟩

/-! ### The micro-steps of the GPIO dispatch (44_irq_router R288, R290, R292) -/

theorem dispatching_of_serving {s : State} {c : CoreId} {d : DStep} {rest : List DStep} (hfatal : s.fatal = false)
    (hirq : s.cores[c].inIrq ≠ none) (hidle : s.cores[c].irq = none) (hclosed : s.cores[c].cbDepth = 0)
    (hdisp : s.cores[c].disp = d :: rest) : s.Dispatching c d rest :=
  ⟨hfatal, Option.isSome_iff_ne_none.2 hirq, hidle, hclosed, hdisp⟩

/-- What the dispatch on core `c` does about the event `ev` of pin `p`: it invokes the bound handler for the bound edges, or, where
none is left, acknowledges all four bits. -/
def State.lookupResult (s : State) (c : CoreId) (p : Pin) (ev : BitVec 4) : DStep :=
  let e := ev.extractLsb' 2 2 &&& s.cores[c].gpioEdges[p]
  if s.cores[c].gpioCb[p] ≠ 0 ∧ e ≠ 0 then .invoke .gpio s.cores[c].gpioCb[p] p.val e.toNat else .gpioAck (bankOf p) (mask4 p)

section
variable {s : State} {c : CoreId} {rest : List DStep} (hs : s.Settled)
include hs

theorem atomic_gpioRead {b : BankReg} (h : s.Dispatching c (.gpioRead b) rest) :
    s.atomic (.core c) = s.setDisp c (gpioEvents b (s.ints c b) ++ rest) :=
  (atomic_dispatching h).trans (edgeDetect_of_settled (s.setDisp c _) hs)

theorem atomic_gpioAck {b : BankReg} {w : Word} (h : s.Dispatching c (.gpioAck b w) rest) :
    s.atomic (.core c) = (s.acked b w).setDisp c rest :=
  (atomic_dispatching h).trans (edgeDetect_of_settled ((s.acked b w).setDisp c rest) hs)

theorem atomic_gpioLookup {p : Pin} {ev : BitVec 4} (h : s.Dispatching c (.gpioLookup p ev) rest) :
    s.atomic (.core c) = s.setDisp c (s.lookupResult c p ev :: rest) := by
  have hcode : s.dispatchStep c rest (.gpioLookup p ev) = s.setDisp c (s.lookupResult c p ev :: rest) := by
    simp only [State.dispatchStep, State.lookupResult]
    split <;> rfl
  rw [atomic_dispatching h, hcode]
  exact edgeDetect_of_settled (s.setDisp c _) hs

theorem atomic_invoke {kind : CbKind} {h : Word} {a0 a1 : Nat} (hd : s.Dispatching c (.invoke kind h a0 a1) rest) :
    s.atomic (.core c) = s.invoked c kind h a0 a1 rest := by
  rw [atomic_dispatching hd, dispatchStep_invoke]
  exact edgeDetect_of_settled (s.invoked c kind h a0 a1 rest) hs

end

/-- Settles O49. -/
theorem gpioDispatchOrder : Obligations.GpioDispatchOrder := by
  intro s c b rest hfatal hs hirq hidle hclosed hdisp
  have hread := atomic_gpioRead hs (dispatching_of_serving hfatal hirq hidle hclosed hdisp)
  refine ⟨gpioEvents b (s.ints c b), hread, fun p ev => lookup_mem_gpioEvents, gpioEvents_length .., fun x w => ack_mem_gpioEvents, ?_,
    fun j p ev hj => ?_⟩
  · refine Eq.subst (motive := fun l : List Nat => l.Pairwise (· < ·)) ?_ (gpioEvents_ascend b (s.ints c b))
    refine List.filterMap_congr fun d _ => ?_
    cases d <;> rfl
  · rw [gpioEvents_eq] at hj ⊢
    exact ack_before_lookup b _ _ hj

/-- Settles O50: the lookup, then the invocation or the acknowledgement it gave. -/
theorem gpioLookupServes : Obligations.GpioLookupServes := by
  intro s c p ev rest hfatal hs hirq hidle hclosed hdisp h e
  have hdispatching := dispatching_of_serving hfatal hirq hidle hclosed hdisp
  have hlookup := atomic_gpioLookup hs hdispatching
  have hsettled : (s.setDisp c (s.lookupResult c p ev :: rest)).Settled := hs
  have hnext : (s.setDisp c (s.lookupResult c p ev :: rest)).Dispatching c (s.lookupResult c p ev) rest :=
    hdispatching.next rfl (setCore_same s c _)
  rw [hlookup]
  constructor
  · intro hbound
    have hresult : s.lookupResult c p ev = .invoke .gpio h p.val e.toNat := if_pos hbound
    rw [hresult] at hsettled hnext ⊢
    rw [atomic_invoke hsettled hnext, invoked_setDisp]
    have hcore : (s.invoked c .gpio h p.val e.toNat rest).cores[c] = { s.cores[c] with cbDepth := 1, disp := rest, irqQ := s.bodyOf h } :=
      setCore_same s c _
    exact ⟨rfl, rfl, congrArg CoreSt.cbDepth hcore, congrArg CoreSt.disp hcore⟩
  · intro hunbound
    have hresult : s.lookupResult c p ev = .gpioAck (bankOf p) (mask4 p) := if_neg (by rw [not_and_or, not_not, not_not]; exact hunbound)
    rw [hresult] at hsettled hnext ⊢
    rw [atomic_gpioAck hsettled hnext]
    exact setDisp_setDisp (s.acked (bankOf p) (mask4 p)) c _ _

end Sys2Proof.Machine

/-! One asserted rise, from the event to the return of its dispatch (O51). -/

namespace Sys2Proof.Machine

/-! ### The masked status of a core that watches one pin (10_state R57, R60) -/

theorem getLsbD_edgesOf (p : Pin) {i : Nat} (hi : i < 32) :
    (edgesOf p).getLsbD i = (decide (i / 4 = p.val % 8) && decide (2 ≤ i % 4)) := by
  have hnibble : ∀ n : Nat, n < 32 → (0xC#32).getLsbD n = (decide (n < 4) && decide (2 ≤ n)) := by decide
  rw [edgesOf, BitVec.getLsbD_shiftLeft, hnibble _ (by omega), Bool.eq_iff_iff]
  simp only [Bool.and_eq_true, Bool.not_eq_true', decide_eq_true_eq, decide_eq_false_iff_not]
  omega

/-- No level bit is an edge bit. -/
theorem levels_and_edgesOf (s : State) (b : BankReg) (p : Pin) : s.levels b &&& edgesOf p = 0 := by
  apply BitVec.eq_of_getLsbD_eq
  intro i hi
  rw [State.levels, BitVec.getLsbD_and, getLsbD_edgesOf p hi, BitVec.getLsbD_or, spread_getLsbD, spread_getLsbD]
  by_cases hedge : 2 ≤ i % 4
  · have hhigh : i % 4 ≠ 1 := by omega
    have hlow : i % 4 ≠ 0 := by omega
    simp [hhigh, hlow]
  · simp [hedge]

/-- On core `c` the edges of pin `X` are enabled and nothing else, and nothing is forced. -/
def State.WatchesOnly (s : State) (c : CoreId) (X : Pin) : Prop :=
  ∀ b : BankReg, s.cores[c].intf[b] = 0 ∧ s.cores[c].inte[b] = if b = bankOf X then edgesOf X else 0

theorem edgesOf_within (X : Pin) : mask4 X &&& edgesOf X = edgesOf X := by
  revert X
  decide

theorem riseOf_within_edgesOf (X : Pin) : edgesOf X &&& riseOf X = riseOf X := by
  revert X
  decide

theorem riseOf_within_mask4 (X : Pin) : mask4 X &&& riseOf X = riseOf X := by
  revert X
  decide

section
variable {s : State} {c : CoreId} {X : Pin}

theorem edges_of_clear (hclear : s.ioIntr[bankOf X] &&& mask4 X = 0) : s.ioIntr[bankOf X] &&& edgesOf X = 0 := by
  rw [← edgesOf_within, ← BitVec.and_assoc, hclear]
  exact BitVec.zero_and

/-- The acknowledgement of an asserted rise leaves the latch as it was. -/
theorem assertEvent_acked (hclear : s.ioIntr[bankOf X] &&& mask4 X = 0) :
    (s.assertEvent X true).acked (bankOf X) (riseOf X) = s := by
  have hrise : s.ioIntr[bankOf X] &&& riseOf X = 0 := by
    rw [← riseOf_within_mask4 X, ← BitVec.and_assoc, hclear]
    exact BitVec.zero_and
  have hword : (s.ioIntr[bankOf X] ||| riseOf X) &&& ~~~riseOf X = s.ioIntr[bankOf X] := by
    apply BitVec.eq_of_getLsbD_eq
    intro i hi
    have hbit : (s.ioIntr[bankOf X].getLsbD i && (riseOf X).getLsbD i) = false := by
      rw [← BitVec.getLsbD_and, hrise]
      exact BitVec.getLsbD_zero
    rw [BitVec.getLsbD_and, BitVec.getLsbD_or, BitVec.getLsbD_not, decide_eq_true hi]
    cases hlatched : s.ioIntr[bankOf X].getLsbD i <;> simp_all
  have hlatch : (s.assertEvent X true).ioIntr[bankOf X] = s.ioIntr[bankOf X] ||| riseOf X := Vector.getElem_set_self ..
  have hback : ((s.assertEvent X true).ioIntr.set (bankOf X) s.ioIntr[bankOf X]) = s.ioIntr := by
    simp [State.assertEvent]
  rw [State.acked, hlatch, hword, hback]
  rfl

variable (h : s.WatchesOnly c X)
include h

theorem ints_bank_of_watchesOnly : s.ints c (bankOf X) = s.ioIntr[bankOf X] &&& edgesOf X := by
  obtain ⟨hforced, henabled⟩ := h (bankOf X)
  rw [if_pos rfl] at henabled
  rw [State.ints, hforced, henabled, State.intr, BitVec.and_or_distrib_right, levels_and_edgesOf]
  simp

theorem ints_other_of_watchesOnly {b : BankReg} (hb : b ≠ bankOf X) : s.ints c b = 0 := by
  obtain ⟨hforced, henabled⟩ := h b
  rw [if_neg hb] at henabled
  rw [State.ints, hforced, henabled]
  simp

theorem ints_of_clear (hclear : s.ioIntr[bankOf X] &&& mask4 X = 0) (b : BankReg) : s.ints c b = 0 := by
  by_cases hb : b = bankOf X
  · rw [hb, ints_bank_of_watchesOnly h, edges_of_clear hclear]
  · exact ints_other_of_watchesOnly h hb

/-- A rise where no bit of the pin was latched is all there is to see. -/
theorem ints_assertEvent (hclear : s.ioIntr[bankOf X] &&& mask4 X = 0) : (s.assertEvent X true).ints c (bankOf X) = riseOf X := by
  have hlatch : (s.assertEvent X true).ioIntr[bankOf X] = s.ioIntr[bankOf X] ||| riseOf X := Vector.getElem_set_self ..
  have hwatches : (s.assertEvent X true).WatchesOnly c X := h
  rw [ints_bank_of_watchesOnly hwatches, hlatch, BitVec.and_or_distrib_right, edges_of_clear hclear, BitVec.and_comm,
    riseOf_within_edgesOf]
  exact BitVec.zero_or

end

theorem gpioEvents_zero (b : BankReg) : gpioEvents b 0 = [] := by
  revert b
  decide

theorem gpioEvents_rise (X : Pin) : gpioEvents (bankOf X) (riseOf X) = [.gpioAck (bankOf X) (riseOf X), .gpioLookup X 8] := by
  revert X
  decide

/-! ### The handler's `CbReturn` -/

/-- An open handler's `CbReturn`, accepted by its core. -/
theorem start_cbReturn {s : State} {c : CoreId} (hirq : s.inIrqCtx c = true) (hidle : s.cores[c].irq = none)
    (hopen : s.cores[c].cbDepth = 1) :
    s.start c true (opFor .cbReturn s c) = s.setCore c { s.cores[c] with cbDepth := 0, irqResp := some ⟨.ok, 0⟩ } := by
  have hhandler : s.handlerOpen c = true := by
    rw [State.handlerOpen, hirq, hopen]
    rfl
  have hop : opFor .cbReturn s c = .ok ⟨[.closeHandler], 0, .plain⟩ := if_pos hhandler
  have hstart : s.start c true (.ok ⟨[.closeHandler], 0, .plain⟩)
      = (s.setResp c true none).advance c true ⟨[.closeHandler], 0, .plain⟩ :=
    if_neg (by rw [hopen]; decide)
  have hrun : microRun s c ⟨[.closeHandler], 0, .plain⟩
      = (s.setCore c { s.cores[c] with cbDepth := 0 }, .done (some ⟨.ok, 0⟩)) := rfl
  have hclosed : (s.setCore c { s.cores[c] with cbDepth := 0 }).flight c true = none :=
    (congrArg CoreSt.irq (setCore_same s c _)).trans hidle
  rw [hop, hstart, ← dress_idle (c := c) (irq := true) hidle none, dress_advance, hrun]
  exact (dress_idle hclosed _).trans (setCore_update s c _ fun k => { k with irqResp := some ⟨.ok, 0⟩ })

/-- The turn of a core whose open handler presents `CbReturn`. -/
theorem coreTurn_cbReturn {s : State} {c : CoreId} {q : List Command} (hirq : s.inIrqCtx c = true) (hidle : s.cores[c].irq = none)
    (hopen : s.cores[c].cbDepth = 1) (hqueue : s.cores[c].irqQ = ⟨0x4E, 0, 0, 0⟩ :: q) :
    s.coreTurn c = s.setCore c { s.cores[c] with cbDepth := 0, irqQ := q, irqResp := some ⟨.ok, 0⟩ } := by
  have hflight : s.flight c true = none := hidle
  have hdec : decode ⟨0x4E, 0, 0, 0⟩ = .ok .cbReturn := decodeEncode .cbReturn
  have hpresented : s.presented c = some (⟨0x4E, 0, 0, 0⟩, s.setCore c { s.cores[c] with irqQ := q }) := by
    rw [Fin.getElem_fin] at hopen hqueue
    simp [State.presented, hirq, hflight, hopen, hqueue]
  have hcore : (s.setCore c { s.cores[c] with irqQ := q }).cores[c] = { s.cores[c] with irqQ := q } := setCore_same s c _
  have hctx : (s.setCore c { s.cores[c] with irqQ := q }).inIrqCtx c = true := by
    rw [State.inIrqCtx, hcore]
    exact hirq
  have hbusy : ¬ (true && decide (s.cores[c].cbDepth = 0)) = true := by
    rw [hopen]
    decide
  simp only [State.coreTurn, hirq, hflight, hpresented, hdec, hctx]
  rw [if_neg hbusy, start_cbReturn hctx (by rw [hcore]; exact hidle) (by rw [hcore]; exact hopen), hcore, setCore_setCore]

/-! ### A GPIO dispatch, turn by turn (60_exceptions R320, R326, R330) -/

/-- Core `c` has begun the GPIO dispatch, which still has `code` to do. -/
def State.serving (s : State) (c : CoreId) (code : List DStep) : State :=
  s.setCore c { s.cores[c] with inIrq := some .gpioBank, disp := code }

/-- Core `c` is in its main line, ready to enter an interrupt and to leave it again. -/
structure State.Calm (s : State) (c : CoreId) : Prop where
  fatal : s.fatal = false
  settled : s.Settled
  irq : s.cores[c].inIrq = none
  idle : s.cores[c].irq = none
  closed : s.cores[c].cbDepth = 0
  disp : s.cores[c].disp = []

section
variable {s : State} {c : CoreId}

theorem serving_core (code : List DStep) : (s.serving c code).cores[c] = { s.cores[c] with inIrq := some .gpioBank, disp := code } :=
  setCore_same s c _

theorem serving_setDisp (code code' : List DStep) : (s.serving c code).setDisp c code' = s.serving c code' :=
  setCore_update s c _ fun k => { k with disp := code' }

theorem serving_ints (code : List DStep) (b : BankReg) : (s.serving c code).ints c b = s.ints c b := by
  have hinte := congrArg CoreSt.inte (serving_core (s := s) (c := c) code)
  have hintf := congrArg CoreSt.intf (serving_core (s := s) (c := c) code)
  rw [State.ints, hinte, hintf]
  rfl

variable (h : s.Calm c)
include h

theorem serving_dispatching (d : DStep) (rest : List DStep) : (s.serving c (d :: rest)).Dispatching c d rest := by
  have hcore := serving_core (s := s) (c := c) (d :: rest)
  refine dispatching_of_serving h.fatal ?_ ?_ ?_ ?_ <;> rw [hcore]
  · exact Option.some_ne_none _
  · exact h.idle
  · exact h.closed

theorem enterIrq_gpio (hgate : s.cores[c].nvicGpio = true) (hpwm : s.pwmPending c = false) (hline : s.gpioLine c = true) :
    s.atomic (.enter c) = s.serving c (dispatchCode .gpioBank) := by
  have hentry : s.entryEnabled c = true := by
    simp only [State.entryEnabled, State.gpioPending, h.fatal, h.irq, hgate, hline]
    simp
  have henter : s.enterIrq c = s.serving c (dispatchCode .gpioBank) := by
    rw [State.enterIrq, if_pos hentry, hpwm]
    rfl
  rw [State.atomic, if_neg (by simp [h.fatal]), State.turnBody, henter]
  exact edgeDetect_of_settled (s.serving c _) h.settled

theorem leave_serving : (s.serving c [.leave]).atomic (.core c) = s := by
  have hsame : ({ s.cores[c] with inIrq := none, disp := [] } : CoreSt) = s.cores[c] := by
    rw [← h.irq, ← h.disp]
  have hleft : (s.serving c [.leave]).leaveIrq c = s := by
    refine (setCore_update s c _ fun k => { k with inIrq := none, disp := [] }).trans ?_
    exact (congrArg (s.setCore c) hsame).trans (setCore_self s c)
  rw [atomic_dispatching (serving_dispatching h .leave []), State.dispatchStep, hleft]
  exact edgeDetect_of_settled s h.settled

theorem read_serving (b : BankReg) (rest : List DStep) :
    (s.serving c (.gpioRead b :: rest)).atomic (.core c) = s.serving c (gpioEvents b (s.ints c b) ++ rest) := by
  have hsettled : (s.serving c (.gpioRead b :: rest)).Settled := h.settled
  rw [atomic_gpioRead hsettled (serving_dispatching h _ rest), serving_ints, serving_setDisp]

theorem ack_serving (b : BankReg) (w : Word) (rest : List DStep) :
    (s.serving c (.gpioAck b w :: rest)).atomic (.core c) = (s.acked b w).serving c rest := by
  have hsettled : (s.serving c (.gpioAck b w :: rest)).Settled := h.settled
  rw [atomic_gpioAck hsettled (serving_dispatching h _ rest)]
  exact serving_setDisp (s := s.acked b w) _ rest

/-- A bank register without an event is read and passed over. -/
theorem read_serving_quiet {b : BankReg} (hquiet : s.ints c b = 0) (rest : List DStep) :
    (s.serving c (.gpioRead b :: rest)).atomic (.core c) = s.serving c rest := by
  rw [read_serving h, hquiet, gpioEvents_zero, List.nil_append]

end

/-! ### Turns of one core -/

/-- The state after `n` turns of core `c`. -/
def State.afterTurns (s : State) (c : CoreId) (n : Nat) : State := (List.replicate n (Turn.core c)).foldl State.atomic s

theorem afterTurns_succ (s : State) (c : CoreId) (n : Nat) : s.afterTurns c (n + 1) = (s.atomic (.core c)).afterTurns c n := rfl

theorem afterTurns_add (s : State) (c : CoreId) (m n : Nat) : s.afterTurns c (m + n) = (s.afterTurns c m).afterTurns c n := by
  rw [State.afterTurns, List.replicate_add, List.foldl_append]
  rfl

/-- The reads of bank registers without an event. -/
theorem reads_quiet {s : State} {c : CoreId} (hc : s.Calm c) (hquiet : ∀ b, s.ints c b = 0) (banks : List BankReg) (rest : List DStep) :
    (s.serving c (banks.map .gpioRead ++ rest)).afterTurns c banks.length = s.serving c rest := by
  induction banks with
  | nil => rfl
  | cons b banks ih =>
    rw [List.length_cons, afterTurns_succ, List.map_cons, List.cons_append, read_serving_quiet hc (hquiet b), ih]

/-! ### One rise, one invocation (44_irq_router R300) -/

/-- On core `c` the rise of pin `X` is bound to the handler `h`, which answers with `CbReturn`; no other pin is watched, and nothing of
`X` is latched. -/
structure State.Awaits (s : State) (c : CoreId) (X : Pin) (h : Word) : Prop where
  calm : s.Calm c
  queue : s.cores[c].irqQ = []
  handler : s.cores[c].gpioCb[X] = h
  bound : h ≠ 0
  edges : s.cores[c].gpioEdges[X] = 3
  returns : s.params.handlers.lookup h = some [⟨0x4E, 0, 0, 0⟩]
  watches : s.WatchesOnly c X
  clear : s.ioIntr[bankOf X] &&& mask4 X = 0

/-- The message of an invocation of the handler `h` on core `c` for the rise of pin `X` has been emitted (30_encoding R122). -/
def State.logged (s : State) (c : CoreId) (X : Pin) (h : Word) : State :=
  { s with cbLog := { core := c, kind := .gpio, h := h, a0 := X.val, a1 := 2 } :: s.cbLog }

/-- The core while the handler of the rise is open, with `rest` still to be dispatched. -/
def CoreSt.calling (k : CoreSt) (rest : List DStep) : CoreSt :=
  { k with inIrq := some .gpioBank, cbDepth := 1, disp := rest, irqQ := [⟨0x4E, 0, 0, 0⟩] }

/-- The state after the rise of pin `X` has been served by the handler `h` of core `c`. -/
def State.served (s : State) (c : CoreId) (X : Pin) (h : Word) : State :=
  (s.logged c X h).setCore c { s.cores[c] with irqResp := some ⟨.ok, 0⟩ }

section
variable {s : State} {c : CoreId} {X : Pin} {h : Word} (ha : s.Awaits c X h)
include ha

theorem calm_assertEvent : (s.assertEvent X true).Calm c where
  fatal := ha.calm.fatal
  settled := ha.calm.settled
  irq := ha.calm.irq
  idle := ha.calm.idle
  closed := ha.calm.closed
  disp := ha.calm.disp

theorem lookup_serving (rest : List DStep) :
    (s.serving c (.gpioLookup X 8 :: rest)).atomic (.core c) = s.serving c (.invoke .gpio h X.val 2 :: rest) := by
  have hsettled : (s.serving c (.gpioLookup X 8 :: rest)).Settled := ha.calm.settled
  have hresult : (s.serving c (.gpioLookup X 8 :: rest)).lookupResult c X 8 = .invoke .gpio h X.val 2 := by
    rw [State.lookupResult, serving_core]
    simp only [ha.handler, ha.edges]
    exact if_pos ⟨ha.bound, by decide⟩
  rw [atomic_gpioLookup hsettled (serving_dispatching ha.calm _ rest), hresult, serving_setDisp]

theorem invoke_serving (rest : List DStep) :
    (s.serving c (.invoke .gpio h X.val 2 :: rest)).atomic (.core c) = (s.logged c X h).setCore c (s.cores[c].calling rest) := by
  have hsettled : (s.serving c (.invoke .gpio h X.val 2 :: rest)).Settled := ha.calm.settled
  have hbody : (s.serving c (.invoke .gpio h X.val 2 :: rest)).bodyOf h = [⟨0x4E, 0, 0, 0⟩] :=
    congrArg (fun found : Option (List Command) => found.getD _) ha.returns
  rw [atomic_invoke hsettled (serving_dispatching ha.calm _ rest), State.invoked, hbody]
  exact congrArg (State.logged · c X h)
    (setCore_update s c _ fun k => { k with cbDepth := 1, disp := rest, irqQ := [⟨0x4E, 0, 0, 0⟩] })

theorem return_calling (rest : List DStep) :
    ((s.logged c X h).setCore c (s.cores[c].calling rest)).atomic (.core c) = (s.served c X h).serving c rest := by
  have hcore : ((s.logged c X h).setCore c (s.cores[c].calling rest)).cores[c] = s.cores[c].calling rest := setCore_same ..
  have hirq : ((s.logged c X h).setCore c (s.cores[c].calling rest)).inIrqCtx c = true := by
    rw [State.inIrqCtx, hcore]
    rfl
  have hclosed : { s.cores[c].calling rest with cbDepth := 0, irqQ := [], irqResp := some ⟨.ok, 0⟩ }
      = { s.cores[c] with inIrq := some .gpioBank, disp := rest, irqResp := some ⟨.ok, 0⟩ } := by
    rw [← ha.calm.closed, ← ha.queue]
    rfl
  have hreturn : ((s.logged c X h).setCore c (s.cores[c].calling rest)).coreTurn c = (s.served c X h).serving c rest := by
    rw [coreTurn_cbReturn (q := []) hirq (by rw [hcore]; exact ha.calm.idle) (by rw [hcore]; rfl) (by rw [hcore]; rfl), hcore, hclosed,
      setCore_setCore]
    exact (setCore_update (s.logged c X h) c { s.cores[c] with irqResp := some ⟨.ok, 0⟩ }
      fun k => { k with inIrq := some .gpioBank, disp := rest }).symm
  rw [State.atomic, if_neg (by simp [State.logged, ha.calm.fatal]), State.turnBody, hreturn]
  exact edgeDetect_of_settled ((s.served c X h).serving c rest) ha.calm.settled

/-- The five turns that serve the rise: the read, the acknowledgement, the lookup, the invocation, the handler's answer. -/
theorem rise_served (rest : List DStep) :
    ((s.assertEvent X true).serving c (.gpioRead (bankOf X) :: rest)).afterTurns c 5 = (s.served c X h).serving c rest := by
  have hread : ((s.assertEvent X true).serving c (.gpioRead (bankOf X) :: rest)).atomic (.core c)
      = (s.assertEvent X true).serving c (.gpioAck (bankOf X) (riseOf X) :: .gpioLookup X 8 :: rest) := by
    rw [read_serving (calm_assertEvent ha), ints_assertEvent ha.watches ha.clear, gpioEvents_rise]
    rfl
  rw [afterTurns_succ, hread, afterTurns_succ, ack_serving (calm_assertEvent ha), assertEvent_acked ha.clear, afterTurns_succ,
    lookup_serving ha, afterTurns_succ, invoke_serving ha, afterTurns_succ, return_calling ha]
  rfl

theorem calm_served : (s.served c X h).Calm c := by
  have hcore : (s.served c X h).cores[c] = { s.cores[c] with irqResp := some ⟨.ok, 0⟩ } := setCore_same ..
  refine ⟨ha.calm.fatal, ha.calm.settled, ?_, ?_, ?_, ?_⟩ <;> rw [hcore]
  · exact ha.calm.irq
  · exact ha.calm.idle
  · exact ha.calm.closed
  · exact ha.calm.disp

theorem watchesOnly_served : (s.served c X h).WatchesOnly c X := by
  have hcore : (s.served c X h).cores[c] = { s.cores[c] with irqResp := some ⟨.ok, 0⟩ } := setCore_same ..
  intro b
  rw [hcore]
  exact ha.watches b

theorem ints_served (b : BankReg) : (s.served c X h).ints c b = 0 := ints_of_clear (watchesOnly_served ha) ha.clear b

/-- The reads of bank registers of which one has the rise: four turns more than there are registers. -/
theorem reads_rise {banks : List BankReg} (hmem : bankOf X ∈ banks) (rest : List DStep) :
    ((s.assertEvent X true).serving c (banks.map .gpioRead ++ rest)).afterTurns c (banks.length + 4)
      = (s.served c X h).serving c rest := by
  induction banks with
  | nil => exact absurd hmem List.not_mem_nil
  | cons b banks ih =>
    by_cases hb : b = bankOf X
    · have hturns : (b :: banks).length + 4 = 5 + banks.length := by
        rw [List.length_cons]
        omega
      rw [hturns, hb, afterTurns_add, List.map_cons, List.cons_append, rise_served ha]
      exact reads_quiet (calm_served ha) (ints_served ha) banks rest
    · have hwatches : (s.assertEvent X true).WatchesOnly c X := ha.watches
      have hrest : bankOf X ∈ banks := (List.mem_cons.1 hmem).resolve_left (Ne.symm hb)
      rw [List.length_cons, Nat.add_right_comm, afterTurns_succ, List.map_cons, List.cons_append,
        read_serving_quiet (calm_assertEvent ha) (ints_other_of_watchesOnly hwatches hb), ih hrest]

/-- The nine turns of the whole dispatch. -/
theorem dispatch_rise : ((s.assertEvent X true).serving c (dispatchCode .gpioBank)).afterTurns c 9 = s.served c X h := by
  have hbank : ∀ b : BankReg, b ∈ ([0, 1, 2, 3] : List BankReg) := by decide
  have hreads := reads_rise ha (hbank (bankOf X)) [.leave]
  calc ((s.assertEvent X true).serving c (dispatchCode .gpioBank)).afterTurns c (8 + 1)
      = ((s.served c X h).serving c [.leave]).afterTurns c 1 :=
        (afterTurns_add ..).trans (congrArg (State.afterTurns · c 1) hreads)
    _ = s.served c X h := leave_serving (calm_served ha)

end

/-- Settles O51: the event raises the line, the core enters the dispatch, and its nine turns serve the rise. -/
theorem exactlyOneInvocation : Obligations.ExactlyOneInvocation := by
  intro s c X h hfatal hs hirq hidle hclosed hdisp hqueue hgate hpwm hcb hh hedges hreturns hwatches hclear
  have ha : s.Awaits c X h := ⟨⟨hfatal, hs, hirq, hidle, hclosed, hdisp⟩, hqueue, hcb, hh, hedges, hreturns, hwatches, hclear⟩
  have hevent : s.atomic (.hostEvent X true) = s.assertEvent X true := by
    rw [State.atomic, if_neg (by simp [hfatal]), State.turnBody]
    exact edgeDetect_of_settled (s.assertEvent X true) hs
  have hrise : ∀ p : Pin, riseOf p ≠ 0 := by decide
  have hline : (s.assertEvent X true).gpioLine c = true := by
    rw [gpioLine_iff]
    exact ⟨bankOf X, by rw [ints_assertEvent hwatches hclear]; exact hrise X⟩
  intro t
  have ht : t = s.served c X h := by
    have henter := enterIrq_gpio (calm_assertEvent ha) hgate hpwm hline
    rw [← dispatch_rise ha, ← henter, ← hevent]
    rfl
  have hlow : (s.served c X h).gpioLine c = false := by
    rw [← Bool.not_eq_true, gpioLine_iff]
    exact fun ⟨b, hb⟩ => hb (ints_served ha b)
  rw [ht]
  exact ⟨rfl, hlow, rfl⟩

end Sys2Proof.Machine

/-! The register primitives: `RegGet`, and the fields of every register (O9); `RegSet`, `RegClr` and `RegReplace` (O10, O11); what
they refuse (O12); and the acknowledgement of event bits (O15). -/

namespace Sys2Proof.Machine

/-! ### Event bits (45_register_primitives R404) -/

/-- Settles O15: an event register gets the mask itself from a set, and 0 from a clear. -/
theorem eventBitsAcknowledged : Obligations.EventBitsAcknowledged := by
  intro s m b
  have hio : s.ioIntr.set b (s.ioIntr[b] &&& ~~~0#32) = s.ioIntr := by
    rw [BitVec.not_zero, BitVec.and_allOnes]
    exact Vector.set_getElem_self ..
  have hpwm : s.pwmIntr &&& ~~~(0#32).extractLsb' 0 8 = s.pwmIntr := BitVec.and_allOnes
  exact ⟨rfl, congrArg (fun v => { s with ioIntr := v }) hio, rfl, congrArg (fun x => { s with pwmIntr := x }) hpwm, rfl, rfl⟩

/-! ### The micro-steps of the primitives (45_register_primitives R400 to R403, R406) -/

section
variable {s : State} {r : Reg} {w : Word}

theorem primStore_made (h : refusedWrite r w = false) (touched new : Word) :
    s.primStore r touched new w = (s.storeReg r touched new, .go []) := if_neg (by simp [h])

theorem primStore_refused (h : refusedWrite r w = true) (touched new : Word) :
    s.primStore r touched new w = (s, .raise .badParameter) := if_pos h

/-- A refused result makes no access, so this needs no register that may be accessed (R403 (b)). -/
theorem microStep_primWrite_refused (h : refusedWrite r w = true) (c : CoreId) :
    s.microStep c (.primWrite r w) = (s, .raise .badParameter) := by
  rw [State.microStep, h]
  exact primStore_refused h _ _

variable (hacc : s.inaccessible r = false)
include hacc

theorem microStep_primGet (c : CoreId) : s.microStep c (.primGet r) = (s, .yield (s.readReg r)) := if_neg (by simp [hacc])

theorem microStep_primSet (c : CoreId) (m : Word) :
    s.microStep c (.primSet r m) = s.primStore r m (s.setWord r m) (s.readReg r ||| m) := if_neg (by simp [hacc])

theorem microStep_primClr (c : CoreId) (m : Word) :
    s.microStep c (.primClr r m) = s.primStore r m (s.clrWord r m) (s.readReg r &&& ~~~m) := if_neg (by simp [hacc])

theorem microStep_primRead (c : CoreId) (m v : Word) :
    s.microStep c (.primRead r m v) = (s, .go [.primWrite r ((s.readReg r &&& ~~~m) ||| (v &&& m))]) := if_neg (by simp [hacc])

theorem microStep_primWrite (h : refusedWrite r w = false) (c : CoreId) :
    s.microStep c (.primWrite r w) = (s.writeReg r w, .go []) := by
  rw [State.microStep, h, hacc]
  exact primStore_made h _ _

end

/-! ### `RegSet`, `RegClr`, `RegReplace` (45_register_primitives R401 to R403) -/

/-- Settles O10: each is one micro-step, the atomic set or clear. -/
theorem regSetRegClrComplete : Obligations.RegSetRegClrComplete := by
  intro s a m r hr hreg hacc
  constructor
  · intro hok
    rw [exec_issue, opFor, opRegSet, withOperand_some hreg]
    exact issue_go hr _ ((microStep_primSet hacc s.sel m).trans (primStore_made hok _ _)) (storeReg_turns ..)
  · intro hok
    rw [exec_issue, opFor, opRegClr, withOperand_some hreg]
    exact issue_go hr _ ((microStep_primClr hacc s.sel m).trans (primStore_made hok _ _)) (storeReg_turns ..)

/-- Settles O11: a read, then the write of the whole word. -/
theorem regReplaceCompletes : Obligations.RegReplaceCompletes := by
  intro s a m v r hr hs ha hreg hacc hok
  rw [exec_issue, opFor, opRegReplace, withOperand_some hreg, State.writeReg, taken_storeReg]
  exact issue_two hr hs ha _ _ (microStep_primRead hacc s.sel m v) (microStep_primWrite hacc hok s.sel) (storeReg_turns ..)

/-! ### Refusals (45_register_primitives R403, R405, R406) -/

/-- A primitive on an address of no register is refused at its operand check. -/
theorem opFor_unmapped {s : State} {a : Word} (h : s.regOf a = none) (c : CoreId) (m v : Word) :
    ∀ i ∈ [Instr.regGet a, .regSet a m, .regClr a m, .regReplace a m v], opFor i s c = .error .badParameter := by
  simp [opFor, opRegGet, opRegSet, opRegClr, opRegReplace, h, withOperand]

/-- An operation of a read and an error that changes nothing. -/
theorem issue_two_raised {s : State} {m k : Micro} {e : Status} (hr : s.Ready) (hs : s.Settled) (ha : s.Alone 1)
    (h : s.microStep s.sel m = (s, .go [k])) (hk : s.microStep s.sel k = (s, .raise e)) :
    s.issue (.ok ⟨[m], 0, .plain⟩) = .next ((s.taken 1).answer e 0) := by
  have hraise := runs_raise (rest := []) (res := 0) (post := .plain) hk
  rw [edgeDetect_of_settled s hs] at hraise
  exact issue_runs hr ha (sruns_go hs h (List.cons_ne_nil _ _) hraise)

@[simp] theorem setFlight_inIrqCtx (s : State) (c d : CoreId) (irq : Bool) (f : Option Flight) :
    (s.setFlight c irq f).inIrqCtx d = s.inIrqCtx d :=
  setCore_keeps s c d _ (fun k => k.inIrq.isSome) (congrArg Option.isSome (withFlight_inIrq ..))

@[simp] theorem setFlight_flight (s : State) (c : CoreId) (irq : Bool) (f : Option Flight) :
    (s.setFlight c irq f).flight c irq = f := by
  simp [flight_eq, setFlight_eq]

/-- A response leaves nothing of the operation it ends. -/
theorem setFlight_respond (s : State) (c : CoreId) (irq : Bool) (f : Option Flight) (st : Status) (w : Word) :
    (s.setFlight c irq f).respond c irq st w = s.respond c irq st w := by
  simp [State.respond, setFlight_eq, setResp_eq]

/-- The turn in which the write of a `RegReplace` is refused, whatever the state of the ADC. -/
theorem atomic_primWrite_refused {s : State} {c : CoreId} {f : Flight} {r : Reg} {w : Word} (hfatal : s.fatal = false) (hs : s.Settled)
    (hcode : f.code = [.primWrite r w]) (hw : refusedWrite r w = true) :
    (s.setFlight c (s.inIrqCtx c) (some f)).atomic (.core c) = s.respond c (s.inIrqCtx c) .badParameter 0 := by
  have hturn : (s.setFlight c (s.inIrqCtx c) (some f)).coreTurn c = s.respond c (s.inIrqCtx c) .badParameter 0 := by
    simp only [State.coreTurn, setFlight_inIrqCtx, setFlight_flight, State.advance, hcode, microStep_primWrite_refused hw]
    exact setFlight_respond ..
  have hlive : ¬ (s.setFlight c (s.inIrqCtx c) (some f)).fatal = true := fun h => Bool.false_ne_true (hfatal.symm.trans h)
  rw [State.atomic, if_neg hlive, State.turnBody, hturn]
  exact edgeDetect_of_settled _ hs

/-- Settles O12. -/
theorem primitivesRefused : Obligations.PrimitivesRefused := by
  intro s a m v hr hs
  refine ⟨fun hreg => ?_, fun r hreg hacc => ⟨fun hw => ?_, fun hw => ?_, fun hw ha => ?_⟩, fun r w f hw hcode => ?_⟩
  · have hrefused : ∀ i ∈ [Instr.regGet a, .regSet a m, .regClr a m, .regReplace a m v],
        exec i s = .next (s.answer .badParameter 0) := by
      intro i hi
      rw [exec_issue, opFor_unmapped hreg s.sel m v i hi]
      exact issue_err hr hs .badParameter
    simpa using hrefused
  · rw [exec_issue, opFor, opRegSet, withOperand_some hreg]
    exact issue_raised hr hs ((microStep_primSet hacc s.sel m).trans (primStore_refused hw _ _))
  · rw [exec_issue, opFor, opRegClr, withOperand_some hreg]
    exact issue_raised hr hs ((microStep_primClr hacc s.sel m).trans (primStore_refused hw _ _))
  · rw [exec_issue, opFor, opRegReplace, withOperand_some hreg]
    exact issue_two_raised hr hs ha (microStep_primRead hacc s.sel m v) (microStep_primWrite_refused hw s.sel)
  · obtain ⟨hfatal, -, -⟩ := hr
    exact atomic_primWrite_refused hfatal hs hcode hw

/-! ### The fields of a word (20_memory R100) -/

/-- A register of `n` bits is read with zeros above them. -/
theorem setWidth_eq_zero_append {n : Nat} (v : BitVec n) (k : Nat) : v.setWidth (k + n) = 0#k ++ v := by
  apply BitVec.eq_of_getLsbD_eq
  intro i hi
  rw [BitVec.getLsbD_append, BitVec.getLsbD_setWidth, BitVec.getLsbD_zero, decide_eq_true hi, Bool.true_and]
  split
  · rfl
  · exact BitVec.getLsbD_of_ge _ _ (by omega)

theorem extract_setWidth_above {n i : Nat} (v : BitVec n) (w k : Nat) (h : n ≤ i) : (v.setWidth w).extractLsb' i k = 0 := by
  apply BitVec.eq_of_getLsbD_eq
  intro j hj
  simp [BitVec.getLsbD_of_ge v (i + j) (by omega)]

theorem ofBool_getLsbD {w : Nat} (x : BitVec w) (i : Nat) : BitVec.ofBool (x.getLsbD i) = x.extractLsb' i 1 := by
  apply BitVec.eq_of_getLsbD_eq
  intro j hj
  obtain rfl : j = 0 := by omega
  simp

/-- A field outside the bits of `m` is 0. -/
theorem extract_eq_zero {w i k : Nat} {x m : BitVec w} (h : x &&& ~~~m = 0) (hm : m.extractLsb' i k = 0) : x.extractLsb' i k = 0 := by
  apply BitVec.eq_of_getLsbD_eq
  intro j hj
  have hmj : m.getLsbD (i + j) = false := by simpa [hj] using congrArg (BitVec.getLsbD · j) hm
  have hxj : x.getLsbD (i + j) = false := by
    rw [← Bool.not_eq_true]
    intro hx
    exact Bool.false_ne_true (hmj.symm.trans ((and_not_eq_zero_iff x m).1 h _ hx))
  simp [hj, hxj]

/-- Two fields side by side are one. -/
theorem extract_append {w : Nat} (x : BitVec w) (i m n : Nat) :
    x.extractLsb' (i + n) m ++ x.extractLsb' i n = x.extractLsb' i (m + n) := BitVec.extractLsb'_append_extractLsb'_eq_extractLsb' rfl

/-- A word laid out as `PWM_CSR` is (10_state R33). -/
theorem csr_layout (w : Word) :
    w.extractLsb' 8 24 ++ w.extractLsb' 7 1 ++ w.extractLsb' 6 1 ++ w.extractLsb' 4 2 ++ w.extractLsb' 3 1 ++
      w.extractLsb' 2 1 ++ w.extractLsb' 1 1 ++ w.extractLsb' 0 1 = w := by
  rw [extract_append w 7 24 1, extract_append w 6 25 1, extract_append w 4 26 2, extract_append w 3 28 1, extract_append w 2 29 1,
    extract_append w 1 30 1]
  exact BitVec.extractLsb'_append_extractLsb'

/-- A word laid out as `ADC_CS` is (10_state R48). -/
theorem cs_layout (w : Word) :
    w.extractLsb' 15 17 ++ w.extractLsb' 12 3 ++ w.extractLsb' 11 1 ++ w.extractLsb' 9 2 ++ w.extractLsb' 8 1 ++
      w.extractLsb' 2 6 ++ w.extractLsb' 1 1 ++ w.extractLsb' 0 1 = w := by
  rw [extract_append w 12 17 3, extract_append w 11 20 1, extract_append w 9 21 2, extract_append w 8 23 1, extract_append w 2 24 6,
    extract_append w 1 30 1]
  exact BitVec.extractLsb'_append_extractLsb'

/-! ### The bits of each register (10_state R27, R33, R34, R48) -/

theorem readReg_pwmCsr (s : State) (i : SliceId) :
    s.readReg (.pwmCsr i)
      = 0#24 ++ BitVec.ofBool s.slices[i].phAdv ++ BitVec.ofBool s.slices[i].phRet ++ s.slices[i].divmode ++
          BitVec.ofBool s.slices[i].bInv ++ BitVec.ofBool s.slices[i].aInv ++ BitVec.ofBool s.slices[i].phCorrect ++
          BitVec.ofBool s.slices[i].en := by
  have hfield : ∀ j k : Nat, j + k ≤ 32 → s.slices[i].csr.extractLsb' j k = (s.readReg (.pwmCsr i)).extractLsb' j k :=
    fun j k h => (BitVec.extractLsb'_setWidth_of_le h).symm
  have hhigh : (s.readReg (.pwmCsr i)).extractLsb' 8 24 = 0#24 := extract_setWidth_above _ 32 24 (Nat.le_refl 8)
  simp only [Slice.phAdv, Slice.phRet, Slice.divmode, Slice.bInv, Slice.aInv, Slice.phCorrect, Slice.en, ofBool_getLsbD]
  rw [hfield 7 1 (by omega), hfield 6 1 (by omega), hfield 4 2 (by omega), hfield 3 1 (by omega), hfield 2 1 (by omega),
    hfield 1 1 (by omega), hfield 0 1 (by omega), ← hhigh]
  exact (csr_layout _).symm

theorem readReg_pwmDiv (s : State) (i : SliceId) :
    s.readReg (.pwmDiv i) = 0#20 ++ s.slices[i].divInt ++ s.slices[i].divFrac := by
  have hword : s.readReg (.pwmDiv i) = s.slices[i].div.setWidth 32 := rfl
  have hjoin : s.slices[i].divInt ++ s.slices[i].divFrac = s.slices[i].div := BitVec.extractLsb'_append_extractLsb'
  rw [hword, setWidth_eq_zero_append _ 20, ← hjoin, BitVec.append_assoc]
  rfl

theorem readReg_adcCs {s : State} (h : s.adc.Inv) :
    s.readReg .adcCs
      = 0#17 ++ s.adc.ainsel ++ 0#1 ++ s.adc.cs.extractLsb' 9 2 ++ BitVec.ofBool s.adc.ready ++ 0#6 ++ s.adc.cs.extractLsb' 1 1 ++
          BitVec.ofBool s.adc.en := by
  obtain ⟨-, -, -, -, -, hcs⟩ := h
  have h15 : s.adc.cs.extractLsb' 15 17 = 0#17 := extract_eq_zero hcs (by decide)
  have h11 : s.adc.cs.extractLsb' 11 1 = 0#1 := extract_eq_zero hcs (by decide)
  have h2 : s.adc.cs.extractLsb' 2 6 = 0#6 := extract_eq_zero hcs (by decide)
  rw [AdcBlock.ready, AdcBlock.en, ofBool_getLsbD, ofBool_getLsbD, ← h15, ← h11, ← h2]
  exact (cs_layout _).symm

theorem readReg_sioIn_getLsbD (s : State) (p : Pin) : (s.readReg .sioIn).getLsbD p.val = s.pinIn p := by
  have hword : (s.readReg .sioIn).getLsbD p.val = (decide (p.val < 32) && s.pinInAll.getLsbD p.val) := BitVec.getLsbD_setWidth ..
  rw [hword, pinInAll_getLsbD, decide_eq_true (by omega), Bool.true_and]

/-! ### `IO_INTR` (10_state R54 to R57) -/

/-- A pin's four bits, one by one. -/
theorem nibble_layout (w : Word) (i : Nat) :
    w.extractLsb' (4 * i) 4 = BitVec.ofBool (w.getLsbD (4 * i + 3)) ++ BitVec.ofBool (w.getLsbD (4 * i + 2)) ++
      BitVec.ofBool (w.getLsbD (4 * i + 1)) ++ BitVec.ofBool (w.getLsbD (4 * i)) := by
  simp only [ofBool_getLsbD]
  rw [extract_append w (4 * i + 2) 1 1, extract_append w (4 * i + 1) 2 1]
  exact (extract_append w (4 * i) 3 1).symm

section
variable {s : State} {b : BankReg} {i : Fin 8} {k : Nat}

/-- Of a pin's four bits the levels are bit 1, high, and bit 0, low (10_state R57). -/
theorem levels_getLsbD (hk : k < 4) :
    (s.levels b).getLsbD (4 * i.val + k)
      = (k == 1 && pinBit s.pinInAll b i.val || k == 0 && (pinExists b i.val && !pinBit s.pinInAll b i.val)) := by
  have hlt : 4 * i.val + k < 32 := by omega
  have hmod : (4 * i.val + k) % 4 = k := by omega
  have hdiv : (4 * i.val + k) / 4 = i.val := by omega
  simp only [State.levels, BitVec.getLsbD_or, spread_getLsbD, hlt, hmod, hdiv, decide_true, Bool.true_and]

/-- Only edges of pins that exist are latched. -/
theorem ioIntr_getLsbD_eq_false (h : s.BankInv) (hk : k < 4) (hno : k < 2 ∨ ¬ 8 * b.val + i.val < 30) :
    s.ioIntr[b].getLsbD (4 * i.val + k) = false := by
  obtain ⟨hraw, -⟩ := h b
  have hmask := edgeMask_getLsbD b ⟨4 * i.val + k, by omega⟩
  rw [← Bool.not_eq_true]
  intro hbit
  have hedge := (and_not_eq_zero_iff _ _).1 hraw _ hbit
  simp only [hmask, Bool.and_eq_true, Bool.or_eq_true, decide_eq_true_eq, beq_iff_eq] at hedge
  omega

/-- Bits 3 and 2 are the latched edges. -/
theorem intr_getLsbD_edge (hk : k < 4) (hedge : 2 ≤ k) : (s.intr b).getLsbD (4 * i.val + k) = s.ioIntr[b].getLsbD (4 * i.val + k) := by
  rw [State.intr, BitVec.getLsbD_or, levels_getLsbD hk, beq_false_of_ne (by omega), beq_false_of_ne (by omega)]
  exact Bool.or_false _

/-- Bits 1 and 0 are the levels. -/
theorem intr_getLsbD_level (h : s.BankInv) (hk : k < 2) : (s.intr b).getLsbD (4 * i.val + k) = (s.levels b).getLsbD (4 * i.val + k) := by
  have hraw : s.ioIntr[b].getLsbD (4 * i.val + k) = false := ioIntr_getLsbD_eq_false h (by omega) (.inl hk)
  rw [State.intr, BitVec.getLsbD_or, hraw, Bool.false_or]

theorem intr_nibble (h : s.BankInv) :
    (s.intr b).extractLsb' (4 * i.val) 4 =
      if hp : 8 * b.val + i.val < 30 then
        let p : Pin := ⟨8 * b.val + i.val, hp⟩
        BitVec.ofBool (s.ioIntr[b].getLsbD (4 * i.val + 3)) ++ BitVec.ofBool (s.ioIntr[b].getLsbD (4 * i.val + 2)) ++
          BitVec.ofBool (s.pinIn p) ++ BitVec.ofBool (!s.pinIn p)
      else 0 := by
  have hhigh : (s.intr b).getLsbD (4 * i.val + 1) = pinBit s.pinInAll b i.val := by
    rw [intr_getLsbD_level h (by omega), levels_getLsbD (by omega)]
    exact Bool.or_false _
  have hlow : (s.intr b).getLsbD (4 * i.val) = (pinExists b i.val && !pinBit s.pinInAll b i.val) :=
    (intr_getLsbD_level (k := 0) h (by omega)).trans (levels_getLsbD (by omega))
  rw [nibble_layout, intr_getLsbD_edge (by omega) (by omega), intr_getLsbD_edge (by omega) (by omega), hhigh, hlow]
  split
  · rename_i hp
    have hlevel : pinBit s.pinInAll b i.val = s.pinIn ⟨8 * b.val + i.val, hp⟩ := pinInAll_getLsbD s ⟨8 * b.val + i.val, hp⟩
    rw [hlevel, pinExists, decide_eq_true hp, Bool.true_and]
  · rename_i hp
    rw [ioIntr_getLsbD_eq_false h (by omega) (.inr hp), ioIntr_getLsbD_eq_false h (by omega) (.inr hp), pinBit_of_not_exists _ hp,
      pinExists, decide_eq_false hp]
    rfl

end

/-! ### `RegGet` (45_register_primitives R400) -/

/-- Settles O9: one read; then each register's word is its fields. -/
theorem regGetCompletes : Obligations.RegGetCompletes := by
  intro s
  refine ⟨fun a r hr hs hreg hacc => ?_, fun hb b i => ⟨rfl, intr_nibble hb⟩, fun c b => ⟨rfl, rfl, rfl⟩, fun p => ⟨?_, ?_, ?_⟩,
    ?_, ?_, ?_, fun i => ⟨?_, ?_, ?_, ?_, ?_, ?_⟩, ?_, ?_, ?_, ?_, ?_, ?_, ?_, ?_, ?_⟩
  · rw [exec_issue, opFor, opRegGet, withOperand_some hreg]
    exact issue_read hr hs _ _ (microStep_primGet hacc s.sel)
  · exact setWidth_eq_zero_append _ 27
  · exact setWidth_eq_zero_append _ 24
  · exact readReg_sioIn_getLsbD s p
  · exact extract_setWidth_above _ 32 2 (Nat.le_refl 30)
  · exact setWidth_eq_zero_append _ 2
  · exact setWidth_eq_zero_append _ 2
  · exact readReg_pwmCsr s i
  · exact readReg_pwmDiv s i
  · exact setWidth_eq_zero_append _ 16
  · exact (BitVec.extractLsb'_append_extractLsb' (w := 16) (len := 16)).symm
  · exact setWidth_eq_zero_append _ 16
  · exact readReg_pwmEn_getLsbD s i
  · exact extract_setWidth_above _ 32 24 (Nat.le_refl 8)
  · exact setWidth_eq_zero_append _ 24
  · exact setWidth_eq_zero_append _ 24
  · exact setWidth_eq_zero_append _ 24
  · exact setWidth_eq_zero_append _ 24
  · exact readReg_adcCs
  · exact setWidth_eq_zero_append _ 20
  · exact setWidth_eq_zero_append _ 31
  · exact setWidth_eq_zero_append _ 31

end Sys2Proof.Machine

/-! Interrupt entry and return, and the fatal state (O46, O6). -/

namespace Sys2Proof.Machine

/-! ### The fatal state (60_exceptions R336) -/

theorem atomic_of_fatal {s : State} (h : s.fatal = true) (t : Turn) : s.atomic t = s := if_pos h

theorem issue_of_fatal {s : State} (h : s.fatal = true) (op : Op) : s.issue op = .fault .systemFatal := if_pos h

theorem step_of_fatal {s : State} (h : s.fatal = true) : step s = .fault .systemFatal := if_pos h

/-- Settles O6: every operation is issued, and issuing, the step and the atomic step each look at the flag first. -/
theorem fatalStops : Obligations.FatalStops := by
  intro s h
  refine ⟨step_of_fatal h, fun i => ?_, atomic_of_fatal h⟩
  rw [exec_issue]
  exact issue_of_fatal h _

/-! ### Interrupt entry (60_exceptions R326) -/

section
variable {s : State} {c : CoreId}

theorem entryEnabled_iff :
    s.entryEnabled c = true ↔
      s.fatal = false ∧ s.cores[c].inIrq = none ∧ (s.pwmPending c = true ∨ s.gpioPending c = true) := by
  simp [State.entryEnabled, and_assoc]

theorem enterIrq_of_enabled (h : s.entryEnabled c = true) :
    s.enterIrq c = s.setCore c { s.cores[c] with
      inIrq := some (if s.pwmPending c then .pwmWrap else .gpioBank),
      disp := dispatchCode (if s.pwmPending c then .pwmWrap else .gpioBank) } := if_pos h

theorem enterIrq_of_not_enabled (h : ¬ s.entryEnabled c = true) : s.enterIrq c = s := if_neg h

theorem enterIrq_of_pwmPending (hfatal : s.fatal = false) (hmain : s.cores[c].inIrq = none) (hpwm : s.pwmPending c = true) :
    s.enterIrq c = s.setCore c { s.cores[c] with inIrq := some .pwmWrap, disp := dispatchCode .pwmWrap } := by
  have henabled : s.entryEnabled c = true := entryEnabled_iff.2 ⟨hfatal, hmain, .inl hpwm⟩
  rw [enterIrq_of_enabled henabled, if_pos hpwm]

theorem enterIrq_of_gpioPending (hfatal : s.fatal = false) (hmain : s.cores[c].inIrq = none) (hpwm : s.pwmPending c = false)
    (hgpio : s.gpioPending c = true) :
    s.enterIrq c = s.setCore c { s.cores[c] with inIrq := some .gpioBank, disp := dispatchCode .gpioBank } := by
  have henabled : s.entryEnabled c = true := entryEnabled_iff.2 ⟨hfatal, hmain, .inr hgpio⟩
  rw [enterIrq_of_enabled henabled, if_neg (Bool.eq_false_iff.1 hpwm)]

/-- In the fatal state, while an interrupt is served (60_exceptions R331), and where none is pending, entry is not enabled. -/
theorem not_entryEnabled
    (h : s.fatal = true ∨ s.cores[c].inIrq ≠ none ∨ (s.pwmPending c = false ∧ s.gpioPending c = false)) :
    ¬ s.entryEnabled c = true := by
  intro henabled
  obtain ⟨hlive, hmain, hpending⟩ := entryEnabled_iff.1 henabled
  obtain hfatal | hserving | ⟨hpwm, hgpio⟩ := h
  · exact Bool.eq_false_iff.1 hlive hfatal
  · exact hserving hmain
  · obtain hpwm' | hgpio' := hpending
    · exact Bool.eq_false_iff.1 hpwm hpwm'
    · exact Bool.eq_false_iff.1 hgpio hgpio'

end

/-! ### Entry and return (60_exceptions R326, R330) -/

/-- Settles O46: the two entries, no entry elsewhere, and the return as the dispatch's last micro-step. -/
theorem interruptEntryAndReturn : Obligations.InterruptEntryAndReturn := by
  intro s c
  refine ⟨enterIrq_of_pwmPending, enterIrq_of_gpioPending, fun h => enterIrq_of_not_enabled (not_entryEnabled h), ?_⟩
  intro rest hfatal hserving hidle hclosed hdisp
  exact atomic_dispatching (dispatching_of_serving hfatal hserving hidle hclosed hdisp)

end Sys2Proof.Machine

/-! The reset state (O60): its parts, its invariants, and the address map of legal parameters. -/

namespace Sys2Proof.Machine

/-! ### The parts of the reset state (10_state R70) -/

section
variable (P : Params) (E : Inputs) (rst : Bool) (prev : BitVec 30)

@[simp] theorem resetWith_pad (p : Pin) : (State.resetWith P E rst prev).pad[p] = P.padReset := by
  simp [State.resetWith]

@[simp] theorem resetWith_pinFn (p : Pin) : (State.resetWith P E rst prev).pinFn[p] = .off := by
  simp [State.resetWith]

@[simp] theorem resetWith_pinPull (p : Pin) : (State.resetWith P E rst prev).pinPull[p] = .none := by
  simp [State.resetWith]

@[simp] theorem resetWith_slices (i : SliceId) : (State.resetWith P E rst prev).slices[i] = Slice.reset := by
  simp [State.resetWith]

@[simp] theorem resetWith_ioIntr (b : BankReg) : (State.resetWith P E rst prev).ioIntr[b] = 0 := by
  simp [State.resetWith]

@[simp] theorem resetWith_cores (c : CoreId) : (State.resetWith P E rst prev).cores[c] = CoreSt.reset := by
  simp [State.resetWith]

@[simp] theorem coreReset_inte (b : BankReg) : CoreSt.reset.inte[b] = 0 := by simp [CoreSt.reset]

@[simp] theorem coreReset_intf (b : BankReg) : CoreSt.reset.intf[b] = 0 := by simp [CoreSt.reset]

/-- Both cores start on their main line. -/
@[simp] theorem resetWith_inIrqCtx (c : CoreId) : (State.resetWith P E rst prev).inIrqCtx c = false := by
  rw [State.inIrqCtx, resetWith_cores]
  rfl

/-- No agent has an operation in flight. -/
@[simp] theorem resetWith_flight (c : CoreId) (irq : Bool) : (State.resetWith P E rst prev).flight c irq = none := by
  simp only [State.flight, resetWith_cores]
  cases irq <;> rfl

/-! ### The invariants at reset (70_reset R350 to R352) -/

theorem pullInv_resetWith : (State.resetWith P E rst prev).PullInv := fun p => by
  rw [resetWith_pinPull, resetWith_pinFn]
  rfl

theorem bankInv_resetWith : (State.resetWith P E rst prev).BankInv := fun b =>
  ⟨by rw [resetWith_ioIntr]; exact BitVec.zero_and,
    fun c => by rw [resetWith_cores, coreReset_inte, coreReset_intf]; exact ⟨BitVec.zero_and, BitVec.zero_and⟩⟩

/-- Either draw of `RST.ADC` (10_state R47) gives a block that is disabled, with no timer running. -/
theorem adcInv_reset : (AdcBlock.reset rst).Inv := by
  cases rst <;> decide

theorem irqInv_resetWith : (State.resetWith P E rst prev).IrqInv := fun c => by
  rw [resetWith_cores]
  exact ⟨Nat.zero_le 1, fun _ => ⟨rfl, rfl⟩⟩

/-- A slice starts with the divider 1.0 and an empty accumulator (10_state R32, R34). -/
theorem divOk_reset : Slice.reset.DivOk := by decide

theorem divInv_resetWith : (State.resetWith P E rst prev).DivInv := by
  refine ⟨fun i => ?_, fun c irq f hf => ?_⟩
  · rw [resetWith_slices]
    exact divOk_reset
  · rw [resetWith_flight] at hf
    cases hf

theorem ready_resetWith : (State.resetWith P E rst prev).Ready :=
  ⟨rfl, resetWith_flight .., fun hctx => by rw [State.ctx, resetWith_inIrqCtx] at hctx; cases hctx⟩

/-- Both lines of both cores are gated off. -/
theorem entryEnabled_resetWith (c : CoreId) : (State.resetWith P E rst prev).entryEnabled c = false := by
  refine Bool.eq_false_iff.2 (not_entryEnabled (.inr (.inr ⟨?_, ?_⟩)))
  · rw [State.pwmPending, resetWith_cores]
    exact Bool.and_false _
  · rw [State.gpioPending, resetWith_cores]
    exact Bool.and_false _

end

/-! ### Legal parameters (00_scope R15) -/

theorem mem_allRegs (r : Reg) : r ∈ allRegs := by
  cases r with
  | ioInte c b | ioIntf c b | ioInts c b => fin_cases c <;> simp [allRegs]
  | _ => simp [allRegs]

/-- The domain of `ADDR_MAP` (20_memory R97): every register has an address, aligned, and no two addresses and no two registers
of the table are the same. -/
structure AddrMapOk (m : List (Word × Reg)) : Prop where
  aligned : ∀ e ∈ m, e.1.toNat % 4 = 0
  addrs   : (m.map Prod.fst).Nodup
  regs    : (m.map Prod.snd).Nodup
  covers  : ∀ r, ∃ a, (a, r) ∈ m

/-- The domain of `PAD_RESET` (10_state R29, R30): not both pulls, and the output is not disabled. -/
def PadOk (v : Byte) : Prop := (padPue v && padPde v) = false ∧ v.getLsbD 7 = false

theorem domains_of_paramsOk {P : Params} (h : paramsOk P = true) : PadOk P.padReset ∧ AddrMapOk P.addrMap := by
  simp only [paramsOk, Bool.and_eq_true, Bool.not_eq_true', decide_eq_true_eq, List.all_eq_true, beq_iff_eq,
    List.contains_iff_mem, List.mem_map, Prod.exists, exists_eq_right] at h
  obtain ⟨⟨⟨⟨⟨⟨_, hpulls⟩, hoe⟩, haligned⟩, haddrs⟩, hregs⟩, hcovers⟩ := h
  exact ⟨⟨hpulls, hoe⟩, haligned, haddrs, hregs, fun r => hcovers r (mem_allRegs r)⟩

/-- In a table that gives each address once, looking an address up finds exactly its entry. -/
theorem lookup_eq_some_iff_mem {m : List (Word × Reg)} (h : (m.map Prod.fst).Nodup) (a : Word) (r : Reg) :
    m.lookup a = some r ↔ (a, r) ∈ m := by
  induction m with
  | nil => simp
  | cons e m ih =>
    obtain ⟨b, q⟩ := e
    rw [List.map_cons, List.nodup_cons] at h
    obtain ⟨hfresh, hm⟩ := h
    rw [List.lookup_cons, List.mem_cons, Prod.mk.injEq]
    by_cases hab : a = b
    · subst hab
      have habsent : (a, r) ∉ m := fun hmem => hfresh (List.mem_map.2 ⟨_, hmem, rfl⟩)
      simp [habsent, eq_comm]
    · rw [beq_false_of_ne hab]
      simp [hab, ih hm]

theorem regOf_eq_some_iff {s : State} (h : AddrMapOk s.params.addrMap) (a : Word) (r : Reg) :
    s.regOf a = some r ↔ (a, r) ∈ s.params.addrMap := by
  rw [State.regOf, ← lookup_eq_some_iff_mem h.addrs]
  split
  · rfl
  · next hmisaligned =>
    rw [lookup_eq_some_iff_mem h.addrs]
    exact iff_of_false nofun fun hmem => hmisaligned (h.aligned _ hmem)

/-- Every register has one aligned address, and only that address names it. -/
theorem exists_address {s : State} (h : AddrMapOk s.params.addrMap) (r : Reg) :
    ∃ a : Word, a.toNat % 4 = 0 ∧ ∀ b, s.regOf b = some r ↔ b = a := by
  obtain ⟨a, ha⟩ := h.covers r
  refine ⟨a, h.aligned _ ha, fun b => ?_⟩
  rw [regOf_eq_some_iff h]
  constructor
  · intro hb
    exact congrArg Prod.fst (List.inj_on_of_nodup_map h.regs hb ha rfl)
  · rintro rfl
    exact ha

/-- Settles O60: each invariant from the parts of the reset state, the pads and the addresses from the domains. -/
theorem resetInvariants : Obligations.ResetInvariants := by
  intro P E rst prev s
  refine ⟨pullInv_resetWith P E rst prev, bankInv_resetWith P E rst prev, adcInv_reset rst, irqInv_resetWith P E rst prev,
    divInv_resetWith P E rst prev, ready_resetWith P E rst prev, id, entryEnabled_resetWith P E rst prev, fun hP => ?_⟩
  obtain ⟨hpad, haddr⟩ := domains_of_paramsOk hP
  refine ⟨fun p => ?_, exists_address haddr⟩
  rw [show s.pad[p] = P.padReset from resetWith_pad ..]
  exact hpad

end Sys2Proof.Machine
